-- ==== Sys2Proof/Word.lean ====
section
/-! DEFINITION. The byte, and the big-endian byte strings of the frames (section 12: multi-byte fields are sent most
significant byte first). -/

namespace Sys2Proof

/-- One byte of a frame, a buffer or the array. -/
abbrev Byte := BitVec 8

/-- A CRC-16 value (Table 12.2). -/
abbrev Crc := BitVec 16

/-- The byte of a number below 256. -/
def byteOf (n : Nat) : Byte := BitVec.ofNat 8 n

/-- A two-byte field, most significant byte first. -/
def be2 (n : Nat) : List Byte := [byteOf (n / 256), byteOf n]

/-- A three-byte field, most significant byte first. -/
def be3 (n : Nat) : List Byte := [byteOf (n / 65536), byteOf (n / 256), byteOf n]

/-- The number a most-significant-first byte string spells. -/
def fromBE (bs : List Byte) : Nat := bs.foldl (fun n b => n * 256 + b.toNat) 0

end Sys2Proof
end

