-- ==== Sys2Proof/Syntax.lean ====
section
/-! DEFINITION. The commands of the block, one constructor for each row of spec/opcode_table.json, and the names their
operands use (ports, guard inputs, window slots, staging buffers). -/

namespace Sys2Proof

/-- The four client ports (section 1.6). -/
inductive Port where
  | p0
  | p1
  | p2
  | p3
  deriving DecidableEq, Repr, Inhabited

/-- A port's number, its code in frames (Table 12.3). -/
def Port.idx : Port → Nat
  | .p0 => 0
  | .p1 => 1
  | .p2 => 2
  | .p3 => 3

/-- The four ports in ascending order. -/
def Port.all : List Port := [.p0, .p1, .p2, .p3]

/-- The two guard inputs. -/
inductive GuardInput where
  | g0
  | g1
  deriving DecidableEq, Repr, Inhabited

/-- A window slot W0 to W15. -/
abbrev Slot := Fin 16

/-- A staging buffer B0 to B3. -/
abbrev BufferNo := Fin 4

/-- The commands: one constructor for each row of spec/opcode_table.json.

A row of a REQUEST (STATUS, READ, PROGRAM, ...) is the step in which the request that port `p` has taken is judged and
carried out. Its fields (address, length, slot, buffer, ...) stand in the body of the port's request in progress, which is
state of the port link (Table 2.1), so the one operand is the port. The other rows are events of pins, of timers and of
the array; their operands say which pin, timer or hold. -/
inductive Instr where
  /-- DEVICE_RESET, R175: power-on or assertion of RESETN. -/
  | deviceReset
  /-- RESET_RELEASE, R175: release of RESETN with the levels of ADMSEL1..0 and RATESEL1..0. -/
  | resetRelease (admsel ratesel : BitVec 2)
  /-- RECOVER, R177. -/
  | recover
  /-- LOAD, R179. -/
  | load
  /-- READY, R182. -/
  | ready
  /-- FRAME_CHECK, R4: the check of the frame that stands complete in the framer of port `p`. -/
  | frameCheck (p : Port)
  /-- LENGTH_ABANDON, R2: the frame of port `p` whose LEN lies outside its range is abandoned. -/
  | lengthAbandon (p : Port)
  /-- GAP_TIMER_EXPIRY, R3. -/
  | gapTimerExpiry (p : Port)
  /-- RESPONSE_SENT, R7: the transmitter of port `p` finishes a frame. -/
  | responseSent (p : Port)
  /-- UNKNOWN_TYPE, R8. -/
  | unknownType (p : Port)
  /-- STATUS, R14. -/
  | status (p : Port)
  /-- FETCH_NOTICES, R13. -/
  | fetchNotices (p : Port)
  /-- PORT_CLEAR, R16: the good PORT-CLEAR frame of port `p`. -/
  | portClear (p : Port)
  /-- CLR_FALLING_EDGE, R15. -/
  | clrFallingEdge (p : Port)
  /-- READ, R141. -/
  | read (p : Port)
  /-- CLAIM_BUFFER, R102. -/
  | claimBuffer (p : Port)
  /-- FILL, R103. -/
  | fill (p : Port)
  /-- RELEASE_BUFFER, R104. -/
  | releaseBuffer (p : Port)
  /-- PROGRAM, R117. -/
  | program (p : Port)
  /-- ERASE_SECTOR, R117. -/
  | eraseSector (p : Port)
  /-- ERASE_WINDOW, R117. -/
  | eraseWindow (p : Port)
  /-- CANCEL, R134. -/
  | cancel (p : Port)
  /-- JOB_QUERY, R136. -/
  | jobQuery (p : Port)
  /-- OPEN_LATCH, R65. -/
  | openLatch (p : Port)
  /-- SHUT_LATCH, R66. -/
  | shutLatch (p : Port)
  /-- SHUT_ALL, R67. -/
  | shutAll (p : Port)
  /-- VERDICT, R90. -/
  | verdict (p : Port)
  /-- HOLD_LIMIT_EXPIRY, R93: the timer of the hold with this id runs out. -/
  | holdLimitExpiry (id : Byte)
  /-- DESCRIBE_WINDOW, R53. -/
  | describeWindow (p : Port)
  /-- LIST_TORN, R172. -/
  | listTorn (p : Port)
  /-- LIST_FUSES, R165. -/
  | listFuses (p : Port)
  /-- DEFINE_WINDOW, R45. -/
  | defineWindow (p : Port)
  /-- MODIFY_WINDOW, R47. -/
  | modifyWindow (p : Port)
  /-- UNDEFINE_WINDOW, R49. -/
  | undefineWindow (p : Port)
  /-- SAVE_TABLE, R59. -/
  | saveTable (p : Port)
  /-- LOCK_TABLE, R40. -/
  | lockTable (p : Port)
  /-- FREEZE_WINDOW, R160. -/
  | freezeWindow (p : Port)
  /-- SET_GUARD, R78. -/
  | setGuard (p : Port)
  /-- SET_TIMING, R51. -/
  | setTiming (p : Port)
  /-- GUARD_LEVEL_CHANGE, R74: the pin of input `g` goes to the level `high`. -/
  | guardLevelChange (g : GuardInput) (high : Bool)
  /-- SETTLE_TIMER_EXPIRY, R74. -/
  | settleTimerExpiry (g : GuardInput)
  /-- IDLE_TIMER_EXPIRY, R71. -/
  | idleTimerExpiry (w : Slot)
  /-- LEASE_EXPIRY, R106. -/
  | leaseExpiry (b : BufferNo)
  /-- RESUME_GAP_EXPIRY, R149. -/
  | resumeGapExpiry
  /-- SUSPENSION_TAKEN, R151. -/
  | suspensionTaken
  /-- READ_SERVICE_COMPLETION, R148. -/
  | readServiceCompletion
  /-- PROGRAM_STEP_COMPLETION, R127. -/
  | programStepCompletion
  /-- SECTOR_ERASE_COMPLETION, R128. -/
  | sectorEraseCompletion
  /-- TABLE_SAVE_COMPLETION, R131. -/
  | tableSaveCompletion
  /-- FUSE_WRITE_COMPLETION, R162. -/
  | fuseWriteCompletion
  /-- BYTE_RECEIVED, R2: the byte `b` arrives on RXD of port `p`. -/
  | byteReceived (p : Port) (b : Byte)
  deriving DecidableEq, Repr

end Sys2Proof
end

