-- ==== Sys2Proof/WellFormed.lean ====
section
/-! DEFINITION. Well-formed commands. The operand types carry the ranges of ports, slots, buffers and pins; the one check
left is that a hold id is 1 to 255 (section 1.6, Identifiers: the value 0 is not assigned to a job or hold). -/

namespace Sys2Proof

/-- Whether a command's operands lie in the ranges the spec gives them. -/
def Instr.wf : Instr → Bool
  | .holdLimitExpiry id => id != 0
  | _ => true

end Sys2Proof
end

