-- ==== Sys2Proof/Config.lean ====
section
/-! DEFINITION. The fixed numbers of the part, the model's unit of time, the settings that the window table saves, and the
free values: opaque constants, of which nothing in Lean can evaluate a value. A free value is applied to the counter
`State.freeCount`, which moves on at each use, and where it covers many bytes also to the byte's address. -/

namespace Sys2Proof

/-! ### Time

DESIGN CHOICE (log 3): time is counted in units of 1/2,880,000 s, the largest unit in which every time of the manual
(20 byte-times at each link rate, 1.5 ms, 10 ms, 20 ms, 1 s) is a whole number. -/

/-- Time units in one second. -/
def Config.second : Nat := 2880000
/-- Time units in 10 ms, the unit of the hold limit (Table 1.5). -/
def Config.tenMs : Nat := 28800
/-- The settle time of a guard input, 20 ms (R74). -/
def Config.settleTime : Nat := 57600
/-- The resume gap, 1.5 ms (R149). -/
def Config.resumeGap : Nat := 4320

/-- The link rates the RATESEL straps select (Table 1.7). -/
inductive LinkRate where
  | baud115200
  | baud460800
  | baud921600
  | baud2000000
  deriving DecidableEq, Repr, Inhabited

/-- 20 byte-times (R3) of 10 bit-times each (section 1.8: one start bit, eight data bits, one stop bit). -/
def LinkRate.gapTime : LinkRate → Nat
  | .baud115200 => 5000
  | .baud460800 => 1250
  | .baud921600 => 625
  | .baud2000000 => 288

/-- The parts of a time unit that the transmitter counts. One byte-time is then `LinkRate.gapTime` of these parts, a whole
number at each link rate, since `gapTime` units are 20 byte-times. -/
def Config.txParts : Nat := 20

/-- Table 1.7. -/
def LinkRate.ofStraps (ratesel : BitVec 2) : LinkRate :=
  if ratesel = 0 then .baud115200 else if ratesel = 1 then .baud460800
  else if ratesel = 2 then .baud921600 else .baud2000000

/-- Table 1.6. -/
def Port.ofStraps (admsel : BitVec 2) : Port :=
  if admsel = 0 then .p0 else if admsel = 1 then .p1 else if admsel = 2 then .p2 else .p3

/-! ### Fixed numbers (Table 1.5) -/

def Config.inboundMax : Nat := 4
def Config.noticeMax : Nat := 16
def Config.linkErrorMax : Nat := 4
def Config.jobMax : Nat := 16
def Config.tornMax : Nat := 8
def Config.fuseMax : Nat := 8
def Config.buffersPerPort : Nat := 2
def Config.readsPerSuspension : Nat := 4
def Config.pageSize : Nat := 256
def Config.sectorSize : Nat := 4096
def Config.arraySize : Nat := 8388608
def Config.sectorCount : Nat := 2048
def Config.suspensionCountMax : Nat := 65535

/-! ### Saved settings (Table 4.2, Table 4.4) -/

/-- A set of ports: bit n is port Pn (Table 12.3). -/
abbrev PortSet := BitVec 4

/-- A trap setting of a window. -/
inductive Trap where
  | off
  | note
  | hold
  deriving DecidableEq, Repr, Inhabited

/-- A verdict, or a hold default. -/
inductive Verdict where
  | allow
  | deny
  deriving DecidableEq, Repr, Inhabited

/-- A range of the main array: a base and a size of 2^k bytes. -/
structure Range where
  base : Nat
  k : Nat
  deriving DecidableEq, Repr, Inhabited

/-- The fields of Table 4.2 that MODIFY-WINDOW replaces: all but base and size. -/
structure Settings where
  readers : PortSet
  writers : PortSet
  watch : Option Port
  readTrap : Trap
  writeTrap : Trap
  holdDefault : Verdict
  idlePeriod : Byte
  idleCountsReads : Bool
  guard : Option GuardInput
  deriving DecidableEq, Repr, Inhabited

/-- The saved fields of a DEFINED slot (Table 4.2). -/
structure WindowFields where
  range : Range
  settings : Settings
  deriving DecidableEq, Repr, Inhabited

/-- Polarity and debounce of one guard input. -/
structure GuardSetting where
  activeHigh : Bool
  debounce : Bool
  deriving DecidableEq, Repr, Inhabited

/-- The table header (Table 4.4). -/
structure Header where
  g0 : GuardSetting
  g1 : GuardSetting
  /-- seconds, 1 to 60 -/
  leasePeriod : Nat
  /-- units of 10 ms, 1 to 250 -/
  holdLimit : Nat
  deriving DecidableEq, Repr, Inhabited

/-- The empty-table values of Table 4.4. -/
def Header.empty : Header :=
  { g0 := { activeHigh := false, debounce := true }, g1 := { activeHigh := false, debounce := true },
    leasePeriod := 5, holdLimit := 100 }

/-- What the table image holds: the state and saved fields of all 16 slots and the whole header (R56). -/
structure TableImage where
  slots : Vector (Option WindowFields) 16
  header : Header
  deriving DecidableEq, Repr, Inhabited

/-- An empty table. -/
def TableImage.empty : TableImage := { slots := Vector.replicate 16 none, header := Header.empty }

/-! ### Free values -/

/-- FREE VALUE (log 5): whether the oldest frame of an output list had begun transmission at an event that asks. -/
opaque Config.transmissionBegun : Nat → Bool

/-- FREE VALUE (log 11, R31): whether the byte at an address of an interrupted page program took its new value. -/
opaque Config.tornProgramTaken : Nat → Nat → Bool

/-- FREE VALUE (log 11, R32): the bits of the byte at an address that an interrupted sector erase set to 1. -/
opaque Config.tornEraseBits : Nat → Nat → Byte

/-- FREE VALUE (log 11, R32): the bits of the base field of a fuse slot that an interrupted write left blank. -/
opaque Config.fuseBaseLeftBlank : Nat → BitVec 24

/-- FREE VALUE (log 11, R32): the bits of the size field of a fuse slot that an interrupted write left blank. -/
opaque Config.fuseSizeLeftBlank : Nat → BitVec 8

/-- FREE VALUE (log 12, R32): the contents of a table image whose save step was interrupted. -/
opaque Config.indeterminateImage : Nat → TableImage

/-- FREE VALUE (log 13, R178): the point that a RECOVER cut short by a device reset had reached (Table 11.3). -/
opaque Config.recoverReached : Nat → Nat

/-- FREE VALUE (log 4, R71, R93): the place that an expiry takes among those that fall in one instant. -/
opaque Config.expiryPlace : Nat → Nat

end Sys2Proof
end

