-- ==== Sys2Proof/Machine/State.lean ====
section
/-! DEFINITION. Everything the spec gives the part to hold, as plain data, and the state right after reset. INVENTORY.md,
under State, names for each field the rule of spec/ that names it. -/

namespace Sys2Proof.Machine

/-! ### Containers -/

/-- One value for each port. -/
structure PerPort (α : Type) where
  p0 : α
  p1 : α
  p2 : α
  p3 : α
  deriving DecidableEq, Repr

/-- One value for each guard input. -/
structure PerGuard (α : Type) where
  g0 : α
  g1 : α
  deriving DecidableEq, Repr

/-- Bytes under addresses: strictly rising addresses, and no byte equal to what an unlisted address reads as (H'FF). -/
abbrev Memory := List Host.Cell

/-! ### Port links (Table 2.1) -/

/-- The frame under assembly. -/
structure Assembly where
  /-- The LEN bytes received, in order. -/
  lenBytes : List Byte
  /-- TYPE, TAG and body bytes received, in order. -/
  content : List Byte
  /-- The received CRC bytes, in order. -/
  crcBytes : List Byte
  /-- The running CRC. -/
  crc : Crc
  /-- The time the gap timer has left. -/
  gapLeft : Nat
  deriving DecidableEq, Repr

/-- The framer states of Table 2.3, with the frame under assembly outside HUNT. -/
inductive Framer where
  | hunt
  | length (a : Assembly)
  | body (a : Assembly)
  | check (a : Assembly)
  deriving DecidableEq, Repr

/-- A request frame: its TYPE, TAG and body (LEN is the body's length plus 2). -/
structure Frame where
  type : Byte
  tag : Byte
  body : List Byte
  deriving DecidableEq, Repr

/-- The request in progress. `judged` is the model's own mark (log 1, log 20): the port checks have been made and the
request has been handed to its owner. -/
structure InProgress where
  frame : Frame
  judged : Bool
  deriving DecidableEq, Repr

/-- The request engine states of Table 2.4. -/
inductive Engine where
  | waiting
  | working
  | held
  deriving DecidableEq, Repr

/-- What a frame of the output list stands for (section 2.3): the response to the request in progress, the response to a
PORT-CLEAR frame, a link error response, or a response whose request a port clear has abandoned while it was being sent. -/
inductive OutKind where
  | answer
  | portClear
  | linkError
  | orphan
  deriving DecidableEq, Repr

/-- A frame of the output list. -/
structure OutFrame where
  kind : OutKind
  type : Byte
  tag : Byte
  body : List Byte
  deriving DecidableEq, Repr

/-- Table 12.3, table state. -/
inductive TableState where
  | blank
  | saved
  | unsaved
  | lost
  deriving DecidableEq, Repr

/-- The kinds of access a trap and a hold name (Table 6.2). -/
inductive AccessKind where
  | read
  | program
  | eraseSector
  | eraseWindow
  deriving DecidableEq, Repr

/-- The kinds of job (Table 8.2). -/
inductive JobKind where
  | program
  | eraseSector
  | eraseWindow
  | saveTable
  | freezeWindow
  deriving DecidableEq, Repr

/-- Causes of a latch shutting (Table 5.2). -/
inductive LatchCause where
  | request
  | idle
  | guard
  | admin
  | modify
  deriving DecidableEq, Repr

/-- Causes of a torn entry (Table 10.3). -/
inductive TornCause where
  | program
  | erase
  deriving DecidableEq, Repr

/-- End status of a job (Table 8.5). -/
inductive EndStatus where
  | done
  | mismatch
  | failed
  | cancelled
  | stopped
  deriving DecidableEq, Repr

/-- End reason of a job (Table 12.3). -/
inductive EndReason where
  | none
  | frozen
  | guarded
  | latchShut
  deriving DecidableEq, Repr

/-- The recovery action reported in STARTED (Table 11.2). -/
inductive Recovery where
  | none
  | torn (sector : Nat) (cause : TornCause)
  | save
  | freeze (index : Nat)
  deriving DecidableEq, Repr

/-- A notice (Table 12.7), as its fields; `Notice.record` gives its 16 bytes. -/
inductive Notice where
  | jobEnd (id : Byte) (kind : JobKind) (status : EndStatus) (reason : EndReason) (detail : Nat)
  | trap (slot : Slot) (requester : Port) (kind : AccessKind) (address length : Nat) (holdId : Byte)
  | holdTimeout (id : Byte) (slot : Slot) (requester : Port) (applied : Verdict)
  | latchShut (slot : Slot) (cause : LatchCause)
  | guardChange (g : GuardInput) (active : Bool)
  | bufferExpired (b : BufferNo)
  | started (table : TableState) (torn fuses : Nat) (action : Recovery)
  deriving DecidableEq, Repr

/-- One port link (Table 2.1). -/
structure PortLink where
  framer : Framer
  /-- Inbound queue, oldest first. -/
  inbound : List Frame
  engine : Engine
  request : Option InProgress
  /-- Output list, oldest first; the oldest is the frame in transmission when `sending`. -/
  output : List OutFrame
  /-- The oldest frame is in transmission, and TXDn carries it; otherwise TXDn is at the idle (mark) level (R1, R175). -/
  sending : Bool
  /-- The bytes that have left TXDn whole, of the frame in transmission or of the last one. -/
  txBytes : List Byte
  /-- The time that the byte in transmission has left, in parts of a unit (`Config.txParts`). -/
  txLeft : Nat
  /-- Notice queue, oldest first. -/
  notices : List Notice
  overflow : Bool
  /-- ATN asserted. -/
  atn : Bool
  /-- Port readiness: READY rather than STARTING. -/
  ready : Bool
  deriving DecidableEq, Repr

/-! ### Windows, latches, timers (Table 4.1, Table 5.1) -/

/-- Idle timer states (Table 5.3), COUNTING with its remaining time. -/
inductive IdleTimer where
  | stopped
  | counting (left : Nat)
  | held
  deriving DecidableEq, Repr

/-- A DEFINED slot: its saved fields, and the latch and idle timer that the LTU keeps for it. -/
structure Window where
  fields : WindowFields
  /-- The write latch is OPEN. -/
  latchOpen : Bool
  idle : IdleTimer
  deriving DecidableEq, Repr

/-- Capture mark (Table 4.1). -/
inductive CaptureMark where
  | none
  | clean
  | edited
  deriving DecidableEq, Repr

/-- Guard input states (Table 5.4), the SETTLING states with the settle timer's remaining time. -/
inductive InputState where
  | inactive
  | settlingToActive (left : Nat)
  | active
  | settlingToInactive (left : Nat)
  deriving DecidableEq, Repr

/-- One guard input: the raw level of its pin, and its input state. Polarity and debounce are the header's (R73). -/
structure GuardPin where
  high : Bool
  input : InputState
  deriving DecidableEq, Repr

/-! ### Trap unit (Table 6.2) -/

/-- A hold record. -/
structure Hold where
  id : Byte
  requester : Port
  watch : Port
  slot : Slot
  kind : AccessKind
  request : Frame
  /-- The time the hold limit timer has left. -/
  left : Nat
  deriving DecidableEq, Repr

/-! ### Staging buffers (Table 7.1) -/

/-- The state of a buffer, with the fields present in it. -/
inductive BufferState where
  | free
  | filling (owner : Port) (extent : Nat) (lease : Nat)
  | bound (owner : Port) (extent : Nat) (job : Byte)
  deriving DecidableEq, Repr

/-- A staging buffer; `data` holds its bytes under offsets 0 to 255. -/
structure Buffer where
  state : BufferState
  data : Memory
  deriving DecidableEq, Repr

/-! ### Job queue (Table 8.2) -/

/-- A job's kind with its window slot, target and buffer. -/
inductive JobWork where
  | program (slot : Slot) (address length : Nat) (buffer : BufferNo)
  | eraseSector (slot : Slot) (sector : Nat)
  | eraseWindow (slot : Slot) (range : Range)
  | saveTable
  | freezeWindow (slot : Slot) (range : Range)
  deriving DecidableEq, Repr

/-- Job states (Table 8.3). -/
inductive JobState where
  | queued
  | active
  | suspended
  deriving DecidableEq, Repr

/-- A job record. -/
structure Job where
  id : Byte
  owner : Port
  work : JobWork
  state : JobState
  sectorsDone : Nat
  stopRequested : Bool
  suspensions : Nat
  deriving DecidableEq, Repr

/-- What the job queue has put before the sequencer (R123). -/
inductive Offer where
  | none
  | queued (id : Byte)
  | nextStep (id : Byte)
  deriving DecidableEq, Repr

/-! ### Array sequencer (Table 9.1) and array (Table 3.3, Table 3.4) -/

/-- Array state. -/
inductive ArrayState where
  | idle
  | read
  | run
  deriving DecidableEq, Repr

/-- A pending read; its port is the place it is kept at. -/
structure ReadRecord where
  tag : Byte
  address : Nat
  length : Nat
  slot : Slot
  deriving DecidableEq, Repr

/-- The read in service. `withdrawn` says that its port was cleared since its grant (R155). -/
structure ReadService where
  port : Port
  record : ReadRecord
  withdrawn : Bool
  deriving DecidableEq, Repr

/-- Last grant. -/
inductive LastGrant where
  | none
  | read
  | job
  deriving DecidableEq, Repr

/-- Resume gap timer, RUNNING with its remaining time. -/
inductive ResumeGap where
  | stopped
  | running (left : Nat)
  | elapsed
  deriving DecidableEq, Repr

/-- The sequencer's record. -/
structure Sequencer where
  arrayState : ArrayState
  pendingReads : PerPort (Option ReadRecord)
  inService : Option ReadService
  pointer : Port
  lastGrant : LastGrant
  readsServed : Nat
  resumeGap : ResumeGap
  suspendRequest : Bool
  deriving DecidableEq, Repr

/-- Array operation state (Table 3.4). -/
inductive ArrayOp where
  | none
  | running
  | suspending
  | suspended
  deriving DecidableEq, Repr

/-- A fuse entry slot as it is stored: all bits 1 when blank (R27). DESIGN CHOICE (log 16): a 24-bit base and an 8-bit
size exponent. -/
structure FuseSlot where
  base : BitVec 24
  k : BitVec 8
  deriving DecidableEq, Repr

/-- The step in progress: its kind and target (Table 3.3). -/
inductive ArrayStep where
  | program (address length : Nat) (buffer : BufferNo)
  | erase (sector : Nat)
  | save (capture : TableImage)
  | fuse (index : Nat) (entry : FuseSlot)
  deriving DecidableEq, Repr

/-! ### Protection records (Table 10.1) and start-up (Table 11.1) -/

/-- The intent marker, when present (Table 10.2). -/
inductive Marker where
  | program (sector : Nat)
  | erase (sector : Nat)
  | save
  | freeze (index : Nat) (entry : FuseSlot)
  deriving DecidableEq, Repr

/-- A torn entry (Table 10.3). -/
structure TornEntry where
  sector : Nat
  cause : TornCause
  deriving DecidableEq, Repr

/-- Image state. -/
inductive ImageState where
  | none
  | valid
  | invalid
  deriving DecidableEq, Repr

/-- A reservation (R158). -/
structure Reservation where
  job : Byte
  range : Range
  deriving DecidableEq, Repr

/-- Start-up phases. -/
inductive Phase where
  | recover
  | load
  | ready
  deriving DecidableEq, Repr

/-! ### The state -/

/-- The whole part. -/
structure State where
  ports : PerPort PortLink
  linkRate : LinkRate
  windows : Vector (Option Window) 16
  header : Header
  tableState : TableState
  captureMark : CaptureMark
  /-- The table lock is LOCKED. -/
  locked : Bool
  adminPort : Port
  guards : PerGuard GuardPin
  /-- The GIU follows its pins (R73, R79). -/
  guardsFollow : Bool
  /-- Hold table, oldest first. -/
  holds : List Hold
  nextHoldId : Byte
  buffers : Vector Buffer 4
  /-- Job list, oldest first. -/
  jobs : List Job
  nextJobId : Byte
  offer : Offer
  seq : Sequencer
  arrayOp : ArrayOp
  arrayStep : Option ArrayStep
  /-- The main array. -/
  mem : Memory
  fuses : Vector FuseSlot 8
  marker : Option Marker
  /-- Torn list, oldest first. -/
  torn : List TornEntry
  imageState : ImageState
  image : TableImage
  /-- Reservation list, oldest first. -/
  reservations : List Reservation
  phase : Phase
  /-- RESETN is held low, or power-on has not ended (R175). -/
  resetHeld : Bool
  recovery : Recovery
  /-- The model's own: how many free values have been drawn (log 20). -/
  freeCount : Nat
  /-- The model's own: the commands that wait, first in first out (log 19). -/
  pending : List Instr
  deriving DecidableEq, Repr

/-! ### Stops -/

/-- Reasons for a fault: NONE. The spec names no event at which the part stops, so this type is empty. -/
inductive Fault where
  deriving DecidableEq, Repr

/-- Reasons for a refusal. No meaning refuses. -/
inductive Refusal where
  /-- Raised by an arm of `exec` whose command has no meaning yet (there is none left); safe. -/
  | notModelled (mnemonic : String)
  deriving DecidableEq, Repr

/-! ### Reset -/

/-- A port link after device reset (Table 2.2). -/
def PortLink.reset : PortLink :=
  { framer := .hunt, inbound := [], engine := .waiting, request := none, output := [], sending := false,
    txBytes := [], txLeft := 0, notices := [], overflow := false, atn := false, ready := false }

/-- A buffer after device reset (R101): FREE, every byte H'FF. -/
def Buffer.reset : Buffer := { state := .free, data := [] }

/-- The sequencer after device reset (R140). -/
def Sequencer.reset : Sequencer :=
  { arrayState := .idle, pendingReads := { p0 := none, p1 := none, p2 := none, p3 := none }, inService := none,
    pointer := .p3, lastGrant := .none, readsServed := 0, resumeGap := .stopped, suspendRequest := false }

/-- A blank fuse slot holds all 1 bits (R27). -/
def FuseSlot.blank : FuseSlot := { base := 0xFFFFFF, k := 0xFF }

/-- A guard input after device reset (R73). DESIGN CHOICE (log 7): its pin is high. -/
def GuardPin.reset : GuardPin := { high := true, input := .inactive }

/-- The machine right after the reset event of a part as shipped (R175, R176, R27), RESETN still low.
DESIGN CHOICE: the main array reads H'FF everywhere (log 6), the guard pins are high (log 7), the admin port and the link
rate before the first release of reset are P0 and 115,200 baud (log 8), the image holds an empty table (log 9), and
freeCount is 0 (log 20). -/
def State.reset : State :=
  { ports := { p0 := .reset, p1 := .reset, p2 := .reset, p3 := .reset }
    linkRate := .baud115200
    windows := Vector.replicate 16 none
    header := Header.empty
    tableState := .blank
    captureMark := .none
    locked := false
    adminPort := .p0
    guards := { g0 := .reset, g1 := .reset }
    guardsFollow := false
    holds := []
    nextHoldId := 1
    buffers := Vector.replicate 4 .reset
    jobs := []
    nextJobId := 1
    offer := .none
    seq := .reset
    arrayOp := .none
    arrayStep := none
    mem := []
    fuses := Vector.replicate 8 .blank
    marker := none
    torn := []
    imageState := .none
    image := TableImage.empty
    reservations := []
    phase := .recover
    resetHeld := true
    recovery := .none
    freeCount := 0
    pending := [] }

end Sys2Proof.Machine
end

