-- ==== Sys2Proof/Machine/Flags.lean ====
section
/-! DEFINITION. Flags and lines computed from state: the flag bytes of Table 12.3, the ATN line (R12), the level of TXD (R1), and what other blocks
read of a guard input (Table 5.4). -/

namespace Sys2Proof.Machine

/-- Flag bytes (Table 12.3): H'00 clear or no, H'01 set or yes. -/
def flagByte (b : Bool) : Byte := if b then 0x01 else 0x00

/-- R12: asserted while the notice queue holds a notice or the overflow flag is set. -/
def PortLink.atnLevel (l : PortLink) : Bool := !l.notices.isEmpty || l.overflow

/-- ATN changes in the same event that changes the queue or the flag (R12). -/
def PortLink.syncAtn (l : PortLink) : PortLink := { l with atn := l.atnLevel }

/-- TXDn is at the idle (mark) level (R1, R175). -/
def PortLink.txdIdle (l : PortLink) : Bool := !l.sending

/-- Table 5.4: an input in a SETTLING state is read as the state it is settling from. -/
def InputState.reads : InputState → Bool
  | .inactive => false
  | .settlingToActive _ => false
  | .active => true
  | .settlingToInactive _ => true

/-- R73: the asserted level of a raw level under a setting. -/
def assertedLevel (g : GuardSetting) (high : Bool) : Bool := if g.activeHigh then high else !high

/-- The state an input takes at once from its asserted level (R78, R79). -/
def InputState.ofAsserted (asserted : Bool) : InputState := if asserted then .active else .inactive

/-- The flags byte of a READ answer: bit 0 TORN, bits 7 to 1 zero (Table 12.5). -/
def readFlags (torn : Bool) : Byte := flagByte torn

end Sys2Proof.Machine
end

