-- ==== Sys2Proof/Machine/Operands.lean ====
section
/-! DEFINITION. The codes of Tables 12.3, 12.4 and 12.6, the port checks of R8 (sizes and port-checked fields, R184, R185),
and the fields of request bodies. -/

namespace Sys2Proof.Machine

/-! ### Result codes (Table 12.6) -/

/-- Result names. -/
inductive Result where
  | ok
  | accepted
  | badFrame
  | rxFull
  | notReady
  | unknownType
  | badLength
  | badField
  | notAdmin
  | locked
  | slotUsed
  | slotEmpty
  | overlap
  | misaligned
  | busy
  | noWindow
  | notReader
  | notWriter
  | range
  | frozen
  | guarded
  | latchShut
  | torn
  | tornFull
  | denied
  | inProgress
  | noBuffer
  | bufferLimit
  | notOwner
  | emptyBuffer
  | pageCross
  | bound
  | queueFull
  | noSuchJob
  | tooLate
  | notWatcher
  | noSuchHold
  | fuseFull
  | alreadyFrozen
  deriving DecidableEq, Repr

/-- Table 12.6. -/
def Result.code : Result → Byte
  | .ok => 0x00
  | .accepted => 0x01
  | .badFrame => 0x10
  | .rxFull => 0x11
  | .notReady => 0x12
  | .unknownType => 0x13
  | .badLength => 0x14
  | .badField => 0x15
  | .notAdmin => 0x20
  | .locked => 0x21
  | .slotUsed => 0x22
  | .slotEmpty => 0x23
  | .overlap => 0x24
  | .misaligned => 0x25
  | .busy => 0x26
  | .noWindow => 0x30
  | .notReader => 0x31
  | .notWriter => 0x32
  | .range => 0x33
  | .frozen => 0x34
  | .guarded => 0x35
  | .latchShut => 0x36
  | .torn => 0x37
  | .tornFull => 0x38
  | .denied => 0x39
  | .inProgress => 0x3A
  | .noBuffer => 0x40
  | .bufferLimit => 0x41
  | .notOwner => 0x42
  | .emptyBuffer => 0x43
  | .pageCross => 0x44
  | .bound => 0x45
  | .queueFull => 0x50
  | .noSuchJob => 0x51
  | .tooLate => 0x52
  | .notWatcher => 0x53
  | .noSuchHold => 0x54
  | .fuseFull => 0x60
  | .alreadyFrozen => 0x61

/-! ### Request types (Table 12.4) -/

/-- Request kinds. -/
inductive ReqType where
  | status
  | read
  | claimBuffer
  | fill
  | releaseBuffer
  | program
  | eraseSector
  | eraseWindow
  | cancel
  | jobQuery
  | openLatch
  | shutLatch
  | fetchNotices
  | verdict
  | describeWindow
  | listTorn
  | listFuses
  | portClear
  | defineWindow
  | modifyWindow
  | undefineWindow
  | saveTable
  | lockTable
  | freezeWindow
  | setGuard
  | setTiming
  | shutAll
  deriving DecidableEq, Repr

/-- TYPE codes. -/
def ReqType.code : ReqType → Byte
  | .status => 0x01
  | .read => 0x02
  | .claimBuffer => 0x03
  | .fill => 0x04
  | .releaseBuffer => 0x05
  | .program => 0x06
  | .eraseSector => 0x07
  | .eraseWindow => 0x08
  | .cancel => 0x09
  | .jobQuery => 0x0A
  | .openLatch => 0x0B
  | .shutLatch => 0x0C
  | .fetchNotices => 0x0D
  | .verdict => 0x0E
  | .describeWindow => 0x0F
  | .listTorn => 0x10
  | .listFuses => 0x11
  | .portClear => 0x12
  | .defineWindow => 0x20
  | .modifyWindow => 0x21
  | .undefineWindow => 0x22
  | .saveTable => 0x23
  | .lockTable => 0x24
  | .freezeWindow => 0x25
  | .setGuard => 0x26
  | .setTiming => 0x27
  | .shutAll => 0x28

/-- Every request kind of Table 12.4. -/
def ReqType.all : List ReqType :=
  [.status, .read, .claimBuffer, .fill, .releaseBuffer, .program, .eraseSector, .eraseWindow, .cancel, .jobQuery,
   .openLatch, .shutLatch, .fetchNotices, .verdict, .describeWindow, .listTorn, .listFuses, .portClear, .defineWindow,
   .modifyWindow, .undefineWindow, .saveTable, .lockTable, .freezeWindow, .setGuard, .setTiming, .shutAll]

/-- The request kind of a TYPE byte, none where it is no request code (R8, check 1). -/
def ReqType.ofCode (t : Byte) : Option ReqType := ReqType.all.find? (fun k => k.code == t)

/-- Whether a body of `n` bytes has a size Table 12.4 lists for the type (R185). -/
def ReqType.sizeOk (t : ReqType) (n : Nat) : Bool :=
  match t with
  | .status | .claimBuffer | .listTorn | .listFuses | .portClear | .saveTable | .lockTable | .shutAll => n == 0
  | .releaseBuffer | .eraseWindow | .cancel | .jobQuery | .openLatch | .shutLatch | .fetchNotices | .describeWindow
  | .undefineWindow | .freezeWindow => n == 1
  | .eraseSector | .verdict | .setTiming => n == 2
  | .setGuard => n == 3
  | .program => n == 4
  | .read => n == 5
  | .fill => 3 ≤ n && n ≤ 258
  | .modifyWindow => n == 10
  | .defineWindow => n == 14

/-! ### Fields of a body -/

/-- The byte at an offset of a body. -/
def byteAt (body : List Byte) (i : Nat) : Byte := body.getD i 0

/-- The number in the `n` bytes from an offset, most significant byte first. -/
def fieldAt (body : List Byte) (i n : Nat) : Nat := fromBE ((body.drop i).take n)

/-- A slot field (0 to 15, port-checked). -/
def slotAt (body : List Byte) (i : Nat) : Slot := Fin.ofNat 16 (byteAt body i).toNat

/-- A buffer field (0 to 3, port-checked). -/
def bufferAt (body : List Byte) (i : Nat) : BufferNo := Fin.ofNat 4 (byteAt body i).toNat

/-- A byte below a bound. -/
def byteBelow (body : List Byte) (i n : Nat) : Bool := decide ((byteAt body i).toNat < n)

/-- R8 check 3: each field that Table 12.4 marks as port-checked lies in its encoded range. -/
def ReqType.fieldsOk (t : ReqType) (b : List Byte) : Bool :=
  match t with
  | .read => decide (fieldAt b 0 3 < Config.arraySize) && decide (1 ≤ fieldAt b 3 2) && decide (fieldAt b 3 2 ≤ 256)
  | .fill | .releaseBuffer => byteBelow b 0 4
  | .program => decide (fieldAt b 0 3 < Config.arraySize) && byteBelow b 3 4
  | .eraseSector => decide (fieldAt b 0 2 < Config.sectorCount)
  | .eraseWindow | .openLatch | .shutLatch | .describeWindow | .modifyWindow | .undefineWindow | .freezeWindow =>
      byteBelow b 0 16
  | .fetchNotices => decide (1 ≤ (byteAt b 0).toNat) && decide ((byteAt b 0).toNat ≤ 8)
  | .verdict => byteAt b 1 == 0x01 || byteAt b 1 == 0x02
  | .defineWindow => byteBelow b 0 16 && decide (fieldAt b 1 3 < Config.arraySize)
  | .setGuard => (byteAt b 0 == 0x01 || byteAt b 0 == 0x02) && byteBelow b 1 2 && byteBelow b 2 2
  | .status | .claimBuffer | .cancel | .jobQuery | .listTorn | .listFuses | .portClear | .saveTable | .lockTable
  | .setTiming | .shutAll => true

/-- R8, checks 2 and 3: the first failure, or none. -/
def ReqType.portCheck (t : ReqType) (body : List Byte) : Option Result :=
  if !t.sizeOk body.length then some .badLength
  else if !t.fieldsOk body then some .badField
  else none

/-! ### Enumerated fields (Table 12.3) -/

/-- Port of a code below 4. -/
def portOfNat (n : Nat) : Port :=
  match n with
  | 0 => .p0
  | 1 => .p1
  | 2 => .p2
  | _ => .p3

def portCode (p : Port) : Byte := byteOf p.idx

def watchCode : Option Port → Byte
  | none => 0xFF
  | some p => portCode p

/-- Watch port: a port code, or H'FF NONE; the outer none says that the byte is no code. -/
def watchOfCode (b : Byte) : Option (Option Port) :=
  if b = 0xFF then some none else if b.toNat < 4 then some (some (portOfNat b.toNat)) else none

def trapCode : Trap → Byte
  | .off => 0x00
  | .note => 0x01
  | .hold => 0x02

def trapOfCode (b : Byte) : Option Trap :=
  if b = 0x00 then some .off else if b = 0x01 then some .note else if b = 0x02 then some .hold else none

def verdictCode : Verdict → Byte
  | .allow => 0x01
  | .deny => 0x02

def verdictOfCode (b : Byte) : Option Verdict :=
  if b = 0x01 then some .allow else if b = 0x02 then some .deny else none

def guardInputCode : GuardInput → Byte
  | .g0 => 0x01
  | .g1 => 0x02

def guardCode : Option GuardInput → Byte
  | none => 0x00
  | some g => guardInputCode g

/-- Guard (window field); the outer none says that the byte is no code. -/
def guardOfCode (b : Byte) : Option (Option GuardInput) :=
  if b = 0x00 then some none else if b = 0x01 then some (some .g0) else if b = 0x02 then some (some .g1) else none

/-- Yes or no bytes: H'00 and H'01. -/
def flagOfCode (b : Byte) : Option Bool :=
  if b = 0x00 then some false else if b = 0x01 then some true else none

/-- A port set, none when a reserved bit is set (R184). -/
def portSetOfCode (b : Byte) : Option PortSet := if b.toNat < 16 then some (BitVec.ofNat 4 b.toNat) else none

def portSetCode (s : PortSet) : Byte := byteOf s.toNat

def latchCode (isOpen : Bool) : Byte := if isOpen then 0x01 else 0x00

def latchCauseCode : LatchCause → Byte
  | .request => 0x01
  | .idle => 0x02
  | .guard => 0x03
  | .admin => 0x04
  | .modify => 0x05

def idleTimerCode : IdleTimer → Byte
  | .stopped => 0x00
  | .counting _ => 0x01
  | .held => 0x02

def tableStateCode : TableState → Byte
  | .blank => 0x00
  | .saved => 0x01
  | .unsaved => 0x02
  | .lost => 0x03

def accessKindCode : AccessKind → Byte
  | .read => 0x02
  | .program => 0x06
  | .eraseSector => 0x07
  | .eraseWindow => 0x08

def jobKindCode : JobKind → Byte
  | .program => 0x06
  | .eraseSector => 0x07
  | .eraseWindow => 0x08
  | .saveTable => 0x23
  | .freezeWindow => 0x25

def jobStateCode : JobState → Byte
  | .queued => 0x01
  | .active => 0x02
  | .suspended => 0x03

def endStatusCode : EndStatus → Byte
  | .done => 0x00
  | .mismatch => 0x01
  | .failed => 0x02
  | .cancelled => 0x03
  | .stopped => 0x04

/-- H'00 none, or the result code. -/
def endReasonCode : EndReason → Byte
  | .none => 0x00
  | .frozen => Result.frozen.code
  | .guarded => Result.guarded.code
  | .latchShut => Result.latchShut.code

def tornCauseCode : TornCause → Byte
  | .program => 0x01
  | .erase => 0x02

/-! ### Window settings and write-side requests -/

/-- The nine setting bytes of DEFINE-WINDOW and MODIFY-WINDOW from an offset, none when they are not legal: check 4 of
R45 (each field one of its codes, and no HOLD trap while the watch port is NONE). -/
def settingsAt (b : List Byte) (i : Nat) : Option Settings := do
  let readers ← portSetOfCode (byteAt b i)
  let writers ← portSetOfCode (byteAt b (i + 1))
  let watch ← watchOfCode (byteAt b (i + 2))
  let readTrap ← trapOfCode (byteAt b (i + 3))
  let writeTrap ← trapOfCode (byteAt b (i + 4))
  let holdDefault ← verdictOfCode (byteAt b (i + 5))
  let idleCountsReads ← flagOfCode (byteAt b (i + 7))
  let guard ← guardOfCode (byteAt b (i + 8))
  if watch = none ∧ (readTrap = .hold ∨ writeTrap = .hold) then none
  else some { readers, writers, watch, readTrap, writeTrap, holdDefault, idlePeriod := byteAt b (i + 6),
              idleCountsReads, guard }

/-- A write-side request's fields. -/
inductive WriteReq where
  | program (address : Nat) (buffer : BufferNo)
  | eraseSector (sector : Nat)
  | eraseWindow (slot : Slot)
  deriving DecidableEq, Repr

def WriteReq.access : WriteReq → AccessKind
  | .program _ _ => .program
  | .eraseSector _ => .eraseSector
  | .eraseWindow _ => .eraseWindow

/-- The fields of a parked or taken write-side request (Table 12.4), by its access kind. -/
def writeReqOf (k : AccessKind) (body : List Byte) : Option WriteReq :=
  match k with
  | .read => none
  | .program => some (.program (fieldAt body 0 3) (bufferAt body 3))
  | .eraseSector => some (.eraseSector (fieldAt body 0 2))
  | .eraseWindow => some (.eraseWindow (slotAt body 0))

end Sys2Proof.Machine
end

