-- ==== Sys2Proof/Machine/Ops.lean ====
section
/-! DEFINITION. The named operations over the state: containers, memory and the CRC, ranges, output lists, notices, windows
with their latches and idle timers, guard inputs, buffers and ids. -/

namespace Sys2Proof

/-! ### Ranges and port sets -/

/-- 2^k bytes. -/
def Range.size (r : Range) : Nat := 2 ^ r.k

/-- The range holds the byte address. -/
def Range.contains (r : Range) (a : Nat) : Bool := decide (r.base ≤ a) && decide (a < r.base + r.size)

/-- The range lies inside the other, equality included. -/
def Range.inside (r q : Range) : Bool :=
  decide (q.base ≤ r.base) && decide (r.base + r.size ≤ q.base + q.size)

/-- The two ranges share a byte. -/
def Range.overlaps (r q : Range) : Bool :=
  decide (r.base < q.base + q.size) && decide (q.base < r.base + r.size)

/-- The sector lies inside the range. -/
def Range.hasSector (r : Range) (n : Nat) : Bool :=
  decide (r.base ≤ n * Config.sectorSize) && decide ((n + 1) * Config.sectorSize ≤ r.base + r.size)

/-- The first sector of the range. -/
def Range.firstSector (r : Range) : Nat := r.base / Config.sectorSize

/-- The number of sectors of the range (Table 4.3). -/
def Range.sectorCount (r : Range) : Nat := r.size / Config.sectorSize

/-- Bit n of a port set is port Pn (Table 12.3). -/
def PortSet.has (s : PortSet) (p : Port) : Bool := s.getLsbD p.idx

/-- The setting of one guard input in the header. -/
def Header.guard (h : Header) : GuardInput → GuardSetting
  | .g0 => h.g0
  | .g1 => h.g1

/-- The header with one guard input's setting replaced. -/
def Header.setGuard (h : Header) (g : GuardInput) (x : GuardSetting) : Header :=
  match g with
  | .g0 => { h with g0 := x }
  | .g1 => { h with g1 := x }

/-- The ports a LATCH_SHUT notice goes to: every writer and the watch port, each once (R11, R64). -/
def Settings.latchPorts (x : Settings) : List Port :=
  Port.all.filter (fun p => PortSet.has x.writers p || x.watch == some p)

end Sys2Proof

namespace Sys2Proof.Machine

/-! ### Containers -/

def PerPort.get {α : Type} (v : PerPort α) : Port → α
  | .p0 => v.p0
  | .p1 => v.p1
  | .p2 => v.p2
  | .p3 => v.p3

def PerPort.set {α : Type} (v : PerPort α) (p : Port) (x : α) : PerPort α :=
  match p with
  | .p0 => { v with p0 := x }
  | .p1 => { v with p1 := x }
  | .p2 => { v with p2 := x }
  | .p3 => { v with p3 := x }

def PerPort.map {α : Type} (f : α → α) (v : PerPort α) : PerPort α :=
  { p0 := f v.p0, p1 := f v.p1, p2 := f v.p2, p3 := f v.p3 }

def PerGuard.get {α : Type} (v : PerGuard α) : GuardInput → α
  | .g0 => v.g0
  | .g1 => v.g1

def PerGuard.set {α : Type} (v : PerGuard α) (g : GuardInput) (x : α) : PerGuard α :=
  match g with
  | .g0 => { v with g0 := x }
  | .g1 => { v with g1 := x }

/-- W0 to W15 in ascending order. -/
def allSlots : List Slot := [0, 1, 2, 3, 4, 5, 6, 7, 8, 9, 10, 11, 12, 13, 14, 15]

/-- B0 to B3 in ascending order. -/
def allBuffers : List BufferNo := [0, 1, 2, 3]

/-- One port link. -/
def State.port (s : State) (p : Port) : PortLink := s.ports.get p

/-- The state with one port link changed. -/
def State.modPort (s : State) (p : Port) (f : PortLink → PortLink) : State :=
  { s with ports := s.ports.set p (f (s.ports.get p)) }

/-- A window slot: none when EMPTY. -/
def State.window (s : State) (w : Slot) : Option Window := s.windows.get w

def State.setWindow (s : State) (w : Slot) (x : Option Window) : State :=
  { s with windows := s.windows.set w.val x w.isLt }

def State.guardPin (s : State) (g : GuardInput) : GuardPin := s.guards.get g

def State.setGuardPin (s : State) (g : GuardInput) (x : GuardPin) : State := { s with guards := s.guards.set g x }

def State.buffer (s : State) (b : BufferNo) : Buffer := s.buffers.get b

def State.setBuffer (s : State) (b : BufferNo) (x : Buffer) : State :=
  { s with buffers := s.buffers.set b.val x b.isLt }

/-- One more free value has been drawn; the value is that at the counter before. -/
def State.drawn (s : State) : State := { s with freeCount := s.freeCount + 1 }

/-! ### Bytes under addresses -/

/-- The erased value (Table 1.3), and what an unlisted address reads as (DESIGN CHOICE for bytes as shipped, log 6). -/
def erased : Byte := 0xFF

def Memory.read : Memory → Nat → Byte
  | [], _ => erased
  | (k, v) :: rest, a => if k = a then v else Memory.read rest a

/-- Writing the erased value removes the entry, so equal contents are equal lists. -/
def Memory.write : Memory → Nat → Byte → Memory
  | [], a, b => if b = erased then [] else [(a, b)]
  | (k, v) :: rest, a, b =>
    if k < a then (k, v) :: Memory.write rest a b
    else
      let tail := if k = a then rest else (k, v) :: rest
      if b = erased then tail else (a, b) :: tail

/-- Entries from `lo` up, strictly rising, none erased. -/
def Memory.wfFrom (lo : Nat) : Memory → Bool
  | [] => true
  | (k, v) :: rest => decide (lo ≤ k) && v != erased && Memory.wfFrom (k + 1) rest

/-- The canonical form. -/
def Memory.wf (m : Memory) : Bool := Memory.wfFrom 0 m

/-- The bytes of `n` addresses from `a`, in address order (R23). -/
def Memory.readRange (m : Memory) (a n : Nat) : List Byte := (List.range n).map (fun i => Memory.read m (a + i))

/-- Byte j of `bs` written to address a + j (R103). -/
def Memory.writeRange (m : Memory) (a : Nat) : List Byte → Memory
  | [] => m
  | b :: bs => Memory.writeRange (Memory.write m a b) (a + 1) bs

/-- Each byte from `a` ANDed with its byte of `bs` (R24). -/
def Memory.programRange (m : Memory) (a : Nat) : List Byte → Memory
  | [] => m
  | b :: bs => Memory.programRange (Memory.write m a (Memory.read m a &&& b)) (a + 1) bs

/-- The number of bytes from `a` that differ from their byte of `bs` (R26). -/
def Memory.countDiff (m : Memory) (a : Nat) : List Byte → Nat
  | [] => 0
  | b :: bs => (if Memory.read m a = b then 0 else 1) + Memory.countDiff m (a + 1) bs

/-- The `n` bytes from `a` become H'FF (R25). -/
def Memory.eraseRange (m : Memory) (a n : Nat) : Memory := m.filter (fun c => decide (c.1 < a) || decide (a + n ≤ c.1))

/-- A page program cut short (R31): each byte holds its old value or its old value ANDed with its buffer byte. -/
def Memory.tearProgram (m : Memory) (taken : Nat → Bool) (a : Nat) : List Byte → Memory
  | [] => m
  | b :: bs =>
    Memory.tearProgram (if taken a then Memory.write m a (Memory.read m a &&& b) else m) taken (a + 1) bs

/-- A sector erase cut short (R32): in the `n` bytes from `a` each 1 bit stays 1, and each 0 bit is left 0 or 1. -/
def Memory.tearErase (m : Memory) (bits : Nat → Byte) (a n : Nat) : Memory :=
  m.filterMap (fun c =>
    if a ≤ c.1 ∧ c.1 < a + n then
      if c.2 ||| bits c.1 = erased then none else some (c.1, c.2 ||| bits c.1)
    else some c)

/-! ### CRC (R4, Table 12.2) -/

/-- One bit-time of the CRC register: shift left, and the generator x^16 + x^12 + x^5 + 1 on a carry out. -/
def crcShift (c : Crc) : Crc := if c.msb then (c <<< 1) ^^^ 0x1021#16 else c <<< 1

/-- One byte, most significant bit first. -/
def crcByte (c : Crc) (b : Byte) : Crc :=
  crcShift (crcShift (crcShift (crcShift (crcShift (crcShift (crcShift (crcShift
    (c ^^^ (b.zeroExtend 16 <<< 8)))))))))

/-- The CRC starts from H'FFFF. -/
def crcStart : Crc := 0xFFFF

def crcOf (bs : List Byte) : Crc := bs.foldl crcByte crcStart

/-- The bytes of a frame on the line (Table 12.1). -/
def OutFrame.wire (f : OutFrame) : List Byte :=
  let covered := be2 (f.body.length + 2) ++ f.type :: f.tag :: f.body
  0xC5#8 :: covered ++ be2 (crcOf covered).toNat

/-! ### Output lists (R6) -/

def PortLink.pushOut (l : PortLink) (f : OutFrame) : PortLink := { l with output := l.output ++ [f] }

/-- A response joins the output list: request type plus H'80, the request's tag, the result and its fields (R186). -/
def State.answer (s : State) (p : Port) (f : Frame) (r : Result) (fields : List Byte) : State :=
  s.modPort p (fun l => l.pushOut { kind := .answer, type := f.type + 0x80, tag := f.tag, body := r.code :: fields })

/-- The oldest frame begins its transmission: its first byte has a whole byte-time left. -/
def PortLink.beginFrame (rate : LinkRate) (l : PortLink) : PortLink :=
  { l with sending := true, txBytes := [], txLeft := rate.gapTime }

/-- The free value of log 5: has the oldest frame of the output list begun transmission at this event? A frame that has
begun stays so until it is sent. -/
def State.askTransmission (s : State) (p : Port) : State :=
  if (s.port p).output.isEmpty || (s.port p).sending then s
  else if Config.transmissionBegun s.freeCount then (s.modPort p (PortLink.beginFrame s.linkRate)).drawn
  else s.drawn

/-- The frames of the output list that wait, not counting one in transmission. -/
def PortLink.waitingOut (l : PortLink) : List OutFrame := if l.sending then l.output.tail else l.output

def PortLink.waitingLinkErrors (l : PortLink) : Nat := (l.waitingOut.filter (fun f => f.kind == .linkError)).length

/-- A link error response is produced; it is discarded when 4 wait already (R6). -/
def PortLink.pushLinkError (l : PortLink) (r : Result) : PortLink :=
  if l.waitingLinkErrors < Config.linkErrorMax then
    l.pushOut { kind := .linkError, type := 0xFF, tag := 0x00, body := [r.code] }
  else l

def State.linkError (s : State) (p : Port) (r : Result) : State :=
  (if (s.port p).waitingLinkErrors < Config.linkErrorMax then s else s.askTransmission p).modPort p
    (fun l => l.pushLinkError r)

/-! ### Requests (R7, R8, R9) -/

/-- R7: in WAITING, the oldest frame of the inbound queue becomes the request in progress. -/
def PortLink.takeRequest (l : PortLink) : PortLink :=
  match l.engine, l.inbound with
  | .waiting, f :: rest =>
    { l with engine := .working, request := some { frame := f, judged := false }, inbound := rest }
  | _, _ => l

/-- The request that the port has taken and that has not been judged yet. -/
def State.taken (s : State) (p : Port) : Option Frame :=
  match (s.port p).engine, (s.port p).request with
  | .working, some r => if r.judged then none else some r.frame
  | _, _ => none

def PortLink.markJudged (l : PortLink) : PortLink :=
  { l with request := l.request.map (fun r => { r with judged := true }) }

/-- A taken request of kind `t` is checked at the port (R8) and handed to its owner (R9). With no such request at the
port the event does not occur (log 2). -/
def State.onRequest (s : State) (t : ReqType) (p : Port) (owner : Frame → State → State) : State :=
  match s.taken p with
  | none => s
  | some f =>
    if f.type = t.code then
      match t.portCheck f.body with
      | some r => (s.modPort p PortLink.markJudged).answer p f r []
      | none => owner f (s.modPort p PortLink.markJudged)
    else s

/-- The admin test of R39, the first check of an administrative request's owner. -/
def State.adminCheck (s : State) (p : Port) : Option Result := if p = s.adminPort then none else some .notAdmin

/-- R39 and then R41: NOT_ADMIN, LOCKED. -/
def State.editCheck (s : State) (p : Port) : Option Result :=
  if p ≠ s.adminPort then some .notAdmin else if s.locked then some .locked else none

/-! ### Notices (R10, R11, R12) -/

def PortLink.post (l : PortLink) (n : Notice) : PortLink :=
  PortLink.syncAtn
    (if l.notices.length < Config.noticeMax then { l with notices := l.notices ++ [n] } else { l with overflow := true })

def State.post (s : State) (p : Port) (n : Notice) : State := s.modPort p (fun l => l.post n)

def State.postEach (s : State) (ps : List Port) (n : Notice) : State := ps.foldl (fun s p => s.post p n) s

/-- To the watch port; a watch port of NONE adds no port (R11). -/
def State.postWatch (s : State) (watch : Option Port) (n : Notice) : State :=
  match watch with
  | none => s
  | some p => s.post p n

/-! ### Ids (R87, R115) -/

/-- The following id, 255 being followed by 1. -/
def idAfter (id : Byte) : Byte := if id = 0xFF then 0x01 else id + 1

/-- The first id from the offered one on that is not in use. -/
def freshId (used : List Byte) : Nat → Byte → Byte
  | 0, id => id
  | n + 1, id => if used.contains id then freshId used n (idAfter id) else id

/-! ### Windows (section 4.4) -/

/-- The DEFINED slot whose range holds the address: at most one, as windows do not overlap (R42). -/
def State.windowAt (s : State) (a : Nat) : Option Slot :=
  allSlots.find? (fun w => match s.window w with
    | some x => x.fields.range.contains a
    | none => false)

/-- What is read of the guard input that a window names; NONE reads inactive. -/
def State.guardReads (s : State) (g : Option GuardInput) : Bool :=
  match g with
  | none => false
  | some g => (s.guardPin g).input.reads

/-! ### Jobs and holds, as windows count them (R36) -/

/-- The window slot that a job's record names. -/
def JobWork.slot? : JobWork → Option Slot
  | .program w _ _ _ => some w
  | .eraseSector w _ => some w
  | .eraseWindow w _ => some w
  | .saveTable => none
  | .freezeWindow w _ => some w

def JobWork.kind : JobWork → JobKind
  | .program _ _ _ _ => .program
  | .eraseSector _ _ => .eraseSector
  | .eraseWindow _ _ => .eraseWindow
  | .saveTable => .saveTable
  | .freezeWindow _ _ => .freezeWindow

/-- The number of live jobs whose record names the slot. -/
def State.liveJobs (s : State) (w : Slot) : Nat := (s.jobs.filter (fun j => j.work.slot? == some w)).length

/-- The number of holds that name the slot (R88). -/
def State.holdCount (s : State) (w : Slot) : Nat := (s.holds.filter (fun h => h.slot == w)).length

/-! ### Latches and idle timers (R64, R69, R70) -/

/-- The full idle period of a window, in time units. -/
def Window.period (x : Window) : Nat := x.fields.settings.idlePeriod.toNat * Config.second

/-- Table 5.3: the idle timer of a window with `live` live jobs; entering COUNTING loads the full period, and a reload
loads it again. -/
def Window.timer (x : Window) (live : Nat) (reload : Bool) : IdleTimer :=
  if !x.latchOpen || x.fields.settings.idlePeriod = 0 then .stopped
  else if 0 < live then .held
  else match x.idle with
    | .counting left => if reload then .counting x.period else .counting left
    | _ => .counting x.period

/-- The idle timer of a window in an event that changes its latch or live job count, or that reloads it. -/
def State.syncIdle (s : State) (w : Slot) (reload : Bool) : State :=
  match s.window w with
  | none => s
  | some x => s.setWindow w (some { x with idle := x.timer (s.liveJobs w) reload })

/-- R64: an OPEN latch becomes SHUT, its timer STOPPED, and LATCH_SHUT is posted; a SHUT latch stays as it is. -/
def State.shutLatch (s : State) (w : Slot) (cause : LatchCause) : State :=
  match s.window w with
  | none => s
  | some x =>
    if x.latchOpen then
      (s.setWindow w (some { x with latchOpen := false, idle := .stopped })).postEach x.fields.settings.latchPorts
        (.latchShut w cause)
    else s

/-- R77: the latches of the windows that name the input are shut, in ascending order of slot number. -/
def State.shutGuarded (s : State) (g : GuardInput) : State :=
  allSlots.foldl (fun s w => match s.window w with
    | some x => if x.fields.settings.guard = some g then s.shutLatch w .guard else s
    | none => s) s

/-! ### Guard inputs (R76, R77, R79) -/

/-- An input takes a state. A change of what other blocks read is reported to the admin port (not before READY, R79), and
an activation shuts latches. -/
def State.setInput (s : State) (g : GuardInput) (x : InputState) : State :=
  let t := s.setGuardPin g { s.guardPin g with input := x }
  if x.reads = (s.guardPin g).input.reads then t
  else
    let u := if t.phase = .ready then t.post t.adminPort (.guardChange g x.reads) else t
    if x.reads then u.shutGuarded g else u

/-! ### Edits (R55) -/

/-- The table state becomes UNSAVED, and a capture mark CLEAN becomes EDITED. -/
def State.edited (s : State) : State :=
  { s with tableState := .unsaved, captureMark := if s.captureMark = .clean then .edited else s.captureMark }

/-! ### Staging buffers (chapter 7) -/

def BufferState.owner? : BufferState → Option Port
  | .free => none
  | .filling p _ _ => some p
  | .bound p _ _ => some p

def BufferState.extent : BufferState → Nat
  | .free => 0
  | .filling _ e _ => e
  | .bound _ e _ => e

/-- The buffer becomes FREE; its data bytes are kept (R101). -/
def State.freeBuffer (s : State) (b : BufferNo) : State := s.setBuffer b { s.buffer b with state := .free }

/-- The buffers a port holds, FILLING or BOUND (R102). -/
def State.buffersOwned (s : State) (p : Port) : Nat :=
  (allBuffers.filter (fun b => (s.buffer b).state.owner? == some p)).length

/-- The number of buffers in state FREE (R101). -/
def State.buffersFree (s : State) : Nat := (allBuffers.filter (fun b => (s.buffer b).state == .free)).length

/-- The header's lease period in time units. -/
def State.leaseTime (s : State) : Nat := s.header.leasePeriod * Config.second

/-- Whether the buffer is FILLING and the port its owner. -/
def State.fillingFor (s : State) (b : BufferNo) (p : Port) : Bool :=
  match (s.buffer b).state with
  | .filling o _ _ => o == p
  | _ => false

/-! ### Protection records (R157, R159) -/

/-- A written slot holds its entry; a blank slot holds all 1 bits (R27). -/
def FuseSlot.written (f : FuseSlot) : Bool := f != FuseSlot.blank

def FuseSlot.range (f : FuseSlot) : Range := { base := f.base.toNat, k := f.k.toNat }

/-- The entry of a range. -/
def fuseEntry (r : Range) : FuseSlot := { base := BitVec.ofNat 24 r.base, k := BitVec.ofNat 8 r.k }

/-- Programming a slot: the AND of each of its bits with the entry's bit (R27, R32). -/
def FuseSlot.program (f entry : FuseSlot) : FuseSlot := { base := f.base &&& entry.base, k := f.k &&& entry.k }

/-- A slot programmed with an entry. -/
def State.programFuse (s : State) (i : Nat) (entry : FuseSlot) : State :=
  { s with fuses := s.fuses.setIfInBounds i ((s.fuses.toList.getD i .blank).program entry) }

/-- The number of complete fuse entries. -/
def State.fuseCount (s : State) : Nat := (s.fuses.toList.filter FuseSlot.written).length

/-- The ranges of the complete entries and of the reservations. -/
def State.frozenRanges (s : State) : List Range :=
  (s.fuses.toList.filter FuseSlot.written).map FuseSlot.range ++ s.reservations.map Reservation.range

/-- R159: the sector lies inside the range of a complete entry or of a reservation. -/
def State.sectorFrozen (s : State) (n : Nat) : Bool := s.frozenRanges.any (fun r => r.hasSector n)

/-- Some sector of the range is frozen. -/
def State.rangeTouchesFrozen (s : State) (r : Range) : Bool :=
  (List.range r.sectorCount).any (fun i => s.sectorFrozen (r.firstSector + i))

/-- The sector is in the torn list. -/
def State.sectorTorn (s : State) (n : Nat) : Bool := s.torn.any (fun e => e.sector == n)

/-- R170: a new entry at the tail, or the cause of the sector's entry replaced in its place. -/
def tornAdd (l : List TornEntry) (n : Nat) (c : TornCause) : List TornEntry :=
  if l.any (fun e => e.sector == n) then l.map (fun e => if e.sector = n then { e with cause := c } else e)
  else l ++ [{ sector := n, cause := c }]

end Sys2Proof.Machine
end

