-- ==== Sys2Proof/Machine/Queue.lean ====
section
/-! DEFINITION. The job queue's operations: the offer (R123), adding and ending jobs (R115, R116, R132), the access decode
(R42) and the checks of write-side requests (R117, R124, R130). -/

namespace Sys2Proof.Machine

/-! ### The offer (R123) -/

/-- The job that is ACTIVE or SUSPENDED, if any (R122). -/
def State.activeJob (s : State) : Option Job := s.jobs.find? (fun j => j.state != .queued)

def JobWork.isEraseWindow : JobWork → Bool
  | .eraseWindow _ _ => true
  | _ => false

/-- The offer that the job list and the array call for. -/
def State.offerNow (s : State) : Offer :=
  match s.activeJob with
  | some j =>
    if j.state = .active ∧ j.work.isEraseWindow = true ∧ s.arrayOp = .none then .nextStep j.id else .none
  | none =>
    match s.jobs with
    | j :: _ => .queued j.id
    | [] => .none

/-- The offer is formed anew. -/
def State.formOffer (s : State) : State := { s with offer := s.offerNow }

/-! ### Job records -/

def State.findJob (s : State) (id : Byte) : Option Job := s.jobs.find? (fun j => j.id == id)

/-- The id that the next accepted job takes (R115). -/
def State.newJobId (s : State) : Byte := freshId (s.jobs.map Job.id) s.jobs.length s.nextJobId

/-- The record of a newly accepted job (R116). -/
def Job.fresh (id : Byte) (owner : Port) (work : JobWork) : Job :=
  { id, owner, work, state := .queued, sectorsDone := 0, stopRequested := false, suspensions := 0 }

/-- A record is added at the tail of the job list with the next job id (R114, R115, R116). -/
def State.addJob (s : State) (owner : Port) (work : JobWork) : State :=
  { s with jobs := s.jobs ++ [Job.fresh s.newJobId owner work], nextJobId := idAfter s.newJobId }

/-- One job record changed. -/
def State.modJob (s : State) (id : Byte) (f : Job → Job) : State :=
  { s with jobs := s.jobs.map (fun j => if j.id = id then f j else j) }

/-- Sectors total: an ERASE-WINDOW's size divided by 4,096; 0 for the other kinds, as JOB-QUERY reports it. -/
def Job.sectorsTotal (j : Job) : Nat :=
  match j.work with
  | .eraseWindow _ r => r.sectorCount
  | _ => 0

/-- R132, step 2: the buffer bound to a PROGRAM is freed. -/
def State.releaseJobBuffer (s : State) (w : JobWork) : State :=
  match w with
  | .program _ _ _ b => s.freeBuffer b
  | _ => s

/-- R132, step 4: the idle timer of the job's window, when its live job count falls. -/
def State.syncJobWindow (s : State) (w : JobWork) : State :=
  match w.slot? with
  | some slot => s.syncIdle slot true
  | none => s

/-- R132, step 1: the record leaves the job list. -/
def State.removeJob (s : State) (j : Job) : State := { s with jobs := s.jobs.filter (fun k => k.id != j.id) }

/-- R132, step 3; also for a FREEZE-WINDOW that completes, whose entry takes its reservation's place in the same event
(R131). -/
def State.dropReservation (s : State) (j : Job) : State :=
  { s with reservations := s.reservations.filter (fun r => r.job != j.id) }

/-- R132, step 5. -/
def State.notifyEnd (s : State) (j : Job) (status : EndStatus) (reason : EndReason) (detail : Nat) (notify : Bool) : State :=
  if notify then s.post j.owner (.jobEnd j.id j.work.kind status reason detail) else s

/-- R132: a job ends, in its six steps; `notify` is no for a removal by port clear (R137). -/
def State.endJob (s : State) (j : Job) (status : EndStatus) (reason : EndReason) (detail : Nat) (notify : Bool) : State :=
  (((((s.removeJob j).releaseJobBuffer j.work).dropReservation j).syncJobWindow j.work).notifyEnd j status reason detail
    notify).formOffer

/-! ### Access decode (R42, R43, Table 4.5) -/

/-- Checks 2 and 3 of R42 for the window found: the right, and the last byte of the range. -/
def decodeIn (x : Window) (w : Slot) (mayUse : Bool) (refusal : Result) (a n : Nat) : Except Result Slot :=
  if !mayUse then .error refusal
  else if a + n ≤ x.fields.range.base + x.fields.range.size then .ok w
  else .error .range

/-- The decode of a READ. -/
def State.decodeRead (s : State) (p : Port) (a n : Nat) : Except Result Slot :=
  match s.windowAt a with
  | none => .error .noWindow
  | some w =>
    match s.window w with
    | none => .error .noWindow
    | some x => decodeIn x w (PortSet.has x.fields.settings.readers p) .notReader a n

/-- R43: the length a PROGRAM is decoded with. -/
def State.programLength (s : State) (p : Port) (b : BufferNo) : Nat :=
  if s.fillingFor b p then max 1 (s.buffer b).state.extent else 1

/-- The decode of a write-side request that names an address. -/
def State.decodeWriteAt (s : State) (p : Port) (a n : Nat) : Except Result Slot :=
  match s.windowAt a with
  | none => .error .noWindow
  | some w =>
    match s.window w with
    | none => .error .noWindow
    | some x => decodeIn x w (PortSet.has x.fields.settings.writers p) .notWriter a n

/-- The decode of a write-side request. -/
def State.decodeWrite (s : State) (p : Port) (req : WriteReq) : Except Result Slot :=
  match req with
  | .program a b => s.decodeWriteAt p a (s.programLength p b)
  | .eraseSector n => s.decodeWriteAt p (n * Config.sectorSize) Config.sectorSize
  | .eraseWindow w =>
    match s.window w with
    | none => .error .noWindow
    | some x => decodeIn x w (PortSet.has x.fields.settings.writers p) .notWriter x.fields.range.base x.fields.range.size

/-! ### Acceptance checks of write-side requests (R117, R118) -/

/-- Check 2: a target sector is frozen. -/
def State.targetFrozen (s : State) (x : Window) (req : WriteReq) : Bool :=
  match req with
  | .program a _ => s.sectorFrozen (a / Config.sectorSize)
  | .eraseSector n => s.sectorFrozen n
  | .eraseWindow _ => s.rangeTouchesFrozen x.fields.range

/-- Check 5: a PROGRAM whose target sector is in the torn list. -/
def State.programTorn (s : State) (req : WriteReq) : Bool :=
  match req with
  | .program a _ => s.sectorTorn (a / Config.sectorSize)
  | _ => false

/-- Check 6: the torn list is full, and the request is not an ERASE-SECTOR of a listed sector. -/
def State.tornFullFor (s : State) (req : WriteReq) : Bool :=
  decide (Config.tornMax ≤ s.torn.length) &&
    (match req with
     | .eraseSector n => !s.sectorTorn n
     | _ => true)

/-- Check 7: the buffer checks of R108. -/
def State.bufferCheck (s : State) (p : Port) (req : WriteReq) : Option Result :=
  match req with
  | .program a b =>
    if !s.fillingFor b p then some .notOwner
    else if (s.buffer b).state.extent = 0 then some .emptyBuffer
    else if Config.pageSize < a % Config.pageSize + (s.buffer b).state.extent then some .pageCross
    else none
  | _ => none

/-- Checks 2 to 8 of R117, for the window found by the decode. -/
def State.writeChecks (s : State) (p : Port) (x : Window) (req : WriteReq) : Option Result :=
  if s.targetFrozen x req then some .frozen
  else if s.guardReads x.fields.settings.guard then some .guarded
  else if !x.latchOpen then some .latchShut
  else if s.programTorn req then some .torn
  else if s.tornFullFor req then some .tornFull
  else match s.bufferCheck p req with
    | some r => some r
    | none => if Config.jobMax ≤ s.jobs.length then some .queueFull else none

/-- R117: the first check that fails, or the window's slot and record. -/
def State.acceptCheck (s : State) (p : Port) (req : WriteReq) : Except Result (Slot × Window) :=
  match s.decodeWrite p req with
  | .error r => .error r
  | .ok w =>
    match s.window w with
    | none => .error .noWindow
    | some x =>
      match s.writeChecks p x req with
      | some r => .error r
      | none => .ok (w, x)

/-! ### Start and boundary checks (R124, R130) -/

/-- The guard input and then the latch of a job's window. A job names a DEFINED window (R49); with none the latch counts
as not OPEN (log 18). -/
def State.windowStops (s : State) (w : Slot) : Option EndReason :=
  match s.window w with
  | none => some .latchShut
  | some x =>
    if s.guardReads x.fields.settings.guard then some .guarded
    else if !x.latchOpen then some .latchShut
    else none

/-- R124: the reason for which the first step of a job does not start; SAVE-TABLE and FREEZE-WINDOW have no start check
(R125). -/
def State.startCheck (s : State) (j : Job) : Option EndReason :=
  match j.work with
  | .program w a _ _ => if s.sectorFrozen (a / Config.sectorSize) then some .frozen else s.windowStops w
  | .eraseSector w n => if s.sectorFrozen n then some .frozen else s.windowStops w
  | .eraseWindow w r => if s.rangeTouchesFrozen r then some .frozen else s.windowStops w
  | .saveTable => none
  | .freezeWindow _ _ => none

/-- The sector of the next step of an ERASE-WINDOW. -/
def Job.nextSector (j : Job) : Nat :=
  match j.work with
  | .eraseWindow _ r => r.firstSector + j.sectorsDone
  | _ => 0

/-- Whether the latch of a slot's window is OPEN. -/
def State.latchIsOpen (s : State) (w : Option Slot) : Bool :=
  match w with
  | none => false
  | some w => match s.window w with
    | none => false
    | some x => x.latchOpen

/-- R130: the ending that a boundary check gives an ACTIVE ERASE-WINDOW, if any. -/
def State.boundaryCheck (s : State) (j : Job) : Option (EndStatus × EndReason) :=
  if j.stopRequested then some (.cancelled, .none)
  else if !s.latchIsOpen j.work.slot? then some (.stopped, .latchShut)
  else if s.sectorFrozen j.nextSector then some (.stopped, .frozen)
  else none

end Sys2Proof.Machine
end

