-- ==== Sys2Proof/Machine/Arbiter.lean ====
section
/-! DEFINITION. The array sequencer: step starts (R29, R146), read grants (R147), suspend requests (R150), resumes (R152) and
the decision (R143, R144). -/

namespace Sys2Proof.Machine

/-! ### Steps -/

/-- A page program or a sector erase may be suspended; a table save or a fuse write never is (R30). -/
def ArrayStep.suspendable : ArrayStep → Bool
  | .program _ _ _ => true
  | .erase _ => true
  | .save _ => false
  | .fuse _ _ => false

/-- The sector of the main array that a step acts on (R147). -/
def ArrayStep.sector? : ArrayStep → Option Nat
  | .program a _ _ => some (a / Config.sectorSize)
  | .erase n => some n
  | .save _ => none
  | .fuse _ _ => none

/-- R56: the slots and the header as they stand. -/
def State.capture (s : State) : TableImage :=
  { slots := s.windows.map (fun x => x.map Window.fields), header := s.header }

/-- R29, R146, R166: the step-start event. The marker is written, the array takes the step and moves to RUNNING, the job is
ACTIVE, the array state is RUN, the last grant JOB, and the resume gap timer is started for a step that can be suspended. -/
def State.beginStep (s : State) (j : Job) (step : ArrayStep) (m : Marker) : State :=
  let t := s.modJob j.id (fun k => { k with state := .active })
  State.formOffer
    { t with
      marker := some m
      arrayStep := some step
      arrayOp := .running
      seq := { s.seq with
        arrayState := .run
        lastGrant := .job
        resumeGap := if step.suspendable then .running Config.resumeGap else .stopped } }

/-- The step of a granted job, with its marker (Table 10.2); a save step takes the capture (R56), a fuse write step the
entry index (R162). -/
def State.startStep (s : State) (j : Job) : State :=
  match j.work with
  | .program _ a n b => s.beginStep j (.program a n b) (.program (a / Config.sectorSize))
  | .eraseSector _ n => s.beginStep j (.erase n) (.erase n)
  | .eraseWindow _ _ => s.beginStep j (.erase j.nextSector) (.erase j.nextSector)
  | .saveTable => State.beginStep { s with captureMark := .clean } j (.save s.capture) .save
  | .freezeWindow _ r =>
    s.beginStep j (.fuse s.fuseCount (fuseEntry r)) (.freeze s.fuseCount (fuseEntry r))

/-- R146: the offer is granted, with the start check of R124 or the boundary checks of R130; a check that fails ends the
job. -/
def State.grantOffer (s : State) : State :=
  match s.offer with
  | .none => s
  | .queued id =>
    match s.findJob id with
    | none => s.formOffer
    | some j =>
      match s.startCheck j with
      | some reason => s.endJob j .failed reason 0 true
      | none => s.startStep j
  | .nextStep id =>
    match s.findJob id with
    | none => s.formOffer
    | some j =>
      match s.boundaryCheck j with
      | some (status, reason) => s.endJob j status reason j.sectorsDone true
      | none => s.startStep j

/-! ### Reads -/

/-- The port after a port, cyclically. -/
def portAfter : Port → Port
  | .p0 => .p1
  | .p1 => .p2
  | .p2 => .p3
  | .p3 => .p0

/-- The ports in the order in which reads are considered: from the first port after the pointer (R145). -/
def readOrder (pointer : Port) : List Port :=
  let a := portAfter pointer
  let b := portAfter a
  let c := portAfter b
  [a, b, c, pointer]

/-- The port whose pending read is granted next (R145). -/
def State.nextReader (s : State) : Option Port :=
  (readOrder s.seq.pointer).find? (fun p => (s.seq.pendingReads.get p).isSome)

/-- The number of pending reads. -/
def State.pendingReadCount (s : State) : Nat :=
  (Port.all.filter (fun p => (s.seq.pendingReads.get p).isSome)).length

/-- A job is SUSPENDED. -/
def State.jobSuspended (s : State) : Bool := s.jobs.any (fun j => j.state == .suspended)

/-- The range of `n` bytes from `a` has a byte in the sector. -/
def touchesSector (a n sector : Nat) : Bool :=
  decide (a < (sector + 1) * Config.sectorSize) && decide (sector * Config.sectorSize < a + n)

/-- R147: some byte of the range lies in the sector of the current step. -/
def State.readInProgress (s : State) (a n : Nat) : Bool :=
  match s.arrayStep.bind ArrayStep.sector? with
  | some sector => touchesSector a n sector
  | none => false

/-- The request that a READ's record stands for, as its answer needs it: type and tag. -/
def ReadRecord.frame (r : ReadRecord) : Frame := { type := ReqType.read.code, tag := r.tag, body := [] }

/-- R147: the record leaves the pending reads, the pointer moves to its port, the last grant becomes READ, and reads served
rises in a suspension. -/
def State.takeRead (s : State) (p : Port) : State :=
  { s with seq := { s.seq with
      pendingReads := s.seq.pendingReads.set p none
      pointer := p
      lastGrant := .read
      readsServed := if s.jobSuspended then s.seq.readsServed + 1 else s.seq.readsServed } }

/-- The record becomes the read in service. -/
def State.beginRead (s : State) (p : Port) (r : ReadRecord) : State :=
  { s with seq := { s.seq with arrayState := .read, inService := some { port := p, record := r, withdrawn := false } } }

/-- R147: a pending read is granted. -/
def State.grantRead (s : State) (p : Port) : State :=
  match s.seq.pendingReads.get p with
  | none => s
  | some r =>
    if s.readInProgress r.address r.length then (s.takeRead p).answer p r.frame .inProgress []
    else (s.takeRead p).beginRead p r

/-! ### Suspension (R150, R152) -/

/-- R152: the suspended step is resumed. -/
def State.resumeStep (s : State) : State :=
  State.formOffer
    { s with
      arrayOp := .running
      jobs := s.jobs.map (fun j => if j.state = .suspended then { j with state := .active } else j)
      seq := { s.seq with arrayState := .run, lastGrant := .job, resumeGap := .running Config.resumeGap } }

/-- The running step can be suspended. -/
def State.stepSuspendable (s : State) : Bool :=
  match s.arrayStep with
  | some step => step.suspendable
  | none => false

/-- R150: a suspend request is made when its conditions hold together. -/
def State.requestSuspend (s : State) : State :=
  if s.seq.arrayState = .run ∧ s.arrayOp = .running ∧ s.stepSuspendable = true ∧ s.seq.resumeGap = .elapsed
      ∧ 0 < s.pendingReadCount ∧ s.seq.suspendRequest = false then
    { s with arrayOp := .suspending, seq := { s.seq with suspendRequest := true } }
  else s

/-! ### The decision (R143, R144) -/

/-- What a decision grants. -/
inductive Decision where
  | read (p : Port)
  | resume
  | offer
  | nothing
  deriving DecidableEq, Repr

/-- R144: the first case that applies. -/
def State.decision (s : State) : Decision :=
  if s.jobSuspended then
    match s.nextReader with
    | some p => if s.seq.readsServed < Config.readsPerSuspension then .read p else .resume
    | none => .resume
  else
    match s.nextReader with
    | some p => if s.offer ≠ .none ∧ s.seq.lastGrant = .read then .offer else .read p
    | none => if s.offer ≠ .none then .offer else .nothing

/-- R143: decisions are made, in one event, as long as the array is left IDLE with something to grant. Each decision that
leaves it IDLE takes away a pending read or a job, so the number of both bounds the decisions. -/
def State.decideN : Nat → State → State
  | 0, s => s
  | n + 1, s =>
    if s.seq.arrayState = .idle then
      match s.decision with
      | .read p => State.decideN n (s.grantRead p)
      | .resume => s.resumeStep
      | .offer => State.decideN n s.grantOffer
      | .nothing => s
    else s

/-- The sequencer decides, if the array is IDLE. -/
def State.arbitrate (s : State) : State := State.decideN (s.jobs.length + s.pendingReadCount + 1) s

end Sys2Proof.Machine
end

