-- ==== Sys2Proof/Machine/Access.lean ====
section
/-! DEFINITION. Acceptance of reads and of write-side requests (R119, R141), traps (R83 to R85), holds (R86 to R92, R95,
R96), and the bytes of notice records (R187). -/

namespace Sys2Proof.Machine

/-! ### Notice records (Table 12.7) -/

/-- Action, then the three bytes from offset 5 and the byte at offset 7 of a STARTED record (R187). -/
def Recovery.bytes : Recovery → List Byte
  | .none => [0x00, 0x00, 0x00, 0x00]
  | .torn n c => 0x01 :: be2 n ++ [tornCauseCode c]
  | .save => [0x02, 0x00, 0x00, 0x00]
  | .freeze i => [0x03, byteOf i, 0x00, 0x00]

/-- The kind code and the fields of a notice. -/
def Notice.fields : Notice → List Byte
  | .jobEnd id kind status reason detail =>
    [0x01, id, jobKindCode kind, endStatusCode status, endReasonCode reason] ++ be2 detail
  | .trap w p kind a n id => [0x02, byteOf w.val, portCode p, accessKindCode kind] ++ be3 a ++ be3 n ++ [id]
  | .holdTimeout id w p v => [0x03, id, byteOf w.val, portCode p, verdictCode v]
  | .latchShut w cause => [0x04, byteOf w.val, latchCauseCode cause]
  | .guardChange g active => [0x05, guardInputCode g, flagByte active]
  | .bufferExpired b => [0x06, byteOf b.val]
  | .started table torn fuses action => [0x07, tableStateCode table, byteOf torn, byteOf fuses] ++ action.bytes

/-- The record of exactly 16 bytes, H'00 beyond the last field (R187). -/
def Notice.record (n : Notice) : List Byte := n.fields ++ List.replicate (16 - n.fields.length) 0x00

/-! ### Traps (R83, R84, R85) -/

/-- What the trap unit does with a request that would be accepted. -/
inductive TrapAction where
  | accept
  | note
  | park (watch : Port)
  deriving DecidableEq, Repr

/-- R83 to R86. A HOLD trap with no watch port cannot be set (R45); it is treated as NOTE (log 18). -/
def trapAction (t : Trap) (watch : Option Port) (p : Port) : TrapAction :=
  match t, watch with
  | .off, _ => .accept
  | .note, _ => .note
  | .hold, some q => if q = p then .note else .park q
  | .hold, none => .note

/-- Address of an access (Table 6.4). -/
def WriteReq.address (req : WriteReq) (x : Window) : Nat :=
  match req with
  | .program a _ => a
  | .eraseSector n => n * Config.sectorSize
  | .eraseWindow _ => x.fields.range.base

/-- Length of an access (Table 6.4). -/
def State.writeLength (s : State) (req : WriteReq) (x : Window) : Nat :=
  match req with
  | .program _ b => (s.buffer b).state.extent
  | .eraseSector _ => Config.sectorSize
  | .eraseWindow _ => x.fields.range.size

/-- The id that the next hold takes (R87). -/
def State.newHoldId (s : State) : Byte := freshId (s.holds.map Hold.id) s.holds.length s.nextHoldId

/-- A hold record is added at the tail of the hold table (R86). -/
def State.addHold (s : State) (h : Hold) : State := { s with holds := s.holds ++ [h], nextHoldId := idAfter h.id }

/-- The record of a new hold, its timer started with the header's hold limit (R86, R52). -/
def State.newHold (s : State) (p : Port) (f : Frame) (w : Slot) (watch : Port) (kind : AccessKind) : Hold :=
  { id := s.newHoldId, requester := p, watch := watch, slot := w, kind := kind, request := f,
    left := s.header.holdLimit * Config.tenMs }

def PortLink.hold (l : PortLink) : PortLink := { l with engine := .held }

/-- R86: the request is parked in a new hold. -/
def State.park (s : State) (p : Port) (f : Frame) (w : Slot) (watch : Port) (kind : AccessKind) (a n : Nat) : State :=
  ((s.addHold (s.newHold p f w watch kind)).post watch (.trap w p kind a n s.newHoldId)).modPort p PortLink.hold

/-! ### Acceptance of a READ (R141) -/

/-- A read record is added to the pending reads of its port. -/
def State.addPending (s : State) (p : Port) (r : ReadRecord) : State :=
  { s with seq := { s.seq with pendingReads := s.seq.pendingReads.set p (some r) } }

/-- The window's idle timer is reloaded if its idle-counts-reads setting is yes (R69). -/
def State.reloadForRead (s : State) (w : Slot) (x : Window) : State :=
  if x.fields.settings.idleCountsReads then s.syncIdle w true else s

/-- The TRAP notice of an accepted access, where it is to be noted (R84, R85). -/
def State.noteTrap (s : State) (note : Bool) (x : Window) (n : Notice) : State :=
  if note then s.postWatch x.fields.settings.watch n else s

/-- A new pending read: the sequencer decides if the array is IDLE, and may make a suspend request otherwise. -/
def State.considerReads (s : State) : State := if s.seq.arrayState = .idle then s.arbitrate else s.requestSuspend

/-- The acceptance event of a READ. -/
def State.acceptRead (s : State) (p : Port) (tag : Byte) (a n : Nat) (w : Slot) (x : Window) (note : Bool) : State :=
  (((s.addPending p { tag := tag, address := a, length := n, slot := w }).reloadForRead w x).noteTrap note x
    (.trap w p .read a n 0)).considerReads

/-- A READ that has passed the port checks: decode (R42, R44), then the read trap (R83). -/
def State.judgeRead (s : State) (p : Port) (f : Frame) : State :=
  let a := fieldAt f.body 0 3
  let n := fieldAt f.body 3 2
  match s.decodeRead p a n with
  | .error r => s.answer p f r []
  | .ok w =>
    match s.window w with
    | none => s.answer p f .noWindow []
    | some x =>
      match trapAction x.fields.settings.readTrap x.fields.settings.watch p with
      | .accept => s.acceptRead p f.tag a n w x false
      | .note => s.acceptRead p f.tag a n w x true
      | .park q => s.park p f w q .read a n

/-! ### Acceptance of a write-side request (R119) -/

/-- The work of the job record (R116). -/
def State.workOf (s : State) (w : Slot) (x : Window) (req : WriteReq) : JobWork :=
  match req with
  | .program a b => .program w a (s.buffer b).state.extent b
  | .eraseSector n => .eraseSector w n
  | .eraseWindow _ => .eraseWindow w x.fields.range

/-- R109: the named buffer becomes BOUND to the job and its lease stops. -/
def State.bindBuffer (s : State) (p : Port) (req : WriteReq) (id : Byte) : State :=
  match req with
  | .program _ b => s.setBuffer b { s.buffer b with state := .bound p (s.buffer b).state.extent id }
  | _ => s

/-- The acceptance event of a write-side request. -/
def State.acceptWrite (s : State) (p : Port) (f : Frame) (w : Slot) (x : Window) (req : WriteReq) (note : Bool) : State :=
  let bound := (s.addJob p (s.workOf w x req)).bindBuffer p req s.newJobId
  let noted := (bound.syncIdle w true).noteTrap note x
    (.trap w p req.access (req.address x) (s.writeLength req x) 0)
  ((noted.answer p f .accepted [s.newJobId]).formOffer).arbitrate

/-- A write-side request that has passed the port checks: the acceptance checks (R117), then the write trap (R119). -/
def State.judgeWrite (s : State) (p : Port) (f : Frame) (req : WriteReq) : State :=
  match s.acceptCheck p req with
  | .error r => s.answer p f r []
  | .ok (w, x) =>
    match trapAction x.fields.settings.writeTrap x.fields.settings.watch p with
    | .accept => s.acceptWrite p f w x req false
    | .note => s.acceptWrite p f w x req true
    | .park q => s.park p f w q req.access (req.address x) (s.writeLength req x)

/-! ### Resolution of a hold (R91, R92, R95, R96) -/

/-- R95, R96: the recheck of an allowed request; its trap is not judged again. -/
def State.recheck (s : State) (h : Hold) : State :=
  match writeReqOf h.kind h.request.body with
  | none =>
    let a := fieldAt h.request.body 0 3
    let n := fieldAt h.request.body 3 2
    match s.decodeRead h.requester a n with
    | .error r => s.answer h.requester h.request r []
    | .ok w =>
      match s.window w with
      | none => s.answer h.requester h.request .noWindow []
      | some x => s.acceptRead h.requester h.request.tag a n w x false
  | some req =>
    match s.acceptCheck h.requester req with
    | .error r => s.answer h.requester h.request r []
    | .ok (w, x) => s.acceptWrite h.requester h.request w x req false

/-- The hold leaves the hold table. -/
def State.removeHold (s : State) (h : Hold) : State := { s with holds := s.holds.filter (fun k => k.id != h.id) }

/-- The parked request is in progress again. -/
def PortLink.unhold (f : Frame) (l : PortLink) : PortLink :=
  { l with engine := .working, request := some { frame := f, judged := true } }

/-- R91: the hold leaves the table, the requester's engine moves from HELD to WORKING, and the parked request is answered
DENIED or checked again. -/
def State.resolveHold (s : State) (h : Hold) (v : Verdict) : State :=
  let t := (s.removeHold h).modPort h.requester (PortLink.unhold h.request)
  match v with
  | .deny => t.answer h.requester h.request .denied []
  | .allow => t.recheck h

/-- The hold default of a hold's window as it stands. The window is DEFINED as long as the hold lives (R88); with none the
default is DENY (log 18). -/
def State.holdDefault (s : State) (h : Hold) : Verdict :=
  match s.window h.slot with
  | some x => x.fields.settings.holdDefault
  | none => .deny

def State.findHold (s : State) (id : Byte) : Option Hold := s.holds.find? (fun h => h.id == id)

end Sys2Proof.Machine
end

