-- ==== Sys2Proof/Machine/StartUp.lean ====
section
/-! DEFINITION. Device reset and start-up: DEVICE_RESET (R175, R176), RESET_RELEASE (R175), RECOVER (R177, R178), LOAD (R179
to R181) and READY (R182). -/

namespace Sys2Proof.Machine

/-! ### What an interrupted step leaves (R31, R32) -/

/-- The bytes that a page program step writes: its buffer's from offset 0 (R24). -/
def State.stepData (s : State) (b : BufferNo) (n : Nat) : List Byte := Memory.readRange (s.buffer b).data 0 n

/-- A fuse slot some of whose bits a write has brought to the entry's (R32): each bit of the slot is ANDed with the
entry's bit, or left. -/
def FuseSlot.partly (f entry : FuseSlot) (n : Nat) : FuseSlot :=
  f.program { base := entry.base ||| Config.fuseBaseLeftBlank n, k := entry.k ||| Config.fuseSizeLeftBlank n }

/-- A device reset interrupts the step in progress: its target is left as R31 and R32 state, by free values (log 11,
log 12). -/
def State.interruptStep (s : State) : State :=
  match s.arrayStep with
  | none => s
  | some (.program a n b) =>
    State.drawn { s with mem := Memory.tearProgram s.mem (Config.tornProgramTaken s.freeCount) a (s.stepData b n) }
  | some (.erase n) =>
    State.drawn
      { s with mem := Memory.tearErase s.mem (Config.tornEraseBits s.freeCount) (n * Config.sectorSize) Config.sectorSize }
  | some (.save _) => State.drawn { s with image := Config.indeterminateImage s.freeCount }
  | some (.fuse i e) =>
    State.drawn
      { s with fuses := s.fuses.setIfInBounds i ((s.fuses.toList.getD i .blank).partly e s.freeCount) }

/-! ### RECOVER's action (Table 11.2) -/

/-- The action in the system area for the marker found. -/
def State.recoverAction (s : State) (m : Marker) : State :=
  match m with
  | .program n => { s with torn := tornAdd s.torn n .program }
  | .erase n => { s with torn := tornAdd s.torn n .erase }
  | .save => { s with imageState := .invalid }
  | .freeze i e => s.programFuse i e

/-- The recovery action to be reported. -/
def Marker.recovery : Marker → Recovery
  | .program n => .torn n .program
  | .erase n => .torn n .erase
  | .save => .save
  | .freeze i _ => .freeze i

/-- A device reset that falls in RECOVER finds what RECOVER has written so far (Table 11.3): nothing, part of a fuse slot,
the action, or the action with the marker cleared. How far it had come is a free value (log 13). -/
def State.interruptRecover (s : State) : State :=
  match s.marker with
  | none => s
  | some m =>
    if s.phase = .recover ∧ s.resetHeld = false then
      State.drawn
        (match Config.recoverReached s.freeCount % 4 with
         | 0 => s
         | 1 => match m with
           | .freeze i e =>
             { s with fuses := s.fuses.setIfInBounds i ((s.fuses.toList.getD i .blank).partly e s.freeCount) }
           | _ => s
         | 2 => s.recoverAction m
         | _ => { s.recoverAction m with marker := none })
    else s

/-! ### DEVICE_RESET -/

/-- R1: the bytes that have left TXDn when a device reset cuts the frame in transmission off. A byte that has begun is sent
to its end (log 26). -/
def PortLink.cutOff (rate : LinkRate) (l : PortLink) : List Byte :=
  match l.output with
  | [] => l.txBytes
  | f :: _ => if l.sending && decide (l.txLeft < rate.gapTime) then f.wire.take (l.txBytes.length + 1) else l.txBytes

/-- Table 2.2. TXDn returns to the idle level (R1), and what has left it is kept. -/
def PortLink.deviceReset (rate : LinkRate) (l : PortLink) : PortLink := { PortLink.reset with txBytes := l.cutOff rate }

/-- R175, R176: every block takes its reset values. Kept: the main array and the system area (as the interrupted step or
RECOVER left them), the levels of the guard pins, the record of the bytes that have left TXD, and, until they are sampled at the release, the admin port and the link
rate. -/
def State.deviceReset (s : State) : State :=
  let t := s.interruptRecover.interruptStep
  { State.reset with
    ports := t.ports.map (PortLink.deviceReset t.linkRate)
    linkRate := t.linkRate
    adminPort := t.adminPort
    guards := { g0 := { t.guards.g0 with input := .inactive }, g1 := { t.guards.g1 with input := .inactive } }
    mem := t.mem
    fuses := t.fuses
    marker := t.marker
    torn := t.torn
    imageState := t.imageState
    image := t.image
    freeCount := t.freeCount
    pending := t.pending }

def execDeviceReset (s : State) : Host.Outcome State Fault Refusal := .next s.deviceReset

/-! ### RESET_RELEASE -/

/-- R175: the straps are sampled, and the start-up control begins RECOVER. -/
def State.resetRelease (s : State) (admsel ratesel : BitVec 2) : State :=
  if s.resetHeld then
    { s with resetHeld := false, adminPort := Port.ofStraps admsel, linkRate := LinkRate.ofStraps ratesel }
  else s

def execResetRelease (admsel ratesel : BitVec 2) (s : State) : Host.Outcome State Fault Refusal :=
  .next (s.resetRelease admsel ratesel)

/-! ### RECOVER -/

/-- R177: the action for the marker found, the marker cleared, and the phase moved to LOAD. -/
def State.recover (s : State) : State :=
  if s.phase = .recover ∧ s.resetHeld = false then
    match s.marker with
    | none => { s with recovery := .none, phase := .load }
    | some m => { s.recoverAction m with marker := none, recovery := m.recovery, phase := .load }
  else s

def execRecover (s : State) : Host.Outcome State Fault Refusal := .next s.recover

/-! ### LOAD -/

/-- A slot loaded DEFINED gets a latch SHUT and its idle timer STOPPED (R180). -/
def Window.loaded (f : WindowFields) : Window := { fields := f, latchOpen := false, idle := .stopped }

/-- R180: the window table by the image state. -/
def State.loadTable (s : State) : State :=
  match s.imageState with
  | .valid =>
    { s with windows := s.image.slots.map (fun x => x.map Window.loaded), header := s.image.header, tableState := .saved }
  | .invalid => { s with windows := Vector.replicate 16 none, header := Header.empty, tableState := .lost }
  | .none => { s with windows := Vector.replicate 16 none, header := Header.empty, tableState := .blank }

/-- R181: both raw levels are sampled, and each input is set from its asserted level at once. -/
def State.sampleGuards (s : State) : State :=
  { s with
    guardsFollow := true
    guards :=
      { g0 := { s.guards.g0 with input := .ofAsserted (assertedLevel s.header.g0 s.guards.g0.high) }
        g1 := { s.guards.g1 with input := .ofAsserted (assertedLevel s.header.g1 s.guards.g1.high) } } }

/-- LOAD acts once in its phase (log 17): the protection records are used as they are stored (R179), the table is loaded
and the guard inputs are sampled. -/
def State.load (s : State) : State :=
  if s.phase = .load ∧ s.guardsFollow = false then s.loadTable.sampleGuards else s

def execLoad (s : State) : Host.Outcome State Fault Refusal := .next s.load

/-! ### READY -/

/-- The STARTED notice (R182). -/
def State.startedNotice (s : State) : Notice := .started s.tableState s.torn.length s.fuseCount s.recovery

/-- R182: the phase reaches READY, all four ports become READY, and STARTED is posted to each. -/
def State.becomeReady (s : State) : State :=
  if s.phase = .load ∧ s.guardsFollow = true then
    State.postEach { s with phase := .ready, ports := s.ports.map (fun l => { l with ready := true }) } Port.all
      s.startedNotice
  else s

def execReady (s : State) : Host.Outcome State Fault Refusal := .next s.becomeReady

end Sys2Proof.Machine
end

