-- ==== Sys2Proof/Machine/ArrayEvents.lean ====
section
/-! DEFINITION. The array: READ (R141), RESUME_GAP_EXPIRY (R149), SUSPENSION_TAKEN (R151), READ_SERVICE_COMPLETION (R148) and
the completions of the four kinds of step (R127 to R131, R154, R162, R167). -/

namespace Sys2Proof.Machine

/-! ### Reads and suspension -/

def execRead (p : Port) (s : State) : Host.Outcome State Fault Refusal :=
  .next (s.onRequest .read p (fun f t => t.judgeRead p f))

/-- R149, R150. -/
def State.expireResumeGap (s : State) : State :=
  match s.seq.resumeGap with
  | .running _ => State.requestSuspend { s with seq := { s.seq with resumeGap := .elapsed } }
  | _ => s

def execResumeGapExpiry (s : State) : Host.Outcome State Fault Refusal := .next s.expireResumeGap

/-- R126: the ACTIVE job becomes SUSPENDED and its suspension count rises, holding at 65,535. -/
def Job.suspend (j : Job) : Job :=
  if j.state = .active then
    { j with state := .suspended, suspensions := min (j.suspensions + 1) Config.suspensionCountMax }
  else j

/-- R151: the array halts the step, and the job, the counters and the timer follow. -/
def State.haltStep (s : State) : State :=
  { s with
    arrayOp := .suspended
    jobs := s.jobs.map Job.suspend
    seq := { s.seq with arrayState := .idle, readsServed := 0, suspendRequest := false, resumeGap := .stopped } }

/-- R151: the suspension is taken, and the sequencer decides. -/
def State.takeSuspension (s : State) : State :=
  if s.arrayOp = .suspending then s.haltStep.formOffer.arbitrate else s

def execSuspensionTaken (s : State) : Host.Outcome State Fault Refusal := .next s.takeSuspension

/-- R148: some sector that the range touches is in the torn list. -/
def State.readTorn (s : State) (a n : Nat) : Bool := s.torn.any (fun e => touchesSector a n e.sector)

/-- The fields of a READ answer: the flags, and the stored values in address order (R23). -/
def State.readFields (s : State) (r : ReadRecord) : List Byte :=
  readFlags (s.readTorn r.address r.length) :: Memory.readRange s.mem r.address r.length

/-- The read in service becomes none, and the array IDLE. -/
def State.endService (s : State) : State :=
  { s with seq := { s.seq with inService := none, arrayState := .idle } }

/-- R148, and R155 for a read whose port was cleared. -/
def State.completeRead (s : State) : State :=
  match s.seq.inService with
  | none => s
  | some r =>
    if r.withdrawn then s.endService.arbitrate
    else (s.endService.answer r.port r.record.frame .ok (s.readFields r.record)).arbitrate

def execReadServiceCompletion (s : State) : Host.Outcome State Fault Refusal := .next s.completeRead

/-! ### Step completions -/

/-- R154, R167: the marker is cleared, the array is NONE, the sequencer IDLE with its gap timer STOPPED and no suspend
request. -/
def State.stepDone (s : State) : State :=
  { s with
    marker := none
    arrayOp := .none
    arrayStep := none
    seq := { s.seq with arrayState := .idle, resumeGap := .stopped, suspendRequest := false } }

/-- The ACTIVE job ends in its step's completion event. -/
def State.endActive (s : State) (status : EndStatus) (detail : Nat) : State :=
  match s.activeJob with
  | some j => s.endJob j status .none detail true
  | none => s.formOffer

/-- The step in progress, when it is RUNNING and so may complete (R29, R30; log 23). -/
def State.runningStep (s : State) : Option ArrayStep := if s.arrayOp = .running then s.arrayStep else none

/-- R24, R26, R127. -/
def State.completeProgram (s : State) : State :=
  match s.runningStep with
  | some (.program a n b) =>
    let data := s.stepData b n
    let t := { s with mem := Memory.programRange s.mem a data }
    let count := Memory.countDiff t.mem a data
    (t.stepDone.endActive (if count = 0 then .done else .mismatch) count).arbitrate
  | _ => s

def execProgramStepCompletion (s : State) : Host.Outcome State Fault Refusal := .next s.completeProgram

/-- R128, R129: the job of a completed sector erase ends, or offers its next step. -/
def State.eraseStepEnds (s : State) : State :=
  match s.activeJob with
  | none => s.formOffer
  | some j =>
    if j.work.isEraseWindow then
      if j.sectorsDone + 1 = j.sectorsTotal then s.endJob j .done .none (j.sectorsDone + 1) true
      else (s.modJob j.id (fun k => { k with sectorsDone := k.sectorsDone + 1 })).formOffer
    else s.endJob j .done .none 1 true

/-- R25, R128, R129, R169. -/
def State.completeErase (s : State) : State :=
  match s.runningStep with
  | some (.erase n) =>
    let t := { s with
      mem := Memory.eraseRange s.mem (n * Config.sectorSize) Config.sectorSize
      torn := s.torn.filter (fun e => e.sector != n) }
    t.stepDone.eraseStepEnds.arbitrate
  | _ => s

def execSectorEraseCompletion (s : State) : Host.Outcome State Fault Refusal := .next s.completeErase

/-- R57, R131. -/
def State.completeSave (s : State) : State :=
  match s.runningStep with
  | some (.save capture) =>
    let t := { s with
      image := capture
      imageState := .valid
      tableState := if s.captureMark = CaptureMark.clean then .saved else s.tableState
      captureMark := .none }
    (t.stepDone.endActive .done 0).arbitrate
  | _ => s

def execTableSaveCompletion (s : State) : Host.Outcome State Fault Refusal := .next s.completeSave

/-- R131, R162. -/
def State.completeFuse (s : State) : State :=
  match s.runningStep with
  | some (.fuse i entry) => (((s.programFuse i entry).stepDone).endActive .done i).arbitrate
  | _ => s

def execFuseWriteCompletion (s : State) : Host.Outcome State Fault Refusal := .next s.completeFuse

end Sys2Proof.Machine
end

