-- ==== Sys2Proof/Machine/Buffers.lean ====
section
/-! DEFINITION. The staging buffer pool: CLAIM_BUFFER (R102), FILL (R103), RELEASE_BUFFER (R104) and LEASE_EXPIRY (R106). -/

namespace Sys2Proof.Machine

/-- The FREE buffer with the lowest number (R102). -/
def State.lowestFree (s : State) : Option BufferNo := allBuffers.find? (fun b => (s.buffer b).state == .free)

/-- R102: the limit of two buffers, then the lowest FREE buffer, which becomes FILLING with every byte H'FF, extent 0 and
a full lease. -/
def State.claim (s : State) (p : Port) (f : Frame) : State :=
  if Config.buffersPerPort ≤ s.buffersOwned p then s.answer p f .bufferLimit []
  else
    match s.lowestFree with
    | none => s.answer p f .noBuffer []
    | some b => (s.setBuffer b { state := .filling p 0 s.leaseTime, data := [] }).answer p f .ok [byteOf b.val]

def execClaimBuffer (p : Port) (s : State) : Host.Outcome State Fault Refusal :=
  .next (s.onRequest .claimBuffer p (fun f t => t.claim p f))

/-- R103: the bytes are written from the offset, the extent does not fall, and the lease is reloaded. -/
def State.fill (s : State) (p : Port) (f : Frame) : State :=
  let b := bufferAt f.body 0
  let offset := (byteAt f.body 1).toNat
  let bytes := f.body.drop 2
  if !s.fillingFor b p then s.answer p f .notOwner []
  else if Config.pageSize < offset + bytes.length then s.answer p f .range []
  else
    let extent := max (s.buffer b).state.extent (offset + bytes.length)
    (s.setBuffer b
      { state := .filling p extent s.leaseTime, data := Memory.writeRange (s.buffer b).data offset bytes }).answer
        p f .ok (be2 extent)

def execFill (p : Port) (s : State) : Host.Outcome State Fault Refusal :=
  .next (s.onRequest .fill p (fun f t => t.fill p f))

/-- R104. -/
def State.releaseBuffer (s : State) (p : Port) (f : Frame) : State :=
  let b := bufferAt f.body 0
  match (s.buffer b).state with
  | .bound _ _ _ => s.answer p f .bound []
  | .filling o _ _ => if o = p then (s.freeBuffer b).answer p f .ok [] else s.answer p f .notOwner []
  | .free => s.answer p f .notOwner []

def execReleaseBuffer (p : Port) (s : State) : Host.Outcome State Fault Refusal :=
  .next (s.onRequest .releaseBuffer p (fun f t => t.releaseBuffer p f))

/-- R106: the buffer becomes FREE and BUFFER_EXPIRED goes to its former owner. -/
def State.expireLease (s : State) (b : BufferNo) : State :=
  match (s.buffer b).state with
  | .filling p _ _ => (s.freeBuffer b).post p (.bufferExpired b)
  | _ => s

def execLeaseExpiry (b : BufferNo) (s : State) : Host.Outcome State Fault Refusal := .next (s.expireLease b)

end Sys2Proof.Machine
end

