-- ==== Sys2Proof/Machine/Guards.lean ====
section
/-! DEFINITION. The guard input unit: SET_GUARD (R78), GUARD_LEVEL_CHANGE (R74, R75) and SETTLE_TIMER_EXPIRY (R74). -/

namespace Sys2Proof.Machine

/-- The input of a SET-GUARD body (port-checked). -/
def guardInputAt (body : List Byte) (i : Nat) : GuardInput := if byteAt body i = 0x01 then .g0 else .g1

/-- The setting that a SET-GUARD body gives (port-checked). -/
def guardSettingAt (body : List Byte) : GuardSetting :=
  { activeHigh := byteAt body 1 == 0x01, debounce := byteAt body 2 == 0x01 }

/-- R78: the header's setting is replaced, and the input takes the state of its asserted level at once. -/
def State.applyGuard (s : State) (g : GuardInput) (x : GuardSetting) : State :=
  State.setInput { s with header := s.header.setGuard g x } g (.ofAsserted (assertedLevel x (s.guardPin g).high))

/-- R78. -/
def State.setGuard (s : State) (p : Port) (f : Frame) : State :=
  match s.editCheck p with
  | some r => s.answer p f r []
  | none => ((s.applyGuard (guardInputAt f.body 0) (guardSettingAt f.body)).edited).answer p f .ok []

def execSetGuard (p : Port) (s : State) : Host.Outcome State Fault Refusal :=
  .next (s.onRequest .setGuard p (fun f t => t.setGuard p f))

/-- R74, R75: the input state after a change of the asserted level. -/
def InputState.afterLevel (debounce asserted : Bool) (x : InputState) : InputState :=
  if debounce then
    match x, asserted with
    | .inactive, true => .settlingToActive Config.settleTime
    | .settlingToActive _, false => .inactive
    | .active, false => .settlingToInactive Config.settleTime
    | .settlingToInactive _, true => .active
    | y, _ => y
  else .ofAsserted asserted

/-- GUARD_LEVEL_CHANGE: the raw level follows the pin at all times, and the input state follows it once the unit follows
its pins (R73, R79). -/
def State.guardLevel (s : State) (g : GuardInput) (high : Bool) : State :=
  let t := s.setGuardPin g { s.guardPin g with high := high }
  if s.guardsFollow = true ∧ high ≠ (s.guardPin g).high then
    t.setInput g (InputState.afterLevel (s.header.guard g).debounce (assertedLevel (s.header.guard g) high)
      (s.guardPin g).input)
  else t

def execGuardLevelChange (g : GuardInput) (high : Bool) (s : State) : Host.Outcome State Fault Refusal :=
  .next (s.guardLevel g high)

/-- SETTLE_TIMER_EXPIRY (R74). -/
def State.expireSettle (s : State) (g : GuardInput) : State :=
  match (s.guardPin g).input with
  | .settlingToActive _ => s.setInput g .active
  | .settlingToInactive _ => s.setInput g .inactive
  | _ => s

def execSettleTimerExpiry (g : GuardInput) (s : State) : Host.Outcome State Fault Refusal := .next (s.expireSettle g)

end Sys2Proof.Machine
end

