-- ==== Sys2Proof/Machine/Jobs.lean ====
section
/-! DEFINITION. Requests of the job queue: PROGRAM, ERASE_SECTOR and ERASE_WINDOW (R117 to R119), CANCEL (R134), JOB_QUERY
(R136), SAVE_TABLE (R59, R120) and FREEZE_WINDOW (R160, R161). -/

namespace Sys2Proof.Machine

/-! ### Write-side requests -/

def execProgram (p : Port) (s : State) : Host.Outcome State Fault Refusal :=
  .next (s.onRequest .program p (fun f t => t.judgeWrite p f (.program (fieldAt f.body 0 3) (bufferAt f.body 3))))

def execEraseSector (p : Port) (s : State) : Host.Outcome State Fault Refusal :=
  .next (s.onRequest .eraseSector p (fun f t => t.judgeWrite p f (.eraseSector (fieldAt f.body 0 2))))

def execEraseWindow (p : Port) (s : State) : Host.Outcome State Fault Refusal :=
  .next (s.onRequest .eraseWindow p (fun f t => t.judgeWrite p f (.eraseWindow (slotAt f.body 0))))

/-! ### CANCEL -/

/-- R134: no such job, not the owner or the admin port, and then by the job's state and kind. -/
def State.cancel (s : State) (p : Port) (f : Frame) : State :=
  match s.findJob (byteAt f.body 0) with
  | none => s.answer p f .noSuchJob []
  | some j =>
    if p ≠ j.owner ∧ p ≠ s.adminPort then s.answer p f .notOwner []
    else if j.state = .queued then ((s.endJob j .cancelled .none 0 true).answer p f .ok [flagByte false]).arbitrate
    else if j.work.isEraseWindow then
      (s.modJob j.id (fun k => { k with stopRequested := true })).answer p f .ok [flagByte true]
    else s.answer p f .tooLate []

def execCancel (p : Port) (s : State) : Host.Outcome State Fault Refusal :=
  .next (s.onRequest .cancel p (fun f t => t.cancel p f))

/-! ### JOB_QUERY -/

/-- The fields of R136 (Table 12.5). -/
def State.jobFields (s : State) (j : Job) : List Byte :=
  [portCode j.owner, jobKindCode j.work.kind, jobStateCode j.state,
   byteOf (s.jobs.findIdx (fun k => k.id == j.id) + 1)]
    ++ be2 j.sectorsDone ++ be2 j.sectorsTotal ++ [flagByte j.stopRequested] ++ be2 j.suspensions

/-- R136. -/
def State.queryJob (s : State) (p : Port) (f : Frame) : State :=
  match s.findJob (byteAt f.body 0) with
  | none => s.answer p f .noSuchJob []
  | some j => s.answer p f .ok (s.jobFields j)

def execJobQuery (p : Port) (s : State) : Host.Outcome State Fault Refusal :=
  .next (s.onRequest .jobQuery p (fun f t => t.queryJob p f))

/-! ### SAVE_TABLE -/

/-- R59, checks 1 to 4. -/
def State.saveCheck (s : State) (p : Port) : Option Result :=
  match s.editCheck p with
  | some r => some r
  | none =>
    if s.jobs.any (fun j => j.work == .saveTable) then some .busy
    else if Config.jobMax ≤ s.jobs.length then some .queueFull
    else none

/-- R59, R120: a job record that names no window. -/
def State.saveTable (s : State) (p : Port) (f : Frame) : State :=
  match s.saveCheck p with
  | some r => s.answer p f r []
  | none => (((s.addJob p .saveTable).answer p f .accepted [s.newJobId]).formOffer).arbitrate

def execSaveTable (p : Port) (s : State) : Host.Outcome State Fault Refusal :=
  .next (s.onRequest .saveTable p (fun f t => t.saveTable p f))

/-! ### FREEZE_WINDOW -/

/-- R160, check 3: the range lies inside one frozen range, equality included. -/
def State.alreadyFrozen (s : State) (r : Range) : Bool := s.frozenRanges.any (fun q => r.inside q)

/-- R160, check 4: a sector of the range is in the torn list. -/
def State.rangeTorn (s : State) (r : Range) : Bool := s.torn.any (fun e => r.hasSector e.sector)

/-- R160, checks 3 to 6. -/
def State.freezeCheck (s : State) (r : Range) : Option Result :=
  if s.alreadyFrozen r then some .alreadyFrozen
  else if s.rangeTorn r then some .torn
  else if Config.fuseMax ≤ s.fuseCount + s.reservations.length then some .fuseFull
  else if Config.jobMax ≤ s.jobs.length then some .queueFull
  else none

/-- R161: the job record and the reservation, and the window's live job count. -/
def State.acceptFreeze (s : State) (p : Port) (w : Slot) (r : Range) : State :=
  let a := s.addJob p (.freezeWindow w r)
  State.syncIdle { a with reservations := a.reservations ++ [{ job := s.newJobId, range := r }] } w true

/-- R160 and R161. -/
def State.freeze (s : State) (p : Port) (f : Frame) : State :=
  let w := slotAt f.body 0
  match s.adminCheck p with
  | some r => s.answer p f r []
  | none =>
    match s.window w with
    | none => s.answer p f .noWindow []
    | some x =>
      match s.freezeCheck x.fields.range with
      | some r => s.answer p f r []
      | none => (((s.acceptFreeze p w x.fields.range).answer p f .accepted [s.newJobId]).formOffer).arbitrate

def execFreezeWindow (p : Port) (s : State) : Host.Outcome State Fault Refusal :=
  .next (s.onRequest .freezeWindow p (fun f t => t.freeze p f))

end Sys2Proof.Machine
end

