-- ==== Sys2Proof/Machine/Latches.lean ====
section
/-! DEFINITION. Write latches, idle timers and traps' verdicts: OPEN_LATCH (R65), SHUT_LATCH (R66), SHUT_ALL (R67),
IDLE_TIMER_EXPIRY (R71), VERDICT (R90) and HOLD_LIMIT_EXPIRY (R93). -/

namespace Sys2Proof.Machine

/-! ### Latches -/

/-- The latch is OPEN, and its idle timer is as R69 gives it: loaded where it was SHUT, reloaded where it was OPEN. -/
def State.setOpen (s : State) (w : Slot) (x : Window) : State :=
  (s.setWindow w (some { x with latchOpen := true })).syncIdle w true

/-- R65. -/
def State.openLatch (s : State) (p : Port) (f : Frame) : State :=
  let w := slotAt f.body 0
  match s.window w with
  | none => s.answer p f .noWindow []
  | some x =>
    if !PortSet.has x.fields.settings.writers p then s.answer p f .notWriter []
    else if s.guardReads x.fields.settings.guard then s.answer p f .guarded []
    else (s.setOpen w x).answer p f .ok []

def execOpenLatch (p : Port) (s : State) : Host.Outcome State Fault Refusal :=
  .next (s.onRequest .openLatch p (fun f t => t.openLatch p f))

/-- R66. -/
def State.shutOnRequest (s : State) (p : Port) (f : Frame) : State :=
  let w := slotAt f.body 0
  match s.window w with
  | none => s.answer p f .noWindow []
  | some x =>
    if x.fields.settings.latchPorts.contains p then (s.shutLatch w .request).answer p f .ok []
    else s.answer p f .notWriter []

def execShutLatch (p : Port) (s : State) : Host.Outcome State Fault Refusal :=
  .next (s.onRequest .shutLatch p (fun f t => t.shutOnRequest p f))

/-- The number of latches that are OPEN. -/
def State.openCount (s : State) : Nat := (allSlots.filter (fun w => s.latchIsOpen (some w))).length

/-- Every OPEN latch is shut, in ascending order of slot number. -/
def State.shutEvery (s : State) (cause : LatchCause) : State := allSlots.foldl (fun s w => s.shutLatch w cause) s

/-- R67. -/
def State.shutAll (s : State) (p : Port) (f : Frame) : State :=
  match s.adminCheck p with
  | some r => s.answer p f r []
  | none => (s.shutEvery .admin).answer p f .ok [byteOf s.openCount]

def execShutAll (p : Port) (s : State) : Host.Outcome State Fault Refusal :=
  .next (s.onRequest .shutAll p (fun f t => t.shutAll p f))

/-- R71: expiry is possible only from COUNTING. -/
def State.expireIdle (s : State) (w : Slot) : State :=
  match s.window w with
  | none => s
  | some x =>
    match x.idle with
    | .counting _ => s.shutLatch w .idle
    | _ => s

def execIdleTimerExpiry (w : Slot) (s : State) : Host.Outcome State Fault Refusal := .next (s.expireIdle w)

/-! ### Holds -/

/-- The verdict of a request body (port-checked). -/
def verdictAt (body : List Byte) (i : Nat) : Verdict := if byteAt body i = 0x01 then .allow else .deny

/-- R90. -/
def State.giveVerdict (s : State) (p : Port) (f : Frame) : State :=
  match s.findHold (byteAt f.body 0) with
  | none => s.answer p f .noSuchHold []
  | some h =>
    if h.watch = p then (s.resolveHold h (verdictAt f.body 1)).answer p f .ok []
    else s.answer p f .notWatcher []

def execVerdict (p : Port) (s : State) : Host.Outcome State Fault Refusal :=
  .next (s.onRequest .verdict p (fun f t => t.giveVerdict p f))

/-- R93: HOLD_TIMEOUT is posted, and the hold is resolved with the hold default. -/
def State.expireHold (s : State) (id : Byte) : State :=
  match s.findHold id with
  | none => s
  | some h => (s.post h.watch (.holdTimeout h.id h.slot h.requester (s.holdDefault h))).resolveHold h (s.holdDefault h)

def execHoldLimitExpiry (id : Byte) (s : State) : Host.Outcome State Fault Refusal := .next (s.expireHold id)

end Sys2Proof.Machine
end

