-- ==== Sys2Proof/Machine/Links.lean ====
section
/-! DEFINITION. The port links: BYTE_RECEIVED, LENGTH_ABANDON, GAP_TIMER_EXPIRY (R2, R3), FRAME_CHECK (R4, R5),
RESPONSE_SENT (R6, R7), PORT_CLEAR and CLR_FALLING_EDGE (R15 to R18), UNKNOWN_TYPE (R8), STATUS (R14) and FETCH_NOTICES
(R13). -/

namespace Sys2Proof.Machine

/-! ### Port clear (R16, R17) -/

/-- R16: the link's own state. Frames that have not begun transmission are discarded; one in transmission is sent to its
end, and no longer answers a request in progress. -/
def PortLink.clear (l : PortLink) : PortLink :=
  PortLink.syncAtn
    { l with
      inbound := []
      engine := .waiting
      request := none
      output := if l.sending then (l.output.take 1).map (fun f => { f with kind := if f.kind = .answer then .orphan else f.kind })
        else []
      notices := []
      overflow := false }

/-- R112: the buffers FILLING for the port become FREE without notice. -/
def State.clearBuffers (s : State) (p : Port) : State :=
  allBuffers.foldl (fun s b => if s.fillingFor b p then s.freeBuffer b else s) s

/-- R137: the QUEUED jobs of the port are removed without JOB_END, oldest first, and the sequencer decides. -/
def State.clearJobs (s : State) (p : Port) : State :=
  State.arbitrate
    ((s.jobs.filter (fun j => j.owner == p && j.state == .queued)).foldl
      (fun s j => s.endJob j .cancelled .none 0 false) s).formOffer

/-- R97: the hold whose requester is the port is removed. -/
def State.clearOwnHold (s : State) (p : Port) : State := { s with holds := s.holds.filter (fun h => h.requester != p) }

/-- R98: the holds that the port watches are resolved with their windows' hold defaults, oldest first. -/
def State.clearWatched (s : State) (p : Port) : State :=
  (s.holds.filter (fun h => h.watch == p)).foldl (fun s h => s.resolveHold h (s.holdDefault h)) s

/-- R155: a pending read of the port is withdrawn; its read in service runs to completion without a response. -/
def State.clearReads (s : State) (p : Port) : State :=
  { s with seq := { s.seq with
      pendingReads := s.seq.pendingReads.set p none
      inService := s.seq.inService.map (fun r => if r.port = p then { r with withdrawn := true } else r) } }

/-- A port clear: the link, then the blocks in the order of the table of R17 (log 10). -/
def State.clearPort (s : State) (p : Port) : State :=
  let a := (s.askTransmission p).modPort p PortLink.clear
  (((((a.clearBuffers p).clearJobs p).clearOwnHold p).clearWatched p).clearReads p)

/-- R17: a good PORT-CLEAR frame is answered OK after all the effects of the clear. -/
def State.portClearFrame (s : State) (p : Port) (tag : Byte) : State :=
  (s.clearPort p).modPort p (fun l => l.pushOut { kind := .portClear, type := 0x92, tag := tag, body := [Result.ok.code] })

/-! ### Frame check (R4, R5) -/

/-- The frame that an assembly spells. -/
def Assembly.frame (a : Assembly) : Frame :=
  { type := a.content.getD 0 0, tag := a.content.getD 1 0, body := a.content.drop 2 }

/-- R4: the running CRC agrees with the received CRC. -/
def Assembly.good (a : Assembly) : Bool := a.crc.toNat == fromBE a.crcBytes

/-- A PORT-CLEAR frame: TYPE H'12 and LEN 2 (R5). -/
def Frame.isPortClear (f : Frame) : Bool := f.type == ReqType.portClear.code && f.body.isEmpty

/-- R5: a good frame is disposed of on arrival. -/
def State.disposeFrame (s : State) (p : Port) (f : Frame) : State :=
  if (s.port p).ready = false then s.linkError p .notReady
  else if f.isPortClear then s.portClearFrame p f.tag
  else if Config.inboundMax ≤ (s.port p).inbound.length then s.linkError p .rxFull
  else s.modPort p (fun l => PortLink.takeRequest { l with inbound := l.inbound ++ [f] })

/-- The framer is back in HUNT at the end of CHECK (R4). -/
def State.checkFrame (s : State) (p : Port) : State :=
  match (s.port p).framer with
  | .check a =>
    let t := s.modPort p (fun l => { l with framer := .hunt })
    if a.good then t.disposeFrame p a.frame else t.linkError p .badFrame
  | _ => s

def execFrameCheck (p : Port) (s : State) : Host.Outcome State Fault Refusal := .next (s.checkFrame p)

/-! ### Bytes (R2, R3) -/

/-- LEN, formed from the two LEN bytes, first byte most significant. -/
def Assembly.len (a : Assembly) : Nat := fromBE a.lenBytes

/-- LEN lies in 2 to 260. -/
def Assembly.lenOk (a : Assembly) : Bool := decide (2 ≤ a.len) && decide (a.len ≤ 260)

/-- R2: both LEN bytes have come and LEN lies outside 2 to 260. -/
def Assembly.badLength (a : Assembly) : Bool := a.lenBytes.length == 2 && !a.lenOk

/-- LENGTH_ABANDON: the frame is abandoned without response. -/
def State.abandonLength (s : State) (p : Port) : State :=
  match (s.port p).framer with
  | .length a => if a.badLength then s.modPort p (fun l => { l with framer := .hunt }) else s
  | _ => s

def execLengthAbandon (p : Port) (s : State) : Host.Outcome State Fault Refusal := .next (s.abandonLength p)

/-- A frame under assembly as the SYNC byte begins it. -/
def Assembly.start (gap : Nat) : Assembly :=
  { lenBytes := [], content := [], crcBytes := [], crc := crcStart, gapLeft := gap }

/-- The framer after one byte, the gap timer restarted with `gap`. -/
def Framer.byte (gap : Nat) (b : Byte) : Framer → Framer
  | .hunt => if b = 0xC5 then .length (Assembly.start gap) else .hunt
  | .length a =>
    let c := { a with lenBytes := a.lenBytes ++ [b], crc := crcByte a.crc b, gapLeft := gap }
    if c.lenBytes.length = 2 ∧ c.lenOk = true then .body c else .length c
  | .body a =>
    if a.content.length < a.len then
      .body { a with content := a.content ++ [b], crc := crcByte a.crc b, gapLeft := gap }
    else
      let c := { a with crcBytes := a.crcBytes ++ [b], gapLeft := gap }
      if c.crcBytes.length = 2 then .check c else .body c
  | .check a => .check a

/-- BYTE_RECEIVED. While RESETN is low received bytes are not examined (R175). A check or an abandoning that is due ends
before the next byte is examined, in HUNT (R2, R4; log 14). -/
def State.receiveByte (s : State) (p : Port) (b : Byte) : State :=
  if s.resetHeld then s
  else
    let t := (s.checkFrame p).abandonLength p
    t.modPort p (fun l => { l with framer := l.framer.byte t.linkRate.gapTime b })

def execByteReceived (p : Port) (b : Byte) (s : State) : Host.Outcome State Fault Refusal := .next (s.receiveByte p b)

/-- GAP_TIMER_EXPIRY (R3): the frame under assembly is abandoned without response. -/
def State.expireGap (s : State) (p : Port) : State :=
  match (s.port p).framer with
  | .length _ => s.modPort p (fun l => { l with framer := .hunt })
  | .body _ => s.modPort p (fun l => { l with framer := .hunt })
  | _ => s

def execGapTimerExpiry (p : Port) (s : State) : Host.Outcome State Fault Refusal := .next (s.expireGap p)

/-! ### Transmission (R6, R7) -/

/-- A frame leaves the output list when its last byte has been sent (log 22), and TXDn is at the idle level; if it answers the request in progress, the engine
returns to WAITING and takes the next request. -/
def PortLink.sent (l : PortLink) : PortLink :=
  match l.output with
  | [] => l
  | f :: rest =>
    let m := { l with output := rest, sending := false, txBytes := f.wire, txLeft := 0 }
    if f.kind = .answer then PortLink.takeRequest { m with engine := .waiting, request := none } else m

def execResponseSent (p : Port) (s : State) : Host.Outcome State Fault Refusal := .next (s.modPort p PortLink.sent)

/-! ### Port clear events (R15) -/

/-- PORT_CLEAR. The good PORT-CLEAR frame that stands in CHECK on a READY port is taken as a port clear. A taken request of
TYPE H'12, which has LEN other than 2, is answered BAD_LENGTH (R8; log 15). -/
def State.portClearEvent (s : State) (p : Port) : State :=
  match (s.port p).framer with
  | .check a => if a.frame.isPortClear then s.checkFrame p else s.onRequest .portClear p (fun _ t => t)
  | _ => s.onRequest .portClear p (fun _ t => t)

def execPortClear (p : Port) (s : State) : Host.Outcome State Fault Refusal := .next (s.portClearEvent p)

/-- CLR_FALLING_EDGE: a port clear that also discards a frame under assembly and sends nothing; ignored while STARTING. -/
def State.clrEdge (s : State) (p : Port) : State :=
  if (s.port p).ready then (s.modPort p (fun l => { l with framer := .hunt })).clearPort p else s

def execClrFallingEdge (p : Port) (s : State) : Host.Outcome State Fault Refusal := .next (s.clrEdge p)

/-! ### Requests of the link itself -/

/-- UNKNOWN_TYPE: response type H'80 and the result byte alone (R8). -/
def State.refuseUnknown (s : State) (p : Port) : State :=
  match s.taken p with
  | none => s
  | some f =>
    if ReqType.ofCode f.type = none then
      (s.modPort p PortLink.markJudged).answer p { f with type := 0x00 } .unknownType []
    else s

def execUnknownType (p : Port) (s : State) : Host.Outcome State Fault Refusal := .next (s.refuseUnknown p)

/-- The ten values of STATUS (R14, Table 12.5). -/
def State.statusFields (s : State) (p : Port) : List Byte :=
  [flagByte (p = s.adminPort), tableStateCode s.tableState, flagByte s.locked, byteOf s.jobs.length,
   byteOf s.buffersFree, byteOf s.torn.length, byteOf s.fuseCount, byteOf s.reservations.length,
   byteOf (s.port p).notices.length, flagByte (s.port p).overflow]

def execStatus (p : Port) (s : State) : Host.Outcome State Fault Refusal :=
  .next (s.onRequest .status p (fun f t => t.answer p f .ok (t.statusFields p)))

/-- R13: the oldest n notices leave the queue, and the overflow flag is cleared. -/
def PortLink.fetch (l : PortLink) (n : Nat) : PortLink :=
  PortLink.syncAtn { l with notices := l.notices.drop n, overflow := false }

/-- The fields of the answer: count, overflow flag as it stood, and the records, oldest first. -/
def PortLink.fetchFields (l : PortLink) (n : Nat) : List Byte :=
  byteOf (l.notices.take n).length :: flagByte l.overflow :: ((l.notices.take n).map Notice.record).flatten

def execFetchNotices (p : Port) (s : State) : Host.Outcome State Fault Refusal :=
  .next (s.onRequest .fetchNotices p (fun f t =>
    (t.modPort p (fun l => l.fetch (byteAt f.body 0).toNat)).answer p f .ok
      ((t.port p).fetchFields (byteAt f.body 0).toNat)))

end Sys2Proof.Machine
end

