-- ==== Sys2Proof/Machine/Windows.lean ====
section
/-! DEFINITION. Requests of the window table and the lists: DESCRIBE_WINDOW (R53), LIST_TORN (R172), LIST_FUSES (R165),
DEFINE_WINDOW (R45, R46), MODIFY_WINDOW (R47, R48), UNDEFINE_WINDOW (R49, R50), LOCK_TABLE (R40) and SET_TIMING (R51). -/

namespace Sys2Proof.Machine

/-! ### DESCRIBE_WINDOW -/

/-- The idle time remaining, in whole seconds: 0 when STOPPED, rounded up when COUNTING, the idle period when HELD. -/
def Window.idleSeconds (x : Window) : Nat :=
  match x.idle with
  | .stopped => 0
  | .counting left => (left + (Config.second - 1)) / Config.second
  | .held => x.fields.settings.idlePeriod.toNat

/-- The saved fields of Table 4.2, as Table 12.5 orders them. -/
def WindowFields.bytes (x : WindowFields) : List Byte :=
  be3 x.range.base ++
    [byteOf x.range.k, portSetCode x.settings.readers, portSetCode x.settings.writers, watchCode x.settings.watch,
     trapCode x.settings.readTrap, trapCode x.settings.writeTrap, verdictCode x.settings.holdDefault,
     x.settings.idlePeriod, flagByte x.settings.idleCountsReads, guardCode x.settings.guard]

/-- The 19 bytes that R53 reports of a window. -/
def State.describeFields (s : State) (w : Slot) (x : Window) : List Byte :=
  WindowFields.bytes x.fields ++
    [latchCode x.latchOpen, idleTimerCode x.idle, byteOf x.idleSeconds,
     flagByte (s.guardReads x.fields.settings.guard), byteOf (s.liveJobs w), byteOf (s.holdCount w)]

/-- R53. -/
def State.describe (s : State) (p : Port) (f : Frame) : State :=
  let w := slotAt f.body 0
  match s.window w with
  | none => s.answer p f .slotEmpty []
  | some x => s.answer p f .ok (s.describeFields w x)

def execDescribeWindow (p : Port) (s : State) : Host.Outcome State Fault Refusal :=
  .next (s.onRequest .describeWindow p (fun f t => t.describe p f))

/-! ### LIST_TORN and LIST_FUSES -/

/-- The count, and each entry oldest first with its sector and cause (R172). -/
def State.tornFields (s : State) : List Byte :=
  byteOf s.torn.length :: (s.torn.map (fun e => be2 e.sector ++ [tornCauseCode e.cause])).flatten

def execListTorn (p : Port) (s : State) : Host.Outcome State Fault Refusal :=
  .next (s.onRequest .listTorn p (fun f t => t.answer p f .ok t.tornFields))

/-- A base and a size exponent. -/
def Range.bytes (r : Range) : List Byte := be3 r.base ++ [byteOf r.k]

/-- Each complete entry in index order: its index, base and size exponent. -/
def State.fuseRecords (s : State) : List Byte :=
  (((s.fuses.toList.zip (List.range 8)).filter (fun e => e.1.written)).map
    (fun e => byteOf e.2 :: Range.bytes e.1.range)).flatten

/-- The state of a reservation's job (log 18: a reservation always has its job). -/
def State.jobStateOf (s : State) (id : Byte) : JobState :=
  match s.findJob id with
  | some j => j.state
  | none => .queued

/-- Each reservation in acceptance order: its job id, base, size exponent and job state. -/
def State.reservationRecords (s : State) : List Byte :=
  (s.reservations.map (fun r => r.job :: Range.bytes r.range ++ [jobStateCode (s.jobStateOf r.job)])).flatten

/-- The fields of LIST-FUSES (R165). -/
def State.fuseFields (s : State) : List Byte :=
  byteOf s.fuseCount :: s.fuseRecords ++ byteOf s.reservations.length :: s.reservationRecords

def execListFuses (p : Port) (s : State) : Host.Outcome State Fault Refusal :=
  .next (s.onRequest .listFuses p (fun f t => t.answer p f .ok t.fuseFields))

/-! ### DEFINE_WINDOW -/

/-- R45, check 4: the fields, when all are legal. -/
def definedFields (body : List Byte) : Option WindowFields :=
  let k := (byteAt body 4).toNat
  if 12 ≤ k ∧ k ≤ 23 then
    (settingsAt body 5).map (fun x => { range := { base := fieldAt body 1 3, k := k }, settings := x })
  else none

/-- R45, check 6: the range shares a byte with a DEFINED window. -/
def State.overlapsWindow (s : State) (r : Range) : Bool :=
  allSlots.any (fun w => match s.window w with
    | some x => r.overlaps x.fields.range
    | none => false)

/-- R45: the first failure, or the fields. -/
def State.defineCheck (s : State) (p : Port) (body : List Byte) : Except Result WindowFields :=
  match s.editCheck p with
  | some r => .error r
  | none =>
    if (s.window (slotAt body 0)).isSome then .error .slotUsed
    else match definedFields body with
      | none => .error .badField
      | some x =>
        if x.range.base % x.range.size ≠ 0 then .error .misaligned
        else if s.overlapsWindow x.range then .error .overlap
        else .ok x

/-- R45 and R46. -/
def State.define (s : State) (p : Port) (f : Frame) : State :=
  match s.defineCheck p f.body with
  | .error r => s.answer p f r []
  | .ok x => ((s.setWindow (slotAt f.body 0) (some (Window.loaded x))).edited).answer p f .ok []

def execDefineWindow (p : Port) (s : State) : Host.Outcome State Fault Refusal :=
  .next (s.onRequest .defineWindow p (fun f t => t.define p f))

/-! ### MODIFY_WINDOW -/

/-- A live job or a hold names the slot. -/
def State.windowBusy (s : State) (w : Slot) : Bool := decide (0 < s.liveJobs w) || decide (0 < s.holdCount w)

/-- R47: the first failure, or the window as it stands and its new settings. -/
def State.modifyCheck (s : State) (p : Port) (body : List Byte) : Except Result (Window × Settings) :=
  match s.editCheck p with
  | some r => .error r
  | none =>
    match s.window (slotAt body 0) with
    | none => .error .slotEmpty
    | some x =>
      match settingsAt body 1 with
      | none => .error .badField
      | some y => if s.windowBusy (slotAt body 0) then .error .busy else .ok (x, y)

/-- The window with new settings, its latch SHUT and its timer STOPPED. -/
def Window.modified (x : Window) (y : Settings) : Window :=
  { fields := { x.fields with settings := y }, latchOpen := false, idle := .stopped }

/-- R47 and R48: the latch is shut, and its notice posted, by the settings as they stood. -/
def State.modify (s : State) (p : Port) (f : Frame) : State :=
  match s.modifyCheck p f.body with
  | .error r => s.answer p f r []
  | .ok (x, y) =>
    let w := slotAt f.body 0
    (((s.shutLatch w .modify).setWindow w (some (x.modified y))).edited).answer p f .ok []

def execModifyWindow (p : Port) (s : State) : Host.Outcome State Fault Refusal :=
  .next (s.onRequest .modifyWindow p (fun f t => t.modify p f))

/-! ### UNDEFINE_WINDOW -/

/-- R49. -/
def State.undefineCheck (s : State) (p : Port) (w : Slot) : Option Result :=
  match s.editCheck p with
  | some r => some r
  | none =>
    if (s.window w).isNone then some .slotEmpty
    else if s.windowBusy w then some .busy
    else none

/-- R49 and R50. -/
def State.undefine (s : State) (p : Port) (f : Frame) : State :=
  let w := slotAt f.body 0
  match s.undefineCheck p w with
  | some r => s.answer p f r []
  | none => (((s.shutLatch w .admin).setWindow w none).edited).answer p f .ok []

def execUndefineWindow (p : Port) (s : State) : Host.Outcome State Fault Refusal :=
  .next (s.onRequest .undefineWindow p (fun f t => t.undefine p f))

/-! ### LOCK_TABLE and SET_TIMING -/

/-- R40. -/
def State.lockTable (s : State) (p : Port) (f : Frame) : State :=
  match s.adminCheck p with
  | some r => s.answer p f r []
  | none => State.answer { s with locked := true } p f .ok []

def execLockTable (p : Port) (s : State) : Host.Outcome State Fault Refusal :=
  .next (s.onRequest .lockTable p (fun f t => t.lockTable p f))

/-- R51, check 3. -/
def timingLegal (lease limit : Nat) : Bool :=
  decide (1 ≤ lease) && decide (lease ≤ 60) && decide (1 ≤ limit) && decide (limit ≤ 250)

/-- R51: leases and holds that run keep the time they have left (R52). -/
def State.setTiming (s : State) (p : Port) (f : Frame) : State :=
  let lease := (byteAt f.body 0).toNat
  let limit := (byteAt f.body 1).toNat
  match s.editCheck p with
  | some r => s.answer p f r []
  | none =>
    if timingLegal lease limit then
      (State.edited { s with header := { s.header with leasePeriod := lease, holdLimit := limit } }).answer p f .ok []
    else s.answer p f .badField []

def execSetTiming (p : Port) (s : State) : Host.Outcome State Fault Refusal :=
  .next (s.onRequest .setTiming p (fun f t => t.setTiming p f))

end Sys2Proof.Machine
end

