-- ==== Sys2Proof/Machine/Dispatch.lean ====
section
/-! DEFINITION. One arm for each command of the block. -/

namespace Sys2Proof.Machine

def exec (i : Instr) (s : State) : Host.Outcome State Fault Refusal :=
  match i with
  | .deviceReset => Sys2Proof.Machine.execDeviceReset s
  | .resetRelease admsel ratesel => Sys2Proof.Machine.execResetRelease admsel ratesel s
  | .recover => Sys2Proof.Machine.execRecover s
  | .load => Sys2Proof.Machine.execLoad s
  | .ready => Sys2Proof.Machine.execReady s
  | .frameCheck p => Sys2Proof.Machine.execFrameCheck p s
  | .lengthAbandon p => Sys2Proof.Machine.execLengthAbandon p s
  | .gapTimerExpiry p => Sys2Proof.Machine.execGapTimerExpiry p s
  | .responseSent p => Sys2Proof.Machine.execResponseSent p s
  | .unknownType p => Sys2Proof.Machine.execUnknownType p s
  | .status p => Sys2Proof.Machine.execStatus p s
  | .fetchNotices p => Sys2Proof.Machine.execFetchNotices p s
  | .portClear p => Sys2Proof.Machine.execPortClear p s
  | .clrFallingEdge p => Sys2Proof.Machine.execClrFallingEdge p s
  | .read p => Sys2Proof.Machine.execRead p s
  | .claimBuffer p => Sys2Proof.Machine.execClaimBuffer p s
  | .fill p => Sys2Proof.Machine.execFill p s
  | .releaseBuffer p => Sys2Proof.Machine.execReleaseBuffer p s
  | .program p => Sys2Proof.Machine.execProgram p s
  | .eraseSector p => Sys2Proof.Machine.execEraseSector p s
  | .eraseWindow p => Sys2Proof.Machine.execEraseWindow p s
  | .cancel p => Sys2Proof.Machine.execCancel p s
  | .jobQuery p => Sys2Proof.Machine.execJobQuery p s
  | .openLatch p => Sys2Proof.Machine.execOpenLatch p s
  | .shutLatch p => Sys2Proof.Machine.execShutLatch p s
  | .shutAll p => Sys2Proof.Machine.execShutAll p s
  | .verdict p => Sys2Proof.Machine.execVerdict p s
  | .holdLimitExpiry id => Sys2Proof.Machine.execHoldLimitExpiry id s
  | .describeWindow p => Sys2Proof.Machine.execDescribeWindow p s
  | .listTorn p => Sys2Proof.Machine.execListTorn p s
  | .listFuses p => Sys2Proof.Machine.execListFuses p s
  | .defineWindow p => Sys2Proof.Machine.execDefineWindow p s
  | .modifyWindow p => Sys2Proof.Machine.execModifyWindow p s
  | .undefineWindow p => Sys2Proof.Machine.execUndefineWindow p s
  | .saveTable p => Sys2Proof.Machine.execSaveTable p s
  | .lockTable p => Sys2Proof.Machine.execLockTable p s
  | .freezeWindow p => Sys2Proof.Machine.execFreezeWindow p s
  | .setGuard p => Sys2Proof.Machine.execSetGuard p s
  | .setTiming p => Sys2Proof.Machine.execSetTiming p s
  | .guardLevelChange g high => Sys2Proof.Machine.execGuardLevelChange g high s
  | .settleTimerExpiry g => Sys2Proof.Machine.execSettleTimerExpiry g s
  | .idleTimerExpiry w => Sys2Proof.Machine.execIdleTimerExpiry w s
  | .leaseExpiry b => Sys2Proof.Machine.execLeaseExpiry b s
  | .resumeGapExpiry => Sys2Proof.Machine.execResumeGapExpiry s
  | .suspensionTaken => Sys2Proof.Machine.execSuspensionTaken s
  | .readServiceCompletion => Sys2Proof.Machine.execReadServiceCompletion s
  | .programStepCompletion => Sys2Proof.Machine.execProgramStepCompletion s
  | .sectorEraseCompletion => Sys2Proof.Machine.execSectorEraseCompletion s
  | .tableSaveCompletion => Sys2Proof.Machine.execTableSaveCompletion s
  | .fuseWriteCompletion => Sys2Proof.Machine.execFuseWriteCompletion s
  | .byteReceived p b => Sys2Proof.Machine.execByteReceived p b s

end Sys2Proof.Machine
end

