-- ==== Sys2Proof/Machine/Time.lean ====
section
/-! DEFINITION. Real time (log 3): one unit of time runs every running timer down by one and every transmitter on, and the
timers that reach zero and the frames whose last byte has left expire in it, one after the other, in an order that the part
does not fix (R71, R93; log 4). -/

namespace Sys2Proof.Machine

/-- The timers of the part, and its transmitters, whose frames end in time too. -/
inductive Timer where
  | gap (p : Port)
  | settle (g : GuardInput)
  | idle (w : Slot)
  | lease (b : BufferNo)
  | hold (id : Byte)
  | resume
  | frame (p : Port)
  deriving DecidableEq, Repr

/-! ### Running down -/

/-- The gap timer runs in LENGTH and BODY (R3). -/
def Framer.elapse : Framer → Framer
  | .length a => .length { a with gapLeft := a.gapLeft - 1 }
  | .body a => .body { a with gapLeft := a.gapLeft - 1 }
  | f => f

def IdleTimer.elapse : IdleTimer → IdleTimer
  | .counting left => .counting (left - 1)
  | t => t

def InputState.elapse : InputState → InputState
  | .settlingToActive left => .settlingToActive (left - 1)
  | .settlingToInactive left => .settlingToInactive (left - 1)
  | x => x

def BufferState.elapse : BufferState → BufferState
  | .filling p e lease => .filling p e (lease - 1)
  | b => b

def ResumeGap.elapse : ResumeGap → ResumeGap
  | .running left => .running (left - 1)
  | r => r

/-- One unit of a link's transmission (R6). A transmitter with a frame and none in transmission begins the oldest one. When
the byte in transmission ends, the next one follows it at once. -/
def PortLink.transmit (rate : LinkRate) (l : PortLink) : PortLink :=
  match l.output with
  | [] => l
  | f :: _ =>
    let m := if l.sending then l else l.beginFrame rate
    if m.txLeft ≤ Config.txParts then
      { m with txBytes := f.wire.take (m.txBytes.length + 1), txLeft := m.txLeft + rate.gapTime - Config.txParts }
    else { m with txLeft := m.txLeft - Config.txParts }

/-- One unit of a link: its gap timer and its transmitter. -/
def PortLink.elapse (rate : LinkRate) (l : PortLink) : PortLink := { l.transmit rate with framer := l.framer.elapse }

/-- Every running timer has one unit less, and every transmitter has sent for one unit. -/
def State.runDown (s : State) : State :=
  { s with
    ports := s.ports.map (PortLink.elapse s.linkRate)
    windows := s.windows.map (fun x => x.map (fun y => { y with idle := y.idle.elapse }))
    guards := { g0 := { s.guards.g0 with input := s.guards.g0.input.elapse }
                g1 := { s.guards.g1 with input := s.guards.g1.input.elapse } }
    holds := s.holds.map (fun h => { h with left := h.left - 1 })
    buffers := s.buffers.map (fun b => { b with state := b.state.elapse })
    seq := { s.seq with resumeGap := s.seq.resumeGap.elapse } }

/-! ### Expiry -/

def Framer.due : Framer → Bool
  | .length a => a.gapLeft == 0
  | .body a => a.gapLeft == 0
  | _ => false

def InputState.due : InputState → Bool
  | .settlingToActive left => left == 0
  | .settlingToInactive left => left == 0
  | _ => false

/-- The last byte of the frame in transmission has been sent. -/
def PortLink.frameSent (l : PortLink) : Bool :=
  l.sending && (match l.output with
    | [] => false
    | f :: _ => decide (f.wire.length ≤ l.txBytes.length))

/-- Whether a timer runs and has no time left; for a transmitter, whether its frame has been sent. -/
def State.isDue (s : State) : Timer → Bool
  | .gap p => (s.port p).framer.due
  | .settle g => (s.guardPin g).input.due
  | .idle w => (match s.window w with
    | some x => x.idle == .counting 0
    | none => false)
  | .lease b => (match (s.buffer b).state with
    | .filling _ _ left => left == 0
    | _ => false)
  | .hold id => (match s.findHold id with
    | some h => h.left == 0
    | none => false)
  | .resume => s.seq.resumeGap == .running 0
  | .frame p => (s.port p).frameSent

/-- The timers that may run, and the transmitters. -/
def State.timers (s : State) : List Timer :=
  Port.all.map Timer.gap ++ [.settle .g0, .settle .g1] ++ allSlots.map Timer.idle ++ allBuffers.map Timer.lease
    ++ s.holds.map (fun h => Timer.hold h.id) ++ [.resume] ++ Port.all.map Timer.frame

/-- The expiry of a timer: the event of its chapter. The end of a frame is the event RESPONSE_SENT. -/
def State.expire (s : State) : Timer → State
  | .gap p => s.expireGap p
  | .settle g => s.expireSettle g
  | .idle w => s.expireIdle w
  | .lease b => s.expireLease b
  | .hold id => s.expireHold id
  | .resume => s.expireResumeGap
  | .frame p => s.modPort p PortLink.sent

/-- An expiry that an earlier one of the same instant has taken away does not occur. -/
def State.expireIfDue (s : State) (t : Timer) : State := if s.isDue t then s.expire t else s

/-- Timers put in an order by free values, with the counter after them: each takes a place among those before it. -/
def orderTimers : List Timer → Nat → List Timer × Nat
  | [], n => ([], n)
  | t :: ts, n =>
    match orderTimers ts n with
    | ([], m) => ([t], m)
    | (l, m) => (l.insertIdx (Config.expiryPlace m % (l.length + 1)) t, m + 1)

/-- One unit of time. -/
def State.elapse (s : State) : State :=
  let t := s.runDown
  let o := orderTimers (t.timers.filter t.isDue) t.freeCount
  o.1.foldl State.expireIfDue { t with freeCount := o.2 }

end Sys2Proof.Machine
end

