-- ==== Sys2Proof/Safety.lean ====
section
/-! DEFINITION. The words that statements about the block are made of: what it is for a port to have a request before its
owner, what an answer changes, and the laws that every step keeps. -/

namespace Sys2Proof.Machine

/-! ### Requests and answers -/

/-- The request kind that a row of the table stands for, with its port; the other rows are events, and UNKNOWN_TYPE is
the row of the TYPE codes that are no kind. -/
def requestOf : Instr → Option (Port × ReqType)
  | .status p => some (p, .status)
  | .fetchNotices p => some (p, .fetchNotices)
  | .portClear p => some (p, .portClear)
  | .read p => some (p, .read)
  | .claimBuffer p => some (p, .claimBuffer)
  | .fill p => some (p, .fill)
  | .releaseBuffer p => some (p, .releaseBuffer)
  | .program p => some (p, .program)
  | .eraseSector p => some (p, .eraseSector)
  | .eraseWindow p => some (p, .eraseWindow)
  | .cancel p => some (p, .cancel)
  | .jobQuery p => some (p, .jobQuery)
  | .openLatch p => some (p, .openLatch)
  | .shutLatch p => some (p, .shutLatch)
  | .shutAll p => some (p, .shutAll)
  | .verdict p => some (p, .verdict)
  | .describeWindow p => some (p, .describeWindow)
  | .listTorn p => some (p, .listTorn)
  | .listFuses p => some (p, .listFuses)
  | .defineWindow p => some (p, .defineWindow)
  | .modifyWindow p => some (p, .modifyWindow)
  | .undefineWindow p => some (p, .undefineWindow)
  | .saveTable p => some (p, .saveTable)
  | .lockTable p => some (p, .lockTable)
  | .freezeWindow p => some (p, .freezeWindow)
  | .setGuard p => some (p, .setGuard)
  | .setTiming p => some (p, .setTiming)
  | _ => none

/-- The administrative requests that a LOCKED table refuses (R41). -/
def lockedRequests : List ReqType := [.defineWindow, .modifyWindow, .undefineWindow, .saveTable, .setGuard, .setTiming]

/-- The administrative requests (R39): those, and three that the lock does not refuse. -/
def adminRequests : List ReqType := lockedRequests ++ [.shutAll, .lockTable, .freezeWindow]

/-- Port `p` has taken the request `f`, of kind `k`, which has passed the port checks (R8) and waits for its owner. -/
abbrev State.Asks (s : State) (p : Port) (k : ReqType) (f : Frame) : Prop :=
  s.taken p = some f ∧ f.type = k.code ∧ k.portCheck f.body = none

/-- The state in which the owner judges the request of port `p`: its request is marked as handed over (log 1). -/
def State.judging (s : State) (p : Port) : State := s.modPort p PortLink.markJudged

/-- The state with the framer of one port set. -/
def State.setFramer (s : State) (p : Port) (x : Framer) : State := s.modPort p (fun l => { l with framer := x })

/-- The response to a request (R186, Table 12.1): the request's type plus H'80, its tag, the result and the fields. -/
def Frame.response (f : Frame) (r : Result) (fields : List Byte) : OutFrame :=
  { kind := .answer, type := f.type + 0x80, tag := f.tag, body := r.code :: fields }

/-- A link whose request `f` has been handed over to its owner, with no response yet. -/
def PortLink.handed (l : PortLink) (f : Frame) : PortLink := { l with request := some { frame := f, judged := true } }

/-- A link whose request `f` has been handed over and answered: the response is the newest frame of the output list. -/
def PortLink.answered (l : PortLink) (f : Frame) (r : Result) (fields : List Byte) : PortLink :=
  { l.handed f with output := l.output ++ [f.response r fields] }

/-- A link to which a notice has been posted, where `yes`. -/
def PortLink.noted (l : PortLink) (yes : Prop) [Decidable yes] (n : Notice) : PortLink := if yes then l.post n else l

/-- Of the port links, `t` differs from `s` in that the request of port `p` is handed over and answered. -/
abbrev LinksAnswer (s t : State) (p : Port) (f : Frame) (r : Result) (fields : List Byte) : Prop :=
  t.ports = s.ports.set p ((s.port p).answered f r fields)

/-- The request of port `p` is answered, and nothing else changes. -/
abbrev OnlyAnswers (s t : State) (p : Port) (f : Frame) (r : Result) (fields : List Byte) : Prop :=
  LinksAnswer s t p f r fields ∧ { t with ports := s.ports } = s

/-- The command `c` is a write-side request that port `p` asks for with the frame `f`, and `req` are its fields (Table 12.4). -/
abbrev AsksWrite (s : State) (c : Instr) (p : Port) (f : Frame) (req : WriteReq) : Prop :=
  (c = .program p ∧ s.Asks p .program f ∧ req = .program (fieldAt f.body 0 3) (bufferAt f.body 3)) ∨
  (c = .eraseSector p ∧ s.Asks p .eraseSector f ∧ req = .eraseSector (fieldAt f.body 0 2)) ∨
  (c = .eraseWindow p ∧ s.Asks p .eraseWindow f ∧ req = .eraseWindow (slotAt f.body 0))

/-! ### Ids -/

/-- The id `n` places after the first, 255 being followed by 1 (R87, R115). -/
def idFrom (first : Byte) : Nat → Byte
  | 0 => first
  | n + 1 => if idFrom first n = 0xFF then 0x01 else idFrom first n + 1

/-- R87, R115: `id` is the first value from `first` on that is not in use; those before it are passed over. -/
abbrev FirstFree (used : List Byte) (first id : Byte) : Prop :=
  id ∉ used ∧ ∃ n, id = idFrom first n ∧ ∀ m, m < n → idFrom first m ∈ used

/-! ### Port clear -/

/-- Whether a port clear of `p` removes the job (R137). -/
def Job.clearedWith (j : Job) (p : Port) : Bool := j.owner == p && j.state == .queued

/-- What a port clear of `p` has made of `s` when the link, the staging buffers and the job list have had it (R16, R112, R137):
the link emptied but for a frame in transmission, which answers nothing any more; the buffers FILLING for the port or bound to a
removed job FREE; the QUEUED jobs of the port removed with their reservations (R158, R163); the idle timer of each window that a
removed job names brought up to date (R70, R81); the offer formed anew; and nothing else changed. -/
abbrev ClearedToJobs (s v : State) (p : Port) : Prop :=
  (∃ begun : List OutFrame,
    ((begun = [] ∧ (s.port p).sending = false) ∨ ∃ g rest, (s.port p).output = g :: rest ∧
      begun = [{ g with kind := if g.kind = .answer then .orphan else g.kind }]) ∧
    v.port p =
      { framer := .hunt, inbound := [], engine := .waiting, request := none, output := begun, sending := !begun.isEmpty
        txBytes := if begun ≠ [] ∧ (s.port p).sending = false then [] else (s.port p).txBytes
        txLeft := if begun ≠ [] ∧ (s.port p).sending = false then s.linkRate.gapTime else (s.port p).txLeft
        notices := [], overflow := false, atn := false, ready := (s.port p).ready }) ∧
  (∀ q, q ≠ p → v.port q = s.port q) ∧
  (∀ b, (s.fillingFor b p = true ∨ ∃ j ∈ s.jobs, j.clearedWith p = true ∧ ∃ w a n, j.work = .program w a n b) →
    v.buffer b = { s.buffer b with state := .free }) ∧
  (∀ b, s.fillingFor b p = false → (∀ j ∈ s.jobs, j.clearedWith p = true → ∀ w a n, j.work ≠ .program w a n b) →
    v.buffer b = s.buffer b) ∧
  v.jobs = s.jobs.filter (fun j => !j.clearedWith p) ∧
  v.reservations = s.reservations.filter (fun r => !s.jobs.any (fun j => j.clearedWith p && j.id == r.job)) ∧
  (∀ w, v.window w = (s.window w).map (fun x =>
    if s.jobs.any (fun j => j.clearedWith p && j.work.slot? == some w) then
      { x with
        idle := if x.latchOpen = false ∨ x.fields.settings.idlePeriod = 0 then .stopped
          else if v.jobs.any (fun j => j.work.slot? == some w) then .held
          else .counting (x.fields.settings.idlePeriod.toNat * 2880000) }
    else x)) ∧
  v.offer = v.offerNow ∧
  { v with ports := s.ports, buffers := s.buffers, jobs := s.jobs, reservations := s.reservations, windows := s.windows,
           offer := s.offer, freeCount := s.freeCount } = s

/-! ### Laws -/

/-- A port link's bounds and flags (R5, R6, R10, R12): at most 4 frames in the inbound queue, at most 16 notices, 16 of them
while the overflow flag is set, ATN asserted exactly while there is a notice or the flag is set, and at most 4 link error
responses waiting. -/
def PortLink.Lawful (l : PortLink) : Prop :=
  l.inbound.length ≤ 4 ∧ l.notices.length ≤ 16 ∧ (l.overflow = true → l.notices.length = 16) ∧
    (l.atn = true ↔ l.notices ≠ [] ∨ l.overflow = true) ∧ l.waitingLinkErrors ≤ 4

/-- Every port link is lawful. -/
def State.LinksLawful (s : State) : Prop := ∀ p, (s.port p).Lawful

/-- R77: whenever a latch is OPEN, the guard input its window names is not ACTIVE, as other blocks read it. -/
def State.LatchesGuarded (s : State) : Prop :=
  ∀ w x, s.window w = some x → x.latchOpen = true → s.guardReads x.fields.settings.guard = false

/-- The main array and the buffers are in canonical form: rising addresses, no erased byte listed. -/
def State.MemoryLawful (s : State) : Prop := s.mem.wf = true ∧ ∀ b, (s.buffer b).data.wf = true

/-- R102: no port owns more than 2 buffers in FILLING or BOUND state. -/
def State.BuffersLawful (s : State) : Prop := ∀ p, s.buffersOwned p ≤ 2

/-- R114: at most 16 live jobs. -/
def State.JobsBounded (s : State) : Prop := s.jobs.length ≤ 16

/-- R115: no two live jobs share an id. -/
def State.JobIdsDistinct (s : State) : Prop := (s.jobs.map Job.id).Nodup

/-- R6: a frame that is being transmitted stands in the output list. -/
def State.TransmittersLawful (s : State) : Prop := ∀ p, (s.port p).sending = true → (s.port p).output ≠ []

/-- R6: each frame is sent whole and from its beginning. What has left TXD of a frame that is being transmitted is the
beginning of its bytes. -/
def PortLink.WireLawful (l : PortLink) : Prop :=
  l.sending = true → ∀ f rest, l.output = f :: rest → l.txBytes <+: f.wire

/-- Every port sends its frames whole. -/
def State.WireLawful (s : State) : Prop := ∀ p, (s.port p).WireLawful

/-- R123: the offer is that which the job list calls for. -/
def State.OfferLawful (s : State) : Prop := s.offer = s.offerNow

/-- R143: the array stays IDLE only while there is nothing to grant. -/
def State.Settled (s : State) : Prop :=
  s.OfferLawful ∧ (s.seq.arrayState = .idle → s.jobSuspended = false ∧ s.nextReader = none ∧ s.offer = .none)

/-- R19, R183: until READY every port is STARTING with nothing taken, queued or noticed, and no job, hold, pending read or
claimed buffer exists, and every latch is SHUT. -/
def State.StartupClosed (s : State) : Prop :=
  s.phase ≠ .ready →
    (∀ p, (s.port p).ready = false ∧ (s.port p).inbound = [] ∧ (s.port p).engine = .waiting ∧
      (s.port p).request = none ∧ (s.port p).notices = [] ∧ (s.port p).overflow = false) ∧
    s.jobs = [] ∧ s.holds = [] ∧ s.reservations = [] ∧ s.seq = Sequencer.reset ∧ s.arrayOp = .none ∧
    s.arrayStep = none ∧ s.offer = .none ∧ (∀ b, (s.buffer b).state = .free) ∧
    (∀ w x, s.window w = some x → x.latchOpen = false ∧ x.idle = .stopped)

end Sys2Proof.Machine
end

