-- ==== Sys2Proof/Certificates/Slice0/Obligations.lean ====
section
/-! DEFINITION. The statements about the block. Each name says what it states; `exec c s` is the effect of a command, and a
statement about a command says which next state it answers. A final clause `{ t with … := s.… } = s` says that every
other field of the state is unchanged.
Times are counted in units of 1/2,880,000 s (log 3): 2,880,000 to the second, 57,600 to 20 ms, 4,320 to 1.5 ms. -/

open Sys2Proof Sys2Proof.Machine Host

/-! ### The queue and time -/

/-- A step takes the command at the front of the queue and runs it with the queue's rest. -/
def Obligations.StepRunsTheFrontCommand : Prop :=
  ∀ (c : Instr) (rest : List Instr) (s : State), step { s with pending := c :: rest } = exec c { s with pending := rest }

/-- Model's choice (log 3, log 22): on an empty queue one unit of time passes. Each running timer has one unit less: the gap
timer of a framer in LENGTH or BODY, an idle timer that is COUNTING, the lease of a buffer that is FILLING, the settle timer of
an input in either SETTLING state, each hold's limit timer, and the resume gap timer while RUNNING. A framer in HUNT or CHECK,
the other idle timers, buffers and inputs, and the other states of the resume gap timer stay as they are. A transmitter with no
frame stays as it is; one with a frame begins the oldest, or goes on with it, and the byte in transmission leaves TXD when its
time is up (20 parts of time to a unit, so that a byte-time is as many parts as 20 byte-times are units). Nothing else changes
in the running down. With nothing due, the unit ends there; one timer that has reached zero expires, as its row of the table
says, and one frame whose last byte has left ends as RESPONSE_SENT says. -/
def Obligations.EmptyQueueLetsOneUnitOfTimePass : Prop :=
  ∀ s : State,
    (s.pending = [] → step s = .next s.elapse) ∧
    (∀ p, ∃ (sending : Bool) (bytes : List Byte) (left : Nat),
      s.runDown.port p = { s.port p with
        framer := match (s.port p).framer with
          | .hunt => .hunt
          | .length a => .length { a with gapLeft := a.gapLeft - 1 }
          | .body a => .body { a with gapLeft := a.gapLeft - 1 }
          | .check a => .check a
        sending := sending, txBytes := bytes, txLeft := left } ∧
      ((s.port p).output = [] →
        sending = (s.port p).sending ∧ bytes = (s.port p).txBytes ∧ left = (s.port p).txLeft) ∧
      (∀ f rest, (s.port p).output = f :: rest → sending = true ∧
        ((s.port p).sending = false → bytes = [] ∧ left = s.linkRate.gapTime - 20) ∧
        ((s.port p).sending = true → 20 < (s.port p).txLeft →
          bytes = (s.port p).txBytes ∧ left = (s.port p).txLeft - 20) ∧
        ((s.port p).sending = true → (s.port p).txLeft ≤ 20 →
          bytes = f.wire.take ((s.port p).txBytes.length + 1) ∧
          left = (s.port p).txLeft + s.linkRate.gapTime - 20))) ∧
    (∀ w, s.runDown.window w = (s.window w).map (fun x => { x with
      idle := match x.idle with
        | .stopped => .stopped
        | .counting n => .counting (n - 1)
        | .held => .held })) ∧
    (∀ b, s.runDown.buffer b = { s.buffer b with
      state := match (s.buffer b).state with
        | .free => .free
        | .filling p e n => .filling p e (n - 1)
        | .bound p e i => .bound p e i }) ∧
    (∀ g, s.runDown.guardPin g = { s.guardPin g with
      input := match (s.guardPin g).input with
        | .inactive => .inactive
        | .settlingToActive n => .settlingToActive (n - 1)
        | .active => .active
        | .settlingToInactive n => .settlingToInactive (n - 1) }) ∧
    s.runDown.holds = s.holds.map (fun h => { h with left := h.left - 1 }) ∧
    s.runDown.seq = { s.seq with
      resumeGap := match s.seq.resumeGap with
        | .stopped => .stopped
        | .running n => .running (n - 1)
        | .elapsed => .elapsed } ∧
    { s.runDown with ports := s.ports, windows := s.windows, guards := s.guards, holds := s.holds, buffers := s.buffers,
                     seq := s.seq } = s ∧
    ((∀ m ∈ s.runDown.timers, s.runDown.isDue m = false) → s.elapse = s.runDown) ∧
    (∀ m, s.runDown.timers.filter s.runDown.isDue = [m] → s.elapse = s.runDown.expire m) ∧
    (∀ p, (s.isDue (.gap p) = true ↔ ∃ a, a.gapLeft = 0 ∧
        ((s.port p).framer = .length a ∨ (s.port p).framer = .body a)) ∧
      exec (.gapTimerExpiry p) s = .next (s.expire (.gap p)) ∧
      (s.isDue (.frame p) = true ↔ (s.port p).sending = true ∧ ∃ f rest, (s.port p).output = f :: rest ∧
        f.wire.length ≤ (s.port p).txBytes.length) ∧
      exec (.responseSent p) s = .next (s.expire (.frame p))) ∧
    (∀ g, (s.isDue (.settle g) = true ↔
        (s.guardPin g).input = .settlingToActive 0 ∨ (s.guardPin g).input = .settlingToInactive 0) ∧
      exec (.settleTimerExpiry g) s = .next (s.expire (.settle g))) ∧
    (∀ w, (s.isDue (.idle w) = true ↔ ∃ x, s.window w = some x ∧ x.idle = .counting 0) ∧
      exec (.idleTimerExpiry w) s = .next (s.expire (.idle w))) ∧
    (∀ b, (s.isDue (.lease b) = true ↔ ∃ p e, (s.buffer b).state = .filling p e 0) ∧
      exec (.leaseExpiry b) s = .next (s.expire (.lease b))) ∧
    (∀ i, (s.isDue (.hold i) = true ↔ ∃ h, s.findHold i = some h ∧ h.left = 0) ∧
      exec (.holdLimitExpiry i) s = .next (s.expire (.hold i))) ∧
    (s.isDue .resume = true ↔ s.seq.resumeGap = .running 0) ∧
    exec .resumeGapExpiry s = .next (s.expire .resume)

/-- Every command answers a next state, and leaves the queue of waiting commands as it is. Model's choice: that a command whose
event cannot occur answers a next state too is log 2's, and the queue is the model's own (log 19, log 20). -/
def Obligations.EveryCommandCompletesAndLeavesTheQueue : Prop :=
  ∀ (c : Instr) (s : State), ∃ t, exec c s = .next t ∧ t.pending = s.pending

/-- Model's choice (log 1, log 2): a row of a request whose port has not taken a request of that kind changes nothing. -/
def Obligations.RequestRowWithoutItsRequestChangesNothing : Prop :=
  (∀ (c : Instr) (p : Port) (k : ReqType) (s : State), requestOf c = some (p, k) →
    (∀ f, s.taken p = some f → f.type ≠ k.code) → (c = .portClear p → ∀ a, (s.port p).framer ≠ .check a) →
    exec c s = .next s) ∧
  (∀ (p : Port) (s : State), (∀ f, s.taken p = some f → ReqType.ofCode f.type ≠ none) → exec (.unknownType p) s = .next s)

/-! ### Device reset and start-up -/

/-- R1, R33, R61, R63, R73, R99, R101, R114, R138, R140, R174, R176: a device reset gives every volatile state its reset
value, whatever the part was doing, and posts and answers nothing. A frame in transmission is cut off: the byte that had begun
is its last (log 26), and TXDn is at the idle level. The levels of the guard pins stay, and the admin port and the link rate
until the straps are sampled (log 8). With no step in progress and RECOVER not begun, the stored records and the main array
stay as they were.
R178, Table 11.3 (log 13): a device reset in RECOVER finds what RECOVER has written so far. Without a marker that is nothing.
With one it is nothing, or part of the rewrite of a fuse slot, each bit as it was or as the full rewrite leaves it, or the
action with the marker still present, or the action with the marker cleared. Which of them is a free value. -/
def Obligations.DeviceResetTakesResetValues : Prop :=
  ∀ s : State, ∃ t, exec .deviceReset s = .next t ∧
    (∀ p, t.port p =
      { framer := .hunt, inbound := [], engine := .waiting, request := none, output := [], sending := false,
        txBytes := (match (s.port p).output with
          | [] => (s.port p).txBytes
          | f :: _ => if (s.port p).sending = true ∧ (s.port p).txLeft < s.linkRate.gapTime
            then f.wire.take ((s.port p).txBytes.length + 1) else (s.port p).txBytes),
        txLeft := 0, notices := [], overflow := false, atn := false, ready := false } ∧ (t.port p).txdIdle = true) ∧
    (∀ w, t.window w = none) ∧
    t.header = { g0 := { activeHigh := false, debounce := true }, g1 := { activeHigh := false, debounce := true },
                 leasePeriod := 5, holdLimit := 100 } ∧
    t.tableState = .blank ∧ t.captureMark = .none ∧ t.locked = false ∧
    (∀ g, t.guardPin g = { high := (s.guardPin g).high, input := .inactive }) ∧ t.guardsFollow = false ∧
    t.holds = [] ∧ t.nextHoldId = 1 ∧
    (∀ b, (t.buffer b).state = .free ∧ ∀ i, Memory.read (t.buffer b).data i = 0xFF) ∧
    t.jobs = [] ∧ t.nextJobId = 1 ∧ t.offer = .none ∧
    t.seq = { arrayState := .idle, pendingReads := { p0 := none, p1 := none, p2 := none, p3 := none }, inService := none,
              pointer := .p3, lastGrant := .none, readsServed := 0, resumeGap := .stopped, suspendRequest := false } ∧
    t.arrayOp = .none ∧ t.arrayStep = none ∧ t.reservations = [] ∧ t.phase = .recover ∧ t.resetHeld = true ∧
    t.recovery = .none ∧ t.adminPort = s.adminPort ∧ t.linkRate = s.linkRate ∧ t.pending = s.pending ∧
    (s.arrayStep = none → ¬(s.phase = .recover ∧ s.resetHeld = false) →
      t.mem = s.mem ∧ t.fuses = s.fuses ∧ t.marker = s.marker ∧ t.torn = s.torn ∧ t.imageState = s.imageState ∧
        t.image = s.image) ∧
    (s.arrayStep = none → s.phase = .recover → s.resetHeld = false → t.mem = s.mem ∧
      (s.marker = none → t.marker = none ∧ t.fuses = s.fuses ∧ t.torn = s.torn ∧ t.imageState = s.imageState ∧
        t.image = s.image) ∧
      (∀ m r, s.marker = some m → exec .recover s = .next r →
        (t.marker = some m ∧ t.fuses = s.fuses ∧ t.torn = s.torn ∧ t.imageState = s.imageState ∧ t.image = s.image) ∨
        (∃ (i : Fin 8) (e : FuseSlot), m = .freeze i.val e ∧ t.marker = some m ∧
          (∀ n, n < 24 → (t.fuses.get i).base.getLsbD n = (s.fuses.get i).base.getLsbD n ∨
            (t.fuses.get i).base.getLsbD n = ((s.fuses.get i).base.getLsbD n && e.base.getLsbD n)) ∧
          (∀ n, n < 8 → (t.fuses.get i).k.getLsbD n = (s.fuses.get i).k.getLsbD n ∨
            (t.fuses.get i).k.getLsbD n = ((s.fuses.get i).k.getLsbD n && e.k.getLsbD n)) ∧
          (∀ j, j ≠ i → t.fuses.get j = s.fuses.get j) ∧ t.torn = s.torn ∧ t.imageState = s.imageState ∧
          t.image = s.image) ∨
        ((t.marker = some m ∨ t.marker = none) ∧ t.fuses = r.fuses ∧ t.torn = r.torn ∧ t.imageState = r.imageState ∧
          t.image = r.image)))

/-- R31, R32, on the fuse layout of log 16 (24 bits of base and 8 of size exponent, model's choice): what a device reset leaves
of the target of the step that it interrupts. A page program: each byte of the
target holds its old value or its old value ANDed with its buffer byte. A sector erase: each bit of the sector that was 1
is still 1. A table save: the image state as it was. A fuse write into a blank slot: each bit of the slot is 1 or the
entry's, so that programming the entry again gives the entry. Everything outside the target keeps its values. -/
def Obligations.DeviceResetInterruptsTheStep : Prop :=
  ∀ s : State, s.mem.wf = true → s.phase = .ready → ∃ t, exec .deviceReset s = .next t ∧ t.marker = s.marker ∧
    (∀ a n b, s.arrayStep = some (.program a n b) →
      (∀ i, i < n →
        Memory.read t.mem (a + i) = Memory.read s.mem (a + i) ∨
        Memory.read t.mem (a + i) = Memory.read s.mem (a + i) &&& Memory.read (s.buffer b).data i) ∧
      (∀ x, x < a ∨ a + n ≤ x → Memory.read t.mem x = Memory.read s.mem x) ∧
      t.fuses = s.fuses ∧ t.imageState = s.imageState ∧ t.image = s.image) ∧
    (∀ n, s.arrayStep = some (.erase n) →
      (∀ x, n * 4096 ≤ x → x < n * 4096 + 4096 →
        Memory.read s.mem x &&& Memory.read t.mem x = Memory.read s.mem x) ∧
      (∀ x, x < n * 4096 ∨ n * 4096 + 4096 ≤ x → Memory.read t.mem x = Memory.read s.mem x) ∧
      t.fuses = s.fuses ∧ t.imageState = s.imageState ∧ t.image = s.image) ∧
    (∀ c, s.arrayStep = some (.save c) → t.imageState = s.imageState ∧ t.mem = s.mem ∧ t.fuses = s.fuses) ∧
    (∀ (i : Fin 8) e, s.arrayStep = some (.fuse i.val e) → s.fuses.get i = { base := 0xFFFFFF, k := 0xFF } →
      (∀ m, m < 24 → (t.fuses.get i).base.getLsbD m = true ∨ (t.fuses.get i).base.getLsbD m = e.base.getLsbD m) ∧
      (∀ m, m < 8 → (t.fuses.get i).k.getLsbD m = true ∨ (t.fuses.get i).k.getLsbD m = e.k.getLsbD m) ∧
      (t.fuses.get i).base &&& e.base = e.base ∧ (t.fuses.get i).k &&& e.k = e.k ∧
      (∀ j, j ≠ i → t.fuses.get j = s.fuses.get j) ∧ t.mem = s.mem ∧ t.imageState = s.imageState ∧ t.image = s.image)

/-- R175 with Tables 1.6 and 1.7: the release of RESETN samples the straps, and nothing else changes. A release that finds
RESETN high changes nothing (log 2). -/
def Obligations.ReleaseOfResetSamplesTheStraps : Prop :=
  ∀ (s : State) (admsel ratesel : BitVec 2),
    (s.resetHeld = true → ∃ t, exec (.resetRelease admsel ratesel) s = .next t ∧ t.resetHeld = false ∧
      (admsel = 0b00#2 → t.adminPort = .p0) ∧ (admsel = 0b01#2 → t.adminPort = .p1) ∧
      (admsel = 0b10#2 → t.adminPort = .p2) ∧ (admsel = 0b11#2 → t.adminPort = .p3) ∧
      (ratesel = 0b00#2 → t.linkRate = .baud115200) ∧ (ratesel = 0b01#2 → t.linkRate = .baud460800) ∧
      (ratesel = 0b10#2 → t.linkRate = .baud921600) ∧ (ratesel = 0b11#2 → t.linkRate = .baud2000000) ∧
      { t with resetHeld := s.resetHeld, adminPort := s.adminPort, linkRate := s.linkRate } = s) ∧
    (s.resetHeld = false → exec (.resetRelease admsel ratesel) s = .next s)

/-- R177 with Table 11.2, and R170: RECOVER takes the action of the marker's kind, clears the marker, keeps the action to
be reported and moves the phase to LOAD. -/
def Obligations.RecoverActsOnTheMarker : Prop :=
  ∀ s : State, s.phase = .recover → s.resetHeld = false →
    (s.marker = none → exec .recover s = .next { s with recovery := .none, phase := .load }) ∧
    (∀ n, s.marker = some (.program n) → exec .recover s = .next { s with
      torn := if s.torn.any (fun e => e.sector == n)
        then s.torn.map (fun e => if e.sector = n then { e with cause := .program } else e)
        else s.torn ++ [{ sector := n, cause := .program }]
      marker := none, recovery := .torn n .program, phase := .load }) ∧
    (∀ n, s.marker = some (.erase n) → exec .recover s = .next { s with
      torn := if s.torn.any (fun e => e.sector == n)
        then s.torn.map (fun e => if e.sector = n then { e with cause := .erase } else e)
        else s.torn ++ [{ sector := n, cause := .erase }]
      marker := none, recovery := .torn n .erase, phase := .load }) ∧
    (s.marker = some .save → exec .recover s = .next { s with
      imageState := .invalid, marker := none, recovery := .save, phase := .load }) ∧
    (∀ (i : Fin 8) e, s.marker = some (.freeze i.val e) → ∃ t, exec .recover s = .next t ∧
      t.fuses.get i = { base := (s.fuses.get i).base &&& e.base, k := (s.fuses.get i).k &&& e.k } ∧
      (∀ j, j ≠ i → t.fuses.get j = s.fuses.get j) ∧
      t.marker = none ∧ t.recovery = .freeze i.val ∧ t.phase = .load ∧
      { t with fuses := s.fuses, marker := s.marker, recovery := s.recovery, phase := s.phase } = s)

/-- R180, R54, R63: LOAD sets the window table by the image state. R181, R79: it then sets each guard input from its pin,
posting nothing. LOAD leaves the phase LOAD, with the guard inputs followed; READY moves it (log 17). -/
def Obligations.LoadSetsTheTableAndTheGuards : Prop :=
  ∀ s : State, s.phase = .load → s.guardsFollow = false → ∃ t, exec .load s = .next t ∧
    (s.imageState = .valid →
      (∀ w, t.window w = (s.image.slots.get w).map (fun f => { fields := f, latchOpen := false, idle := .stopped })) ∧
        t.header = s.image.header ∧ t.tableState = .saved) ∧
    (s.imageState = .invalid → (∀ w, t.window w = none) ∧ t.header = Header.empty ∧ t.tableState = .lost) ∧
    (s.imageState = .none → (∀ w, t.window w = none) ∧ t.header = Header.empty ∧ t.tableState = .blank) ∧
    (∀ g, t.guardPin g =
      { high := (s.guardPin g).high
        input := if (t.header.guard g).activeHigh = (s.guardPin g).high then .active else .inactive }) ∧
    t.guardsFollow = true ∧
    { t with windows := s.windows, header := s.header, tableState := s.tableState, guards := s.guards,
             guardsFollow := s.guardsFollow } = s

/-- R182, R19: at READY all four ports become READY, and STARTED, with the table state, the torn and fuse counts and the
recovery action, is added to each notice queue; each ATN line is asserted. (READY is the row of that event: log 17.) -/
def Obligations.ReadyPostsStartedToEveryPort : Prop :=
  ∀ s : State, s.phase = .load → s.guardsFollow = true → ∃ t, exec .ready s = .next t ∧
    t.phase = .ready ∧
    (∀ p, (s.port p).notices = [] → (s.port p).overflow = false → t.port p =
      { s.port p with
        ready := true
        notices := [.started s.tableState s.torn.length (s.fuses.toList.filter (fun f => f != FuseSlot.blank)).length
          s.recovery]
        atn := true }) ∧
    (∀ p, (t.port p).ready = true ∧ (t.port p).inbound = (s.port p).inbound ∧ (t.port p).output = (s.port p).output) ∧
    { t with ports := s.ports, phase := s.phase } = s

/-! ### Port links -/

/-- R2, R3: what the framer does with a byte, and how a frame is abandoned. In HUNT only H'C5 begins a frame; the two LEN
bytes give LEN, first byte most significant; a LEN of 2 to 260 moves to BODY, any other abandons the frame; BODY collects
LEN bytes and then two CRC bytes, which do not enter the running CRC; each byte restarts the gap timer; the gap timer's
expiry abandons the frame. While RESETN is low a byte is not examined (R175).
Times in the units of log 3. LENGTH_ABANDON is a row of its own, and a due one comes before the next byte (log 14). -/
def Obligations.FramerTakesBytes : Prop :=
  ∀ (s : State) (p : Port) (b : Byte),
    (s.resetHeld = true → exec (.byteReceived p b) s = .next s) ∧
    (s.resetHeld = false → (s.port p).framer = .hunt → b = 0xC5 →
      exec (.byteReceived p b) s = .next (s.setFramer p (.length
        { lenBytes := [], content := [], crcBytes := [], crc := 0xFFFF, gapLeft := s.linkRate.gapTime }))) ∧
    (s.resetHeld = false → (s.port p).framer = .hunt → b ≠ 0xC5 → exec (.byteReceived p b) s = .next s) ∧
    (∀ a, s.resetHeld = false → (s.port p).framer = .length a → a.lenBytes = [] →
      exec (.byteReceived p b) s = .next (s.setFramer p (.length
        { a with lenBytes := [b], crc := crcByte a.crc b, gapLeft := s.linkRate.gapTime }))) ∧
    (∀ a c, s.resetHeld = false → (s.port p).framer = .length a → a.lenBytes = [c] →
      2 ≤ c.toNat * 256 + b.toNat → c.toNat * 256 + b.toNat ≤ 260 →
      exec (.byteReceived p b) s = .next (s.setFramer p (.body
        { a with lenBytes := [c, b], crc := crcByte a.crc b, gapLeft := s.linkRate.gapTime }))) ∧
    (∀ a c, s.resetHeld = false → (s.port p).framer = .length a → a.lenBytes = [c] →
      (c.toNat * 256 + b.toNat < 2 ∨ 260 < c.toNat * 256 + b.toNat) →
      exec (.byteReceived p b) s = .next (s.setFramer p (.length
        { a with lenBytes := [c, b], crc := crcByte a.crc b, gapLeft := s.linkRate.gapTime }))) ∧
    (∀ a c d, (s.port p).framer = .length a → a.lenBytes = [c, d] →
      (c.toNat * 256 + d.toNat < 2 ∨ 260 < c.toNat * 256 + d.toNat) →
      exec (.lengthAbandon p) s = .next (s.setFramer p .hunt) ∧
      (s.resetHeld = false → exec (.byteReceived p b) s = exec (.byteReceived p b) (s.setFramer p .hunt))) ∧
    (∀ a, s.resetHeld = false → (s.port p).framer = .body a → a.content.length < fromBE a.lenBytes →
      exec (.byteReceived p b) s = .next (s.setFramer p (.body
        { a with content := a.content ++ [b], crc := crcByte a.crc b, gapLeft := s.linkRate.gapTime }))) ∧
    (∀ a, s.resetHeld = false → (s.port p).framer = .body a → fromBE a.lenBytes ≤ a.content.length → a.crcBytes = [] →
      exec (.byteReceived p b) s = .next (s.setFramer p (.body
        { a with crcBytes := [b], gapLeft := s.linkRate.gapTime }))) ∧
    (∀ a c, s.resetHeld = false → (s.port p).framer = .body a → fromBE a.lenBytes ≤ a.content.length → a.crcBytes = [c] →
      exec (.byteReceived p b) s = .next (s.setFramer p (.check
        { a with crcBytes := [c, b], gapLeft := s.linkRate.gapTime }))) ∧
    (∀ a, ((s.port p).framer = .length a ∨ (s.port p).framer = .body a) →
      exec (.gapTimerExpiry p) s = .next (s.setFramer p .hunt))

/-- R4, R5, R6: a frame whose CRCs differ, a good frame on a STARTING port and a good frame that finds 4 frames in the
inbound queue are dropped and answered by a link error response; another good frame joins the inbound queue, and is taken
at once when the request engine is WAITING (R7). A link error response joins the output list while fewer than 4 wait, not
counting one in transmission; when the oldest frame begins its transmission is free (log 5). The framer is back in HUNT. A good PORT-CLEAR frame on a READY port is taken as the port clear that the row PORT_CLEAR is
(`PortClearEmptiesThePort`). -/
def Obligations.FrameCheckDisposesOfTheFrame : Prop :=
  (∀ (s : State) (p : Port) (a : Assembly), (s.port p).framer = .check a →
    let f : Frame := { type := a.content.getD 0 0, tag := a.content.getD 1 0, body := a.content.drop 2 }
    let u := s.setFramer p .hunt
    (a.crc.toNat ≠ fromBE a.crcBytes → exec (.frameCheck p) s = .next (u.linkError p .badFrame)) ∧
    (a.crc.toNat = fromBE a.crcBytes → (s.port p).ready = false →
      exec (.frameCheck p) s = .next (u.linkError p .notReady)) ∧
    (a.crc.toNat = fromBE a.crcBytes → (s.port p).ready = true → (f.type ≠ 0x12 ∨ f.body ≠ []) →
      (4 ≤ (s.port p).inbound.length → exec (.frameCheck p) s = .next (u.linkError p .rxFull)) ∧
      ((s.port p).inbound.length < 4 → (s.port p).engine ≠ .waiting →
        exec (.frameCheck p) s = .next (u.modPort p (fun l => { l with inbound := l.inbound ++ [f] }))) ∧
      ((s.port p).inbound = [] → (s.port p).engine = .waiting →
        exec (.frameCheck p) s = .next (u.modPort p (fun l =>
          { l with engine := .working, request := some { frame := f, judged := false } })))) ∧
    (a.crc.toNat = fromBE a.crcBytes → (s.port p).ready = true → f.type = 0x12 → f.body = [] →
      exec (.frameCheck p) s = exec (.portClear p) s)) ∧
  (∀ (s : State) (p : Port) (r : Result),
    ((s.port p).waitingLinkErrors < 4 → s.linkError p r = s.modPort p (fun l =>
      { l with output := l.output ++ [{ kind := .linkError, type := 0xFF, tag := 0x00, body := [r.code] }] })) ∧
    (4 ≤ (s.port p).waitingLinkErrors → (s.port p).sending = true → s.linkError p r = s) ∧
    (4 ≤ (s.port p).waitingLinkErrors → (s.port p).sending = false →
      ((s.linkError p r).port p).output = (s.port p).output ∨
      (((s.linkError p r).port p).sending = true ∧ ((s.linkError p r).port p).output = (s.port p).output ++
        [{ kind := .linkError, type := 0xFF, tag := 0x00, body := [r.code] }])))

/-- R6, R7: a frame leaves the output list when it has been sent, and TXDn is at the idle level until another begins. If it
answers the request in progress, that request becomes none, and the engine takes the oldest frame of the inbound queue, or
becomes WAITING when there is none; the end of any other frame leaves the request engine alone. What has left TXD is the whole
frame: the SYNC byte, LEN, TYPE, TAG, the body and the CRC of all but the SYNC byte (Table 12.1). That the row ends a frame
whatever part of it has been sent is the model's choice (log 22). -/
def Obligations.ResponseSentLetsTheNextRequestIn : Prop :=
  (∀ (s : State) (p : Port) (f : OutFrame) (rest : List OutFrame), (s.port p).output = f :: rest →
    (f.kind = .answer → (s.port p).inbound = [] →
      exec (.responseSent p) s = .next (s.modPort p (fun l =>
        { l with output := rest, sending := false, txBytes := f.wire, txLeft := 0, engine := .waiting, request := none }))) ∧
    (∀ g q, f.kind = .answer → (s.port p).inbound = g :: q →
      exec (.responseSent p) s = .next (s.modPort p (fun l =>
        { l with output := rest, sending := false, txBytes := f.wire, txLeft := 0, engine := .working,
                 request := some { frame := g, judged := false }, inbound := q }))) ∧
    (f.kind ≠ .answer →
      exec (.responseSent p) s = .next (s.modPort p (fun l =>
        { l with output := rest, sending := false, txBytes := f.wire, txLeft := 0 })))) ∧
  (∀ f : OutFrame, f.wire =
    [0xC5] ++ be2 (f.body.length + 2) ++ [f.type, f.tag] ++ f.body ++
      be2 (crcOf (be2 (f.body.length + 2) ++ [f.type, f.tag] ++ f.body)).toNat)

/-- R8, R184, R185: a taken request whose TYPE is no request code is answered UNKNOWN_TYPE with type H'80; one whose body
has a size that its type does not allow BAD_LENGTH; one with a port-checked field outside its range BAD_FIELD; and
nothing else changes. -/
def Obligations.PortChecksRefuse : Prop :=
  (∀ (s : State) (p : Port) (f : Frame), s.taken p = some f → (∀ k : ReqType, f.type ≠ k.code) →
    exec (.unknownType p) s = .next (s.modPort p (fun l =>
      { l with
        request := some { frame := f, judged := true }
        output := l.output ++ [{ kind := .answer, type := 0x80, tag := f.tag, body := [0x13] }] }))) ∧
  (∀ (c : Instr) (p : Port) (k : ReqType) (s : State) (f : Frame), requestOf c = some (p, k) → s.taken p = some f →
    f.type = k.code → (c = .portClear p → ∀ a, (s.port p).framer ≠ .check a) →
    (k.sizeOk f.body.length = false → ∃ t, exec c s = .next t ∧ OnlyAnswers s t p f .badLength []) ∧
    (k.sizeOk f.body.length = true → k.fieldsOk f.body = false →
      ∃ t, exec c s = .next t ∧ OnlyAnswers s t p f .badField []))

/-- R10, R12: posting a notice to a port. Fewer than 16 notices: it is added as the newest. Otherwise it is dropped, and the
overflow flag set. Either way ATN is asserted. -/
def Obligations.PostAddsOrDropsTheNotice : Prop :=
  ∀ (s : State) (p : Port) (n : Notice),
    ((s.port p).notices.length < 16 →
      s.post p n = s.modPort p (fun l => { l with notices := l.notices ++ [n], atn := true })) ∧
    ((s.port p).notices.length = 16 → s.post p n = s.modPort p (fun l => { l with overflow := true, atn := true }))

/-- R13, R12: FETCH-NOTICES removes the oldest notices, up to the maximum, answers OK with their count, the overflow flag
as it stood and their records, clears the flag and updates ATN. -/
def Obligations.FetchNoticesRemovesTheOldest : Prop :=
  ∀ (s : State) (p : Port) (f : Frame), s.Asks p .fetchNotices f →
    ∃ t, exec (.fetchNotices p) s = .next t ∧
      (let l := s.port p
       let m := (byteAt f.body 0).toNat
       t.ports = s.ports.set p
        { l.answered f .ok (byteOf (min m l.notices.length) :: flagByte l.overflow ::
            ((l.notices.take m).map Notice.record).flatten) with
          notices := l.notices.drop m
          overflow := false
          atn := decide (m < l.notices.length) }) ∧
      { t with ports := s.ports } = s

/-- R14, R172, R165: STATUS, LIST-TORN and LIST-FUSES are answered OK with their values as they stand, by the layouts of
Table 12.5, and change no state.
R136, R53: JOB-QUERY and DESCRIBE-WINDOW report a job and a window as they stand, by the layouts of Table 12.5, and change
no state; NO_SUCH_JOB and SLOT_EMPTY where there is none.
The remaining time is in the units of log 3, and a reservation whose job is not found is reported QUEUED (log 18), both the
model's choice. -/
def Obligations.ReportingRequestsChangeNothing : Prop :=
  (∀ (s : State) (p : Port) (f : Frame), s.Asks p .status f → ∃ t, exec (.status p) s = .next t ∧
    OnlyAnswers s t p f .ok
      [flagByte (p = s.adminPort), tableStateCode s.tableState, flagByte s.locked, byteOf s.jobs.length,
       byteOf (allBuffers.filter (fun b => (s.buffer b).state == .free)).length, byteOf s.torn.length,
       byteOf (s.fuses.toList.filter (fun e => e != FuseSlot.blank)).length, byteOf s.reservations.length,
       byteOf (s.port p).notices.length, flagByte (s.port p).overflow]) ∧
  (∀ (s : State) (p : Port) (f : Frame), s.Asks p .listTorn f → ∃ t, exec (.listTorn p) s = .next t ∧
    OnlyAnswers s t p f .ok
      (byteOf s.torn.length :: (s.torn.map (fun e => be2 e.sector ++ [tornCauseCode e.cause])).flatten)) ∧
  (∀ (s : State) (p : Port) (f : Frame), s.Asks p .listFuses f → ∃ t, exec (.listFuses p) s = .next t ∧
    OnlyAnswers s t p f .ok
      (byteOf (s.fuses.toList.filter (fun e => e != FuseSlot.blank)).length ::
        (((s.fuses.toList.zip (List.range 8)).filter (fun e => e.1 != FuseSlot.blank)).map
          (fun e => byteOf e.2 :: be3 e.1.base.toNat ++ [byteOf e.1.k.toNat])).flatten ++
        byteOf s.reservations.length ::
        (s.reservations.map (fun r => r.job :: be3 r.range.base ++ [byteOf r.range.k,
          jobStateCode ((s.findJob r.job).elim .queued Job.state)])).flatten)) ∧
  (∀ (s : State) (p : Port) (f : Frame), s.Asks p .jobQuery f →
    ((∀ j ∈ s.jobs, j.id ≠ byteAt f.body 0) →
      ∃ t, exec (.jobQuery p) s = .next t ∧ OnlyAnswers s t p f .noSuchJob []) ∧
    (∀ j, s.findJob (byteAt f.body 0) = some j → ∃ t, exec (.jobQuery p) s = .next t ∧
      OnlyAnswers s t p f .ok
        ([portCode j.owner, jobKindCode j.work.kind, jobStateCode j.state,
          byteOf (s.jobs.findIdx (fun k => k.id == j.id) + 1)] ++ be2 j.sectorsDone ++
          be2 (match j.work with
            | .eraseWindow _ r => 2 ^ r.k / 4096
            | _ => 0) ++
          [flagByte j.stopRequested] ++ be2 j.suspensions))) ∧
  (∀ (s : State) (p : Port) (f : Frame), s.Asks p .describeWindow f →
    (s.window (slotAt f.body 0) = none →
      ∃ t, exec (.describeWindow p) s = .next t ∧ OnlyAnswers s t p f .slotEmpty []) ∧
    (∀ x, s.window (slotAt f.body 0) = some x → ∃ t, exec (.describeWindow p) s = .next t ∧
      let y := x.fields.settings
      OnlyAnswers s t p f .ok
        (be3 x.fields.range.base ++
          [byteOf x.fields.range.k, portSetCode y.readers, portSetCode y.writers, watchCode y.watch, trapCode y.readTrap,
           trapCode y.writeTrap, verdictCode y.holdDefault, y.idlePeriod, flagByte y.idleCountsReads, guardCode y.guard] ++
          [latchCode x.latchOpen, idleTimerCode x.idle,
           byteOf (match x.idle with
             | .stopped => 0
             | .counting left => (left + 2879999) / 2880000
             | .held => y.idlePeriod.toNat),
           flagByte (s.guardReads y.guard),
           byteOf (s.jobs.filter (fun j => j.work.slot? == some (slotAt f.body 0))).length,
           byteOf (s.holds.filter (fun h => h.slot == slotAt f.body 0)).length])))

/-! ### Port clear -/

/-- R15, R16, R17, R97, R112, R137, R155, R158, R163, R81: a port clear, by CLRn or by a good PORT-CLEAR frame on a READY port,
whichever of its two rows brings it, where the sequencer has nothing to decide and no hold is watched by the port. The link is
emptied but for a frame in transmission, the port's FILLING buffers become FREE, its QUEUED jobs leave the list, each with its
buffer or reservation, and the idle timer of a window that loses one is brought up to date (`ClearedToJobs`); its own hold
leaves the hold table, its pending read is withdrawn, and its read in service will be answered by nothing. A PORT-CLEAR frame
is answered OK with type H'92, as the newest frame of the output list; CLRn sends nothing. The framer is in HUNT. Whether a
frame has begun its transmission is free (log 5).
Times in the units of log 3. -/
def Obligations.PortClearEmptiesThePort : Prop :=
  ∀ (s : State) (p : Port), (s.port p).ready = true → s.JobIdsDistinct → s.TransmittersLawful →
    (∀ h ∈ s.holds, h.requester ≠ p → h.watch ≠ p) →
    (s.seq.arrayState ≠ .idle ∨ (s.jobs = [] ∧ s.nextReader = none)) →
    ∀ c, (c = .clrFallingEdge p ∨ ((c = .portClear p ∨ c = .frameCheck p) ∧
        ∃ a, (s.port p).framer = .check a ∧ a.good = true ∧ a.frame.isPortClear = true)) →
      ∃ t v : State, exec c s = .next t ∧ ClearedToJobs s v p ∧
        (c = .clrFallingEdge p → t.port p = v.port p) ∧
        (∀ a, (s.port p).framer = .check a → c ≠ .clrFallingEdge p → t.port p =
          { v.port p with output := (v.port p).output ++
            [{ kind := .portClear, type := 0x92, tag := a.content.getD 1 0, body := [0x00] }] }) ∧
        (∀ q, q ≠ p → t.port q = v.port q) ∧
        t.holds = s.holds.filter (fun h => h.requester != p) ∧
        t.seq = { s.seq with
          pendingReads := s.seq.pendingReads.set p none
          inService := s.seq.inService.map (fun r => if r.port = p then { r with withdrawn := true } else r) } ∧
        { t with ports := v.ports, holds := v.holds, seq := v.seq } = v

/-- R98, R17, R81: a port clear, by CLRn or by a good PORT-CLEAR frame, clears the link, the buffers and the job list
(`ClearedToJobs`), lets the sequencer decide, removes the port's own hold, and then resolves the holds that the port watches,
oldest first, each with its window's hold default; its reads go last (the order of the table of R17: log 10). The answer to a
PORT-CLEAR frame comes after all of that. It leaves latches, guard inputs, window fields, the header, the table state, the
table lock, the admin port, the fuse list, the torn list, the image and the main array as they were.
Times in the units of log 3. -/
def Obligations.PortClearResolvesWatchedHoldsAndLeavesTheTable : Prop :=
  ∀ (s : State) (p : Port), (s.port p).ready = true → s.JobIdsDistinct → s.TransmittersLawful →
    ∃ v z : State, ClearedToJobs s v p ∧
      (let u := { v.arbitrate with holds := s.holds.filter (fun h => h.requester != p) }
       z = ((u.holds.filter (fun h => h.watch == p)).foldl (fun y h => y.resolveHold h (y.holdDefault h)) u).clearReads p) ∧
      exec (.clrFallingEdge p) s = .next z ∧
      (∀ a, (s.port p).framer = .check a → a.good = true → a.frame.isPortClear = true →
        ∀ c, (c = .portClear p ∨ c = .frameCheck p) → exec c s = .next (z.modPort p (fun l => { l with
          output := l.output ++ [{ kind := .portClear, type := 0x92, tag := a.content.getD 1 0, body := [0x00] }] }))) ∧
      (∀ w, (z.window w).map (fun x => (x.fields, x.latchOpen)) = (s.window w).map (fun x => (x.fields, x.latchOpen))) ∧
      z.guards = s.guards ∧ z.header = s.header ∧ z.tableState = s.tableState ∧ z.locked = s.locked ∧
      z.adminPort = s.adminPort ∧ z.fuses = s.fuses ∧ z.torn = s.torn ∧ z.imageState = s.imageState ∧
      z.image = s.image ∧ z.mem = s.mem ∧ z.phase = s.phase

/-! ### Reads -/

/-- R42: a READ is answered by the first check of the access decode that fails, and nothing else changes: no window holds
its address (NO_WINDOW), the port is no reader of the window (NOT_READER), the last byte lies past the window (RANGE). -/
def Obligations.ReadIsRefusedByTheDecode : Prop :=
  ∀ (s : State) (p : Port) (f : Frame), s.Asks p .read f →
    let a := fieldAt f.body 0 3
    let n := fieldAt f.body 3 2
    ((∀ w x, s.window w = some x → a < x.fields.range.base ∨ x.fields.range.base + 2 ^ x.fields.range.k ≤ a) →
      ∃ t, exec (.read p) s = .next t ∧ OnlyAnswers s t p f .noWindow []) ∧
    (∀ w x, s.windowAt a = some w → s.window w = some x →
      (x.fields.settings.readers.getLsbD p.idx = false →
        ∃ t, exec (.read p) s = .next t ∧ OnlyAnswers s t p f .notReader []) ∧
      (x.fields.settings.readers.getLsbD p.idx = true → x.fields.range.base + 2 ^ x.fields.range.k < a + n →
        ∃ t, exec (.read p) s = .next t ∧ OnlyAnswers s t p f .range []))

/-- R141, R83, R84, R85, R69: a READ that passes the decode, under a read trap OFF, under NOTE, or from the watch port of a
HOLD window, becomes a pending read in its own event, without a response. The idle timer is reloaded where reads count, and
the TRAP notice is posted, with hold id 0, but for OFF. Then the sequencer decides if the array is IDLE, and considers a
suspend request otherwise (R150: `SuspensionIsRequestedAndTaken`). -/
def Obligations.ReadBecomesPending : Prop :=
  ∀ (s : State) (p : Port) (f : Frame) (w : Slot) (x : Window), s.Asks p .read f →
    let a := fieldAt f.body 0 3
    let n := fieldAt f.body 3 2
    let trap := x.fields.settings.readTrap
    s.windowAt a = some w → s.window w = some x → x.fields.settings.readers.getLsbD p.idx = true →
    a + n ≤ x.fields.range.base + 2 ^ x.fields.range.k →
    (trap = .off ∨ trap = .note ∨ (trap = .hold ∧ x.fields.settings.watch = some p)) →
    ∃ u : State, exec (.read p) s = .next (if s.seq.arrayState = .idle then u.arbitrate else u.requestSuspend) ∧
      u.seq = { s.seq with
        pendingReads := s.seq.pendingReads.set p (some { tag := f.tag, address := a, length := n, slot := w }) } ∧
      u.window w = some { x with
        idle := if x.fields.settings.idleCountsReads then x.timer (s.liveJobs w) true else x.idle } ∧
      (∀ v, v ≠ w → u.window v = s.window v) ∧
      (∀ q, u.port q = PortLink.noted (if q = p then (s.port p).handed f else s.port q)
        (trap ≠ .off ∧ x.fields.settings.watch = some q) (.trap w p .read a n 0)) ∧
      { u with ports := s.ports, windows := s.windows, seq := s.seq } = s

/-- R86, R87, R117, R119: under HOLD, from a port other than the watch port, a READ that passes the decode and a write-side
request that passes every acceptance check are parked: a hold record with the next hold id that no hold has (R87) and the
header's hold limit is added at the tail, TRAP with that id is posted to the watch port, and the engine moves to HELD. Nothing else changes.
Times in the units of log 3. -/
def Obligations.HoldTrapParksTheRequest : Prop :=
  ∀ (s : State) (c : Instr) (p q : Port) (f : Frame) (w : Slot) (x : Window) (kind : AccessKind) (a n : Nat),
    s.window w = some x → x.fields.settings.watch = some q → q ≠ p →
    ((c = .read p ∧ s.Asks p .read f ∧ kind = .read ∧ a = fieldAt f.body 0 3 ∧ n = fieldAt f.body 3 2 ∧
        s.windowAt a = some w ∧ x.fields.settings.readers.getLsbD p.idx = true ∧
        a + n ≤ x.fields.range.base + 2 ^ x.fields.range.k ∧ x.fields.settings.readTrap = .hold) ∨
      (∃ req, AsksWrite s c p f req ∧ s.acceptCheck p req = .ok (w, x) ∧ kind = req.access ∧ a = req.address x ∧
        n = s.writeLength req x ∧ x.fields.settings.writeTrap = .hold)) →
    ∃ (t : State) (id : Byte), exec c s = .next t ∧
      (s.holds.length < 255 → FirstFree (s.holds.map Hold.id) s.nextHoldId id) ∧
      t.nextHoldId = (if id = 0xFF then 0x01 else id + 1) ∧
      t.holds = s.holds ++ [{ id := id, requester := p, watch := q, slot := w, kind := kind, request := f,
                              left := s.header.holdLimit * 28800 }] ∧
      t.port p = { (s.port p).handed f with engine := .held } ∧
      t.port q = (s.port q).post (.trap w p kind a n id) ∧
      (∀ r, r ≠ p → r ≠ q → t.port r = s.port r) ∧
      { t with ports := s.ports, holds := s.holds, nextHoldId := s.nextHoldId } = s

/-- R148, R23: the service of a granted read completes with the stored values of its range in address order and the TORN
flag; the array becomes IDLE, and the sequencer decides. R155: the read of a cleared port is answered by nothing. -/
def Obligations.ReadServiceCompletesWithTheStoredValues : Prop :=
  ∀ (s : State) (r : ReadService), s.seq.inService = some r →
    (r.withdrawn = true → exec .readServiceCompletion s = .next
      (State.arbitrate { s with seq := { s.seq with inService := none, arrayState := .idle } })) ∧
    (r.withdrawn = false → ∃ (u : State) (flag : Byte) (data : List Byte),
      exec .readServiceCompletion s = .next u.arbitrate ∧
      u.ports = s.ports.set r.port { s.port r.port with output := (s.port r.port).output ++
        [{ kind := .answer, type := 0x82, tag := r.record.tag, body := 0x00 :: flag :: data }] } ∧
      data.length = r.record.length ∧
      (∀ i, i < r.record.length → data.getD i 0 = Memory.read s.mem (r.record.address + i)) ∧
      flag = (if ∃ e ∈ s.torn, r.record.address < (e.sector + 1) * 4096 ∧
        e.sector * 4096 < r.record.address + r.record.length then 0x01 else 0x00) ∧
      u.seq = { s.seq with inService := none, arrayState := .idle } ∧
      { u with ports := s.ports, seq := s.seq } = s)

/-! ### The sequencer -/

/-- R144, R145, R152: a decision takes the first case that applies, and a read grant goes to the first port after the
pointer, cyclically, with a pending read.
R143: the sequencer decides nothing while the array is busy. From an IDLE array with a lawful offer its decisions end
with an array that is busy, or with no job SUSPENDED, no read pending and no offer. -/
def Obligations.DecisionsTakeTheFirstCaseAndSettle : Prop :=
  (∀ s : State,
      (∀ p, s.nextReader = some p → s.jobSuspended = true → s.seq.readsServed < 4 → s.decision = .read p) ∧
      (∀ p, s.nextReader = some p → s.jobSuspended = true → 4 ≤ s.seq.readsServed → s.decision = .resume) ∧
      (s.nextReader = none → s.jobSuspended = true → s.decision = .resume) ∧
      (∀ p, s.nextReader = some p → s.jobSuspended = false → s.offer ≠ .none → s.seq.lastGrant = .read →
        s.decision = .offer) ∧
      (∀ p, s.nextReader = some p → s.jobSuspended = false → (s.offer = .none ∨ s.seq.lastGrant ≠ .read) →
        s.decision = .read p) ∧
      (s.nextReader = none → s.jobSuspended = false → s.offer ≠ .none → s.decision = .offer) ∧
      (s.nextReader = none → s.jobSuspended = false → s.offer = .none → s.decision = .nothing) ∧
      (∀ p, s.nextReader = some p ↔
        (s.seq.pendingReads.get p).isSome = true ∧
        ∀ q, (q.idx + 3 - s.seq.pointer.idx) % 4 < (p.idx + 3 - s.seq.pointer.idx) % 4 → s.seq.pendingReads.get q = none)) ∧
  (∀ s : State,
      (s.seq.arrayState ≠ .idle → s.arbitrate = s) ∧
      (s.offer = s.offerNow → s.arbitrate.offer = s.arbitrate.offerNow ∧
        (s.arbitrate.seq.arrayState = .idle →
          s.arbitrate.jobSuspended = false ∧ (∀ p, s.arbitrate.seq.pendingReads.get p = none) ∧
          s.arbitrate.offer = .none)))

/-- R147, R145, R152, R146: what a decision at an IDLE array grants. A pending read leaves the pending reads, and is served,
or, where it touches the sector of the current step, answered IN_PROGRESS with a further decision; a resume puts the step
back to RUNNING with its gap timer; an offer whose check passes starts its step.
Times in the units of log 3. -/
def Obligations.DecisionGrants : Prop :=
  ∀ s : State, s.seq.arrayState = .idle →
    (∀ p r, s.decision = .read p → s.seq.pendingReads.get p = some r → s.readInProgress r.address r.length = false →
      s.arbitrate = { s with seq := { s.seq with
        pendingReads := s.seq.pendingReads.set p none, pointer := p, lastGrant := .read,
        readsServed := if s.jobSuspended then s.seq.readsServed + 1 else s.seq.readsServed,
        arrayState := .read, inService := some { port := p, record := r, withdrawn := false } } }) ∧
    (∀ p r, s.decision = .read p → s.seq.pendingReads.get p = some r → s.readInProgress r.address r.length = true →
      ∃ u : State, s.arbitrate = u.arbitrate ∧
        u.seq = { s.seq with
          pendingReads := s.seq.pendingReads.set p none, pointer := p, lastGrant := .read,
          readsServed := if s.jobSuspended then s.seq.readsServed + 1 else s.seq.readsServed } ∧
        u.ports = s.ports.set p { s.port p with output := (s.port p).output ++
          [{ kind := .answer, type := 0x82, tag := r.tag, body := [0x3A] }] } ∧
        { u with ports := s.ports, seq := s.seq } = s) ∧
    (∀ a n, s.readInProgress a n = true ↔ ∃ m,
      ((∃ b i l, s.arrayStep = some (.program b l i) ∧ m = b / 4096) ∨ s.arrayStep = some (.erase m)) ∧
        a < (m + 1) * 4096 ∧ m * 4096 < a + n) ∧
    (s.decision = .resume → ∃ o, s.arbitrate = { s with
      arrayOp := .running
      jobs := s.jobs.map (fun j => if j.state = .suspended then { j with state := .active } else j)
      offer := o
      seq := { s.seq with arrayState := .run, lastGrant := .job, resumeGap := .running 4320 } }) ∧
    (∀ id j, s.decision = .offer → s.offer = .queued id → s.findJob id = some j → s.startCheck j = none →
      s.arbitrate = s.startStep j) ∧
    (∀ id j, s.decision = .offer → s.offer = .nextStep id → s.findJob id = some j → s.boundaryCheck j = none →
      s.arbitrate = s.startStep j) ∧
    (∀ id j reason, s.decision = .offer → s.offer = .queued id → s.findJob id = some j → s.startCheck j = some reason →
      s.arbitrate = (s.endJob j .failed reason 0 true).arbitrate) ∧
    (∀ id j st reason, s.decision = .offer → s.offer = .nextStep id → s.findJob id = some j →
      s.boundaryCheck j = some (st, reason) →
      s.arbitrate = (s.endJob j st reason j.sectorsDone true).arbitrate)

/-- R124, R130: the start check of a PROGRAM, an ERASE-SECTOR or the first step of an ERASE-WINDOW, in the order FROZEN,
GUARDED, LATCH_SHUT, and the boundary checks of a later step, in the order stop requested, LATCH_SHUT, FROZEN. R125:
SAVE-TABLE and FREEZE-WINDOW have no start check.
R159, R118, R169: a sector is frozen when it lies inside the range of a complete fuse entry or of a reservation, and torn
when the torn list holds it. The target sectors of a PROGRAM, an ERASE-SECTOR and an ERASE-WINDOW. -/
def Obligations.FrozenSectorsAndStartChecks : Prop :=
  (∀ (s : State) (j : Job) (w : Slot) (x : Window), s.window w = some x →
      (∀ frozen : Bool,
        ((∃ a n b, j.work = .program w a n b ∧ frozen = s.sectorFrozen (a / 4096)) ∨
          (∃ n, j.work = .eraseSector w n ∧ frozen = s.sectorFrozen n) ∨
          (∃ r, j.work = .eraseWindow w r ∧
            frozen = (List.range (2 ^ r.k / 4096)).any (fun i => s.sectorFrozen (r.base / 4096 + i)))) →
        (frozen = true → s.startCheck j = some .frozen) ∧
        (frozen = false → s.guardReads x.fields.settings.guard = true → s.startCheck j = some .guarded) ∧
        (frozen = false → s.guardReads x.fields.settings.guard = false → x.latchOpen = false →
          s.startCheck j = some .latchShut) ∧
        (frozen = false → s.guardReads x.fields.settings.guard = false → x.latchOpen = true → s.startCheck j = none)) ∧
      (j.work = .saveTable → s.startCheck j = none) ∧
      (∀ r, j.work = .freezeWindow w r → s.startCheck j = none) ∧
      (∀ r, j.work = .eraseWindow w r →
        (j.stopRequested = true → s.boundaryCheck j = some (.cancelled, .none)) ∧
        (j.stopRequested = false → x.latchOpen = false → s.boundaryCheck j = some (.stopped, .latchShut)) ∧
        (j.stopRequested = false → x.latchOpen = true → s.sectorFrozen (r.base / 4096 + j.sectorsDone) = true →
          s.boundaryCheck j = some (.stopped, .frozen)) ∧
        (j.stopRequested = false → x.latchOpen = true → s.sectorFrozen (r.base / 4096 + j.sectorsDone) = false →
          s.boundaryCheck j = none))) ∧
  (∀ (s : State) (n : Nat),
      (s.sectorFrozen n = true ↔
        (∃ e ∈ s.fuses.toList, e ≠ FuseSlot.blank ∧ e.base.toNat ≤ n * 4096 ∧
          (n + 1) * 4096 ≤ e.base.toNat + 2 ^ e.k.toNat) ∨
        (∃ r ∈ s.reservations, r.range.base ≤ n * 4096 ∧ (n + 1) * 4096 ≤ r.range.base + 2 ^ r.range.k)) ∧
      (s.sectorTorn n = true ↔ ∃ e ∈ s.torn, e.sector = n) ∧
      (∀ x a b, s.targetFrozen x (.program a b) = s.sectorFrozen (a / 4096)) ∧
      (∀ x, s.targetFrozen x (.eraseSector n) = s.sectorFrozen n) ∧
      (∀ x w, s.targetFrozen x (.eraseWindow w) = true ↔ ∃ i, i < 2 ^ x.fields.range.k / 4096 ∧
        s.sectorFrozen (x.fields.range.base / 4096 + i) = true))

/-- R146, R29, R166, R125, R56, R162: the start of a job's step. The marker of Table 10.2 is written, the array takes the step
and moves to RUNNING, the job is ACTIVE, the array state is RUN, the last grant JOB, and the resume gap timer runs for a
page program or a sector erase alone. A save step takes the capture, and a fuse write the fuse count as its index.
Times in the units of log 3. -/
def Obligations.StepStartWritesTheMarker : Prop :=
  ∀ (s : State) (j : Job), ∃ (step : ArrayStep) (m : Marker) (gap : ResumeGap) (o : Offer) (mark : CaptureMark),
    s.startStep j = { s with
      marker := some m, arrayStep := some step, arrayOp := .running, captureMark := mark, offer := o
      jobs := s.jobs.map (fun k => if k.id = j.id then { k with state := .active } else k)
      seq := { s.seq with arrayState := .run, lastGrant := .job, resumeGap := gap } } ∧
    (∀ w a n b, j.work = .program w a n b →
      step = .program a n b ∧ m = .program (a / 4096) ∧ gap = .running 4320 ∧ mark = s.captureMark) ∧
    (∀ w n, j.work = .eraseSector w n →
      step = .erase n ∧ m = .erase n ∧ gap = .running 4320 ∧ mark = s.captureMark) ∧
    (∀ w r, j.work = .eraseWindow w r → step = .erase (r.base / 4096 + j.sectorsDone) ∧
      m = .erase (r.base / 4096 + j.sectorsDone) ∧ gap = .running 4320 ∧ mark = s.captureMark) ∧
    (j.work = .saveTable → (∃ c : TableImage, step = .save c ∧ c.header = s.header ∧
      ∀ w, c.slots.get w = (s.window w).map Window.fields) ∧ m = .save ∧ gap = .stopped ∧ mark = .clean) ∧
    (∀ w r, j.work = .freezeWindow w r →
      let i := (s.fuses.toList.filter (fun e => e != FuseSlot.blank)).length
      let e : FuseSlot := { base := BitVec.ofNat 24 r.base, k := BitVec.ofNat 8 r.k }
      step = .fuse i e ∧ m = .freeze i e ∧ gap = .stopped ∧ mark = s.captureMark)

/-- R149, R150: the resume gap timer becomes ELAPSED, and a suspend request is made in that event when a page program or a
sector erase step is running, a read is pending and none is made already. The same is made in the event in which a READ is
accepted with the timer ELAPSED (`State.requestSuspend`, which the acceptance ends with: `ReadBecomesPending`); with any of the
conditions missing nothing changes.
R151, R126, R30: the taking of a suspension halts the step, makes the ACTIVE job SUSPENDED with one suspension more, up
to 65,535, sets reads served to 0 and the timer to STOPPED, ends the request and leaves the array IDLE, and the sequencer
decides.
Times in the units of log 3. -/
def Obligations.SuspensionIsRequestedAndTaken : Prop :=
  (∀ (s : State) (left : Nat), s.seq.resumeGap = .running left →
      (((s.seq.arrayState = .run ∧ s.arrayOp = .running ∧ s.seq.suspendRequest = false ∧
          (∃ p, (s.seq.pendingReads.get p).isSome = true)) ∧
          ((∃ a n b, s.arrayStep = some (.program a n b)) ∨ ∃ n, s.arrayStep = some (.erase n)) →
        exec .resumeGapExpiry s = .next { s with
          arrayOp := .suspending, seq := { s.seq with resumeGap := .elapsed, suspendRequest := true } }) ∧
       (¬(s.seq.arrayState = .run ∧ s.arrayOp = .running ∧ s.seq.suspendRequest = false ∧
          (∃ p, (s.seq.pendingReads.get p).isSome = true)) ∨
          (∃ c, s.arrayStep = some (.save c)) ∨ (∃ i e, s.arrayStep = some (.fuse i e)) ∨ s.arrayStep = none →
        exec .resumeGapExpiry s = .next { s with seq := { s.seq with resumeGap := .elapsed } }))) ∧
  (∀ s : State,
      ((s.seq.arrayState = .run ∧ s.arrayOp = .running ∧ s.seq.resumeGap = .elapsed ∧ s.seq.suspendRequest = false ∧
          (∃ p, (s.seq.pendingReads.get p).isSome = true)) →
        ((∃ a n b, s.arrayStep = some (.program a n b)) ∨ ∃ n, s.arrayStep = some (.erase n)) →
        s.requestSuspend = { s with arrayOp := .suspending, seq := { s.seq with suspendRequest := true } }) ∧
      (¬(s.seq.arrayState = .run ∧ s.arrayOp = .running ∧ s.seq.resumeGap = .elapsed ∧ s.seq.suspendRequest = false ∧
          (∃ p, (s.seq.pendingReads.get p).isSome = true)) ∨
          (∃ c, s.arrayStep = some (.save c)) ∨ (∃ i e, s.arrayStep = some (.fuse i e)) ∨ s.arrayStep = none →
        s.requestSuspend = s)) ∧
  (∀ s : State, s.arrayOp = .suspending → ∃ o, exec .suspensionTaken s = .next (State.arbitrate { s with
      arrayOp := .suspended
      jobs := s.jobs.map (fun j => if j.state = .active then
        { j with state := .suspended, suspensions := min (j.suspensions + 1) 65535 } else j)
      offer := o
      seq := { s.seq with arrayState := .idle, readsServed := 0, suspendRequest := false, resumeGap := .stopped } }))

/-! ### Step completions and the ending of jobs -/

/-- R24, R26, R127, R154, R167: the completion of a page program ANDs the buffer's bytes into the target, clears the marker,
frees the array, and ends the job DONE when every byte then equals its buffer byte and MISMATCH with the count of those that
differ otherwise; the sequencer decides. -/
def Obligations.ProgramCompletionAndsTheBuffer : Prop :=
  ∀ (s : State) (a n : Nat) (b : BufferNo) (j : Job), s.mem.wf = true → s.arrayOp = .running →
    s.arrayStep = some (.program a n b) → s.activeJob = some j →
    ∃ (u : State) (count : Nat), exec .programStepCompletion s =
        .next (u.endJob j (if count = 0 then .done else .mismatch) .none count true).arbitrate ∧
      (∀ i, i < n → Memory.read u.mem (a + i) = Memory.read s.mem (a + i) &&& Memory.read (s.buffer b).data i) ∧
      (∀ x, x < a ∨ a + n ≤ x → Memory.read u.mem x = Memory.read s.mem x) ∧ u.mem.wf = true ∧
      count = ((List.range n).filter (fun i => Memory.read u.mem (a + i) != Memory.read (s.buffer b).data i)).length ∧
      u.marker = none ∧ u.arrayOp = .none ∧ u.arrayStep = none ∧
      u.seq = { s.seq with arrayState := .idle, resumeGap := .stopped, suspendRequest := false } ∧
      { u with mem := s.mem, marker := s.marker, arrayOp := s.arrayOp, arrayStep := s.arrayStep, seq := s.seq } = s

/-- R25, R128, R129, R154, R167, R169: the completion of a sector erase makes the sector H'FF, clears the marker, removes the
sector's torn entry and frees the array. An ERASE-SECTOR ends DONE with detail 1. An ERASE-WINDOW has one sector more done; it
ends DONE when that is all of them, and otherwise, ACTIVE as it is, offers its next step. The sequencer decides. -/
def Obligations.EraseCompletionClearsTheSector : Prop :=
  ∀ (s : State) (n : Nat) (j : Job), s.arrayOp = .running → s.arrayStep = some (.erase n) → s.activeJob = some j →
    ∃ u : State,
      (∀ x, Memory.read u.mem x = if n * 4096 ≤ x ∧ x < n * 4096 + 4096 then 0xFF else Memory.read s.mem x) ∧
      u.torn = s.torn.filter (fun e => e.sector != n) ∧
      u.marker = none ∧ u.arrayOp = .none ∧ u.arrayStep = none ∧
      u.seq = { s.seq with arrayState := .idle, resumeGap := .stopped, suspendRequest := false } ∧
      { u with mem := s.mem, torn := s.torn, marker := s.marker, arrayOp := s.arrayOp, arrayStep := s.arrayStep,
               seq := s.seq } = s ∧
      ((∀ w r, j.work ≠ .eraseWindow w r) →
        exec .sectorEraseCompletion s = .next (u.endJob j .done .none 1 true).arbitrate) ∧
      (∀ w r, j.work = .eraseWindow w r →
        (j.sectorsDone + 1 = 2 ^ r.k / 4096 →
          exec .sectorEraseCompletion s = .next (u.endJob j .done .none (j.sectorsDone + 1) true).arbitrate) ∧
        (j.sectorsDone + 1 ≠ 2 ^ r.k / 4096 → j.state = .active → exec .sectorEraseCompletion s = .next (State.arbitrate { u with
          jobs := s.jobs.map (fun k => if k.id = j.id then { k with sectorsDone := k.sectorsDone + 1 } else k)
          offer := .nextStep j.id })))

/-- R57, R131, R162, R167: the completion of a table save makes the capture the image, VALID; the table state becomes SAVED
if no edit was taken since the capture, and the capture mark NONE. The completion of a fuse write programs the entry into its
slot. Each clears the marker, frees the array and ends its job DONE, a FREEZE-WINDOW with the index as its detail. -/
def Obligations.SaveAndFuseCompletions : Prop :=
  ∀ (s : State) (j : Job), s.arrayOp = .running → s.activeJob = some j →
    (∀ c, s.arrayStep = some (.save c) → exec .tableSaveCompletion s = .next (State.arbitrate (State.endJob { s with
      image := c, imageState := .valid
      tableState := if s.captureMark = CaptureMark.clean then .saved else s.tableState
      captureMark := .none, marker := none, arrayOp := .none, arrayStep := none
      seq := { s.seq with arrayState := .idle, resumeGap := .stopped, suspendRequest := false } }
      j .done .none 0 true))) ∧
    (∀ (i : Fin 8) e, s.arrayStep = some (.fuse i.val e) → ∃ u : State,
      exec .fuseWriteCompletion s = .next (u.endJob j .done .none i.val true).arbitrate ∧
      u.fuses.get i = { base := (s.fuses.get i).base &&& e.base, k := (s.fuses.get i).k &&& e.k } ∧
      (∀ m, m ≠ i → u.fuses.get m = s.fuses.get m) ∧
      u.marker = none ∧ u.arrayOp = .none ∧ u.arrayStep = none ∧
      u.seq = { s.seq with arrayState := .idle, resumeGap := .stopped, suspendRequest := false } ∧
      { u with fuses := s.fuses, marker := s.marker, arrayOp := s.arrayOp, arrayStep := s.arrayStep, seq := s.seq } = s)

/-- R132, R110, R70, R133: the ending of a job takes its record out, frees a PROGRAM's buffer, drops its reservation, brings
the idle timer of its window up to date with the live jobs left, posts JOB_END to the owner unless the ending is a removal by
port clear, and forms the offer anew. -/
def Obligations.JobEndsInOneEvent : Prop :=
  ∀ (s : State) (j : Job) (st : EndStatus) (reason : EndReason) (detail : Nat) (notify : Bool),
    ∃ t, t = s.endJob j st reason detail notify ∧
      t.jobs = s.jobs.filter (fun k => k.id != j.id) ∧
      (∀ w a n b, j.work = .program w a n b → t.buffer b = { s.buffer b with state := .free }) ∧
      (∀ b, (∀ w a n, j.work ≠ .program w a n b) → t.buffer b = s.buffer b) ∧
      t.reservations = s.reservations.filter (fun r => r.job != j.id) ∧
      (∀ w x, j.work.slot? = some w → s.window w = some x →
        t.window w = some { x with idle := x.timer (t.jobs.filter (fun k => k.work.slot? == some w)).length true }) ∧
      (∀ w, j.work.slot? ≠ some w → t.window w = s.window w) ∧
      (∀ p, t.port p = (s.port p).noted (notify = true ∧ p = j.owner) (.jobEnd j.id j.work.kind st reason detail)) ∧
      t.offer = t.offerNow ∧
      { t with jobs := s.jobs, buffers := s.buffers, reservations := s.reservations, windows := s.windows,
               ports := s.ports, offer := s.offer } = s

/-! ### Requests of the job queue -/

/-- R42, R43, R117, R118, Table 4.5: a write-side request is answered by the first acceptance check that fails, and nothing
else changes: the decode (NO_WINDOW, NOT_WRITER, RANGE), FROZEN, GUARDED, LATCH_SHUT, TORN, TORN_FULL, a PROGRAM's buffer
(NOT_OWNER, EMPTY_BUFFER, PAGE_CROSS; an ERASE names none), QUEUE_FULL. One that fails none passes. -/
def Obligations.WriteRequestIsAnsweredByTheFirstFailure : Prop :=
  (∀ (s : State) (c : Instr) (p : Port) (f : Frame) (req : WriteReq) (r : Result), AsksWrite s c p f req →
    s.acceptCheck p req = .error r → ∃ t, exec c s = .next t ∧ OnlyAnswers s t p f r []) ∧
  (∀ (s : State) (p : Port) (a n : Nat),
    (s.windowAt a = none → s.decodeWriteAt p a n = .error .noWindow) ∧
    (∀ w x, s.windowAt a = some w → s.window w = some x →
      s.decodeWriteAt p a n =
        if x.fields.settings.writers.getLsbD p.idx = false then .error .notWriter
        else if x.fields.range.base + 2 ^ x.fields.range.k < a + n then .error .range else .ok w)) ∧
  (∀ (s : State) (p : Port) (a : Nat) (b : BufferNo), s.decodeWrite p (.program a b) = s.decodeWriteAt p a
    (match (s.buffer b).state with
     | .filling o e _ => if o = p then max 1 e else 1
     | _ => 1)) ∧
  (∀ (s : State) (p : Port) (n : Nat), s.decodeWrite p (.eraseSector n) = s.decodeWriteAt p (n * 4096) 4096) ∧
  (∀ (s : State) (p : Port) (w : Slot),
    (s.window w = none → s.decodeWrite p (.eraseWindow w) = .error .noWindow) ∧
    (∀ x, s.window w = some x → s.decodeWrite p (.eraseWindow w) =
      if x.fields.settings.writers.getLsbD p.idx = false then .error .notWriter else .ok w)) ∧
  (∀ (s : State) (p : Port) (req : WriteReq),
    (∀ r, s.decodeWrite p req = .error r → s.acceptCheck p req = .error r) ∧
    (∀ w x, s.decodeWrite p req = .ok w → s.window w = some x → s.acceptCheck p req =
      if s.targetFrozen x req = true then .error .frozen
      else if s.guardReads x.fields.settings.guard = true then .error .guarded
      else if x.latchOpen = false then .error .latchShut
      else if (match req with
        | .program a _ => s.sectorTorn (a / 4096)
        | _ => false) = true then .error .torn
      else if 8 ≤ s.torn.length ∧ (match req with
        | .eraseSector n => s.sectorTorn n
        | _ => false) = false then .error .tornFull
      else match s.bufferCheck p req with
        | some r => .error r
        | none => if 16 ≤ s.jobs.length then .error .queueFull else .ok (w, x))) ∧
  (∀ (s : State) (p : Port) (a : Nat) (b : BufferNo), s.bufferCheck p (.program a b) =
    if s.fillingFor b p = false then some .notOwner
    else if (s.buffer b).state.extent = 0 then some .emptyBuffer
    else if 256 < a % 256 + (s.buffer b).state.extent then some .pageCross else none) ∧
  (∀ (s : State) (p : Port),
    (∀ n, s.bufferCheck p (.eraseSector n) = none) ∧ (∀ w, s.bufferCheck p (.eraseWindow w) = none))

/-- R119, R116, R115, R109, R69, R70, R84, R85, R123: a write-side request that passes every check, under a write trap OFF,
under NOTE, or from the watch port of a HOLD window, is accepted in one event: a job record with the next job id that no live job has
joins the tail of the job list, a PROGRAM's buffer becomes BOUND to it, the window's idle timer is HELD or STOPPED, the TRAP notice is posted
but for OFF, ACCEPTED with the id is answered, the offer is formed, and the sequencer decides. -/
def Obligations.WriteRequestIsAcceptedAsAJob : Prop :=
  ∀ (s : State) (c : Instr) (p : Port) (f : Frame) (req : WriteReq) (w : Slot) (x : Window), AsksWrite s c p f req →
    s.acceptCheck p req = .ok (w, x) →
    (x.fields.settings.writeTrap = .off ∨ x.fields.settings.writeTrap = .note ∨
      (x.fields.settings.writeTrap = .hold ∧ x.fields.settings.watch = some p)) →
    ∃ (u : State) (id : Byte) (work : JobWork), exec c s = .next u.arbitrate ∧
      FirstFree (s.jobs.map Job.id) s.nextJobId id ∧ u.nextJobId = (if id = 0xFF then 0x01 else id + 1) ∧
      u.jobs = s.jobs ++ [{ id := id, owner := p, work := work, state := .queued, sectorsDone := 0,
                            stopRequested := false, suspensions := 0 }] ∧
      (∀ a b, req = .program a b → work = .program w a (s.buffer b).state.extent b ∧
        u.buffer b = { s.buffer b with state := .bound p (s.buffer b).state.extent id }) ∧
      (∀ n, req = .eraseSector n → work = .eraseSector w n) ∧
      (∀ v, req = .eraseWindow v → work = .eraseWindow w x.fields.range) ∧
      (∀ b, (∀ a, req ≠ .program a b) → u.buffer b = s.buffer b) ∧
      u.window w = some { x with idle := if x.fields.settings.idlePeriod = 0 then .stopped else .held } ∧
      (∀ v, v ≠ w → u.window v = s.window v) ∧
      (∀ q, u.port q = PortLink.noted (if q = p then (s.port p).answered f .accepted [id] else s.port q)
        (x.fields.settings.writeTrap ≠ .off ∧ x.fields.settings.watch = some q)
        (.trap w p req.access (req.address x) (s.writeLength req x) 0)) ∧
      (s.jobs = [] → u.offer = .queued id) ∧ (s.jobs ≠ [] → s.offer = s.offerNow → u.offer = s.offer) ∧
      { u with jobs := s.jobs, nextJobId := s.nextJobId, buffers := s.buffers, windows := s.windows, ports := s.ports,
               offer := s.offer } = s

/-- R134, R132: CANCEL, in the order of its checks: NO_SUCH_JOB; NOT_OWNER; a QUEUED job ends CANCELLED with its JOB_END, answered
OK with stop pending no; an ERASE-WINDOW that has started gets its stop-requested flag, answered OK with stop pending yes; any
other job is answered TOO_LATE and left alone. -/
def Obligations.CancelByTheStateOfTheJob : Prop :=
  ∀ (s : State) (p : Port) (f : Frame), s.Asks p .cancel f →
    ((∀ j ∈ s.jobs, j.id ≠ byteAt f.body 0) →
      ∃ t, exec (.cancel p) s = .next t ∧ OnlyAnswers s t p f .noSuchJob []) ∧
    (∀ j, s.findJob (byteAt f.body 0) = some j →
      (p ≠ j.owner → p ≠ s.adminPort → ∃ t, exec (.cancel p) s = .next t ∧ OnlyAnswers s t p f .notOwner []) ∧
      ((p = j.owner ∨ p = s.adminPort) →
        (j.state = .queued → exec (.cancel p) s =
          .next (State.arbitrate (State.answer (State.endJob (s.judging p) j .cancelled .none 0 true) p f .ok [0x00]))) ∧
        (∀ w r, j.state ≠ .queued → j.work = .eraseWindow w r → ∃ t, exec (.cancel p) s = .next t ∧
          LinksAnswer s t p f .ok [0x01] ∧
          t.jobs = s.jobs.map (fun k => if k.id = j.id then { k with stopRequested := true } else k) ∧
          { t with ports := s.ports, jobs := s.jobs } = s) ∧
        (j.state ≠ .queued → (∀ w r, j.work ≠ .eraseWindow w r) →
          ∃ t, exec (.cancel p) s = .next t ∧ OnlyAnswers s t p f .tooLate [])))

/-- R59, R120: SAVE-TABLE from the admin port with the table UNLOCKED: BUSY while one is live, QUEUE_FULL at 16 jobs, and
otherwise accepted: a job record that names no window, with the next job id that no live job has (R115), joins the tail, ACCEPTED with its id is answered, the offer is formed,
and the sequencer decides. The table state and the capture mark stay. -/
def Obligations.SaveTableIsAcceptedAsAJob : Prop :=
  ∀ (s : State) (p : Port) (f : Frame), s.Asks p .saveTable f → p = s.adminPort → s.locked = false →
    ((∃ j ∈ s.jobs, j.work = .saveTable) → ∃ t, exec (.saveTable p) s = .next t ∧ OnlyAnswers s t p f .busy []) ∧
    ((∀ j ∈ s.jobs, j.work ≠ .saveTable) → 16 ≤ s.jobs.length →
      ∃ t, exec (.saveTable p) s = .next t ∧ OnlyAnswers s t p f .queueFull []) ∧
    ((∀ j ∈ s.jobs, j.work ≠ .saveTable) → s.jobs.length < 16 → ∃ (u : State) (id : Byte),
      exec (.saveTable p) s = .next u.arbitrate ∧
      FirstFree (s.jobs.map Job.id) s.nextJobId id ∧ u.nextJobId = (if id = 0xFF then 0x01 else id + 1) ∧
      u.jobs = s.jobs ++ [{ id := id, owner := p, work := .saveTable, state := .queued, sectorsDone := 0,
                            stopRequested := false, suspensions := 0 }] ∧
      LinksAnswer s u p f .accepted [id] ∧
      (s.jobs = [] → u.offer = .queued id) ∧ (s.jobs ≠ [] → s.offer = s.offerNow → u.offer = s.offer) ∧
      { u with jobs := s.jobs, nextJobId := s.nextJobId, ports := s.ports, offer := s.offer } = s)

/-- R160, R161, R158, R70: FREEZE-WINDOW from the admin port, in the order of its checks NO_WINDOW, ALREADY_FROZEN, TORN,
FUSE_FULL, QUEUE_FULL, each answered with nothing else changed; and otherwise accepted: the job record, with the next job id that no live job has (R115), and the reservation of
its range join their lists, the window's idle timer is HELD where its latch is OPEN, ACCEPTED with the id is answered, and
the sequencer decides. The table lock does not bear on it. -/
def Obligations.FreezeWindowReservesItsRange : Prop :=
  ∀ (s : State) (p : Port) (f : Frame), s.Asks p .freezeWindow f → p = s.adminPort →
    (s.window (slotAt f.body 0) = none → ∃ t, exec (.freezeWindow p) s = .next t ∧ OnlyAnswers s t p f .noWindow []) ∧
    (∀ x, s.window (slotAt f.body 0) = some x →
      let r := x.fields.range
      let frozen := s.frozenRanges.any (fun q => decide (q.base ≤ r.base) && decide (r.base + 2 ^ r.k ≤ q.base + 2 ^ q.k))
      let torn := s.torn.any (fun e => decide (r.base ≤ e.sector * 4096) && decide ((e.sector + 1) * 4096 ≤ r.base + 2 ^ r.k))
      let places := s.fuseCount + s.reservations.length
      (frozen = true → ∃ t, exec (.freezeWindow p) s = .next t ∧ OnlyAnswers s t p f .alreadyFrozen []) ∧
      (frozen = false → torn = true → ∃ t, exec (.freezeWindow p) s = .next t ∧ OnlyAnswers s t p f .torn []) ∧
      (frozen = false → torn = false → 8 ≤ places →
        ∃ t, exec (.freezeWindow p) s = .next t ∧ OnlyAnswers s t p f .fuseFull []) ∧
      (frozen = false → torn = false → places < 8 → 16 ≤ s.jobs.length →
        ∃ t, exec (.freezeWindow p) s = .next t ∧ OnlyAnswers s t p f .queueFull []) ∧
      (frozen = false → torn = false → places < 8 → s.jobs.length < 16 → ∃ (u : State) (id : Byte),
        exec (.freezeWindow p) s = .next u.arbitrate ∧
        FirstFree (s.jobs.map Job.id) s.nextJobId id ∧ u.nextJobId = (if id = 0xFF then 0x01 else id + 1) ∧
        u.jobs = s.jobs ++ [{ id := id, owner := p, work := .freezeWindow (slotAt f.body 0) r, state := .queued,
                              sectorsDone := 0, stopRequested := false, suspensions := 0 }] ∧
        u.reservations = s.reservations ++ [{ job := id, range := r }] ∧
        u.window (slotAt f.body 0) = some { x with
          idle := if x.latchOpen = false ∨ x.fields.settings.idlePeriod = 0 then .stopped else .held } ∧
        (∀ v, v ≠ slotAt f.body 0 → u.window v = s.window v) ∧
        LinksAnswer s u p f .accepted [id] ∧
        (s.jobs = [] → u.offer = .queued id) ∧ (s.jobs ≠ [] → s.offer = s.offerNow → u.offer = s.offer) ∧
        { u with jobs := s.jobs, nextJobId := s.nextJobId, reservations := s.reservations, windows := s.windows,
                 ports := s.ports, offer := s.offer } = s))

/-- R39, R41: an administrative request from another port is answered NOT_ADMIN; one that the lock refuses, from the admin
port with the table LOCKED, is answered LOCKED; nothing else changes. -/
def Obligations.AdministrativeRequestsAreRefused : Prop :=
  ∀ (s : State) (c : Instr) (p : Port) (k : ReqType) (f : Frame), requestOf c = some (p, k) → s.Asks p k f →
    (k ∈ adminRequests → p ≠ s.adminPort → ∃ t, exec c s = .next t ∧ OnlyAnswers s t p f .notAdmin []) ∧
    (k ∈ lockedRequests → p = s.adminPort → s.locked = true →
      ∃ t, exec c s = .next t ∧ OnlyAnswers s t p f .locked [])

/-! ### Latches and idle timers -/

/-- R65, R69: OPEN-LATCH, in the order of its checks NO_WINDOW, NOT_WRITER, GUARDED, each answered with nothing else changed;
and otherwise OK: the latch is OPEN, and the idle timer STOPPED for a period of 0, HELD while the window has live jobs, and
COUNTING with the full period otherwise, whether the latch was SHUT or OPEN before. No notice is posted.
Times in the units of log 3. -/
def Obligations.OpenLatchOpensAndReloads : Prop :=
  ∀ (s : State) (p : Port) (f : Frame), s.Asks p .openLatch f →
    (s.window (slotAt f.body 0) = none → ∃ t, exec (.openLatch p) s = .next t ∧ OnlyAnswers s t p f .noWindow []) ∧
    (∀ x, s.window (slotAt f.body 0) = some x →
      (x.fields.settings.writers.getLsbD p.idx = false →
        ∃ t, exec (.openLatch p) s = .next t ∧ OnlyAnswers s t p f .notWriter []) ∧
      (x.fields.settings.writers.getLsbD p.idx = true → s.guardReads x.fields.settings.guard = true →
        ∃ t, exec (.openLatch p) s = .next t ∧ OnlyAnswers s t p f .guarded []) ∧
      (x.fields.settings.writers.getLsbD p.idx = true → s.guardReads x.fields.settings.guard = false →
        ∃ t, exec (.openLatch p) s = .next t ∧ LinksAnswer s t p f .ok [] ∧
          t.window (slotAt f.body 0) = some { x with
            latchOpen := true
            idle := if x.fields.settings.idlePeriod = 0 then .stopped
              else if ∃ j ∈ s.jobs, j.work.slot? = some (slotAt f.body 0) then .held
              else .counting (x.fields.settings.idlePeriod.toNat * 2880000) } ∧
          (∀ w, w ≠ slotAt f.body 0 → t.window w = s.window w) ∧
          { t with ports := s.ports, windows := s.windows } = s))

/-- R64, R66, R71: the shutting of a latch, on request and on idle. SHUT-LATCH is refused NO_WINDOW, and NOT_WRITER from a port
that is neither a writer nor the watch port. An OPEN latch becomes SHUT and its timer STOPPED, and LATCH_SHUT with the cause is
posted once to every writer and to the watch port; a SHUT latch stays, without a notice. An idle timer that is not COUNTING
does not expire. -/
def Obligations.LatchIsShutOnRequestAndOnIdle : Prop :=
  (∀ (s : State) (p : Port) (f : Frame), s.Asks p .shutLatch f →
    (s.window (slotAt f.body 0) = none → ∃ t, exec (.shutLatch p) s = .next t ∧ OnlyAnswers s t p f .noWindow []) ∧
    (∀ x, s.window (slotAt f.body 0) = some x →
      (x.fields.settings.writers.getLsbD p.idx = false → x.fields.settings.watch ≠ some p →
        ∃ t, exec (.shutLatch p) s = .next t ∧ OnlyAnswers s t p f .notWriter []) ∧
      ((x.fields.settings.writers.getLsbD p.idx = true ∨ x.fields.settings.watch = some p) →
        (x.latchOpen = false → ∃ t, exec (.shutLatch p) s = .next t ∧ OnlyAnswers s t p f .ok []) ∧
        (x.latchOpen = true → ∃ t, exec (.shutLatch p) s = .next t ∧
          t.window (slotAt f.body 0) = some { x with latchOpen := false, idle := .stopped } ∧
          (∀ w, w ≠ slotAt f.body 0 → t.window w = s.window w) ∧
          (∀ q, t.port q = PortLink.noted (if q = p then (s.port p).answered f .ok [] else s.port q)
            (x.fields.settings.writers.getLsbD q.idx = true ∨ x.fields.settings.watch = some q)
            (.latchShut (slotAt f.body 0) .request)) ∧
          { t with ports := s.ports, windows := s.windows } = s)))) ∧
  (∀ (s : State) (w : Slot) (x : Window), s.window w = some x →
    (∀ left, x.idle = .counting left → x.latchOpen = true → ∃ t, exec (.idleTimerExpiry w) s = .next t ∧
      t.window w = some { x with latchOpen := false, idle := .stopped } ∧ (∀ v, v ≠ w → t.window v = s.window v) ∧
      (∀ q, t.port q = (s.port q).noted
        (x.fields.settings.writers.getLsbD q.idx = true ∨ x.fields.settings.watch = some q) (.latchShut w .idle)) ∧
      { t with ports := s.ports, windows := s.windows } = s) ∧
    ((∀ left, x.idle ≠ .counting left) → exec (.idleTimerExpiry w) s = .next s))

/-- R67: SHUT-ALL from the admin port shuts every OPEN latch with cause ADMIN, in ascending order of slot number, and answers OK
with their number. The table lock does not refuse it. -/
def Obligations.ShutAllShutsEveryLatch : Prop :=
  ∀ (s : State) (p : Port) (f : Frame), s.Asks p .shutAll f → p = s.adminPort →
    ∃ t, exec (.shutAll p) s = .next t ∧
      (∀ w, t.window w = (s.window w).map (fun x =>
        if x.latchOpen then { x with latchOpen := false, idle := .stopped } else x)) ∧
      (∀ q, t.port q =
        let shut := allSlots.filter (fun w => (s.window w).elim false (fun x =>
          x.latchOpen && (x.fields.settings.writers.getLsbD q.idx || x.fields.settings.watch == some q)))
        (shut.map (fun w => Notice.latchShut w .admin)).foldl PortLink.post
          (if q = p then (s.port p).answered f .ok
            [byteOf (allSlots.filter (fun w => (s.window w).elim false Window.latchOpen)).length] else s.port q)) ∧
      { t with ports := s.ports, windows := s.windows } = s

/-! ### Holds -/

/-- R90, R91, R92: VERDICT, in the order of its checks NO_SUCH_HOLD, NOT_WATCHER, each answered with nothing else changed; and
otherwise OK, with the hold resolved. Under DENY the hold leaves the table, the requester's engine is WORKING again, and the
parked request is answered DENIED. Under ALLOW the request is checked again (R95, R96).
R93, R91, R92: a hold whose limit runs out posts HOLD_TIMEOUT with the hold default to its watch port, and is resolved with
that default; under DENY the parked request is answered DENIED. An id that is in no hold changes nothing (log 2). -/
def Obligations.VerdictOrTimeoutResolvesTheHold : Prop :=
  (∀ (s : State) (p : Port) (f : Frame), s.Asks p .verdict f →
      ((∀ h ∈ s.holds, h.id ≠ byteAt f.body 0) →
        ∃ t, exec (.verdict p) s = .next t ∧ OnlyAnswers s t p f .noSuchHold []) ∧
      (∀ h, s.findHold (byteAt f.body 0) = some h →
        (h.watch ≠ p → ∃ t, exec (.verdict p) s = .next t ∧ OnlyAnswers s t p f .notWatcher []) ∧
        (h.watch = p → byteAt f.body 1 = 0x02 → h.requester ≠ p → ∃ t, exec (.verdict p) s = .next t ∧
          t.holds = s.holds.filter (fun k => k.id != h.id) ∧
          t.port p = (s.port p).answered f .ok [] ∧
          t.port h.requester = { (s.port h.requester).answered h.request .denied [] with engine := .working } ∧
          (∀ q, q ≠ p → q ≠ h.requester → t.port q = s.port q) ∧
          { t with ports := s.ports, holds := s.holds } = s) ∧
        (h.watch = p → byteAt f.body 1 = 0x01 →
          exec (.verdict p) s = .next (State.answer ((s.judging p).resolveHold h .allow) p f .ok [])))) ∧
  (∀ (s : State) (id : Byte),
      ((∀ h ∈ s.holds, h.id ≠ id) → exec (.holdLimitExpiry id) s = .next s) ∧
      (∀ h x, s.findHold id = some h → s.window h.slot = some x →
        (x.fields.settings.holdDefault = .deny → h.requester ≠ h.watch → ∃ t, exec (.holdLimitExpiry id) s = .next t ∧
          t.holds = s.holds.filter (fun k => k.id != h.id) ∧
          t.port h.watch = (s.port h.watch).post (.holdTimeout h.id h.slot h.requester .deny) ∧
          t.port h.requester = { (s.port h.requester).answered h.request .denied [] with engine := .working } ∧
          (∀ q, q ≠ h.watch → q ≠ h.requester → t.port q = s.port q) ∧
          { t with ports := s.ports, holds := s.holds } = s) ∧
        (x.fields.settings.holdDefault = .allow → exec (.holdLimitExpiry id) s =
          .next ((s.post h.watch (.holdTimeout h.id h.slot h.requester .allow)).resolveHold h .allow))))

/-- R91, R95, R96, R44: an allowed request is in progress again and is checked again, its trap not judged a second time. A READ
that passes the decode becomes pending. A write-side request is answered by the first acceptance check that fails, or
accepted as a job. -/
def Obligations.AllowedRequestIsCheckedAgain : Prop :=
  ∀ (s : State) (h : Hold), ∃ u : State,
    u.holds = s.holds.filter (fun k => k.id != h.id) ∧
    u.port h.requester = { (s.port h.requester).handed h.request with engine := .working } ∧
    (∀ q, q ≠ h.requester → u.port q = s.port q) ∧ { u with ports := s.ports, holds := s.holds } = s ∧
    (∀ w x, h.kind = .read →
      u.decodeRead h.requester (fieldAt h.request.body 0 3) (fieldAt h.request.body 3 2) = .ok w → u.window w = some x →
      s.resolveHold h .allow = u.acceptRead h.requester h.request.tag (fieldAt h.request.body 0 3)
        (fieldAt h.request.body 3 2) w x false) ∧
    (∀ r, h.kind = .read →
      u.decodeRead h.requester (fieldAt h.request.body 0 3) (fieldAt h.request.body 3 2) = .error r →
      s.resolveHold h .allow = u.answer h.requester h.request r []) ∧
    (∀ req, ((h.kind = .program ∧ req = .program (fieldAt h.request.body 0 3) (bufferAt h.request.body 3)) ∨
        (h.kind = .eraseSector ∧ req = .eraseSector (fieldAt h.request.body 0 2)) ∨
        (h.kind = .eraseWindow ∧ req = .eraseWindow (slotAt h.request.body 0))) →
      (∀ r, u.acceptCheck h.requester req = .error r → s.resolveHold h .allow = u.answer h.requester h.request r []) ∧
      (∀ w x, u.acceptCheck h.requester req = .ok (w, x) →
        s.resolveHold h .allow = u.acceptWrite h.requester h.request w x req false))

/-! ### Guard inputs -/

/-- R76, R77, R79: an input takes a state. What other blocks read is unchanged: nothing else happens. It becomes inactive:
GUARD_CHANGE to the admin port, and no latch changes. It becomes active: GUARD_CHANGE, and then every OPEN latch of a window
that names the input is shut, in ascending order of slot number, each with its LATCH_SHUT with cause GUARD. Before READY
GUARD_CHANGE is not posted. -/
def Obligations.GuardActivationShutsItsLatches : Prop :=
  ∀ (s : State) (g : GuardInput) (y : InputState), ∃ t, t = s.setInput g y ∧
    t.guardPin g = { s.guardPin g with input := y } ∧ (∀ k, k ≠ g → t.guardPin k = s.guardPin k) ∧
    { t with ports := s.ports, windows := s.windows, guards := s.guards } = s ∧
    (y.reads = (s.guardPin g).input.reads → t.ports = s.ports ∧ t.windows = s.windows) ∧
    (y.reads = false → (s.guardPin g).input.reads = true → t.windows = s.windows ∧
      ∀ q, t.port q = (s.port q).noted (s.phase = .ready ∧ q = s.adminPort) (.guardChange g false)) ∧
    (y.reads = true → (s.guardPin g).input.reads = false →
      (∀ w, t.window w = (s.window w).map (fun x =>
        if x.fields.settings.guard = some g ∧ x.latchOpen = true then { x with latchOpen := false, idle := .stopped }
        else x)) ∧
      ∀ q, t.port q =
        let shut := allSlots.filter (fun w => (s.window w).elim false (fun x =>
          x.latchOpen && x.fields.settings.guard == some g &&
            (x.fields.settings.writers.getLsbD q.idx || x.fields.settings.watch == some q)))
        (shut.map (fun w => Notice.latchShut w .guard)).foldl PortLink.post
          ((s.port q).noted (s.phase = .ready ∧ q = s.adminPort) (.guardChange g true)))

/-- R78, R55: SET-GUARD from the admin port with the table UNLOCKED replaces the header's setting of the input, and the input
takes the state of its asserted level at once, with what that change brings; the table state becomes UNSAVED, a CLEAN capture
mark EDITED, and the answer is OK. -/
def Obligations.SetGuardAppliesAtOnce : Prop :=
  ∀ (s : State) (p : Port) (f : Frame) (g : GuardInput), s.Asks p .setGuard f → p = s.adminPort → s.locked = false →
    byteAt f.body 0 = guardInputCode g →
    ∃ u : State,
      u.header.guard g = { activeHigh := byteAt f.body 1 == 0x01, debounce := byteAt f.body 2 == 0x01 } ∧
      (∀ k, k ≠ g → u.header.guard k = s.header.guard k) ∧ u.header.leasePeriod = s.header.leasePeriod ∧
      u.header.holdLimit = s.header.holdLimit ∧ { u with header := s.header } = s ∧
      exec (.setGuard p) s = .next (State.answer (State.edited (State.setInput (u.judging p) g
        (if (byteAt f.body 1 == 0x01) = (s.guardPin g).high then .active else .inactive))) p f .ok []) ∧
      ∀ v : State, v.edited = { v with
        tableState := .unsaved, captureMark := if v.captureMark = .clean then .edited else v.captureMark }

/-- R74, R75, R73: a change of level of a guard pin. The raw level follows the pin. With debounce on: from INACTIVE an asserted
level starts settling for 20 ms, and its end before that returns to INACTIVE; from ACTIVE the same the other way. With debounce
off the input takes the state of the level at once. Before start-up samples the pins only the raw level changes. The expiry of
the settle timer brings the state settled for. A change to the level that the pin has already changes nothing: no such event
occurs at the pin, and that it may stand in the queue is the model's choice (log 2).
Times in the units of log 3. -/
def Obligations.GuardInputFollowsItsPin : Prop :=
  ∀ (s : State) (g : GuardInput) (high : Bool),
    let u := s.setGuardPin g { s.guardPin g with high := high }
    let asserted := ((s.header.guard g).activeHigh == high)
    ((s.guardsFollow = false ∨ high = (s.guardPin g).high) → exec (.guardLevelChange g high) s = .next u) ∧
    (s.guardsFollow = true → high ≠ (s.guardPin g).high →
      ((s.header.guard g).debounce = false →
        exec (.guardLevelChange g high) s = .next (u.setInput g (if asserted then .active else .inactive))) ∧
      ((s.header.guard g).debounce = true →
        ((s.guardPin g).input = .inactive → asserted = true →
          exec (.guardLevelChange g high) s = .next (u.setInput g (.settlingToActive 57600))) ∧
        (∀ n, (s.guardPin g).input = .settlingToActive n → asserted = false →
          exec (.guardLevelChange g high) s = .next (u.setInput g .inactive)) ∧
        ((s.guardPin g).input = .active → asserted = false →
          exec (.guardLevelChange g high) s = .next (u.setInput g (.settlingToInactive 57600))) ∧
        (∀ n, (s.guardPin g).input = .settlingToInactive n → asserted = true →
          exec (.guardLevelChange g high) s = .next (u.setInput g .active)))) ∧
    (∀ n, (s.guardPin g).input = .settlingToActive n → exec (.settleTimerExpiry g) s = .next (s.setInput g .active)) ∧
    (∀ n, (s.guardPin g).input = .settlingToInactive n → exec (.settleTimerExpiry g) s = .next (s.setInput g .inactive))

/-! ### The window table -/

/-- R45, R46, R55: DEFINE-WINDOW from the admin port with the table UNLOCKED, in the order of its checks SLOT_USED, BAD_FIELD,
MISALIGNED, OVERLAP, each answered with nothing else changed; and otherwise OK: the slot is DEFINED with the fields, its latch
SHUT and its idle timer STOPPED, without a notice, and the table state becomes UNSAVED. -/
def Obligations.DefineWindowDefinesTheSlot : Prop :=
  ∀ (s : State) (p : Port) (f : Frame), s.Asks p .defineWindow f → p = s.adminPort → s.locked = false →
    let b := f.body
    let base := fieldAt b 1 3
    let k := (byteAt b 4).toNat
    (s.window (slotAt b 0) ≠ none → ∃ t, exec (.defineWindow p) s = .next t ∧ OnlyAnswers s t p f .slotUsed []) ∧
    (s.window (slotAt b 0) = none →
      ((k < 12 ∨ 23 < k ∨ settingsAt b 5 = none) →
        ∃ t, exec (.defineWindow p) s = .next t ∧ OnlyAnswers s t p f .badField []) ∧
      (∀ y, 12 ≤ k → k ≤ 23 → settingsAt b 5 = some y →
        (base % 2 ^ k ≠ 0 → ∃ t, exec (.defineWindow p) s = .next t ∧ OnlyAnswers s t p f .misaligned []) ∧
        (base % 2 ^ k = 0 →
          ((∃ w x, s.window w = some x ∧ base < x.fields.range.base + 2 ^ x.fields.range.k ∧
              x.fields.range.base < base + 2 ^ k) →
            ∃ t, exec (.defineWindow p) s = .next t ∧ OnlyAnswers s t p f .overlap []) ∧
          ((∀ w x, s.window w = some x → x.fields.range.base + 2 ^ x.fields.range.k ≤ base ∨
              base + 2 ^ k ≤ x.fields.range.base) →
            ∃ t, exec (.defineWindow p) s = .next t ∧ LinksAnswer s t p f .ok [] ∧
              t.window (slotAt b 0) = some { fields := { range := { base := base, k := k }, settings := y },
                                             latchOpen := false, idle := .stopped } ∧
              (∀ w, w ≠ slotAt b 0 → t.window w = s.window w) ∧
              t.tableState = .unsaved ∧
              t.captureMark = (if s.captureMark = .clean then .edited else s.captureMark) ∧
              { t with ports := s.ports, windows := s.windows, tableState := s.tableState,
                       captureMark := s.captureMark } = s))))

/-- R45, check 4, with Table 12.3: the nine setting bytes are legal exactly when each is a code of its field and neither trap is
HOLD while the watch port is NONE, and then they are the settings they spell. -/
def Obligations.WindowSettingsAreLegalOrBadField : Prop :=
  ∀ (b : List Byte) (i : Nat),
    (∀ y, settingsAt b i = some y →
      (byteAt b i).toNat = y.readers.toNat ∧ (byteAt b (i + 1)).toNat = y.writers.toNat ∧
      byteAt b (i + 2) = watchCode y.watch ∧ byteAt b (i + 3) = trapCode y.readTrap ∧
      byteAt b (i + 4) = trapCode y.writeTrap ∧ byteAt b (i + 5) = verdictCode y.holdDefault ∧
      byteAt b (i + 6) = y.idlePeriod ∧ byteAt b (i + 7) = flagByte y.idleCountsReads ∧
      byteAt b (i + 8) = guardCode y.guard ∧ (y.watch = none → y.readTrap ≠ .hold ∧ y.writeTrap ≠ .hold)) ∧
    (settingsAt b i = none ↔
      16 ≤ (byteAt b i).toNat ∨ 16 ≤ (byteAt b (i + 1)).toNat ∨
      (4 ≤ (byteAt b (i + 2)).toNat ∧ byteAt b (i + 2) ≠ 0xFF) ∨ 3 ≤ (byteAt b (i + 3)).toNat ∨
      3 ≤ (byteAt b (i + 4)).toNat ∨ (byteAt b (i + 5) ≠ 0x01 ∧ byteAt b (i + 5) ≠ 0x02) ∨
      2 ≤ (byteAt b (i + 7)).toNat ∨ 3 ≤ (byteAt b (i + 8)).toNat ∨
      (byteAt b (i + 2) = 0xFF ∧ (byteAt b (i + 3) = 0x02 ∨ byteAt b (i + 4) = 0x02)))

/-- R47, R48, R55: MODIFY-WINDOW from the admin port with the table UNLOCKED, in the order of its checks SLOT_EMPTY, BAD_FIELD,
BUSY, each answered with nothing else changed; and otherwise OK: the latch is SHUT, with LATCH_SHUT with cause MODIFY to the
writers and the watch port as they stood if it was OPEN, the timer STOPPED, the settings replaced, base and size as they were,
and the table state UNSAVED. -/
def Obligations.ModifyWindowShutsAndReplaces : Prop :=
  ∀ (s : State) (p : Port) (f : Frame), s.Asks p .modifyWindow f → p = s.adminPort → s.locked = false →
    let w := slotAt f.body 0
    (s.window w = none → ∃ t, exec (.modifyWindow p) s = .next t ∧ OnlyAnswers s t p f .slotEmpty []) ∧
    (∀ x, s.window w = some x →
      (settingsAt f.body 1 = none → ∃ t, exec (.modifyWindow p) s = .next t ∧ OnlyAnswers s t p f .badField []) ∧
      (∀ y, settingsAt f.body 1 = some y →
        (((∃ j ∈ s.jobs, j.work.slot? = some w) ∨ ∃ h ∈ s.holds, h.slot = w) →
          ∃ t, exec (.modifyWindow p) s = .next t ∧ OnlyAnswers s t p f .busy []) ∧
        ((∀ j ∈ s.jobs, j.work.slot? ≠ some w) → (∀ h ∈ s.holds, h.slot ≠ w) →
          ∃ t, exec (.modifyWindow p) s = .next t ∧
            t.window w = some { fields := { range := x.fields.range, settings := y }, latchOpen := false,
                                idle := .stopped } ∧
            (∀ v, v ≠ w → t.window v = s.window v) ∧
            (∀ q, t.port q = PortLink.noted (if q = p then (s.port p).answered f .ok [] else s.port q)
              (x.latchOpen = true ∧
                (x.fields.settings.writers.getLsbD q.idx = true ∨ x.fields.settings.watch = some q))
              (.latchShut w .modify)) ∧
            t.tableState = .unsaved ∧ t.captureMark = (if s.captureMark = .clean then .edited else s.captureMark) ∧
            { t with ports := s.ports, windows := s.windows, tableState := s.tableState,
                     captureMark := s.captureMark } = s)))

/-- R49, R50, R55: UNDEFINE-WINDOW from the admin port with the table UNLOCKED, in the order of its checks SLOT_EMPTY, BUSY, each
answered with nothing else changed; and otherwise OK: the slot becomes EMPTY, with LATCH_SHUT with cause ADMIN if its latch was
OPEN, and the table state UNSAVED. The main array, the fuse list and the torn list stay as they are. -/
def Obligations.UndefineWindowEmptiesTheSlot : Prop :=
  ∀ (s : State) (p : Port) (f : Frame), s.Asks p .undefineWindow f → p = s.adminPort → s.locked = false →
    let w := slotAt f.body 0
    (s.window w = none → ∃ t, exec (.undefineWindow p) s = .next t ∧ OnlyAnswers s t p f .slotEmpty []) ∧
    (∀ x, s.window w = some x →
      (((∃ j ∈ s.jobs, j.work.slot? = some w) ∨ ∃ h ∈ s.holds, h.slot = w) →
        ∃ t, exec (.undefineWindow p) s = .next t ∧ OnlyAnswers s t p f .busy []) ∧
      ((∀ j ∈ s.jobs, j.work.slot? ≠ some w) → (∀ h ∈ s.holds, h.slot ≠ w) →
        ∃ t, exec (.undefineWindow p) s = .next t ∧
          t.window w = none ∧ (∀ v, v ≠ w → t.window v = s.window v) ∧
          (∀ q, t.port q = PortLink.noted (if q = p then (s.port p).answered f .ok [] else s.port q)
            (x.latchOpen = true ∧
              (x.fields.settings.writers.getLsbD q.idx = true ∨ x.fields.settings.watch = some q))
            (.latchShut w .admin)) ∧
          t.tableState = .unsaved ∧ t.captureMark = (if s.captureMark = .clean then .edited else s.captureMark) ∧
          { t with ports := s.ports, windows := s.windows, tableState := s.tableState,
                   captureMark := s.captureMark } = s))

/-- R40, R51, R52, R55: LOCK-TABLE from the admin port sets the lock and answers OK, locked already or not. SET-TIMING from the
admin port with the table UNLOCKED is answered BAD_FIELD outside 1 to 60 and 1 to 250; otherwise it replaces the lease period
and the hold limit, makes the table state UNSAVED and answers OK. Leases and holds that run keep the time they have left. -/
def Obligations.LockTableAndSetTiming : Prop :=
  (∀ (s : State) (p : Port) (f : Frame), s.Asks p .lockTable f → p = s.adminPort → ∃ t, exec (.lockTable p) s = .next t ∧
    LinksAnswer s t p f .ok [] ∧ t.locked = true ∧ { t with ports := s.ports, locked := s.locked } = s) ∧
  (∀ (s : State) (p : Port) (f : Frame), s.Asks p .setTiming f → p = s.adminPort → s.locked = false →
    let lease := (byteAt f.body 0).toNat
    let limit := (byteAt f.body 1).toNat
    ((lease < 1 ∨ 60 < lease ∨ limit < 1 ∨ 250 < limit) →
      ∃ t, exec (.setTiming p) s = .next t ∧ OnlyAnswers s t p f .badField []) ∧
    (1 ≤ lease → lease ≤ 60 → 1 ≤ limit → limit ≤ 250 → ∃ t, exec (.setTiming p) s = .next t ∧
      LinksAnswer s t p f .ok [] ∧ t.header = { s.header with leasePeriod := lease, holdLimit := limit } ∧
      t.tableState = .unsaved ∧ t.captureMark = (if s.captureMark = .clean then .edited else s.captureMark) ∧
      { t with ports := s.ports, header := s.header, tableState := s.tableState, captureMark := s.captureMark } = s))

/-! ### Staging buffers -/

/-- R102, R105: CLAIM-BUFFER is answered BUFFER_LIMIT from a port that owns 2 buffers, and NO_BUFFER when none is FREE; otherwise
the FREE buffer with the lowest number becomes FILLING for the port, with extent 0, every byte H'FF and the header's lease, and
its number is answered.
Times in the units of log 3. -/
def Obligations.ClaimTakesTheLowestFreeBuffer : Prop :=
  ∀ (s : State) (p : Port) (f : Frame), s.Asks p .claimBuffer f →
    let owned := (allBuffers.filter (fun b => (s.buffer b).state.owner? == some p)).length
    (2 ≤ owned → ∃ t, exec (.claimBuffer p) s = .next t ∧ OnlyAnswers s t p f .bufferLimit []) ∧
    (owned < 2 → (∀ b, (s.buffer b).state ≠ .free) →
      ∃ t, exec (.claimBuffer p) s = .next t ∧ OnlyAnswers s t p f .noBuffer []) ∧
    (∀ b, owned < 2 → (s.buffer b).state = .free → (∀ c, c < b → (s.buffer c).state ≠ .free) →
      ∃ t, exec (.claimBuffer p) s = .next t ∧ LinksAnswer s t p f .ok [byteOf b.val] ∧
        (t.buffer b).state = .filling p 0 (s.header.leasePeriod * 2880000) ∧
        (∀ i, Memory.read (t.buffer b).data i = 0xFF) ∧
        (∀ c, c ≠ b → t.buffer c = s.buffer c) ∧ { t with ports := s.ports, buffers := s.buffers } = s)

/-- R103, R105: FILL is answered NOT_OWNER unless the buffer is FILLING for the port, and RANGE when the bytes run past offset
255; otherwise byte j is written at offset + j, the extent grows to the end of the bytes if that is larger, the lease is reloaded,
and the extent is answered.
Times in the units of log 3. -/
def Obligations.FillWritesAndReloadsTheLease : Prop :=
  ∀ (s : State) (p : Port) (f : Frame), s.Asks p .fill f →
    let b := bufferAt f.body 0
    let offset := (byteAt f.body 1).toNat
    let bytes := f.body.drop 2
    ((∀ e l, (s.buffer b).state ≠ .filling p e l) →
      ∃ t, exec (.fill p) s = .next t ∧ OnlyAnswers s t p f .notOwner []) ∧
    (∀ e l, (s.buffer b).state = .filling p e l →
      (256 < offset + bytes.length → ∃ t, exec (.fill p) s = .next t ∧ OnlyAnswers s t p f .range []) ∧
      (offset + bytes.length ≤ 256 → (s.buffer b).data.wf = true → ∃ t, exec (.fill p) s = .next t ∧
        LinksAnswer s t p f .ok (be2 (max e (offset + bytes.length))) ∧
        (t.buffer b).state = .filling p (max e (offset + bytes.length)) (s.header.leasePeriod * 2880000) ∧
        (∀ j, j < bytes.length → Memory.read (t.buffer b).data (offset + j) = bytes.getD j 0) ∧
        (∀ i, i < offset ∨ offset + bytes.length ≤ i →
          Memory.read (t.buffer b).data i = Memory.read (s.buffer b).data i) ∧
        (∀ c, c ≠ b → t.buffer c = s.buffer c) ∧ { t with ports := s.ports, buffers := s.buffers } = s))

/-- R104, R106: RELEASE-BUFFER of a BOUND buffer is answered BOUND, of the port's own FILLING buffer OK, and the buffer becomes
FREE, and of any other NOT_OWNER. A lease that expires makes its FILLING buffer FREE, and BUFFER_EXPIRED goes to its former owner;
a buffer that is not FILLING has no lease. -/
def Obligations.ReleaseAndLeaseExpiryFreeTheBuffer : Prop :=
  (∀ (s : State) (p : Port) (f : Frame), s.Asks p .releaseBuffer f →
    let b := bufferAt f.body 0
    ((∃ o e i, (s.buffer b).state = .bound o e i) →
      ∃ t, exec (.releaseBuffer p) s = .next t ∧ OnlyAnswers s t p f .bound []) ∧
    ((∃ e l, (s.buffer b).state = .filling p e l) → ∃ t, exec (.releaseBuffer p) s = .next t ∧
      LinksAnswer s t p f .ok [] ∧ t.buffer b = { s.buffer b with state := .free } ∧
      (∀ c, c ≠ b → t.buffer c = s.buffer c) ∧ { t with ports := s.ports, buffers := s.buffers } = s) ∧
    (((s.buffer b).state = .free ∨ ∃ o e l, o ≠ p ∧ (s.buffer b).state = .filling o e l) →
      ∃ t, exec (.releaseBuffer p) s = .next t ∧ OnlyAnswers s t p f .notOwner [])) ∧
  (∀ (s : State) (b : BufferNo),
    (∀ p e l, (s.buffer b).state = .filling p e l → ∃ t, exec (.leaseExpiry b) s = .next t ∧
      t.buffer b = { s.buffer b with state := .free } ∧ (∀ c, c ≠ b → t.buffer c = s.buffer c) ∧
      t.ports = s.ports.set p ((s.port p).post (.bufferExpired b)) ∧ { t with ports := s.ports, buffers := s.buffers } = s) ∧
    ((∀ p e l, (s.buffer b).state ≠ .filling p e l) → exec (.leaseExpiry b) s = .next s))

/-! ### Laws that every step keeps -/

/-- R77: whenever a latch is OPEN, the guard input its window names is not ACTIVE; every step keeps this. -/
def Obligations.EveryStepKeepsOpenLatchesUnguarded : Prop :=
  ∀ s t : State, s.LatchesGuarded → step s = .next t → t.LatchesGuarded

/-- R5, R6, R10, R12: the bounds of the port links and the level of ATN; every step keeps them.
R6: a frame in transmission stands in the output list; every step keeps this.
R6: each frame is sent whole and from its beginning: what has left TXD of the frame in transmission is the beginning of its
bytes; every step keeps this (TXD in the units of log 3 and log 22). -/
def Obligations.EveryStepKeepsThePortLinksLawful : Prop :=
  (∀ s t : State, s.LinksLawful → step s = .next t → t.LinksLawful) ∧
  (∀ s t : State, s.TransmittersLawful → step s = .next t → t.TransmittersLawful) ∧
  (∀ s t : State, s.TransmittersLawful → s.WireLawful → step s = .next t → t.WireLawful)

/-- The main array and the buffers keep their canonical form, the model's own way of writing bytes down (log 21; an unlisted byte
reads H'FF: log 6), and no port owns more than 2 buffers (R102); every step keeps
both.
R114, R115: at most 16 live jobs, and no two of them with one id; every step keeps this. -/
def Obligations.EveryStepKeepsMemoryBuffersAndJobsLawful : Prop :=
  (∀ s t : State, step s = .next t →
      (s.MemoryLawful → t.MemoryLawful) ∧ (s.BuffersLawful → t.BuffersLawful)) ∧
  (∀ s t : State, s.JobsBounded → s.JobIdsDistinct → step s = .next t → t.JobsBounded ∧ t.JobIdsDistinct)

/-- R123, R143: the offer is the one the job list calls for, and the array is IDLE only while no job is SUSPENDED, no read is
pending and no offer is made; every step keeps this. -/
def Obligations.EveryStepKeepsTheArraySettled : Prop :=
  ∀ s t : State, s.Settled → step s = .next t → t.Settled

/-- R19, R183: until READY nothing is taken, queued, held or noticed, no job runs and no latch is OPEN; every step keeps this. -/
def Obligations.EveryStepKeepsStartUpClosed : Prop :=
  ∀ s t : State, s.StartupClosed → step s = .next t → t.StartupClosed

/-- The state after reset meets every law that steps keep. -/
def Obligations.ResetMeetsEveryLaw : Prop :=
  State.reset.LatchesGuarded ∧ State.reset.LinksLawful ∧ State.reset.TransmittersLawful ∧ State.reset.WireLawful ∧ State.reset.MemoryLawful ∧
    State.reset.BuffersLawful ∧ State.reset.JobsBounded ∧ State.reset.JobIdsDistinct ∧ State.reset.Settled ∧
    State.reset.StartupClosed
end

