-- ==== Sys2Proof/Laws/Memory.lean ====
section
/-! SUPPORT. Bytes under addresses: the canonical form is kept by every operation, and what a byte reads after each. -/

namespace Sys2Proof.Machine

theorem Memory.wfFrom_cons {lo k : Nat} {v : Byte} {m : Memory} :
    Memory.wfFrom lo ((k, v) :: m) = true ↔ lo ≤ k ∧ v ≠ erased ∧ Memory.wfFrom (k + 1) m = true := by
  simp [Memory.wfFrom, and_assoc]

theorem Memory.wfFrom_lower {m : Memory} {lo hi : Nat} (h : lo ≤ hi) (w : Memory.wfFrom hi m = true) :
    Memory.wfFrom lo m = true := by
  cases m with
  | nil => rfl
  | cons c rest =>
    obtain ⟨k, v⟩ := c
    rw [Memory.wfFrom_cons] at w ⊢
    exact ⟨Nat.le_trans h w.1, w.2⟩

/-- Below the first entry everything is erased. -/
theorem Memory.read_below {m : Memory} {lo a : Nat} (w : Memory.wfFrom lo m = true) (h : a < lo) :
    Memory.read m a = erased := by
  induction m generalizing lo with
  | nil => rfl
  | cons c rest ih =>
    obtain ⟨k, v⟩ := c
    rw [Memory.wfFrom_cons] at w
    have hk : k ≠ a := by omega
    simp only [Memory.read, hk, if_false]
    exact ih w.2.2 (by omega)

theorem Memory.read_write_from {m : Memory} {lo : Nat} (w : Memory.wfFrom lo m = true) (a x : Nat) (b : Byte) :
    Memory.read (Memory.write m a b) x = if x = a then b else Memory.read m x := by
  induction m generalizing lo with
  | nil =>
    by_cases hb : b = erased <;> by_cases hx : x = a <;> simp [Memory.write, Memory.read, hb, hx]
    exact fun h => absurd h.symm hx
  | cons c rest ih =>
    obtain ⟨k, v⟩ := c
    rw [Memory.wfFrom_cons] at w
    have below : Memory.read rest k = erased := Memory.read_below w.2.2 (Nat.lt_succ_self k)
    unfold Memory.write
    by_cases hk : k < a
    · simp only [hk, if_true, Memory.read, ih w.2.2]
      by_cases hx : k = x
      · have : x ≠ a := by omega
        simp [hx, this]
      · simp [hx]
    · simp only [hk, if_false]
      by_cases he : k = a
      · subst he
        by_cases hb : b = erased
        · simp only [hb, if_true]
          by_cases hx : x = k
          · simp [hx, below]
          · simp [hx, Memory.read, Ne.symm hx]
        · by_cases hx : x = k
          · simp [hb, hx, Memory.read]
          · simp [hb, hx, Memory.read, Ne.symm hx]
      · have low : Memory.read ((k, v) :: rest) a = erased :=
          Memory.read_below (m := (k, v) :: rest) (lo := k) (Memory.wfFrom_cons.2 ⟨Nat.le_refl k, w.2⟩) (by omega)
        by_cases hb : b = erased
        · simp only [hb, if_true, he, if_false]
          by_cases hx : x = a
          · simp only [hx, if_true]; exact low
          · simp [hx]
        · by_cases hx : x = a
          · simp [hb, he, hx, Memory.read]
          · simp [hb, he, hx, Memory.read, Ne.symm hx]

theorem Memory.write_wfFrom {m : Memory} {lo a : Nat} (w : Memory.wfFrom lo m = true) (h : lo ≤ a) (b : Byte) :
    Memory.wfFrom lo (Memory.write m a b) = true := by
  induction m generalizing lo with
  | nil => by_cases hb : b = erased <;> simp [Memory.write, Memory.wfFrom, hb, h]
  | cons c rest ih =>
    obtain ⟨k, v⟩ := c
    rw [Memory.wfFrom_cons] at w
    unfold Memory.write
    by_cases hk : k < a
    · simp only [hk, if_true, Memory.wfFrom_cons]
      exact ⟨w.1, w.2.1, ih w.2.2 hk⟩
    · simp only [hk, if_false]
      by_cases he : k = a
      · subst he
        by_cases hb : b = erased
        · simp only [hb, if_true]; exact Memory.wfFrom_lower (Nat.le_succ_of_le w.1) w.2.2
        · simp only [hb, if_false, if_true, Memory.wfFrom_cons]; exact ⟨h, hb, w.2.2⟩
      · by_cases hb : b = erased
        · simp only [hb, he, if_true, if_false, Memory.wfFrom_cons]; exact w
        · simp only [hb, he, if_false, Memory.wfFrom_cons]; exact ⟨h, hb, by omega, w.2⟩

/-- A write changes the byte written and no other. -/
theorem Memory.read_write {m : Memory} (w : m.wf = true) (a x : Nat) (b : Byte) :
    Memory.read (Memory.write m a b) x = if x = a then b else Memory.read m x := Memory.read_write_from w a x b

theorem Memory.write_wf {m : Memory} (w : m.wf = true) (a : Nat) (b : Byte) : (Memory.write m a b).wf = true :=
  Memory.write_wfFrom w (Nat.zero_le a) b

/-! ### Runs of bytes -/

theorem Memory.writeRange_wf {m : Memory} (w : m.wf = true) (a : Nat) (bs : List Byte) :
    (Memory.writeRange m a bs).wf = true := by
  induction bs generalizing m a with
  | nil => exact w
  | cons b bs ih => exact ih (Memory.write_wf w a b) (a + 1)

theorem Memory.programRange_wf {m : Memory} (w : m.wf = true) (a : Nat) (bs : List Byte) :
    (Memory.programRange m a bs).wf = true := by
  induction bs generalizing m a with
  | nil => exact w
  | cons b bs ih => exact ih (Memory.write_wf w a _) (a + 1)

theorem Memory.tearProgram_wf {m : Memory} (w : m.wf = true) (taken : Nat → Bool) (a : Nat) (bs : List Byte) :
    (Memory.tearProgram m taken a bs).wf = true := by
  induction bs generalizing m a with
  | nil => exact w
  | cons b bs ih =>
    simp only [Memory.tearProgram]
    split
    · exact ih (Memory.write_wf w a _) (a + 1)
    · exact ih w (a + 1)

/-- Byte j of the run, or the byte before. -/
theorem Memory.read_writeRange {m : Memory} (w : m.wf = true) (a x : Nat) (bs : List Byte) :
    Memory.read (Memory.writeRange m a bs) x =
      if a ≤ x ∧ x < a + bs.length then bs.getD (x - a) 0 else Memory.read m x := by
  induction bs generalizing m a with
  | nil => simp only [Memory.writeRange, List.length_nil]; rw [if_neg]; omega
  | cons b bs ih =>
    simp only [Memory.writeRange, List.length_cons]
    rw [ih (Memory.write_wf w a b), Memory.read_write w]
    rcases Nat.lt_trichotomy x a with h | h | h
    · rw [if_neg (by omega), if_neg (by omega), if_neg (by omega)]
    · subst h; rw [if_neg (by omega), if_pos rfl, if_pos (by omega)]; simp
    · by_cases e : x < a + (bs.length + 1)
      · rw [if_pos (by omega), if_pos (by omega)]
        obtain ⟨d, rfl⟩ : ∃ d, x = a + 1 + d := ⟨x - (a + 1), by omega⟩
        simp [show a + 1 + d - a = d + 1 by omega]
      · rw [if_neg (by omega), if_neg (by omega), if_neg (by omega)]

/-- Each byte of the run is ANDed (R24). -/
theorem Memory.read_programRange {m : Memory} (w : m.wf = true) (a x : Nat) (bs : List Byte) :
    Memory.read (Memory.programRange m a bs) x =
      if a ≤ x ∧ x < a + bs.length then Memory.read m x &&& bs.getD (x - a) 0 else Memory.read m x := by
  induction bs generalizing m a with
  | nil => simp only [Memory.programRange, List.length_nil]; rw [if_neg]; omega
  | cons b bs ih =>
    simp only [Memory.programRange, List.length_cons]
    rw [ih (Memory.write_wf w a _), Memory.read_write w]
    rcases Nat.lt_trichotomy x a with h | h | h
    · rw [if_neg (by omega), if_neg (by omega), if_neg (by omega)]
    · subst h; rw [if_neg (by omega), if_pos rfl, if_pos (by omega)]; simp
    · by_cases e : x < a + (bs.length + 1)
      · rw [if_pos (by omega), if_neg (by omega), if_pos (by omega)]
        obtain ⟨d, rfl⟩ : ∃ d, x = a + 1 + d := ⟨x - (a + 1), by omega⟩
        simp [show a + 1 + d - a = d + 1 by omega]
      · rw [if_neg (by omega), if_neg (by omega), if_neg (by omega)]

/-- Each byte of the run is old, or old AND new (R31). -/
theorem Memory.read_tearProgram {m : Memory} (w : m.wf = true) (taken : Nat → Bool) (a x : Nat) (bs : List Byte) :
    Memory.read (Memory.tearProgram m taken a bs) x =
      if (a ≤ x ∧ x < a + bs.length) ∧ taken x = true then Memory.read m x &&& bs.getD (x - a) 0
      else Memory.read m x := by
  induction bs generalizing m a with
  | nil => simp only [Memory.tearProgram, List.length_nil]; rw [if_neg]; omega
  | cons b bs ih =>
    have step : ∀ n : Memory, n.wf = true → Memory.read n x = (if x = a ∧ taken a = true then Memory.read m a &&& b
        else Memory.read m x) → Memory.read (Memory.tearProgram n taken (a + 1) bs) x =
        if (a ≤ x ∧ x < a + (bs.length + 1)) ∧ taken x = true then Memory.read m x &&& (b :: bs).getD (x - a) 0
        else Memory.read m x := by
      intro n hn hr
      rw [ih hn, hr]
      rcases Nat.lt_trichotomy x a with h | h | h
      · rw [if_neg (by omega), if_neg (by omega), if_neg (by omega)]
      · subst h
        rw [if_neg (by omega)]
        by_cases t : taken x = true <;> simp [t]
      · by_cases e : x < a + (bs.length + 1)
        · obtain ⟨d, rfl⟩ : ∃ d, x = a + 1 + d := ⟨x - (a + 1), by omega⟩
          by_cases t : taken (a + 1 + d) = true
          · rw [if_pos ⟨by omega, t⟩, if_neg (by omega), if_pos ⟨by omega, t⟩]
            simp [show a + 1 + d - a = d + 1 by omega]
          · rw [if_neg (fun c => t c.2), if_neg (by omega), if_neg (fun c => t c.2)]
        · rw [if_neg (by omega), if_neg (by omega), if_neg (by omega)]
    simp only [Memory.tearProgram, List.length_cons]
    split
    · next t => exact step _ (Memory.write_wf w a _) (by rw [Memory.read_write w]; by_cases e : x = a <;> simp [e, t])
    · next t => exact step _ w (by rw [if_neg (fun c => t c.2)])

/-! ### Erase -/

theorem Memory.eraseRange_wfFrom {m : Memory} {lo : Nat} (w : Memory.wfFrom lo m = true) (a n : Nat) :
    Memory.wfFrom lo (Memory.eraseRange m a n) = true := by
  induction m generalizing lo with
  | nil => rfl
  | cons c rest ih =>
    obtain ⟨k, v⟩ := c
    rw [Memory.wfFrom_cons] at w
    have hr := ih w.2.2
    unfold Memory.eraseRange at hr ⊢
    rw [List.filter_cons]
    split
    · exact Memory.wfFrom_cons.2 ⟨w.1, w.2.1, hr⟩
    · exact Memory.wfFrom_lower (by omega) hr

theorem Memory.eraseRange_wf {m : Memory} (w : m.wf = true) (a n : Nat) : (Memory.eraseRange m a n).wf = true :=
  Memory.eraseRange_wfFrom w a n

/-- The range reads erased, and every other byte as before (R25). -/
theorem Memory.read_eraseRange (m : Memory) (a n x : Nat) :
    Memory.read (Memory.eraseRange m a n) x = if a ≤ x ∧ x < a + n then erased else Memory.read m x := by
  induction m with
  | nil => simp [Memory.eraseRange, Memory.read]
  | cons c rest ih =>
    obtain ⟨k, v⟩ := c
    unfold Memory.eraseRange at ih ⊢
    rw [List.filter_cons]
    by_cases e : k = x
    · subst e
      by_cases h : a ≤ k ∧ k < a + n
      · rw [if_neg (by simp; omega), ih]
        simp [h]
      · rw [if_pos (by simp; omega)]
        simp [Memory.read, h]
    · split
      · simp only [Memory.read, e, if_false]; exact ih
      · simp only [Memory.read, e, if_false]; exact ih

theorem Memory.tearErase_wfFrom {m : Memory} {lo : Nat} (w : Memory.wfFrom lo m = true) (bits : Nat → Byte) (a n : Nat) :
    Memory.wfFrom lo (Memory.tearErase m bits a n) = true := by
  induction m generalizing lo with
  | nil => rfl
  | cons c rest ih =>
    obtain ⟨k, v⟩ := c
    rw [Memory.wfFrom_cons] at w
    have hr := ih w.2.2
    unfold Memory.tearErase at hr ⊢
    simp only [List.filterMap_cons]
    by_cases h : a ≤ k ∧ k < a + n
    · by_cases e : v ||| bits k = erased
      · simp only [h, and_self, if_true, e]; exact Memory.wfFrom_lower (by omega) hr
      · simp only [h, and_self, if_true, e, if_false]; exact Memory.wfFrom_cons.2 ⟨w.1, e, hr⟩
    · simp only [h, if_false]; exact Memory.wfFrom_cons.2 ⟨w.1, w.2.1, hr⟩

theorem Memory.tearErase_wf {m : Memory} (w : m.wf = true) (bits : Nat → Byte) (a n : Nat) :
    (Memory.tearErase m bits a n).wf = true := Memory.tearErase_wfFrom w bits a n

theorem Memory.read_tearErase_from {m : Memory} {lo : Nat} (w : Memory.wfFrom lo m = true) (bits : Nat → Byte)
    (a n x : Nat) : Memory.read (Memory.tearErase m bits a n) x =
      if (a ≤ x ∧ x < a + n) ∧ Memory.read m x ≠ erased then Memory.read m x ||| bits x else Memory.read m x := by
  induction m generalizing lo with
  | nil => simp [Memory.tearErase, Memory.read]
  | cons c rest ih =>
    obtain ⟨k, v⟩ := c
    rw [Memory.wfFrom_cons] at w
    have hr := ih w.2.2
    unfold Memory.tearErase at hr ⊢
    simp only [List.filterMap_cons]
    by_cases e : k = x
    · subst e
      have below : Memory.read (List.filterMap (fun c => if a ≤ c.1 ∧ c.1 < a + n then
          if c.2 ||| bits c.1 = erased then none else some (c.1, c.2 ||| bits c.1) else some c) rest) k = erased :=
        Memory.read_below (Memory.tearErase_wfFrom w.2.2 bits a n) (Nat.lt_succ_self k)
      have hv : Memory.read ((k, v) :: rest) k = v := by simp [Memory.read]
      rw [hv]
      by_cases h : a ≤ k ∧ k < a + n
      · by_cases f : v ||| bits k = erased
        · simp only [h, and_self, if_true, f, below, ne_eq, w.2.1, not_false_eq_true]
        · simp [h, f, Memory.read, w.2.1]
      · simp [h, Memory.read]
    · have hn : Memory.read ((k, v) :: rest) x = Memory.read rest x := by simp [Memory.read, e]
      rw [hn, ← hr]
      by_cases h : a ≤ k ∧ k < a + n
      · by_cases f : v ||| bits k = erased
        · simp [h, f]
        · simp [h, f, Memory.read, e]
      · simp [h, Memory.read, e]

/-- In the range each 1 bit stays 1, and every other byte is as before (R32). -/
theorem Memory.read_tearErase {m : Memory} (w : m.wf = true) (bits : Nat → Byte) (a n x : Nat) :
    Memory.read (Memory.tearErase m bits a n) x =
      if (a ≤ x ∧ x < a + n) ∧ Memory.read m x ≠ erased then Memory.read m x ||| bits x else Memory.read m x :=
  Memory.read_tearErase_from w bits a n x

theorem Memory.readRange_length (m : Memory) (a n : Nat) : (Memory.readRange m a n).length = n := by
  simp [Memory.readRange]

theorem Memory.readRange_getD (m : Memory) (a n i : Nat) (h : i < n) :
    (Memory.readRange m a n).getD i 0 = Memory.read m (a + i) := by
  simp [Memory.readRange, List.getD, h]

end Sys2Proof.Machine
end

