-- ==== Sys2Proof/Laws/State.lean ====
section
/-! SUPPORT. One lemma for each field of the state and each basic update, and what a read gives after an update: no later
proof unfolds a record update. -/

namespace Sys2Proof.Machine

/-! ### Containers -/

@[simp] theorem PerPort.get_set_same {α : Type} (v : PerPort α) (p : Port) (x : α) : (v.set p x).get p = x := by
  cases p <;> rfl

theorem PerPort.get_set_ne {α : Type} (v : PerPort α) {p q : Port} (x : α) (h : q ≠ p) : (v.set p x).get q = v.get q := by
  cases p <;> cases q <;> first | rfl | exact absurd rfl h

@[simp] theorem PerPort.set_set {α : Type} (v : PerPort α) (p : Port) (x y : α) : (v.set p x).set p y = v.set p y := by
  cases p <;> rfl

@[simp] theorem PerPort.set_get {α : Type} (v : PerPort α) (p : Port) : v.set p (v.get p) = v := by cases p <;> rfl

@[simp] theorem PerPort.get_map {α : Type} (f : α → α) (v : PerPort α) (p : Port) : (v.map f).get p = f (v.get p) := by
  cases p <;> rfl

theorem PerPort.ext_get {α : Type} {v w : PerPort α} (h : ∀ p, v.get p = w.get p) : v = w := by
  have h0 := h .p0
  have h1 := h .p1
  have h2 := h .p2
  have h3 := h .p3
  cases v; cases w; simp_all [PerPort.get]

@[simp] theorem PerGuard.get_set_same {α : Type} (v : PerGuard α) (g : GuardInput) (x : α) : (v.set g x).get g = x := by
  cases g <;> rfl

theorem PerGuard.get_set_ne {α : Type} (v : PerGuard α) {g k : GuardInput} (x : α) (h : k ≠ g) :
    (v.set g x).get k = v.get k := by
  cases g <;> cases k <;> first | rfl | exact absurd rfl h

theorem vectorGet_set_same {α : Type} {n : Nat} (v : Vector α n) (i : Fin n) (x : α) : (v.set i.val x i.isLt).get i = x := by
  show (v.set i.val x i.isLt)[i.val] = x
  simp

theorem vectorGet_set_ne {α : Type} {n : Nat} (v : Vector α n) {i j : Fin n} (x : α) (h : j ≠ i) :
    (v.set i.val x i.isLt).get j = v.get j := by
  have h' : i.val ≠ j.val := fun e => h (Fin.ext e.symm)
  show (v.set i.val x i.isLt)[j.val] = v[j.val]
  simp [Vector.getElem_set_ne, h']

@[simp] theorem vectorGet_map {α β : Type} {n : Nat} (f : α → β) (v : Vector α n) (i : Fin n) :
    (v.map f).get i = f (v.get i) := by
  show (v.map f)[i.val] = f v[i.val]
  simp

@[simp] theorem vectorGet_replicate {α : Type} {n : Nat} (x : α) (i : Fin n) : (Vector.replicate n x).get i = x := by
  show (Vector.replicate n x)[i.val] = x
  simp

/-! ### Reads after updates -/

@[simp] theorem State.port_modPort_same (s : State) (p : Port) (g : PortLink → PortLink) :
    (s.modPort p g).port p = g (s.port p) := by simp [State.port, State.modPort]

theorem State.port_modPort_ne (s : State) {p q : Port} (g : PortLink → PortLink) (h : q ≠ p) :
    (s.modPort p g).port q = s.port q := by simp [State.port, State.modPort, PerPort.get_set_ne _ _ h]

/-- Two changes of one port link are one change. -/
theorem State.modPort_modPort (s : State) (p : Port) (f g : PortLink → PortLink) :
    (s.modPort p f).modPort p g = s.modPort p (fun l => g (f l)) := by simp [State.modPort]

@[simp] theorem State.window_setWindow_same (s : State) (w : Slot) (x : Option Window) :
    (s.setWindow w x).window w = x := vectorGet_set_same _ _ _

theorem State.window_setWindow_ne (s : State) {w v : Slot} (x : Option Window) (h : v ≠ w) :
    (s.setWindow w x).window v = s.window v := vectorGet_set_ne _ _ h

@[simp] theorem State.buffer_setBuffer_same (s : State) (b : BufferNo) (x : Buffer) :
    (s.setBuffer b x).buffer b = x := vectorGet_set_same _ _ _

theorem State.buffer_setBuffer_ne (s : State) {b c : BufferNo} (x : Buffer) (h : c ≠ b) :
    (s.setBuffer b x).buffer c = s.buffer c := vectorGet_set_ne _ _ h

@[simp] theorem State.guardPin_setGuardPin_same (s : State) (g : GuardInput) (x : GuardPin) :
    (s.setGuardPin g x).guardPin g = x := by simp [State.guardPin, State.setGuardPin]

theorem State.guardPin_setGuardPin_ne (s : State) {g k : GuardInput} (x : GuardPin) (h : k ≠ g) :
    (s.setGuardPin g x).guardPin k = s.guardPin k := by
  simp [State.guardPin, State.setGuardPin, PerGuard.get_set_ne _ _ h]

/-! ### Fields left alone -/

@[simp] theorem State.linkRate_modPort (s : State) (p : Port) (g : PortLink → PortLink) : (s.modPort p g).linkRate = s.linkRate := rfl
@[simp] theorem State.windows_modPort (s : State) (p : Port) (g : PortLink → PortLink) : (s.modPort p g).windows = s.windows := rfl
@[simp] theorem State.header_modPort (s : State) (p : Port) (g : PortLink → PortLink) : (s.modPort p g).header = s.header := rfl
@[simp] theorem State.tableState_modPort (s : State) (p : Port) (g : PortLink → PortLink) : (s.modPort p g).tableState = s.tableState := rfl
@[simp] theorem State.captureMark_modPort (s : State) (p : Port) (g : PortLink → PortLink) : (s.modPort p g).captureMark = s.captureMark := rfl
@[simp] theorem State.locked_modPort (s : State) (p : Port) (g : PortLink → PortLink) : (s.modPort p g).locked = s.locked := rfl
@[simp] theorem State.adminPort_modPort (s : State) (p : Port) (g : PortLink → PortLink) : (s.modPort p g).adminPort = s.adminPort := rfl
@[simp] theorem State.guards_modPort (s : State) (p : Port) (g : PortLink → PortLink) : (s.modPort p g).guards = s.guards := rfl
@[simp] theorem State.guardsFollow_modPort (s : State) (p : Port) (g : PortLink → PortLink) : (s.modPort p g).guardsFollow = s.guardsFollow := rfl
@[simp] theorem State.holds_modPort (s : State) (p : Port) (g : PortLink → PortLink) : (s.modPort p g).holds = s.holds := rfl
@[simp] theorem State.nextHoldId_modPort (s : State) (p : Port) (g : PortLink → PortLink) : (s.modPort p g).nextHoldId = s.nextHoldId := rfl
@[simp] theorem State.buffers_modPort (s : State) (p : Port) (g : PortLink → PortLink) : (s.modPort p g).buffers = s.buffers := rfl
@[simp] theorem State.jobs_modPort (s : State) (p : Port) (g : PortLink → PortLink) : (s.modPort p g).jobs = s.jobs := rfl
@[simp] theorem State.nextJobId_modPort (s : State) (p : Port) (g : PortLink → PortLink) : (s.modPort p g).nextJobId = s.nextJobId := rfl
@[simp] theorem State.offer_modPort (s : State) (p : Port) (g : PortLink → PortLink) : (s.modPort p g).offer = s.offer := rfl
@[simp] theorem State.seq_modPort (s : State) (p : Port) (g : PortLink → PortLink) : (s.modPort p g).seq = s.seq := rfl
@[simp] theorem State.arrayOp_modPort (s : State) (p : Port) (g : PortLink → PortLink) : (s.modPort p g).arrayOp = s.arrayOp := rfl
@[simp] theorem State.arrayStep_modPort (s : State) (p : Port) (g : PortLink → PortLink) : (s.modPort p g).arrayStep = s.arrayStep := rfl
@[simp] theorem State.mem_modPort (s : State) (p : Port) (g : PortLink → PortLink) : (s.modPort p g).mem = s.mem := rfl
@[simp] theorem State.fuses_modPort (s : State) (p : Port) (g : PortLink → PortLink) : (s.modPort p g).fuses = s.fuses := rfl
@[simp] theorem State.marker_modPort (s : State) (p : Port) (g : PortLink → PortLink) : (s.modPort p g).marker = s.marker := rfl
@[simp] theorem State.torn_modPort (s : State) (p : Port) (g : PortLink → PortLink) : (s.modPort p g).torn = s.torn := rfl
@[simp] theorem State.imageState_modPort (s : State) (p : Port) (g : PortLink → PortLink) : (s.modPort p g).imageState = s.imageState := rfl
@[simp] theorem State.image_modPort (s : State) (p : Port) (g : PortLink → PortLink) : (s.modPort p g).image = s.image := rfl
@[simp] theorem State.reservations_modPort (s : State) (p : Port) (g : PortLink → PortLink) : (s.modPort p g).reservations = s.reservations := rfl
@[simp] theorem State.phase_modPort (s : State) (p : Port) (g : PortLink → PortLink) : (s.modPort p g).phase = s.phase := rfl
@[simp] theorem State.resetHeld_modPort (s : State) (p : Port) (g : PortLink → PortLink) : (s.modPort p g).resetHeld = s.resetHeld := rfl
@[simp] theorem State.recovery_modPort (s : State) (p : Port) (g : PortLink → PortLink) : (s.modPort p g).recovery = s.recovery := rfl
@[simp] theorem State.freeCount_modPort (s : State) (p : Port) (g : PortLink → PortLink) : (s.modPort p g).freeCount = s.freeCount := rfl
@[simp] theorem State.pending_modPort (s : State) (p : Port) (g : PortLink → PortLink) : (s.modPort p g).pending = s.pending := rfl
@[simp] theorem State.window_modPort (s : State) (p : Port) (g : PortLink → PortLink) (w' : Slot) : (s.modPort p g).window w' = s.window w' := rfl
@[simp] theorem State.buffer_modPort (s : State) (p : Port) (g : PortLink → PortLink) (b' : BufferNo) : (s.modPort p g).buffer b' = s.buffer b' := rfl
@[simp] theorem State.guardPin_modPort (s : State) (p : Port) (g : PortLink → PortLink) (g' : GuardInput) : (s.modPort p g).guardPin g' = s.guardPin g' := rfl

@[simp] theorem State.linkRate_answer (s : State) (p : Port) (f : Frame) (r : Result) (l : List Byte) : (s.answer p f r l).linkRate = s.linkRate := rfl
@[simp] theorem State.windows_answer (s : State) (p : Port) (f : Frame) (r : Result) (l : List Byte) : (s.answer p f r l).windows = s.windows := rfl
@[simp] theorem State.header_answer (s : State) (p : Port) (f : Frame) (r : Result) (l : List Byte) : (s.answer p f r l).header = s.header := rfl
@[simp] theorem State.tableState_answer (s : State) (p : Port) (f : Frame) (r : Result) (l : List Byte) : (s.answer p f r l).tableState = s.tableState := rfl
@[simp] theorem State.captureMark_answer (s : State) (p : Port) (f : Frame) (r : Result) (l : List Byte) : (s.answer p f r l).captureMark = s.captureMark := rfl
@[simp] theorem State.locked_answer (s : State) (p : Port) (f : Frame) (r : Result) (l : List Byte) : (s.answer p f r l).locked = s.locked := rfl
@[simp] theorem State.adminPort_answer (s : State) (p : Port) (f : Frame) (r : Result) (l : List Byte) : (s.answer p f r l).adminPort = s.adminPort := rfl
@[simp] theorem State.guards_answer (s : State) (p : Port) (f : Frame) (r : Result) (l : List Byte) : (s.answer p f r l).guards = s.guards := rfl
@[simp] theorem State.guardsFollow_answer (s : State) (p : Port) (f : Frame) (r : Result) (l : List Byte) : (s.answer p f r l).guardsFollow = s.guardsFollow := rfl
@[simp] theorem State.holds_answer (s : State) (p : Port) (f : Frame) (r : Result) (l : List Byte) : (s.answer p f r l).holds = s.holds := rfl
@[simp] theorem State.nextHoldId_answer (s : State) (p : Port) (f : Frame) (r : Result) (l : List Byte) : (s.answer p f r l).nextHoldId = s.nextHoldId := rfl
@[simp] theorem State.buffers_answer (s : State) (p : Port) (f : Frame) (r : Result) (l : List Byte) : (s.answer p f r l).buffers = s.buffers := rfl
@[simp] theorem State.jobs_answer (s : State) (p : Port) (f : Frame) (r : Result) (l : List Byte) : (s.answer p f r l).jobs = s.jobs := rfl
@[simp] theorem State.nextJobId_answer (s : State) (p : Port) (f : Frame) (r : Result) (l : List Byte) : (s.answer p f r l).nextJobId = s.nextJobId := rfl
@[simp] theorem State.offer_answer (s : State) (p : Port) (f : Frame) (r : Result) (l : List Byte) : (s.answer p f r l).offer = s.offer := rfl
@[simp] theorem State.seq_answer (s : State) (p : Port) (f : Frame) (r : Result) (l : List Byte) : (s.answer p f r l).seq = s.seq := rfl
@[simp] theorem State.arrayOp_answer (s : State) (p : Port) (f : Frame) (r : Result) (l : List Byte) : (s.answer p f r l).arrayOp = s.arrayOp := rfl
@[simp] theorem State.arrayStep_answer (s : State) (p : Port) (f : Frame) (r : Result) (l : List Byte) : (s.answer p f r l).arrayStep = s.arrayStep := rfl
@[simp] theorem State.mem_answer (s : State) (p : Port) (f : Frame) (r : Result) (l : List Byte) : (s.answer p f r l).mem = s.mem := rfl
@[simp] theorem State.fuses_answer (s : State) (p : Port) (f : Frame) (r : Result) (l : List Byte) : (s.answer p f r l).fuses = s.fuses := rfl
@[simp] theorem State.marker_answer (s : State) (p : Port) (f : Frame) (r : Result) (l : List Byte) : (s.answer p f r l).marker = s.marker := rfl
@[simp] theorem State.torn_answer (s : State) (p : Port) (f : Frame) (r : Result) (l : List Byte) : (s.answer p f r l).torn = s.torn := rfl
@[simp] theorem State.imageState_answer (s : State) (p : Port) (f : Frame) (r : Result) (l : List Byte) : (s.answer p f r l).imageState = s.imageState := rfl
@[simp] theorem State.image_answer (s : State) (p : Port) (f : Frame) (r : Result) (l : List Byte) : (s.answer p f r l).image = s.image := rfl
@[simp] theorem State.reservations_answer (s : State) (p : Port) (f : Frame) (r : Result) (l : List Byte) : (s.answer p f r l).reservations = s.reservations := rfl
@[simp] theorem State.phase_answer (s : State) (p : Port) (f : Frame) (r : Result) (l : List Byte) : (s.answer p f r l).phase = s.phase := rfl
@[simp] theorem State.resetHeld_answer (s : State) (p : Port) (f : Frame) (r : Result) (l : List Byte) : (s.answer p f r l).resetHeld = s.resetHeld := rfl
@[simp] theorem State.recovery_answer (s : State) (p : Port) (f : Frame) (r : Result) (l : List Byte) : (s.answer p f r l).recovery = s.recovery := rfl
@[simp] theorem State.freeCount_answer (s : State) (p : Port) (f : Frame) (r : Result) (l : List Byte) : (s.answer p f r l).freeCount = s.freeCount := rfl
@[simp] theorem State.pending_answer (s : State) (p : Port) (f : Frame) (r : Result) (l : List Byte) : (s.answer p f r l).pending = s.pending := rfl
@[simp] theorem State.window_answer (s : State) (p : Port) (f : Frame) (r : Result) (l : List Byte) (w' : Slot) : (s.answer p f r l).window w' = s.window w' := rfl
@[simp] theorem State.buffer_answer (s : State) (p : Port) (f : Frame) (r : Result) (l : List Byte) (b' : BufferNo) : (s.answer p f r l).buffer b' = s.buffer b' := rfl
@[simp] theorem State.guardPin_answer (s : State) (p : Port) (f : Frame) (r : Result) (l : List Byte) (g' : GuardInput) : (s.answer p f r l).guardPin g' = s.guardPin g' := rfl

@[simp] theorem State.linkRate_post (s : State) (p : Port) (n : Notice) : (s.post p n).linkRate = s.linkRate := rfl
@[simp] theorem State.windows_post (s : State) (p : Port) (n : Notice) : (s.post p n).windows = s.windows := rfl
@[simp] theorem State.header_post (s : State) (p : Port) (n : Notice) : (s.post p n).header = s.header := rfl
@[simp] theorem State.tableState_post (s : State) (p : Port) (n : Notice) : (s.post p n).tableState = s.tableState := rfl
@[simp] theorem State.captureMark_post (s : State) (p : Port) (n : Notice) : (s.post p n).captureMark = s.captureMark := rfl
@[simp] theorem State.locked_post (s : State) (p : Port) (n : Notice) : (s.post p n).locked = s.locked := rfl
@[simp] theorem State.adminPort_post (s : State) (p : Port) (n : Notice) : (s.post p n).adminPort = s.adminPort := rfl
@[simp] theorem State.guards_post (s : State) (p : Port) (n : Notice) : (s.post p n).guards = s.guards := rfl
@[simp] theorem State.guardsFollow_post (s : State) (p : Port) (n : Notice) : (s.post p n).guardsFollow = s.guardsFollow := rfl
@[simp] theorem State.holds_post (s : State) (p : Port) (n : Notice) : (s.post p n).holds = s.holds := rfl
@[simp] theorem State.nextHoldId_post (s : State) (p : Port) (n : Notice) : (s.post p n).nextHoldId = s.nextHoldId := rfl
@[simp] theorem State.buffers_post (s : State) (p : Port) (n : Notice) : (s.post p n).buffers = s.buffers := rfl
@[simp] theorem State.jobs_post (s : State) (p : Port) (n : Notice) : (s.post p n).jobs = s.jobs := rfl
@[simp] theorem State.nextJobId_post (s : State) (p : Port) (n : Notice) : (s.post p n).nextJobId = s.nextJobId := rfl
@[simp] theorem State.offer_post (s : State) (p : Port) (n : Notice) : (s.post p n).offer = s.offer := rfl
@[simp] theorem State.seq_post (s : State) (p : Port) (n : Notice) : (s.post p n).seq = s.seq := rfl
@[simp] theorem State.arrayOp_post (s : State) (p : Port) (n : Notice) : (s.post p n).arrayOp = s.arrayOp := rfl
@[simp] theorem State.arrayStep_post (s : State) (p : Port) (n : Notice) : (s.post p n).arrayStep = s.arrayStep := rfl
@[simp] theorem State.mem_post (s : State) (p : Port) (n : Notice) : (s.post p n).mem = s.mem := rfl
@[simp] theorem State.fuses_post (s : State) (p : Port) (n : Notice) : (s.post p n).fuses = s.fuses := rfl
@[simp] theorem State.marker_post (s : State) (p : Port) (n : Notice) : (s.post p n).marker = s.marker := rfl
@[simp] theorem State.torn_post (s : State) (p : Port) (n : Notice) : (s.post p n).torn = s.torn := rfl
@[simp] theorem State.imageState_post (s : State) (p : Port) (n : Notice) : (s.post p n).imageState = s.imageState := rfl
@[simp] theorem State.image_post (s : State) (p : Port) (n : Notice) : (s.post p n).image = s.image := rfl
@[simp] theorem State.reservations_post (s : State) (p : Port) (n : Notice) : (s.post p n).reservations = s.reservations := rfl
@[simp] theorem State.phase_post (s : State) (p : Port) (n : Notice) : (s.post p n).phase = s.phase := rfl
@[simp] theorem State.resetHeld_post (s : State) (p : Port) (n : Notice) : (s.post p n).resetHeld = s.resetHeld := rfl
@[simp] theorem State.recovery_post (s : State) (p : Port) (n : Notice) : (s.post p n).recovery = s.recovery := rfl
@[simp] theorem State.freeCount_post (s : State) (p : Port) (n : Notice) : (s.post p n).freeCount = s.freeCount := rfl
@[simp] theorem State.pending_post (s : State) (p : Port) (n : Notice) : (s.post p n).pending = s.pending := rfl
@[simp] theorem State.window_post (s : State) (p : Port) (n : Notice) (w' : Slot) : (s.post p n).window w' = s.window w' := rfl
@[simp] theorem State.buffer_post (s : State) (p : Port) (n : Notice) (b' : BufferNo) : (s.post p n).buffer b' = s.buffer b' := rfl
@[simp] theorem State.guardPin_post (s : State) (p : Port) (n : Notice) (g' : GuardInput) : (s.post p n).guardPin g' = s.guardPin g' := rfl

@[simp] theorem State.ports_setWindow (s : State) (w : Slot) (x : Option Window) : (s.setWindow w x).ports = s.ports := rfl
@[simp] theorem State.linkRate_setWindow (s : State) (w : Slot) (x : Option Window) : (s.setWindow w x).linkRate = s.linkRate := rfl
@[simp] theorem State.header_setWindow (s : State) (w : Slot) (x : Option Window) : (s.setWindow w x).header = s.header := rfl
@[simp] theorem State.tableState_setWindow (s : State) (w : Slot) (x : Option Window) : (s.setWindow w x).tableState = s.tableState := rfl
@[simp] theorem State.captureMark_setWindow (s : State) (w : Slot) (x : Option Window) : (s.setWindow w x).captureMark = s.captureMark := rfl
@[simp] theorem State.locked_setWindow (s : State) (w : Slot) (x : Option Window) : (s.setWindow w x).locked = s.locked := rfl
@[simp] theorem State.adminPort_setWindow (s : State) (w : Slot) (x : Option Window) : (s.setWindow w x).adminPort = s.adminPort := rfl
@[simp] theorem State.guards_setWindow (s : State) (w : Slot) (x : Option Window) : (s.setWindow w x).guards = s.guards := rfl
@[simp] theorem State.guardsFollow_setWindow (s : State) (w : Slot) (x : Option Window) : (s.setWindow w x).guardsFollow = s.guardsFollow := rfl
@[simp] theorem State.holds_setWindow (s : State) (w : Slot) (x : Option Window) : (s.setWindow w x).holds = s.holds := rfl
@[simp] theorem State.nextHoldId_setWindow (s : State) (w : Slot) (x : Option Window) : (s.setWindow w x).nextHoldId = s.nextHoldId := rfl
@[simp] theorem State.buffers_setWindow (s : State) (w : Slot) (x : Option Window) : (s.setWindow w x).buffers = s.buffers := rfl
@[simp] theorem State.jobs_setWindow (s : State) (w : Slot) (x : Option Window) : (s.setWindow w x).jobs = s.jobs := rfl
@[simp] theorem State.nextJobId_setWindow (s : State) (w : Slot) (x : Option Window) : (s.setWindow w x).nextJobId = s.nextJobId := rfl
@[simp] theorem State.offer_setWindow (s : State) (w : Slot) (x : Option Window) : (s.setWindow w x).offer = s.offer := rfl
@[simp] theorem State.seq_setWindow (s : State) (w : Slot) (x : Option Window) : (s.setWindow w x).seq = s.seq := rfl
@[simp] theorem State.arrayOp_setWindow (s : State) (w : Slot) (x : Option Window) : (s.setWindow w x).arrayOp = s.arrayOp := rfl
@[simp] theorem State.arrayStep_setWindow (s : State) (w : Slot) (x : Option Window) : (s.setWindow w x).arrayStep = s.arrayStep := rfl
@[simp] theorem State.mem_setWindow (s : State) (w : Slot) (x : Option Window) : (s.setWindow w x).mem = s.mem := rfl
@[simp] theorem State.fuses_setWindow (s : State) (w : Slot) (x : Option Window) : (s.setWindow w x).fuses = s.fuses := rfl
@[simp] theorem State.marker_setWindow (s : State) (w : Slot) (x : Option Window) : (s.setWindow w x).marker = s.marker := rfl
@[simp] theorem State.torn_setWindow (s : State) (w : Slot) (x : Option Window) : (s.setWindow w x).torn = s.torn := rfl
@[simp] theorem State.imageState_setWindow (s : State) (w : Slot) (x : Option Window) : (s.setWindow w x).imageState = s.imageState := rfl
@[simp] theorem State.image_setWindow (s : State) (w : Slot) (x : Option Window) : (s.setWindow w x).image = s.image := rfl
@[simp] theorem State.reservations_setWindow (s : State) (w : Slot) (x : Option Window) : (s.setWindow w x).reservations = s.reservations := rfl
@[simp] theorem State.phase_setWindow (s : State) (w : Slot) (x : Option Window) : (s.setWindow w x).phase = s.phase := rfl
@[simp] theorem State.resetHeld_setWindow (s : State) (w : Slot) (x : Option Window) : (s.setWindow w x).resetHeld = s.resetHeld := rfl
@[simp] theorem State.recovery_setWindow (s : State) (w : Slot) (x : Option Window) : (s.setWindow w x).recovery = s.recovery := rfl
@[simp] theorem State.freeCount_setWindow (s : State) (w : Slot) (x : Option Window) : (s.setWindow w x).freeCount = s.freeCount := rfl
@[simp] theorem State.pending_setWindow (s : State) (w : Slot) (x : Option Window) : (s.setWindow w x).pending = s.pending := rfl
@[simp] theorem State.buffer_setWindow (s : State) (w : Slot) (x : Option Window) (b' : BufferNo) : (s.setWindow w x).buffer b' = s.buffer b' := rfl
@[simp] theorem State.guardPin_setWindow (s : State) (w : Slot) (x : Option Window) (g' : GuardInput) : (s.setWindow w x).guardPin g' = s.guardPin g' := rfl
@[simp] theorem State.port_setWindow (s : State) (w : Slot) (x : Option Window) (p' : Port) : (s.setWindow w x).port p' = s.port p' := rfl

@[simp] theorem State.ports_setBuffer (s : State) (b : BufferNo) (x : Buffer) : (s.setBuffer b x).ports = s.ports := rfl
@[simp] theorem State.linkRate_setBuffer (s : State) (b : BufferNo) (x : Buffer) : (s.setBuffer b x).linkRate = s.linkRate := rfl
@[simp] theorem State.windows_setBuffer (s : State) (b : BufferNo) (x : Buffer) : (s.setBuffer b x).windows = s.windows := rfl
@[simp] theorem State.header_setBuffer (s : State) (b : BufferNo) (x : Buffer) : (s.setBuffer b x).header = s.header := rfl
@[simp] theorem State.tableState_setBuffer (s : State) (b : BufferNo) (x : Buffer) : (s.setBuffer b x).tableState = s.tableState := rfl
@[simp] theorem State.captureMark_setBuffer (s : State) (b : BufferNo) (x : Buffer) : (s.setBuffer b x).captureMark = s.captureMark := rfl
@[simp] theorem State.locked_setBuffer (s : State) (b : BufferNo) (x : Buffer) : (s.setBuffer b x).locked = s.locked := rfl
@[simp] theorem State.adminPort_setBuffer (s : State) (b : BufferNo) (x : Buffer) : (s.setBuffer b x).adminPort = s.adminPort := rfl
@[simp] theorem State.guards_setBuffer (s : State) (b : BufferNo) (x : Buffer) : (s.setBuffer b x).guards = s.guards := rfl
@[simp] theorem State.guardsFollow_setBuffer (s : State) (b : BufferNo) (x : Buffer) : (s.setBuffer b x).guardsFollow = s.guardsFollow := rfl
@[simp] theorem State.holds_setBuffer (s : State) (b : BufferNo) (x : Buffer) : (s.setBuffer b x).holds = s.holds := rfl
@[simp] theorem State.nextHoldId_setBuffer (s : State) (b : BufferNo) (x : Buffer) : (s.setBuffer b x).nextHoldId = s.nextHoldId := rfl
@[simp] theorem State.jobs_setBuffer (s : State) (b : BufferNo) (x : Buffer) : (s.setBuffer b x).jobs = s.jobs := rfl
@[simp] theorem State.nextJobId_setBuffer (s : State) (b : BufferNo) (x : Buffer) : (s.setBuffer b x).nextJobId = s.nextJobId := rfl
@[simp] theorem State.offer_setBuffer (s : State) (b : BufferNo) (x : Buffer) : (s.setBuffer b x).offer = s.offer := rfl
@[simp] theorem State.seq_setBuffer (s : State) (b : BufferNo) (x : Buffer) : (s.setBuffer b x).seq = s.seq := rfl
@[simp] theorem State.arrayOp_setBuffer (s : State) (b : BufferNo) (x : Buffer) : (s.setBuffer b x).arrayOp = s.arrayOp := rfl
@[simp] theorem State.arrayStep_setBuffer (s : State) (b : BufferNo) (x : Buffer) : (s.setBuffer b x).arrayStep = s.arrayStep := rfl
@[simp] theorem State.mem_setBuffer (s : State) (b : BufferNo) (x : Buffer) : (s.setBuffer b x).mem = s.mem := rfl
@[simp] theorem State.fuses_setBuffer (s : State) (b : BufferNo) (x : Buffer) : (s.setBuffer b x).fuses = s.fuses := rfl
@[simp] theorem State.marker_setBuffer (s : State) (b : BufferNo) (x : Buffer) : (s.setBuffer b x).marker = s.marker := rfl
@[simp] theorem State.torn_setBuffer (s : State) (b : BufferNo) (x : Buffer) : (s.setBuffer b x).torn = s.torn := rfl
@[simp] theorem State.imageState_setBuffer (s : State) (b : BufferNo) (x : Buffer) : (s.setBuffer b x).imageState = s.imageState := rfl
@[simp] theorem State.image_setBuffer (s : State) (b : BufferNo) (x : Buffer) : (s.setBuffer b x).image = s.image := rfl
@[simp] theorem State.reservations_setBuffer (s : State) (b : BufferNo) (x : Buffer) : (s.setBuffer b x).reservations = s.reservations := rfl
@[simp] theorem State.phase_setBuffer (s : State) (b : BufferNo) (x : Buffer) : (s.setBuffer b x).phase = s.phase := rfl
@[simp] theorem State.resetHeld_setBuffer (s : State) (b : BufferNo) (x : Buffer) : (s.setBuffer b x).resetHeld = s.resetHeld := rfl
@[simp] theorem State.recovery_setBuffer (s : State) (b : BufferNo) (x : Buffer) : (s.setBuffer b x).recovery = s.recovery := rfl
@[simp] theorem State.freeCount_setBuffer (s : State) (b : BufferNo) (x : Buffer) : (s.setBuffer b x).freeCount = s.freeCount := rfl
@[simp] theorem State.pending_setBuffer (s : State) (b : BufferNo) (x : Buffer) : (s.setBuffer b x).pending = s.pending := rfl
@[simp] theorem State.window_setBuffer (s : State) (b : BufferNo) (x : Buffer) (w' : Slot) : (s.setBuffer b x).window w' = s.window w' := rfl
@[simp] theorem State.guardPin_setBuffer (s : State) (b : BufferNo) (x : Buffer) (g' : GuardInput) : (s.setBuffer b x).guardPin g' = s.guardPin g' := rfl
@[simp] theorem State.port_setBuffer (s : State) (b : BufferNo) (x : Buffer) (p' : Port) : (s.setBuffer b x).port p' = s.port p' := rfl

@[simp] theorem State.ports_setGuardPin (s : State) (g : GuardInput) (x : GuardPin) : (s.setGuardPin g x).ports = s.ports := rfl
@[simp] theorem State.linkRate_setGuardPin (s : State) (g : GuardInput) (x : GuardPin) : (s.setGuardPin g x).linkRate = s.linkRate := rfl
@[simp] theorem State.windows_setGuardPin (s : State) (g : GuardInput) (x : GuardPin) : (s.setGuardPin g x).windows = s.windows := rfl
@[simp] theorem State.header_setGuardPin (s : State) (g : GuardInput) (x : GuardPin) : (s.setGuardPin g x).header = s.header := rfl
@[simp] theorem State.tableState_setGuardPin (s : State) (g : GuardInput) (x : GuardPin) : (s.setGuardPin g x).tableState = s.tableState := rfl
@[simp] theorem State.captureMark_setGuardPin (s : State) (g : GuardInput) (x : GuardPin) : (s.setGuardPin g x).captureMark = s.captureMark := rfl
@[simp] theorem State.locked_setGuardPin (s : State) (g : GuardInput) (x : GuardPin) : (s.setGuardPin g x).locked = s.locked := rfl
@[simp] theorem State.adminPort_setGuardPin (s : State) (g : GuardInput) (x : GuardPin) : (s.setGuardPin g x).adminPort = s.adminPort := rfl
@[simp] theorem State.guardsFollow_setGuardPin (s : State) (g : GuardInput) (x : GuardPin) : (s.setGuardPin g x).guardsFollow = s.guardsFollow := rfl
@[simp] theorem State.holds_setGuardPin (s : State) (g : GuardInput) (x : GuardPin) : (s.setGuardPin g x).holds = s.holds := rfl
@[simp] theorem State.nextHoldId_setGuardPin (s : State) (g : GuardInput) (x : GuardPin) : (s.setGuardPin g x).nextHoldId = s.nextHoldId := rfl
@[simp] theorem State.buffers_setGuardPin (s : State) (g : GuardInput) (x : GuardPin) : (s.setGuardPin g x).buffers = s.buffers := rfl
@[simp] theorem State.jobs_setGuardPin (s : State) (g : GuardInput) (x : GuardPin) : (s.setGuardPin g x).jobs = s.jobs := rfl
@[simp] theorem State.nextJobId_setGuardPin (s : State) (g : GuardInput) (x : GuardPin) : (s.setGuardPin g x).nextJobId = s.nextJobId := rfl
@[simp] theorem State.offer_setGuardPin (s : State) (g : GuardInput) (x : GuardPin) : (s.setGuardPin g x).offer = s.offer := rfl
@[simp] theorem State.seq_setGuardPin (s : State) (g : GuardInput) (x : GuardPin) : (s.setGuardPin g x).seq = s.seq := rfl
@[simp] theorem State.arrayOp_setGuardPin (s : State) (g : GuardInput) (x : GuardPin) : (s.setGuardPin g x).arrayOp = s.arrayOp := rfl
@[simp] theorem State.arrayStep_setGuardPin (s : State) (g : GuardInput) (x : GuardPin) : (s.setGuardPin g x).arrayStep = s.arrayStep := rfl
@[simp] theorem State.mem_setGuardPin (s : State) (g : GuardInput) (x : GuardPin) : (s.setGuardPin g x).mem = s.mem := rfl
@[simp] theorem State.fuses_setGuardPin (s : State) (g : GuardInput) (x : GuardPin) : (s.setGuardPin g x).fuses = s.fuses := rfl
@[simp] theorem State.marker_setGuardPin (s : State) (g : GuardInput) (x : GuardPin) : (s.setGuardPin g x).marker = s.marker := rfl
@[simp] theorem State.torn_setGuardPin (s : State) (g : GuardInput) (x : GuardPin) : (s.setGuardPin g x).torn = s.torn := rfl
@[simp] theorem State.imageState_setGuardPin (s : State) (g : GuardInput) (x : GuardPin) : (s.setGuardPin g x).imageState = s.imageState := rfl
@[simp] theorem State.image_setGuardPin (s : State) (g : GuardInput) (x : GuardPin) : (s.setGuardPin g x).image = s.image := rfl
@[simp] theorem State.reservations_setGuardPin (s : State) (g : GuardInput) (x : GuardPin) : (s.setGuardPin g x).reservations = s.reservations := rfl
@[simp] theorem State.phase_setGuardPin (s : State) (g : GuardInput) (x : GuardPin) : (s.setGuardPin g x).phase = s.phase := rfl
@[simp] theorem State.resetHeld_setGuardPin (s : State) (g : GuardInput) (x : GuardPin) : (s.setGuardPin g x).resetHeld = s.resetHeld := rfl
@[simp] theorem State.recovery_setGuardPin (s : State) (g : GuardInput) (x : GuardPin) : (s.setGuardPin g x).recovery = s.recovery := rfl
@[simp] theorem State.freeCount_setGuardPin (s : State) (g : GuardInput) (x : GuardPin) : (s.setGuardPin g x).freeCount = s.freeCount := rfl
@[simp] theorem State.pending_setGuardPin (s : State) (g : GuardInput) (x : GuardPin) : (s.setGuardPin g x).pending = s.pending := rfl
@[simp] theorem State.window_setGuardPin (s : State) (g : GuardInput) (x : GuardPin) (w' : Slot) : (s.setGuardPin g x).window w' = s.window w' := rfl
@[simp] theorem State.buffer_setGuardPin (s : State) (g : GuardInput) (x : GuardPin) (b' : BufferNo) : (s.setGuardPin g x).buffer b' = s.buffer b' := rfl
@[simp] theorem State.port_setGuardPin (s : State) (g : GuardInput) (x : GuardPin) (p' : Port) : (s.setGuardPin g x).port p' = s.port p' := rfl

@[simp] theorem State.ports_drawn (s : State) : (s.drawn).ports = s.ports := rfl
@[simp] theorem State.linkRate_drawn (s : State) : (s.drawn).linkRate = s.linkRate := rfl
@[simp] theorem State.windows_drawn (s : State) : (s.drawn).windows = s.windows := rfl
@[simp] theorem State.header_drawn (s : State) : (s.drawn).header = s.header := rfl
@[simp] theorem State.tableState_drawn (s : State) : (s.drawn).tableState = s.tableState := rfl
@[simp] theorem State.captureMark_drawn (s : State) : (s.drawn).captureMark = s.captureMark := rfl
@[simp] theorem State.locked_drawn (s : State) : (s.drawn).locked = s.locked := rfl
@[simp] theorem State.adminPort_drawn (s : State) : (s.drawn).adminPort = s.adminPort := rfl
@[simp] theorem State.guards_drawn (s : State) : (s.drawn).guards = s.guards := rfl
@[simp] theorem State.guardsFollow_drawn (s : State) : (s.drawn).guardsFollow = s.guardsFollow := rfl
@[simp] theorem State.holds_drawn (s : State) : (s.drawn).holds = s.holds := rfl
@[simp] theorem State.nextHoldId_drawn (s : State) : (s.drawn).nextHoldId = s.nextHoldId := rfl
@[simp] theorem State.buffers_drawn (s : State) : (s.drawn).buffers = s.buffers := rfl
@[simp] theorem State.jobs_drawn (s : State) : (s.drawn).jobs = s.jobs := rfl
@[simp] theorem State.nextJobId_drawn (s : State) : (s.drawn).nextJobId = s.nextJobId := rfl
@[simp] theorem State.offer_drawn (s : State) : (s.drawn).offer = s.offer := rfl
@[simp] theorem State.seq_drawn (s : State) : (s.drawn).seq = s.seq := rfl
@[simp] theorem State.arrayOp_drawn (s : State) : (s.drawn).arrayOp = s.arrayOp := rfl
@[simp] theorem State.arrayStep_drawn (s : State) : (s.drawn).arrayStep = s.arrayStep := rfl
@[simp] theorem State.mem_drawn (s : State) : (s.drawn).mem = s.mem := rfl
@[simp] theorem State.fuses_drawn (s : State) : (s.drawn).fuses = s.fuses := rfl
@[simp] theorem State.marker_drawn (s : State) : (s.drawn).marker = s.marker := rfl
@[simp] theorem State.torn_drawn (s : State) : (s.drawn).torn = s.torn := rfl
@[simp] theorem State.imageState_drawn (s : State) : (s.drawn).imageState = s.imageState := rfl
@[simp] theorem State.image_drawn (s : State) : (s.drawn).image = s.image := rfl
@[simp] theorem State.reservations_drawn (s : State) : (s.drawn).reservations = s.reservations := rfl
@[simp] theorem State.phase_drawn (s : State) : (s.drawn).phase = s.phase := rfl
@[simp] theorem State.resetHeld_drawn (s : State) : (s.drawn).resetHeld = s.resetHeld := rfl
@[simp] theorem State.recovery_drawn (s : State) : (s.drawn).recovery = s.recovery := rfl
@[simp] theorem State.pending_drawn (s : State) : (s.drawn).pending = s.pending := rfl
@[simp] theorem State.window_drawn (s : State) (w' : Slot) : (s.drawn).window w' = s.window w' := rfl
@[simp] theorem State.buffer_drawn (s : State) (b' : BufferNo) : (s.drawn).buffer b' = s.buffer b' := rfl
@[simp] theorem State.guardPin_drawn (s : State) (g' : GuardInput) : (s.drawn).guardPin g' = s.guardPin g' := rfl
@[simp] theorem State.port_drawn (s : State) (p' : Port) : (s.drawn).port p' = s.port p' := rfl

end Sys2Proof.Machine
end

