-- ==== Sys2Proof/Laws/Keeps.lean ====
section
/-! SUPPORT. What the shared operations keep: one lemma for each operation says that it keeps the bounds of the port links
(R5, R6, R10, R12), the law of latches and guards (R77), the canonical form of memory, the limit of buffers (R102), the
bound of the job list (R114), and the laws of transmission (R6). -/

namespace Sys2Proof.Machine

/-- `m` keeps the laws of transmission (R6) that `l` meets: the frame in transmission stands in the output list, and what has
left TXD is its beginning. -/
structure SendKept (l m : PortLink) : Prop where
  sends : (l.sending = true → l.output ≠ []) → m.sending = true → m.output ≠ []
  wire : (l.sending = true → l.output ≠ []) → l.WireLawful → m.WireLawful

theorem SendKept.refl (l : PortLink) : SendKept l l := ⟨id, fun _ => id⟩

theorem SendKept.trans {l m n : PortLink} (a : SendKept l m) (b : SendKept m n) : SendKept l n :=
  ⟨fun h => b.sends (a.sends h), fun h w => b.wire (a.sends h) (a.wire h w)⟩

/-- The output list only grows at its end. -/
theorem SendKept.of_append {l m : PortLink} (x : List OutFrame) (hs : m.sending = l.sending) (hb : m.txBytes = l.txBytes)
    (ho : m.output = l.output ++ x) : SendKept l m := by
  refine ⟨fun h hm => by rw [ho]; simp [h (hs ▸ hm)], fun h w hm f rest e => ?_⟩
  rw [hs] at hm
  obtain ⟨g, q, hg⟩ := List.exists_cons_of_ne_nil (h hm)
  have := w hm g q hg
  rw [ho, hg, List.cons_append, List.cons.injEq] at e
  rw [hb, ← e.1]
  exact this

/-- The transmission and the output list are as they were. -/
theorem SendKept.of_eq {l m : PortLink} (hs : m.sending = l.sending) (hb : m.txBytes = l.txBytes)
    (ho : m.output = l.output) : SendKept l m := SendKept.of_append [] hs hb (by simp [ho])

/-- Nothing is in transmission. -/
theorem SendKept.of_idle {l m : PortLink} (hs : m.sending = false) : SendKept l m :=
  ⟨fun _ hm => by simp [hs] at hm, fun _ _ hm => by simp [hs] at hm⟩

/-- `t` keeps the laws that `s` meets. -/
structure Keeps (s t : State) : Prop where
  links : ∀ p, (s.port p).Lawful → (t.port p).Lawful
  latches : s.LatchesGuarded → t.LatchesGuarded
  memory : s.MemoryLawful → t.MemoryLawful
  buffers : s.BuffersLawful → t.BuffersLawful
  jobs : s.JobsBounded → t.JobsBounded
  sends : ∀ p, SendKept (s.port p) (t.port p)

theorem Keeps.refl (s : State) : Keeps s s := ⟨fun _ h => h, id, id, id, id, fun _ => SendKept.refl _⟩

theorem Keeps.trans {s t u : State} (a : Keeps s t) (b : Keeps t u) : Keeps s u :=
  ⟨fun p h => b.links p (a.links p h), fun h => b.latches (a.latches h), fun h => b.memory (a.memory h),
   fun h => b.buffers (a.buffers h), fun h => b.jobs (a.jobs h),
   fun p => (a.sends p).trans (b.sends p)⟩

/-! ### How each law can be kept -/

theorem linksKept_of_eq {s t : State} (h : t.ports = s.ports) (p : Port) (l : (s.port p).Lawful) : (t.port p).Lawful := by
  have e : t.port p = s.port p := by simp [State.port, h]
  rw [e]; exact l

theorem sendsKept_of_eq {s t : State} (h : t.ports = s.ports) (p : Port) : SendKept (s.port p) (t.port p) := by
  have e : t.port p = s.port p := by simp [State.port, h]
  rw [e]; exact SendKept.refl _

/-- A window's latch, guard name and the guards decide the law of latches. -/
theorem latchesKept_of {s t : State} (g : ∀ k, (t.guardPin k).input.reads = (s.guardPin k).input.reads)
    (w : ∀ w x, t.window w = some x → x.latchOpen = true →
      ∃ y, s.window w = some y ∧ y.latchOpen = true ∧ y.fields.settings.guard = x.fields.settings.guard)
    (h : s.LatchesGuarded) : t.LatchesGuarded := by
  intro i x hx ho
  obtain ⟨y, hy, yo, yg⟩ := w i x hx ho
  have := h i y hy yo
  rw [← yg]
  cases hg : y.fields.settings.guard with
  | none => rfl
  | some k => simp only [hg, State.guardReads] at this ⊢; rw [g]; exact this

theorem latchesKept_of_eq {s t : State} (hw : t.windows = s.windows) (hg : t.guards = s.guards)
    (h : s.LatchesGuarded) : t.LatchesGuarded :=
  latchesKept_of (fun k => by simp [State.guardPin, hg])
    (fun w x hx ho => ⟨x, by simpa [State.window, hw] using hx, ho, rfl⟩) h

theorem memoryKept_of_eq {s t : State} (hm : t.mem = s.mem) (hb : t.buffers = s.buffers) (h : s.MemoryLawful) :
    t.MemoryLawful := by
  refine ⟨by rw [hm]; exact h.1, fun b => ?_⟩
  have e : t.buffer b = s.buffer b := by simp [State.buffer, hb]
  rw [e]; exact h.2 b

/-- Owners may only go. -/
theorem buffersKept_of {s t : State}
    (o : ∀ b, (t.buffer b).state.owner? = (s.buffer b).state.owner? ∨ (t.buffer b).state.owner? = none)
    (h : s.BuffersLawful) : t.BuffersLawful := by
  intro p
  refine Nat.le_trans ?_ (h p)
  unfold State.buffersOwned
  simp only [← List.countP_eq_length_filter]
  refine List.countP_mono_left (fun b _ hb => ?_)
  rcases o b with e | e
  · rwa [e] at hb
  · rw [e] at hb; simp at hb

theorem buffersKept_of_eq {s t : State} (hb : t.buffers = s.buffers) (h : s.BuffersLawful) : t.BuffersLawful :=
  buffersKept_of (fun b => Or.inl (by simp [State.buffer, hb])) h

/-- An update that leaves the laws' fields alone, but for a job list that does not grow. -/
theorem Keeps.of_eq {s t : State} (hp : t.ports = s.ports) (hw : t.windows = s.windows) (hg : t.guards = s.guards)
    (hm : t.mem = s.mem) (hb : t.buffers = s.buffers) (hj : t.jobs.length ≤ s.jobs.length) : Keeps s t :=
  ⟨linksKept_of_eq hp, latchesKept_of_eq hw hg, memoryKept_of_eq hm hb, buffersKept_of_eq hb,
   fun h => Nat.le_trans hj h, sendsKept_of_eq hp⟩

/-! ### Port links -/

theorem Keeps.modPortAt (s : State) (p : Port) (f : PortLink → PortLink)
    (h : (s.port p).Lawful → (f (s.port p)).Lawful) (g : SendKept (s.port p) (f (s.port p))) :
    Keeps s (s.modPort p f) := by
  refine ⟨fun q l => ?_, latchesKept_of_eq rfl rfl, memoryKept_of_eq rfl rfl, buffersKept_of_eq rfl, id, fun q => ?_⟩
  · by_cases e : q = p
    · subst e; rw [State.port_modPort_same]; exact h l
    · rw [State.port_modPort_ne _ _ e]; exact l
  · by_cases e : q = p
    · subst e; rw [State.port_modPort_same]; exact g
    · rw [State.port_modPort_ne _ _ e]; exact SendKept.refl _

theorem Keeps.modPort (s : State) (p : Port) (f : PortLink → PortLink) (h : ∀ l : PortLink, l.Lawful → (f l).Lawful)
    (g : ∀ l : PortLink, SendKept l (f l)) : Keeps s (s.modPort p f) :=
  Keeps.modPortAt s p f (h _) (g _)

/-- The lawfulness of a link rests on these five fields. -/
theorem PortLink.lawful_of {l m : PortLink} (h : l.Lawful) (hi : m.inbound.length ≤ l.inbound.length)
    (hn : m.notices = l.notices) (ho : m.overflow = l.overflow) (ha : m.atn = l.atn)
    (he : m.waitingLinkErrors ≤ l.waitingLinkErrors) : m.Lawful :=
  ⟨Nat.le_trans hi h.1, hn ▸ h.2.1, by rw [hn, ho]; exact h.2.2.1, by rw [hn, ho, ha]; exact h.2.2.2.1,
   Nat.le_trans he h.2.2.2.2⟩

theorem PortLink.syncAtn_lawful {l : PortLink} (hi : l.inbound.length ≤ 4) (hn : l.notices.length ≤ 16)
    (ho : l.overflow = true → l.notices.length = 16) (he : l.waitingLinkErrors ≤ 4) : l.syncAtn.Lawful := by
  refine ⟨hi, hn, ho, ?_, he⟩
  simp [PortLink.syncAtn, PortLink.atnLevel]

theorem PortLink.waitingLinkErrors_push (l : PortLink) (f : OutFrame) :
    (l.pushOut f).waitingLinkErrors ≤ l.waitingLinkErrors + (if f.kind = .linkError then 1 else 0) := by
  unfold PortLink.waitingLinkErrors PortLink.waitingOut PortLink.pushOut
  cases hs : l.sending with
  | false => by_cases h : f.kind = .linkError <;> simp [List.filter_append, h]
  | true =>
    cases ho : l.output with
    | nil => simp
    | cons g rest => by_cases h : f.kind = .linkError <;> simp [List.filter_append, h]

theorem PortLink.pushOut_lawful (f : OutFrame) (h : f.kind ≠ .linkError) (l : PortLink) (hl : l.Lawful) :
    (l.pushOut f).Lawful := by
  have := l.waitingLinkErrors_push f
  simp only [h, if_false, Nat.add_zero] at this
  exact PortLink.lawful_of hl (Nat.le_refl _) rfl rfl rfl this

theorem PortLink.pushLinkError_lawful (r : Result) (l : PortLink) (hl : l.Lawful) : (l.pushLinkError r).Lawful := by
  unfold PortLink.pushLinkError
  split
  · next h =>
    refine ⟨hl.1, hl.2.1, hl.2.2.1, hl.2.2.2.1, ?_⟩
    have := l.waitingLinkErrors_push { kind := .linkError, type := 0xFF, tag := 0x00, body := [r.code] }
    simp only [Config.linkErrorMax] at h
    simp only [if_true] at this
    exact Nat.le_trans this h
  · exact hl

theorem PortLink.pushLinkError_sends (r : Result) (l : PortLink) : SendKept l (l.pushLinkError r) := by
  unfold PortLink.pushLinkError
  split
  · exact SendKept.of_append _ rfl rfl rfl
  · exact SendKept.refl l

theorem PortLink.post_sends (n : Notice) (l : PortLink) : SendKept l (l.post n) := by
  unfold PortLink.post
  split <;> exact SendKept.of_eq rfl rfl rfl

theorem PortLink.post_lawful (n : Notice) (l : PortLink) (hl : l.Lawful) : (l.post n).Lawful := by
  unfold PortLink.post
  split
  · next h =>
    simp only [Config.noticeMax] at h
    refine PortLink.syncAtn_lawful hl.1 ?_ ?_ hl.2.2.2.2
    · simp; omega
    · intro ho; have := hl.2.2.1 ho; omega
  · next h =>
    simp only [Config.noticeMax] at h
    exact PortLink.syncAtn_lawful hl.1 hl.2.1 (fun _ => by have := hl.2.1; simp; omega) hl.2.2.2.2

theorem PortLink.fetch_lawful (n : Nat) (l : PortLink) (hl : l.Lawful) : (l.fetch n).Lawful := by
  refine PortLink.syncAtn_lawful hl.1 ?_ (fun h => by simp at h) hl.2.2.2.2
  have := hl.2.1
  simp; omega

theorem PortLink.clear_lawful (l : PortLink) : l.clear.Lawful := by
  refine PortLink.syncAtn_lawful (by simp) (by simp) (fun h => by simp at h) ?_
  unfold PortLink.waitingLinkErrors PortLink.waitingOut
  cases hs : l.sending with
  | false => simp
  | true => cases l.output <;> simp

theorem PortLink.clear_sends (l : PortLink) : SendKept l l.clear := by
  cases hs : l.sending with
  | false => exact SendKept.of_idle hs
  | true =>
    refine ⟨fun h _ => ?_, fun h w _ f rest e => ?_⟩
    · obtain ⟨g, q, hg⟩ := List.exists_cons_of_ne_nil (h hs)
      simp [PortLink.clear, PortLink.syncAtn, hs, hg]
    · obtain ⟨g, q, hg⟩ := List.exists_cons_of_ne_nil (h hs)
      simp only [PortLink.clear, PortLink.syncAtn, hs, hg, if_true, List.take_succ_cons, List.take_zero, List.map_cons,
        List.map_nil, List.cons.injEq] at e
      rw [← e.1]
      exact w hs g q hg

theorem PortLink.takeRequest_sends (l : PortLink) : SendKept l l.takeRequest := by
  unfold PortLink.takeRequest
  split <;> exact SendKept.of_eq rfl rfl rfl

theorem PortLink.sent_sends (l : PortLink) : SendKept l l.sent := by
  unfold PortLink.sent
  split
  · exact SendKept.refl l
  · dsimp only
    split
    · refine SendKept.trans ?_ (PortLink.takeRequest_sends _)
      exact SendKept.of_idle rfl
    · exact SendKept.of_idle rfl

theorem PortLink.takeRequest_lawful (l : PortLink) (hl : l.Lawful) : l.takeRequest.Lawful := by
  unfold PortLink.takeRequest
  split
  · next hq => exact PortLink.lawful_of hl (by simp [hq]) rfl rfl rfl (Nat.le_refl _)
  · exact hl

theorem PortLink.markJudged_lawful (l : PortLink) (hl : l.Lawful) : l.markJudged.Lawful :=
  PortLink.lawful_of hl (Nat.le_refl _) rfl rfl rfl (Nat.le_refl _)

theorem PortLink.sent_lawful (l : PortLink) (hl : l.Lawful) : l.sent.Lawful := by
  unfold PortLink.sent
  split
  · exact hl
  · next f rest ho =>
    have he : ∀ m : PortLink, m.output = rest → m.sending = false → m.waitingLinkErrors ≤ l.waitingLinkErrors := by
      intro m h1 h2
      unfold PortLink.waitingLinkErrors PortLink.waitingOut
      rw [h1, h2, ho]
      cases l.sending with
      | true => simp
      | false =>
        simp only [Bool.false_eq_true, if_false, List.filter_cons]
        split <;> simp
    dsimp only
    split
    · exact PortLink.takeRequest_lawful _ (PortLink.lawful_of hl (Nat.le_refl _) rfl rfl rfl (he _ rfl rfl))
    · exact PortLink.lawful_of hl (Nat.le_refl _) rfl rfl rfl (he _ rfl rfl)

theorem Keeps.answer (s : State) (p : Port) (f : Frame) (r : Result) (l : List Byte) : Keeps s (s.answer p f r l) :=
  Keeps.modPort s p _ (PortLink.pushOut_lawful _ (by simp)) (fun _ => SendKept.of_append _ rfl rfl rfl)

theorem Keeps.markJudged (s : State) (p : Port) : Keeps s (s.modPort p PortLink.markJudged) :=
  Keeps.modPort s p _ PortLink.markJudged_lawful (fun _ => SendKept.of_eq rfl rfl rfl)

theorem Keeps.post (s : State) (p : Port) (n : Notice) : Keeps s (s.post p n) :=
  Keeps.modPort s p _ (PortLink.post_lawful n) (PortLink.post_sends n)

theorem Keeps.postEach (s : State) (ps : List Port) (n : Notice) : Keeps s (s.postEach ps n) := by
  unfold State.postEach
  induction ps generalizing s with
  | nil => exact Keeps.refl s
  | cons p ps ih => exact (Keeps.post s p n).trans (ih _)

theorem Keeps.postWatch (s : State) (w : Option Port) (n : Notice) : Keeps s (s.postWatch w n) := by
  cases w with
  | none => exact Keeps.refl s
  | some p => exact Keeps.post s p n

theorem Keeps.drawn (s : State) : Keeps s s.drawn := Keeps.of_eq rfl rfl rfl rfl rfl (Nat.le_refl _)

/-- Beginning a frame, or going on with one, leaves no more link error responses waiting. -/
theorem PortLink.waitingLinkErrors_sending {l m : PortLink} (ho : m.output = l.output) (hs : m.sending = true) :
    m.waitingLinkErrors ≤ l.waitingLinkErrors := by
  unfold PortLink.waitingLinkErrors PortLink.waitingOut
  rw [ho, hs]
  simp only [if_true]
  split
  · exact Nat.le_refl _
  · exact (List.Sublist.filter _ (List.tail_sublist _)).length_le

theorem PortLink.beginFrame_lawful (rate : LinkRate) (l : PortLink) (hl : l.Lawful) : (l.beginFrame rate).Lawful :=
  PortLink.lawful_of hl (Nat.le_refl _) rfl rfl rfl (PortLink.waitingLinkErrors_sending rfl rfl)

theorem PortLink.beginFrame_sends (rate : LinkRate) (l : PortLink) (h : l.output ≠ []) : SendKept l (l.beginFrame rate) :=
  ⟨fun _ _ => h, fun _ _ _ _ _ _ => List.nil_prefix⟩

theorem Keeps.askTransmission (s : State) (p : Port) : Keeps s (s.askTransmission p) := by
  unfold State.askTransmission
  split
  · exact Keeps.refl s
  · next h =>
    have ho : (s.port p).output ≠ [] := fun e => by simp [e] at h
    split
    · exact (Keeps.modPortAt s p _ (PortLink.beginFrame_lawful _ _) (PortLink.beginFrame_sends _ _ ho)).trans (Keeps.drawn _)
    · exact Keeps.drawn s

theorem Keeps.linkError (s : State) (p : Port) (r : Result) : Keeps s (s.linkError p r) := by
  unfold State.linkError
  refine Keeps.trans ?_ (Keeps.modPort _ p _ (PortLink.pushLinkError_lawful r) (PortLink.pushLinkError_sends r))
  split
  · exact Keeps.refl s
  · exact Keeps.askTransmission s p

theorem Keeps.onRequest (s : State) (t : ReqType) (p : Port) (owner : Frame → State → State)
    (h : ∀ f u, Keeps u (owner f u)) : Keeps s (s.onRequest t p owner) := by
  unfold State.onRequest
  split
  · exact Keeps.refl s
  · split
    · split
      · exact (Keeps.markJudged s p).trans (Keeps.answer _ _ _ _ _)
      · exact (Keeps.markJudged s p).trans (h _ _)
    · exact Keeps.refl s

/-! ### Windows, latches and guards -/

/-- A window is set whose latch is SHUT, or was OPEN before under the same guard. -/
theorem Keeps.setWindow (s : State) (w : Slot) (x : Option Window)
    (h : ∀ y, x = some y → y.latchOpen = true → s.guardReads y.fields.settings.guard = false) :
    Keeps s (s.setWindow w x) := by
  refine ⟨fun _ l => l, fun hl i y hy ho => ?_, memoryKept_of_eq rfl rfl, buffersKept_of_eq rfl, id,
    fun _ => SendKept.refl _⟩
  by_cases e : i = w
  · subst e; rw [State.window_setWindow_same] at hy; exact h y hy ho
  · rw [State.window_setWindow_ne _ _ e] at hy; exact hl i y hy ho

theorem Keeps.syncIdle (s : State) (w : Slot) (reload : Bool) : Keeps s (s.syncIdle w reload) := by
  unfold State.syncIdle
  split
  · exact Keeps.refl s
  · next x hx =>
    refine ⟨fun _ l => l, fun hl i y hy ho => ?_, memoryKept_of_eq rfl rfl, buffersKept_of_eq rfl, id,
      fun _ => SendKept.refl _⟩
    by_cases e : i = w
    · subst e
      rw [State.window_setWindow_same] at hy
      cases hy
      exact hl i x hx ho
    · rw [State.window_setWindow_ne _ _ e] at hy; exact hl i y hy ho

theorem Keeps.shutLatch (s : State) (w : Slot) (c : LatchCause) : Keeps s (s.shutLatch w c) := by
  unfold State.shutLatch
  split
  · exact Keeps.refl s
  · split
    · refine Keeps.trans (Keeps.setWindow s w _ ?_) (Keeps.postEach _ _ _)
      intro y hy ho; cases hy; simp at ho
    · exact Keeps.refl s

theorem Keeps.foldl {α : Type} (g : State → α → State) (h : ∀ u a, Keeps u (g u a)) (l : List α) (s : State) :
    Keeps s (l.foldl g s) := by
  induction l generalizing s with
  | nil => exact Keeps.refl s
  | cons a l ih => exact (h s a).trans (ih _)

end Sys2Proof.Machine
end

