-- ==== Sys2Proof/Laws/Shapes.lean ====
section
/-! SUPPORT. Which fields of the state the shared operations may write: a shape says that two states agree on every field it
does not name. -/

namespace Sys2Proof.Machine

/-- Only port links differ. -/
def LinkShape (s t : State) : Prop := ∃ ps, t = { s with ports := ps }

/-- Only port links, windows and guard inputs differ. -/
def WindowShape (s t : State) : Prop := ∃ ps ws gs, t = { s with ports := ps, windows := ws, guards := gs }

/-- Only what a decision of the sequencer and the ending of a job reach differs. -/
def ArrayShape (s t : State) : Prop :=
  ∃ ps ws bs js o q ao st cm m rs, t = { s with
    ports := ps, windows := ws, buffers := bs, jobs := js, offer := o, seq := q, arrayOp := ao, arrayStep := st,
    captureMark := cm, marker := m, reservations := rs }

/-- Only what the acceptance of a request and the resolution of a hold reach differs. -/
def RequestShape (s t : State) : Prop :=
  ∃ ps ws bs js o q ao st cm m rs hs nh nj, t = { s with
    ports := ps, windows := ws, buffers := bs, jobs := js, offer := o, seq := q, arrayOp := ao, arrayStep := st,
    captureMark := cm, marker := m, reservations := rs, holds := hs, nextHoldId := nh, nextJobId := nj }

theorem LinkShape.refl (s : State) : LinkShape s s := ⟨_, rfl⟩

theorem LinkShape.trans {s t u : State} (a : LinkShape s t) (b : LinkShape t u) : LinkShape s u := by
  obtain ⟨_, rfl⟩ := a
  obtain ⟨_, rfl⟩ := b
  exact ⟨_, rfl⟩

theorem WindowShape.refl (s : State) : WindowShape s s := ⟨_, _, _, rfl⟩

theorem WindowShape.trans {s t u : State} (a : WindowShape s t) (b : WindowShape t u) : WindowShape s u := by
  obtain ⟨_, _, _, rfl⟩ := a
  obtain ⟨_, _, _, rfl⟩ := b
  exact ⟨_, _, _, rfl⟩

theorem ArrayShape.refl (s : State) : ArrayShape s s := ⟨_, _, _, _, _, _, _, _, _, _, _, rfl⟩

theorem ArrayShape.trans {s t u : State} (a : ArrayShape s t) (b : ArrayShape t u) : ArrayShape s u := by
  obtain ⟨_, _, _, _, _, _, _, _, _, _, _, rfl⟩ := a
  obtain ⟨_, _, _, _, _, _, _, _, _, _, _, rfl⟩ := b
  exact ⟨_, _, _, _, _, _, _, _, _, _, _, rfl⟩

theorem RequestShape.refl (s : State) : RequestShape s s := ⟨_, _, _, _, _, _, _, _, _, _, _, _, _, _, rfl⟩

theorem RequestShape.trans {s t u : State} (a : RequestShape s t) (b : RequestShape t u) : RequestShape s u := by
  obtain ⟨_, _, _, _, _, _, _, _, _, _, _, _, _, _, rfl⟩ := a
  obtain ⟨_, _, _, _, _, _, _, _, _, _, _, _, _, _, rfl⟩ := b
  exact ⟨_, _, _, _, _, _, _, _, _, _, _, _, _, _, rfl⟩

theorem LinkShape.window {s t : State} (a : LinkShape s t) : WindowShape s t := by
  obtain ⟨_, rfl⟩ := a; exact ⟨_, _, _, rfl⟩

theorem LinkShape.array {s t : State} (a : LinkShape s t) : ArrayShape s t := by
  obtain ⟨_, rfl⟩ := a; exact ⟨_, _, _, _, _, _, _, _, _, _, _, rfl⟩

theorem ArrayShape.request {s t : State} (a : ArrayShape s t) : RequestShape s t := by
  obtain ⟨_, _, _, _, _, _, _, _, _, _, _, rfl⟩ := a; exact ⟨_, _, _, _, _, _, _, _, _, _, _, _, _, _, rfl⟩

theorem LinkShape.request {s t : State} (a : LinkShape s t) : RequestShape s t := a.array.request

/-! ### Links and windows -/

theorem LinkShape.modPort (s : State) (p : Port) (f : PortLink → PortLink) : LinkShape s (s.modPort p f) := ⟨_, rfl⟩

theorem LinkShape.answer (s : State) (p : Port) (f : Frame) (r : Result) (l : List Byte) :
    LinkShape s (s.answer p f r l) := ⟨_, rfl⟩

theorem LinkShape.post (s : State) (p : Port) (n : Notice) : LinkShape s (s.post p n) := ⟨_, rfl⟩

theorem LinkShape.postEach (s : State) (ps : List Port) (n : Notice) : LinkShape s (s.postEach ps n) := by
  unfold State.postEach
  induction ps generalizing s with
  | nil => exact LinkShape.refl s
  | cons p ps ih => exact (LinkShape.post s p n).trans (ih _)

theorem LinkShape.postWatch (s : State) (w : Option Port) (n : Notice) : LinkShape s (s.postWatch w n) := by
  cases w with
  | none => exact LinkShape.refl s
  | some p => exact LinkShape.post s p n

theorem LinkShape.windows_eq {s t : State} (a : LinkShape s t) : t.windows = s.windows := by obtain ⟨_, rfl⟩ := a; rfl
theorem LinkShape.guards_eq {s t : State} (a : LinkShape s t) : t.guards = s.guards := by obtain ⟨_, rfl⟩ := a; rfl
theorem LinkShape.window_eq {s t : State} (a : LinkShape s t) (w : Slot) : t.window w = s.window w := by
  obtain ⟨_, rfl⟩ := a; rfl
theorem LinkShape.guardReads_eq {s t : State} (a : LinkShape s t) (g : Option GuardInput) :
    t.guardReads g = s.guardReads g := by obtain ⟨_, rfl⟩ := a; rfl

/-- The idle timer of one window may differ. -/
theorem State.syncIdle_shape (s : State) (w : Slot) (reload : Bool) : ∃ ws, s.syncIdle w reload = { s with windows := ws } := by
  unfold State.syncIdle
  split
  · exact ⟨_, rfl⟩
  · exact ⟨_, rfl⟩

theorem ArrayShape.syncIdle (s : State) (w : Slot) (reload : Bool) : ArrayShape s (s.syncIdle w reload) := by
  obtain ⟨ws, h⟩ := s.syncIdle_shape w reload
  rw [h]; exact ⟨_, _, _, _, _, _, _, _, _, _, _, rfl⟩

theorem WindowShape.shutLatch (s : State) (w : Slot) (c : LatchCause) : WindowShape s (s.shutLatch w c) := by
  unfold State.shutLatch
  split
  · exact WindowShape.refl s
  · split
    · refine WindowShape.trans ?_ (LinkShape.postEach _ _ _).window
      exact ⟨_, _, _, rfl⟩
    · exact WindowShape.refl s

theorem WindowShape.foldl {α : Type} (g : State → α → State) (h : ∀ u a, WindowShape u (g u a)) (l : List α) (s : State) :
    WindowShape s (l.foldl g s) := by
  induction l generalizing s with
  | nil => exact WindowShape.refl s
  | cons a l ih => exact (h s a).trans (ih _)

theorem WindowShape.shutEvery (s : State) (c : LatchCause) : WindowShape s (allSlots.foldl (fun s w => s.shutLatch w c) s) :=
  WindowShape.foldl _ (fun u w => WindowShape.shutLatch u w c) _ s

theorem WindowShape.shutGuarded (s : State) (g : GuardInput) : WindowShape s (s.shutGuarded g) := by
  refine WindowShape.foldl _ (fun u w => ?_) _ s
  split
  · split
    · exact WindowShape.shutLatch u w .guard
    · exact WindowShape.refl u
  · exact WindowShape.refl u

theorem WindowShape.setInput (s : State) (g : GuardInput) (x : InputState) : WindowShape s (s.setInput g x) := by
  have a : WindowShape s (s.setGuardPin g { s.guardPin g with input := x }) := ⟨_, _, _, rfl⟩
  unfold State.setInput
  dsimp only
  split
  · exact a
  · refine a.trans ?_
    have b : ∀ u : State, WindowShape u (if u.phase = .ready then u.post u.adminPort (.guardChange g x.reads) else u) := by
      intro u
      split
      · exact (LinkShape.post _ _ _).window
      · exact WindowShape.refl u
    split
    · exact (b _).trans (WindowShape.shutGuarded _ g)
    · exact b _

/-! ### Jobs -/

theorem ArrayShape.releaseJobBuffer (s : State) (w : JobWork) : ArrayShape s (s.releaseJobBuffer w) := by
  unfold State.releaseJobBuffer
  split
  · exact ⟨_, _, _, _, _, _, _, _, _, _, _, rfl⟩
  · exact ArrayShape.refl s

theorem ArrayShape.syncJobWindow (s : State) (w : JobWork) : ArrayShape s (s.syncJobWindow w) := by
  unfold State.syncJobWindow
  split
  · exact ArrayShape.syncIdle s _ true
  · exact ArrayShape.refl s

theorem ArrayShape.formOffer (s : State) : ArrayShape s s.formOffer := ⟨_, _, _, _, _, _, _, _, _, _, _, rfl⟩

theorem ArrayShape.removeJob (s : State) (j : Job) : ArrayShape s (s.removeJob j) :=
  ⟨_, _, _, _, _, _, _, _, _, _, _, rfl⟩

theorem ArrayShape.dropReservation (s : State) (j : Job) : ArrayShape s (s.dropReservation j) :=
  ⟨_, _, _, _, _, _, _, _, _, _, _, rfl⟩

theorem LinkShape.notifyEnd (s : State) (j : Job) (st : EndStatus) (r : EndReason) (d : Nat) (notify : Bool) :
    LinkShape s (s.notifyEnd j st r d notify) := by
  unfold State.notifyEnd
  split
  · exact LinkShape.post _ _ _
  · exact LinkShape.refl s

theorem ArrayShape.endJob (s : State) (j : Job) (st : EndStatus) (r : EndReason) (d : Nat) (notify : Bool) :
    ArrayShape s (s.endJob j st r d notify) :=
  (((((ArrayShape.removeJob s j).trans (ArrayShape.releaseJobBuffer _ _)).trans (ArrayShape.dropReservation _ j)).trans
    (ArrayShape.syncJobWindow _ _)).trans (LinkShape.notifyEnd _ _ _ _ _ _).array).trans (ArrayShape.formOffer _)

theorem ArrayShape.modJob (s : State) (id : Byte) (f : Job → Job) : ArrayShape s (s.modJob id f) :=
  ⟨_, _, _, _, _, _, _, _, _, _, _, rfl⟩

theorem ArrayShape.beginStep (s : State) (j : Job) (st : ArrayStep) (m : Marker) : ArrayShape s (s.beginStep j st m) :=
  ⟨_, _, _, _, _, _, _, _, _, _, _, rfl⟩

theorem ArrayShape.startStep (s : State) (j : Job) : ArrayShape s (s.startStep j) := by
  unfold State.startStep
  split
  · exact ArrayShape.beginStep _ _ _ _
  · exact ArrayShape.beginStep _ _ _ _
  · exact ArrayShape.beginStep _ _ _ _
  · exact ⟨_, _, _, _, _, _, _, _, _, _, _, rfl⟩
  · exact ArrayShape.beginStep _ _ _ _

theorem ArrayShape.grantOffer (s : State) : ArrayShape s s.grantOffer := by
  unfold State.grantOffer
  split
  · exact ArrayShape.refl s
  · split
    · exact ArrayShape.formOffer s
    · split
      · exact ArrayShape.endJob _ _ _ _ _ _
      · exact ArrayShape.startStep _ _
  · split
    · exact ArrayShape.formOffer s
    · split
      · exact ArrayShape.endJob _ _ _ _ _ _
      · exact ArrayShape.startStep _ _

theorem ArrayShape.takeRead (s : State) (p : Port) : ArrayShape s (s.takeRead p) :=
  ⟨_, _, _, _, _, _, _, _, _, _, _, rfl⟩

theorem ArrayShape.beginRead (s : State) (p : Port) (r : ReadRecord) : ArrayShape s (s.beginRead p r) :=
  ⟨_, _, _, _, _, _, _, _, _, _, _, rfl⟩

theorem ArrayShape.grantRead (s : State) (p : Port) : ArrayShape s (s.grantRead p) := by
  unfold State.grantRead
  split
  · exact ArrayShape.refl s
  · split
    · exact (ArrayShape.takeRead s p).trans (LinkShape.answer _ _ _ _ _).array
    · exact (ArrayShape.takeRead s p).trans (ArrayShape.beginRead _ _ _)

theorem ArrayShape.resumeStep (s : State) : ArrayShape s s.resumeStep := ⟨_, _, _, _, _, _, _, _, _, _, _, rfl⟩

theorem ArrayShape.requestSuspend (s : State) : ArrayShape s s.requestSuspend := by
  unfold State.requestSuspend
  split
  · exact ⟨_, _, _, _, _, _, _, _, _, _, _, rfl⟩
  · exact ArrayShape.refl s

theorem ArrayShape.decideN (n : Nat) (s : State) : ArrayShape s (State.decideN n s) := by
  induction n generalizing s with
  | zero => exact ArrayShape.refl s
  | succ n ih =>
    unfold State.decideN
    split
    · split
      · exact (ArrayShape.grantRead s _).trans (ih _)
      · exact ArrayShape.resumeStep s
      · exact (ArrayShape.grantOffer s).trans (ih _)
      · exact ArrayShape.refl s
    · exact ArrayShape.refl s

theorem ArrayShape.arbitrate (s : State) : ArrayShape s s.arbitrate := ArrayShape.decideN _ s

/-! ### Requests and holds -/

theorem RequestShape.addJob (s : State) (p : Port) (w : JobWork) : RequestShape s (s.addJob p w) :=
  ⟨_, _, _, _, _, _, _, _, _, _, _, _, _, _, rfl⟩

theorem ArrayShape.addPending (s : State) (p : Port) (r : ReadRecord) : ArrayShape s (s.addPending p r) :=
  ⟨_, _, _, _, _, _, _, _, _, _, _, rfl⟩

theorem ArrayShape.reloadForRead (s : State) (w : Slot) (x : Window) : ArrayShape s (s.reloadForRead w x) := by
  unfold State.reloadForRead
  split
  · exact ArrayShape.syncIdle s w true
  · exact ArrayShape.refl s

theorem LinkShape.noteTrap (s : State) (note : Bool) (x : Window) (n : Notice) : LinkShape s (s.noteTrap note x n) := by
  unfold State.noteTrap
  split
  · exact LinkShape.postWatch _ _ _
  · exact LinkShape.refl s

theorem ArrayShape.considerReads (s : State) : ArrayShape s s.considerReads := by
  unfold State.considerReads
  split
  · exact ArrayShape.arbitrate s
  · exact ArrayShape.requestSuspend s

theorem ArrayShape.acceptRead (s : State) (p : Port) (tag : Byte) (a n : Nat) (w : Slot) (x : Window) (note : Bool) :
    ArrayShape s (s.acceptRead p tag a n w x note) :=
  (((ArrayShape.addPending s p _).trans (ArrayShape.reloadForRead _ _ _)).trans (LinkShape.noteTrap _ _ _ _).array).trans
    (ArrayShape.considerReads _)

theorem RequestShape.acceptRead (s : State) (p : Port) (tag : Byte) (a n : Nat) (w : Slot) (x : Window) (note : Bool) :
    RequestShape s (s.acceptRead p tag a n w x note) := (ArrayShape.acceptRead s p tag a n w x note).request

theorem RequestShape.addHold (s : State) (h : Hold) : RequestShape s (s.addHold h) :=
  ⟨_, _, _, _, _, _, _, _, _, _, _, _, _, _, rfl⟩

theorem RequestShape.park (s : State) (p : Port) (f : Frame) (w : Slot) (q : Port) (k : AccessKind) (a n : Nat) :
    RequestShape s (s.park p f w q k a n) :=
  ((RequestShape.addHold s _).trans (LinkShape.post _ _ _).request).trans (LinkShape.modPort _ _ _).request

theorem RequestShape.judgeRead (s : State) (p : Port) (f : Frame) : RequestShape s (s.judgeRead p f) := by
  unfold State.judgeRead
  dsimp only
  split
  · exact (LinkShape.answer _ _ _ _ _).request
  · split
    · exact (LinkShape.answer _ _ _ _ _).request
    · split
      · exact RequestShape.acceptRead _ _ _ _ _ _ _ _
      · exact RequestShape.acceptRead _ _ _ _ _ _ _ _
      · exact RequestShape.park _ _ _ _ _ _ _ _

theorem RequestShape.bindBuffer (s : State) (p : Port) (req : WriteReq) (id : Byte) :
    RequestShape s (s.bindBuffer p req id) := by
  unfold State.bindBuffer
  split
  · exact ⟨_, _, _, _, _, _, _, _, _, _, _, _, _, _, rfl⟩
  · exact RequestShape.refl s

theorem RequestShape.acceptWrite (s : State) (p : Port) (f : Frame) (w : Slot) (x : Window) (req : WriteReq)
    (note : Bool) : RequestShape s (s.acceptWrite p f w x req note) :=
  ((((((RequestShape.addJob s p (s.workOf w x req)).trans (RequestShape.bindBuffer _ p req s.newJobId)).trans
    (ArrayShape.syncIdle _ w true).request).trans (LinkShape.noteTrap _ _ _ _).request).trans
    (LinkShape.answer _ _ _ _ _).request).trans (ArrayShape.formOffer _).request).trans (ArrayShape.arbitrate _).request

theorem RequestShape.judgeWrite (s : State) (p : Port) (f : Frame) (req : WriteReq) :
    RequestShape s (s.judgeWrite p f req) := by
  unfold State.judgeWrite
  split
  · exact (LinkShape.answer _ _ _ _ _).request
  · split
    · exact RequestShape.acceptWrite _ _ _ _ _ _ _
    · exact RequestShape.acceptWrite _ _ _ _ _ _ _
    · exact RequestShape.park _ _ _ _ _ _ _ _

theorem RequestShape.recheck (s : State) (h : Hold) : RequestShape s (s.recheck h) := by
  unfold State.recheck
  split
  · dsimp only
    split
    · exact (LinkShape.answer _ _ _ _ _).request
    · split
      · exact (LinkShape.answer _ _ _ _ _).request
      · exact RequestShape.acceptRead _ _ _ _ _ _ _ _
  · split
    · exact (LinkShape.answer _ _ _ _ _).request
    · exact RequestShape.acceptWrite _ _ _ _ _ _ _

theorem RequestShape.resolveHold (s : State) (h : Hold) (v : Verdict) : RequestShape s (s.resolveHold h v) := by
  unfold State.resolveHold
  dsimp only
  have a : RequestShape s (s.removeHold h) := ⟨_, _, _, _, _, _, _, _, _, _, _, _, _, _, rfl⟩
  have b := a.trans (LinkShape.modPort (s.removeHold h) h.requester (PortLink.unhold h.request)).request
  split
  · exact b.trans (LinkShape.answer _ _ _ _ _).request
  · exact b.trans (RequestShape.recheck _ h)

theorem RequestShape.foldl {α : Type} (g : State → α → State) (h : ∀ u a, RequestShape u (g u a)) (l : List α)
    (s : State) : RequestShape s (l.foldl g s) := by
  induction l generalizing s with
  | nil => exact RequestShape.refl s
  | cons a l ih => exact (h s a).trans (ih _)

/-- A request that its owner may carry out within the shape. -/
theorem RequestShape.onRequest (s : State) (t : ReqType) (p : Port) (owner : Frame → State → State)
    (h : ∀ f u, RequestShape u (owner f u)) : RequestShape s (s.onRequest t p owner) := by
  unfold State.onRequest
  split
  · exact RequestShape.refl s
  · split
    · split
      · exact ((LinkShape.modPort s p _).trans (LinkShape.answer _ _ _ _ _)).request
      · exact (LinkShape.modPort s p _).request.trans (h _ _)
    · exact RequestShape.refl s

end Sys2Proof.Machine
end

