-- ==== Sys2Proof/Laws/Latches.lean ====
section
/-! SUPPORT. What windows look like after latches are shut, one by one, by guard, or all (R64, R67, R77). -/

namespace Sys2Proof.Machine

theorem mem_allSlots (w : Slot) : w ∈ allSlots := by revert w; decide

theorem mem_allBuffers (b : BufferNo) : b ∈ allBuffers := by revert b; decide

theorem mem_portAll (p : Port) : p ∈ Port.all := by cases p <;> decide

/-- A window whose latch has been shut (R64). -/
def Window.shut (x : Window) : Window := if x.latchOpen then { x with latchOpen := false, idle := .stopped } else x

theorem Window.shut_shut (x : Window) : x.shut.shut = x.shut := by
  unfold Window.shut
  split <;> simp_all

theorem Window.shut_latch (x : Window) : x.shut.latchOpen = false := by
  unfold Window.shut
  split <;> simp_all

theorem Window.shut_fields (x : Window) : x.shut.fields = x.fields := by
  unfold Window.shut
  split <;> rfl

theorem State.window_shutLatch (s : State) (w v : Slot) (c : LatchCause) :
    (s.shutLatch w c).window v = if v = w then (s.window v).map Window.shut else s.window v := by
  unfold State.shutLatch
  cases hw : s.window w with
  | none =>
    by_cases e : v = w
    · subst e; simp [hw]
    · simp [e]
  | some x =>
    by_cases ho : x.latchOpen = true
    · simp only [ho, if_true]
      rw [(LinkShape.postEach _ _ _).window_eq]
      by_cases e : v = w
      · subst e; simp [hw, Window.shut, ho]
      · simp [e, State.window_setWindow_ne]
    · simp only [ho]
      by_cases e : v = w
      · subst e; simp [hw, Window.shut, ho]
      · simp [e]

/-- A fold that does one thing to each slot of a list. -/
theorem State.window_foldl (g : State → Slot → State) (f : Window → Window) (hf : ∀ x, f (f x) = f x)
    (h : ∀ (u : State) (w v : Slot), (g u w).window v = if v = w then (u.window v).map f else u.window v)
    (l : List Slot) (s : State) (v : Slot) :
    (l.foldl g s).window v = if v ∈ l then (s.window v).map f else s.window v := by
  induction l generalizing s with
  | nil => simp
  | cons w l ih =>
    rw [List.foldl_cons, ih, h]
    by_cases e : v = w
    · subst e
      by_cases m : v ∈ l
      · simp only [m, if_true, List.mem_cons, true_or, Option.map_map]
        congr 1
        funext x
        exact hf x
      · simp [m]
    · simp [e]

theorem State.window_shutAll (s : State) (c : LatchCause) (v : Slot) :
    (allSlots.foldl (fun s w => s.shutLatch w c) s).window v = (s.window v).map Window.shut := by
  rw [State.window_foldl _ Window.shut Window.shut_shut (fun u w v => u.window_shutLatch w v c)]
  simp [mem_allSlots]

/-- A window after the activation of a guard input (R77). -/
def Window.guarded (g : GuardInput) (x : Window) : Window := if x.fields.settings.guard = some g then x.shut else x

theorem Window.guarded_guarded (g : GuardInput) (x : Window) : (x.guarded g).guarded g = x.guarded g := by
  unfold Window.guarded
  split
  · next h => rw [if_pos (by rw [Window.shut_fields]; exact h), Window.shut_shut]
  · rfl

theorem State.window_shutGuarded (s : State) (g : GuardInput) (v : Slot) :
    (s.shutGuarded g).window v = (s.window v).map (Window.guarded g) := by
  unfold State.shutGuarded
  rw [State.window_foldl _ (Window.guarded g) (Window.guarded_guarded g)]
  · simp [mem_allSlots]
  · intro u w v
    cases hw : u.window w with
    | none =>
      by_cases e : v = w
      · subst e; simp [hw]
      · simp [e]
    | some x =>
      by_cases hg : x.fields.settings.guard = some g
      · simp only [hg, if_true, State.window_shutLatch]
        by_cases e : v = w
        · subst e; simp [hw, Window.guarded, hg]
        · simp [e]
      · simp only [hg, if_false]
        by_cases e : v = w
        · subst e; simp [hw, Window.guarded, hg]
        · simp [e]

theorem WindowShape.ports_only {s t : State} (a : WindowShape s t) :
    t.mem = s.mem ∧ t.buffers = s.buffers ∧ t.jobs = s.jobs ∧ t.seq = s.seq ∧ t.offer = s.offer ∧ t.arrayOp = s.arrayOp ∧
      t.holds = s.holds ∧ t.phase = s.phase ∧ t.header = s.header ∧ t.pending = s.pending := by
  obtain ⟨_, _, _, rfl⟩ := a
  exact ⟨rfl, rfl, rfl, rfl, rfl, rfl, rfl, rfl, rfl, rfl⟩

/-- Latches being shut leaves the guards alone. -/
theorem State.guards_shutLatch (s : State) (w : Slot) (c : LatchCause) : (s.shutLatch w c).guards = s.guards := by
  unfold State.shutLatch
  split
  · rfl
  · split
    · rw [(LinkShape.postEach _ _ _).guards_eq]; rfl
    · rfl

theorem State.guards_shutGuarded (s : State) (g : GuardInput) : (s.shutGuarded g).guards = s.guards := by
  unfold State.shutGuarded
  generalize allSlots = l
  induction l generalizing s with
  | nil => rfl
  | cons w l ih =>
    rw [List.foldl_cons, ih]
    split
    · split
      · exact State.guards_shutLatch s w .guard
      · rfl
    · rfl

end Sys2Proof.Machine
end

