-- ==== Sys2Proof/Laws/KeepsOps.lean ====
section
/-! SUPPORT. The laws of `Keeps`, kept by the operations of guards, jobs, the sequencer, requests and holds. -/

namespace Sys2Proof.Machine

/-! ### Guards -/

theorem Keeps.setInput (s : State) (g : GuardInput) (x : InputState) : Keeps s (s.setInput g x) := by
  have pin : ∀ k, k ≠ g → (s.setGuardPin g { s.guardPin g with input := x }).guardPin k = s.guardPin k :=
    fun k hk => State.guardPin_setGuardPin_ne _ _ hk
  have posted : ∀ u : State, LinkShape u (if u.phase = .ready then u.post u.adminPort (.guardChange g x.reads) else u) := by
    intro u
    split
    · exact LinkShape.post _ _ _
    · exact LinkShape.refl u
  have keptPosted : ∀ u : State, Keeps u (if u.phase = .ready then u.post u.adminPort (.guardChange g x.reads) else u) := by
    intro u
    split
    · exact Keeps.post _ _ _
    · exact Keeps.refl u
  have keptShut : ∀ u : State, Keeps u (u.shutGuarded g) := fun u => Keeps.foldl _ (fun u w => by
    split
    · split
      · exact Keeps.shutLatch u w .guard
      · exact Keeps.refl u
    · exact Keeps.refl u) allSlots u
  have shape := (WindowShape.setInput s g x).ports_only
  refine ⟨?_, ?_, memoryKept_of_eq shape.1 shape.2.1, buffersKept_of_eq shape.2.1, fun h => by
    unfold State.JobsBounded; rw [shape.2.2.1]; exact h, ?_⟩
  · intro p h
    unfold State.setInput
    dsimp only
    split
    · exact h
    · have h2 := (keptPosted (s.setGuardPin g { s.guardPin g with input := x })).links p h
      split
      · exact (keptShut _).links p h2
      · exact h2
  · intro h
    unfold State.setInput
    dsimp only
    split
    · next hr =>
      refine latchesKept_of (s := s) (fun k => ?_) (fun w y hy ho => ⟨y, hy, ho, rfl⟩) h
      by_cases e : k = g
      · subst e; rw [State.guardPin_setGuardPin_same]; exact hr
      · rw [pin k e]
    · split
      · next hx =>
        intro w y hy ho
        rw [State.window_shutGuarded, (posted _).window_eq] at hy
        obtain ⟨z, hz, rfl⟩ := Option.map_eq_some_iff.1 hy
        by_cases hg : z.fields.settings.guard = some g
        · simp [Window.guarded, hg, Window.shut_latch] at ho
        · simp only [Window.guarded, hg, if_false] at ho ⊢
          have := h w z hz ho
          cases hgz : z.fields.settings.guard with
          | none => rfl
          | some k =>
            have hk : k ≠ g := fun e => hg (by rw [hgz, e])
            simp only [hgz, State.guardReads] at this ⊢
            rw [← this]
            show (PerGuard.get (State.shutGuarded _ g).guards k).input.reads = _
            rw [State.guards_shutGuarded, (posted _).guards_eq]
            exact congrArg (fun p => p.input.reads) (pin k hk)
      · next hx =>
        intro w y hy ho
        rw [(posted _).window_eq] at hy
        rw [(posted _).guardReads_eq]
        have := h w y hy ho
        cases hgz : y.fields.settings.guard with
        | none => rfl
        | some k =>
          simp only [hgz, State.guardReads] at this ⊢
          by_cases e : k = g
          · subst e; rw [State.guardPin_setGuardPin_same]; simpa using hx
          · rw [pin k e]; exact this
  · intro p
    unfold State.setInput
    dsimp only
    split
    · exact SendKept.refl _
    · have h2 := (keptPosted (s.setGuardPin g { s.guardPin g with input := x })).sends p
      split
      · exact h2.trans ((keptShut _).sends p)
      · exact h2

/-! ### Buffers and jobs -/

/-- A buffer is set with canonical data and the owner it had, or none. -/
theorem Keeps.setBuffer (s : State) (b : BufferNo) (x : Buffer)
    (hd : (s.buffer b).data.wf = true → x.data.wf = true)
    (ho : x.state.owner? = (s.buffer b).state.owner? ∨ x.state.owner? = none) : Keeps s (s.setBuffer b x) := by
  refine ⟨fun _ h => h, latchesKept_of_eq rfl rfl, fun h => ⟨h.1, fun c => ?_⟩, buffersKept_of (fun c => ?_), id,
    fun _ => SendKept.refl _⟩
  · by_cases e : c = b
    · subst e; rw [State.buffer_setBuffer_same]; exact hd (h.2 c)
    · rw [State.buffer_setBuffer_ne _ _ e]; exact h.2 c
  · by_cases e : c = b
    · subst e; rw [State.buffer_setBuffer_same]; exact ho
    · rw [State.buffer_setBuffer_ne _ _ e]; exact Or.inl rfl

theorem Keeps.freeBuffer (s : State) (b : BufferNo) : Keeps s (s.freeBuffer b) :=
  Keeps.setBuffer s b _ id (Or.inr rfl)

theorem Keeps.releaseJobBuffer (s : State) (w : JobWork) : Keeps s (s.releaseJobBuffer w) := by
  unfold State.releaseJobBuffer
  split
  · exact Keeps.freeBuffer _ _
  · exact Keeps.refl s

theorem Keeps.syncJobWindow (s : State) (w : JobWork) : Keeps s (s.syncJobWindow w) := by
  unfold State.syncJobWindow
  split
  · exact Keeps.syncIdle _ _ _
  · exact Keeps.refl s

theorem Keeps.formOffer (s : State) : Keeps s s.formOffer := Keeps.of_eq rfl rfl rfl rfl rfl (Nat.le_refl _)

theorem Keeps.removeJob (s : State) (j : Job) : Keeps s (s.removeJob j) :=
  Keeps.of_eq rfl rfl rfl rfl rfl (List.length_filter_le _ _)

theorem Keeps.dropReservation (s : State) (j : Job) : Keeps s (s.dropReservation j) :=
  Keeps.of_eq rfl rfl rfl rfl rfl (Nat.le_refl _)

theorem Keeps.notifyEnd (s : State) (j : Job) (st : EndStatus) (r : EndReason) (d : Nat) (notify : Bool) :
    Keeps s (s.notifyEnd j st r d notify) := by
  unfold State.notifyEnd
  split
  · exact Keeps.post _ _ _
  · exact Keeps.refl s

theorem Keeps.endJob (s : State) (j : Job) (st : EndStatus) (r : EndReason) (d : Nat) (notify : Bool) :
    Keeps s (s.endJob j st r d notify) :=
  (((((Keeps.removeJob s j).trans (Keeps.releaseJobBuffer _ _)).trans (Keeps.dropReservation _ j)).trans
    (Keeps.syncJobWindow _ _)).trans (Keeps.notifyEnd _ _ _ _ _ _)).trans (Keeps.formOffer _)

theorem Keeps.modJob (s : State) (id : Byte) (f : Job → Job) : Keeps s (s.modJob id f) :=
  Keeps.of_eq rfl rfl rfl rfl rfl (by simp [State.modJob])

/-! ### The sequencer -/

theorem Keeps.beginStep (s : State) (j : Job) (st : ArrayStep) (m : Marker) : Keeps s (s.beginStep j st m) :=
  Keeps.of_eq rfl rfl rfl rfl rfl (by simp [State.beginStep, State.formOffer, State.modJob])

theorem Keeps.startStep (s : State) (j : Job) : Keeps s (s.startStep j) := by
  unfold State.startStep
  split
  · exact Keeps.beginStep _ _ _ _
  · exact Keeps.beginStep _ _ _ _
  · exact Keeps.beginStep _ _ _ _
  · refine Keeps.trans ?_ (Keeps.beginStep _ _ _ _)
    exact Keeps.of_eq rfl rfl rfl rfl rfl (Nat.le_refl _)
  · exact Keeps.beginStep _ _ _ _

theorem Keeps.grantOffer (s : State) : Keeps s s.grantOffer := by
  unfold State.grantOffer
  split
  · exact Keeps.refl s
  · split
    · exact Keeps.formOffer s
    · split
      · exact Keeps.endJob _ _ _ _ _ _
      · exact Keeps.startStep _ _
  · split
    · exact Keeps.formOffer s
    · split
      · exact Keeps.endJob _ _ _ _ _ _
      · exact Keeps.startStep _ _

/-- The sequencer's own record bears on none of the laws. -/
theorem Keeps.seq (s : State) (q : Sequencer) : Keeps s { s with seq := q } :=
  Keeps.of_eq rfl rfl rfl rfl rfl (Nat.le_refl _)

theorem Keeps.grantRead (s : State) (p : Port) : Keeps s (s.grantRead p) := by
  unfold State.grantRead
  split
  · exact Keeps.refl s
  · split
    · exact Keeps.trans (t := s.takeRead p) (Keeps.seq s _) (Keeps.answer _ _ _ _ _)
    · exact Keeps.trans (t := s.takeRead p) (Keeps.seq s _) (Keeps.seq _ _)

theorem Keeps.resumeStep (s : State) : Keeps s s.resumeStep :=
  Keeps.of_eq rfl rfl rfl rfl rfl (by simp [State.resumeStep, State.formOffer])

theorem Keeps.requestSuspend (s : State) : Keeps s s.requestSuspend := by
  unfold State.requestSuspend
  split
  · exact Keeps.of_eq rfl rfl rfl rfl rfl (Nat.le_refl _)
  · exact Keeps.refl s

theorem Keeps.decideN (n : Nat) (s : State) : Keeps s (State.decideN n s) := by
  induction n generalizing s with
  | zero => exact Keeps.refl s
  | succ n ih =>
    unfold State.decideN
    split
    · split
      · exact (Keeps.grantRead s _).trans (ih _)
      · exact Keeps.resumeStep s
      · exact (Keeps.grantOffer s).trans (ih _)
      · exact Keeps.refl s
    · exact Keeps.refl s

theorem Keeps.arbitrate (s : State) : Keeps s s.arbitrate := Keeps.decideN _ s

/-! ### Reads -/

theorem Keeps.noteTrap (s : State) (note : Bool) (x : Window) (n : Notice) : Keeps s (s.noteTrap note x n) := by
  unfold State.noteTrap
  split
  · exact Keeps.postWatch _ _ _
  · exact Keeps.refl s

theorem Keeps.reloadForRead (s : State) (w : Slot) (x : Window) : Keeps s (s.reloadForRead w x) := by
  unfold State.reloadForRead
  split
  · exact Keeps.syncIdle _ _ _
  · exact Keeps.refl s

theorem Keeps.considerReads (s : State) : Keeps s s.considerReads := by
  unfold State.considerReads
  split
  · exact Keeps.arbitrate s
  · exact Keeps.requestSuspend s

theorem Keeps.acceptRead (s : State) (p : Port) (tag : Byte) (a n : Nat) (w : Slot) (x : Window) (note : Bool) :
    Keeps s (s.acceptRead p tag a n w x note) :=
  (((Keeps.seq s _).trans (Keeps.reloadForRead (s.addPending p _) _ _)).trans (Keeps.noteTrap _ _ _ _)).trans
    (Keeps.considerReads _)

theorem Keeps.park (s : State) (p : Port) (f : Frame) (w : Slot) (q : Port) (k : AccessKind) (a n : Nat) :
    Keeps s (s.park p f w q k a n) := by
  have a1 : Keeps s (s.addHold (s.newHold p f w q k)) := Keeps.of_eq rfl rfl rfl rfl rfl (Nat.le_refl _)
  exact (a1.trans (Keeps.post _ _ _)).trans (Keeps.modPort _ p PortLink.hold
    (fun l hl => PortLink.lawful_of hl (Nat.le_refl _) rfl rfl rfl (Nat.le_refl _)) (fun _ => SendKept.of_eq rfl rfl rfl))

theorem Keeps.judgeRead (s : State) (p : Port) (f : Frame) : Keeps s (s.judgeRead p f) := by
  unfold State.judgeRead
  dsimp only
  split
  · exact Keeps.answer _ _ _ _ _
  · split
    · exact Keeps.answer _ _ _ _ _
    · split
      · exact Keeps.acceptRead _ _ _ _ _ _ _ _
      · exact Keeps.acceptRead _ _ _ _ _ _ _ _
      · exact Keeps.park _ _ _ _ _ _ _ _

/-! ### Write-side requests -/

/-- What acceptance has checked. -/
theorem State.acceptCheck_ok {s : State} {p : Port} {req : WriteReq} {w : Slot} {x : Window}
    (h : s.acceptCheck p req = .ok (w, x)) : s.window w = some x ∧ s.writeChecks p x req = none := by
  unfold State.acceptCheck at h
  split at h
  · simp at h
  · split at h
    · simp at h
    · next hw =>
      split at h
      · simp at h
      · next hc =>
        simp only [Except.ok.injEq, Prod.mk.injEq] at h
        obtain ⟨rfl, rfl⟩ := h
        exact ⟨hw, hc⟩

theorem State.writeChecks_none {s : State} {p : Port} {x : Window} {req : WriteReq} (h : s.writeChecks p x req = none) :
    s.targetFrozen x req = false ∧ s.guardReads x.fields.settings.guard = false ∧ x.latchOpen = true ∧
      s.bufferCheck p req = none ∧ s.jobs.length < 16 := by
  unfold State.writeChecks at h
  split at h
  · simp at h
  · next h1 =>
    split at h
    · simp at h
    · next h2 =>
      split at h
      · simp at h
      · next h3 =>
        split at h
        · simp at h
        · split at h
          · simp at h
          · split at h
            · simp at h
            · next h6 =>
              split at h
              · simp at h
              · next h7 =>
                simp only [Config.jobMax] at h7
                exact ⟨by simpa using h1, by simpa using h2, by simpa using h3, h6, by omega⟩

theorem State.bufferCheck_none {s : State} {p : Port} {a : Nat} {b : BufferNo}
    (h : s.bufferCheck p (.program a b) = none) : s.fillingFor b p = true := by
  unfold State.bufferCheck at h
  dsimp only at h
  split at h
  · simp at h
  · next h1 => simpa using h1

/-- A job more, when there is room. -/
theorem Keeps.addJob (s : State) (p : Port) (w : JobWork) (h : s.jobs.length < 16) : Keeps s (s.addJob p w) :=
  ⟨fun _ l => l, latchesKept_of_eq rfl rfl, memoryKept_of_eq rfl rfl, buffersKept_of_eq rfl, fun _ => by
    simp only [State.JobsBounded, State.addJob, List.length_append, List.length_singleton]; omega,
   fun _ => SendKept.refl _⟩

theorem Keeps.bindBuffer (s : State) (p : Port) (req : WriteReq) (id : Byte)
    (h : ∀ a b, req = .program a b → s.fillingFor b p = true) : Keeps s (s.bindBuffer p req id) := by
  unfold State.bindBuffer
  split
  · next a b =>
    refine Keeps.setBuffer s b _ (fun h => h) (Or.inl ?_)
    have hf := h a b rfl
    unfold State.fillingFor at hf
    split at hf
    · next o e l hs => rw [hs]; simp [BufferState.owner?] at hf ⊢; exact hf.symm
    · simp at hf
  · exact Keeps.refl s

theorem Keeps.acceptWrite (s : State) (p : Port) (f : Frame) (w : Slot) (x : Window) (req : WriteReq) (note : Bool)
    (h : s.writeChecks p x req = none) : Keeps s (s.acceptWrite p f w x req note) := by
  have c := State.writeChecks_none h
  have b : Keeps (s.addJob p (s.workOf w x req)) ((s.addJob p (s.workOf w x req)).bindBuffer p req s.newJobId) :=
    Keeps.bindBuffer _ _ _ _ (fun a b e => by subst e; exact State.bufferCheck_none c.2.2.2.1)
  exact ((((((Keeps.addJob s p _ c.2.2.2.2).trans b).trans (Keeps.syncIdle _ w true)).trans
    (Keeps.noteTrap _ _ _ _)).trans (Keeps.answer _ _ _ _ _)).trans (Keeps.formOffer _)).trans (Keeps.arbitrate _)

theorem Keeps.judgeWrite (s : State) (p : Port) (f : Frame) (req : WriteReq) : Keeps s (s.judgeWrite p f req) := by
  unfold State.judgeWrite
  split
  · exact Keeps.answer _ _ _ _ _
  · next h =>
    have c := (State.acceptCheck_ok h).2
    split
    · exact Keeps.acceptWrite _ _ _ _ _ _ _ c
    · exact Keeps.acceptWrite _ _ _ _ _ _ _ c
    · exact Keeps.park _ _ _ _ _ _ _ _

/-! ### Holds -/

theorem Keeps.recheck (s : State) (h : Hold) : Keeps s (s.recheck h) := by
  unfold State.recheck
  split
  · dsimp only
    split
    · exact Keeps.answer _ _ _ _ _
    · split
      · exact Keeps.answer _ _ _ _ _
      · exact Keeps.acceptRead _ _ _ _ _ _ _ _
  · split
    · exact Keeps.answer _ _ _ _ _
    · next hc => exact Keeps.acceptWrite _ _ _ _ _ _ _ (State.acceptCheck_ok hc).2

theorem Keeps.resolveHold (s : State) (h : Hold) (v : Verdict) : Keeps s (s.resolveHold h v) := by
  unfold State.resolveHold
  dsimp only
  have a : Keeps s (s.removeHold h) := Keeps.of_eq rfl rfl rfl rfl rfl (Nat.le_refl _)
  have b := a.trans (Keeps.modPort (s.removeHold h) h.requester (PortLink.unhold h.request)
    (fun l hl => PortLink.lawful_of hl (Nat.le_refl _) rfl rfl rfl (Nat.le_refl _)) (fun _ => SendKept.of_eq rfl rfl rfl))
  split
  · exact b.trans (Keeps.answer _ _ _ _ _)
  · exact b.trans (Keeps.recheck _ h)

end Sys2Proof.Machine
end

