-- ==== Sys2Proof/Laws/KeepsEvents.lean ====
section
/-! SUPPORT. The five laws of `Keeps`, kept by the events of the commands and by the passing of time. -/

namespace Sys2Proof.Machine

/-! ### Staging buffers -/

/-- One buffer set: the count of a port's buffers rises by one at most. -/
theorem State.buffersOwned_setBuffer (s : State) (b : BufferNo) (x : Buffer) (p : Port) :
    (s.setBuffer b x).buffersOwned p ≤ s.buffersOwned p + 1 := by
  have side : ∀ c, ((s.setBuffer b x).buffer c).state.owner? == some p → c ≠ b →
      (s.buffer c).state.owner? == some p := by
    intro c h e
    rwa [State.buffer_setBuffer_ne _ _ e] at h
  unfold State.buffersOwned
  simp only [← List.countP_eq_length_filter]
  have key : ∀ l : List BufferNo, l.Nodup →
      l.countP (fun c => ((s.setBuffer b x).buffer c).state.owner? == some p) ≤
        l.countP (fun c => (s.buffer c).state.owner? == some p) + (if b ∈ l then 1 else 0) := by
    intro l
    induction l with
    | nil => intro _; simp
    | cons c l ih =>
      intro nd
      rw [List.nodup_cons] at nd
      have i := ih nd.2
      by_cases e : c = b
      · subst e
        simp only [nd.1, if_false, List.mem_cons, true_or, if_true, List.countP_cons] at i ⊢
        split <;> split <;> omega
      · have m : (b ∈ c :: l) ↔ b ∈ l := by simp [Ne.symm e]
        simp only [m, List.countP_cons] at i ⊢
        have := side c
        split <;> split <;> simp_all <;> omega
  have := key allBuffers (by decide)
  simpa [mem_allBuffers] using this

theorem State.buffersOwned_setBuffer_ne (s : State) (b : BufferNo) (x : Buffer) (p : Port)
    (h : x.state.owner? ≠ some p) : (s.setBuffer b x).buffersOwned p ≤ s.buffersOwned p := by
  unfold State.buffersOwned
  simp only [← List.countP_eq_length_filter]
  refine List.countP_mono_left (fun c _ hc => ?_)
  by_cases e : c = b
  · subst e; rw [State.buffer_setBuffer_same] at hc; simp at hc; exact absurd hc h
  · rwa [State.buffer_setBuffer_ne _ _ e] at hc

theorem Keeps.claim (s : State) (p : Port) (f : Frame) : Keeps s (s.claim p f) := by
  unfold State.claim
  split
  · exact Keeps.answer _ _ _ _ _
  · next hn =>
    split
    · exact Keeps.answer _ _ _ _ _
    · next b _ =>
      refine Keeps.trans (t := s.setBuffer b { state := .filling p 0 s.leaseTime, data := [] })
        ⟨fun _ h => h, latchesKept_of_eq rfl rfl, fun h => ⟨h.1, fun c => ?_⟩, fun h q => ?_, id,
          fun _ => SendKept.refl _⟩ (Keeps.answer _ _ _ _ _)
      · by_cases e : c = b
        · subst e; rw [State.buffer_setBuffer_same]; rfl
        · rw [State.buffer_setBuffer_ne _ _ e]; exact h.2 c
      · by_cases e : q = p
        · subst e
          have := s.buffersOwned_setBuffer b { state := .filling q 0 s.leaseTime, data := [] } q
          simp only [Config.buffersPerPort] at hn
          omega
        · exact Nat.le_trans (s.buffersOwned_setBuffer_ne b _ q (by simp [BufferState.owner?]; exact fun h => e h.symm)) (h q)

/-- A buffer that is FILLING for a port has it as owner. -/
theorem State.owner_of_filling {s : State} {b : BufferNo} {p : Port} (h : s.fillingFor b p = true) :
    (s.buffer b).state.owner? = some p := by
  unfold State.fillingFor at h
  split at h
  · next o e l hs => rw [hs]; simp [BufferState.owner?] at h ⊢; exact h
  · simp at h

theorem Keeps.fill (s : State) (p : Port) (f : Frame) : Keeps s (s.fill p f) := by
  unfold State.fill
  dsimp only
  split
  · exact Keeps.answer _ _ _ _ _
  · next hf =>
    split
    · exact Keeps.answer _ _ _ _ _
    · refine Keeps.trans (Keeps.setBuffer s _ _ (fun h => Memory.writeRange_wf h _ _) (Or.inl ?_))
        (Keeps.answer _ _ _ _ _)
      rw [State.owner_of_filling (by simpa using hf)]
      rfl

theorem Keeps.releaseBuffer (s : State) (p : Port) (f : Frame) : Keeps s (s.releaseBuffer p f) := by
  unfold State.releaseBuffer
  dsimp only
  split
  · exact Keeps.answer _ _ _ _ _
  · split
    · exact (Keeps.freeBuffer _ _).trans (Keeps.answer _ _ _ _ _)
    · exact Keeps.answer _ _ _ _ _
  · exact Keeps.answer _ _ _ _ _

theorem Keeps.expireLease (s : State) (b : BufferNo) : Keeps s (s.expireLease b) := by
  unfold State.expireLease
  split
  · exact (Keeps.freeBuffer _ _).trans (Keeps.post _ _ _)
  · exact Keeps.refl s

/-! ### Jobs -/

theorem Keeps.cancel (s : State) (p : Port) (f : Frame) : Keeps s (s.cancel p f) := by
  unfold State.cancel
  split
  · exact Keeps.answer _ _ _ _ _
  · split
    · exact Keeps.answer _ _ _ _ _
    · split
      · exact ((Keeps.endJob _ _ _ _ _ _).trans (Keeps.answer _ _ _ _ _)).trans (Keeps.arbitrate _)
      · split
        · exact (Keeps.modJob _ _ _).trans (Keeps.answer _ _ _ _ _)
        · exact Keeps.answer _ _ _ _ _

theorem Keeps.queryJob (s : State) (p : Port) (f : Frame) : Keeps s (s.queryJob p f) := by
  unfold State.queryJob
  split <;> exact Keeps.answer _ _ _ _ _

theorem State.saveCheck_none {s : State} {p : Port} (h : s.saveCheck p = none) : s.jobs.length < 16 := by
  unfold State.saveCheck at h
  split at h
  · simp at h
  · split at h
    · simp at h
    · split at h
      · simp at h
      · next h3 => simp only [Config.jobMax] at h3; omega

theorem Keeps.saveTable (s : State) (p : Port) (f : Frame) : Keeps s (s.saveTable p f) := by
  unfold State.saveTable
  split
  · exact Keeps.answer _ _ _ _ _
  · next h =>
    exact (((Keeps.addJob s p _ (State.saveCheck_none h)).trans (Keeps.answer _ _ _ _ _)).trans
      (Keeps.formOffer _)).trans (Keeps.arbitrate _)

theorem State.freezeCheck_none {s : State} {r : Range} (h : s.freezeCheck r = none) : s.jobs.length < 16 := by
  unfold State.freezeCheck at h
  split at h
  · simp at h
  · split at h
    · simp at h
    · split at h
      · simp at h
      · split at h
        · simp at h
        · next h4 => simp only [Config.jobMax] at h4; omega

theorem Keeps.acceptFreeze (s : State) (p : Port) (w : Slot) (r : Range) (h : s.jobs.length < 16) :
    Keeps s (s.acceptFreeze p w r) := by
  unfold State.acceptFreeze
  refine (Keeps.addJob s p (.freezeWindow w r) h).trans (Keeps.trans ?_ (Keeps.syncIdle _ _ _))
  exact Keeps.of_eq rfl rfl rfl rfl rfl (Nat.le_refl _)

theorem Keeps.freeze (s : State) (p : Port) (f : Frame) : Keeps s (s.freeze p f) := by
  unfold State.freeze
  dsimp only
  split
  · exact Keeps.answer _ _ _ _ _
  · split
    · exact Keeps.answer _ _ _ _ _
    · split
      · exact Keeps.answer _ _ _ _ _
      · next h =>
        exact (((Keeps.acceptFreeze s p _ _ (State.freezeCheck_none h)).trans (Keeps.answer _ _ _ _ _)).trans
          (Keeps.formOffer _)).trans (Keeps.arbitrate _)

/-! ### Latches and holds -/

theorem Keeps.setOpen (s : State) (w : Slot) (x : Window) (h : s.guardReads x.fields.settings.guard = false) :
    Keeps s (s.setOpen w x) := by
  unfold State.setOpen
  refine Keeps.trans (Keeps.setWindow s w _ ?_) (Keeps.syncIdle _ _ _)
  intro y hy _
  cases hy
  exact h

theorem Keeps.openLatch (s : State) (p : Port) (f : Frame) : Keeps s (s.openLatch p f) := by
  unfold State.openLatch
  dsimp only
  split
  · exact Keeps.answer _ _ _ _ _
  · split
    · exact Keeps.answer _ _ _ _ _
    · split
      · exact Keeps.answer _ _ _ _ _
      · next h => exact (Keeps.setOpen s _ _ (by simpa using h)).trans (Keeps.answer _ _ _ _ _)

theorem Keeps.shutOnRequest (s : State) (p : Port) (f : Frame) : Keeps s (s.shutOnRequest p f) := by
  unfold State.shutOnRequest
  dsimp only
  split
  · exact Keeps.answer _ _ _ _ _
  · split
    · exact (Keeps.shutLatch _ _ _).trans (Keeps.answer _ _ _ _ _)
    · exact Keeps.answer _ _ _ _ _

theorem Keeps.shutAll (s : State) (p : Port) (f : Frame) : Keeps s (s.shutAll p f) := by
  unfold State.shutAll
  split
  · exact Keeps.answer _ _ _ _ _
  · exact (Keeps.foldl _ (fun u w => Keeps.shutLatch u w _) _ _).trans (Keeps.answer _ _ _ _ _)

theorem Keeps.expireIdle (s : State) (w : Slot) : Keeps s (s.expireIdle w) := by
  unfold State.expireIdle
  split
  · exact Keeps.refl s
  · split
    · exact Keeps.shutLatch _ _ _
    · exact Keeps.refl s

theorem Keeps.giveVerdict (s : State) (p : Port) (f : Frame) : Keeps s (s.giveVerdict p f) := by
  unfold State.giveVerdict
  split
  · exact Keeps.answer _ _ _ _ _
  · split
    · exact (Keeps.resolveHold _ _ _).trans (Keeps.answer _ _ _ _ _)
    · exact Keeps.answer _ _ _ _ _

theorem Keeps.expireHold (s : State) (id : Byte) : Keeps s (s.expireHold id) := by
  unfold State.expireHold
  split
  · exact Keeps.refl s
  · exact (Keeps.post _ _ _).trans (Keeps.resolveHold _ _ _)

/-! ### The window table -/

theorem Keeps.edited (s : State) : Keeps s s.edited := Keeps.of_eq rfl rfl rfl rfl rfl (Nat.le_refl _)

theorem Keeps.describe (s : State) (p : Port) (f : Frame) : Keeps s (s.describe p f) := by
  unfold State.describe
  dsimp only
  split <;> exact Keeps.answer _ _ _ _ _

/-- A window whose latch is SHUT may be set at will. -/
theorem Keeps.setShut (s : State) (w : Slot) (x : Option Window) (h : ∀ y, x = some y → y.latchOpen = false) :
    Keeps s (s.setWindow w x) :=
  Keeps.setWindow s w x (fun y hy ho => by rw [h y hy] at ho; simp at ho)

theorem Keeps.define (s : State) (p : Port) (f : Frame) : Keeps s (s.define p f) := by
  unfold State.define
  split
  · exact Keeps.answer _ _ _ _ _
  · refine ((Keeps.setShut s _ _ ?_).trans (Keeps.edited _)).trans (Keeps.answer _ _ _ _ _)
    intro y hy; cases hy; rfl

theorem Keeps.modify (s : State) (p : Port) (f : Frame) : Keeps s (s.modify p f) := by
  unfold State.modify
  split
  · exact Keeps.answer _ _ _ _ _
  · refine (((Keeps.shutLatch _ _ _).trans (Keeps.setShut _ _ _ ?_)).trans (Keeps.edited _)).trans
      (Keeps.answer _ _ _ _ _)
    intro y hy; cases hy; rfl

theorem Keeps.undefine (s : State) (p : Port) (f : Frame) : Keeps s (s.undefine p f) := by
  unfold State.undefine
  dsimp only
  split
  · exact Keeps.answer _ _ _ _ _
  · refine (((Keeps.shutLatch _ _ _).trans (Keeps.setShut _ _ _ ?_)).trans (Keeps.edited _)).trans
      (Keeps.answer _ _ _ _ _)
    intro y hy; cases hy

theorem Keeps.lockTable (s : State) (p : Port) (f : Frame) : Keeps s (s.lockTable p f) := by
  unfold State.lockTable
  split
  · exact Keeps.answer _ _ _ _ _
  · refine Keeps.trans ?_ (Keeps.answer _ _ _ _ _)
    exact Keeps.of_eq rfl rfl rfl rfl rfl (Nat.le_refl _)

theorem Keeps.setTiming (s : State) (p : Port) (f : Frame) : Keeps s (s.setTiming p f) := by
  unfold State.setTiming
  dsimp only
  split
  · exact Keeps.answer _ _ _ _ _
  · split
    · refine Keeps.trans ?_ (Keeps.answer _ _ _ _ _)
      exact Keeps.of_eq rfl rfl rfl rfl rfl (Nat.le_refl _)
    · exact Keeps.answer _ _ _ _ _

/-! ### Guard inputs -/

theorem Keeps.applyGuard (s : State) (g : GuardInput) (x : GuardSetting) : Keeps s (s.applyGuard g x) := by
  unfold State.applyGuard
  refine Keeps.trans ?_ (Keeps.setInput _ _ _)
  exact Keeps.of_eq rfl rfl rfl rfl rfl (Nat.le_refl _)

theorem Keeps.setGuard (s : State) (p : Port) (f : Frame) : Keeps s (s.setGuard p f) := by
  unfold State.setGuard
  split
  · exact Keeps.answer _ _ _ _ _
  · exact ((Keeps.applyGuard _ _ _).trans (Keeps.edited _)).trans (Keeps.answer _ _ _ _ _)

/-- A guard pin is set whose input is read as before. -/
theorem Keeps.setGuardPin (s : State) (g : GuardInput) (x : GuardPin)
    (h : x.input.reads = (s.guardPin g).input.reads) : Keeps s (s.setGuardPin g x) := by
  refine ⟨fun _ l => l, latchesKept_of (fun k => ?_) (fun w y hy ho => ⟨y, hy, ho, rfl⟩), memoryKept_of_eq rfl rfl,
    buffersKept_of_eq rfl, id, fun _ => SendKept.refl _⟩
  by_cases e : k = g
  · subst e; rw [State.guardPin_setGuardPin_same]; exact h
  · rw [State.guardPin_setGuardPin_ne _ _ e]

theorem Keeps.guardLevel (s : State) (g : GuardInput) (high : Bool) : Keeps s (s.guardLevel g high) := by
  have a : Keeps s (s.setGuardPin g { s.guardPin g with high := high }) := Keeps.setGuardPin s g _ rfl
  unfold State.guardLevel
  dsimp only
  split
  · exact a.trans (Keeps.setInput _ _ _)
  · exact a

theorem Keeps.expireSettle (s : State) (g : GuardInput) : Keeps s (s.expireSettle g) := by
  unfold State.expireSettle
  split
  · exact Keeps.setInput _ _ _
  · exact Keeps.setInput _ _ _
  · exact Keeps.refl s

/-! ### Port links -/

/-- The framer bears on none of the laws. -/
theorem Keeps.framer (s : State) (p : Port) (f : PortLink → Framer) :
    Keeps s (s.modPort p (fun l => { l with framer := f l })) :=
  Keeps.modPort s p _ (fun _ hl => PortLink.lawful_of hl (Nat.le_refl _) rfl rfl rfl (Nat.le_refl _))
    (fun _ => SendKept.of_eq rfl rfl rfl)

theorem Keeps.clearBuffers (s : State) (p : Port) : Keeps s (s.clearBuffers p) := by
  refine Keeps.foldl _ (fun u b => ?_) _ _
  split
  · exact Keeps.freeBuffer _ _
  · exact Keeps.refl u

theorem Keeps.clearJobs (s : State) (p : Port) : Keeps s (s.clearJobs p) :=
  ((Keeps.foldl _ (fun u j => Keeps.endJob u j _ _ _ _) _ _).trans (Keeps.formOffer _)).trans (Keeps.arbitrate _)

theorem Keeps.clearOwnHold (s : State) (p : Port) : Keeps s (s.clearOwnHold p) :=
  Keeps.of_eq rfl rfl rfl rfl rfl (Nat.le_refl _)

theorem Keeps.clearWatched (s : State) (p : Port) : Keeps s (s.clearWatched p) :=
  Keeps.foldl _ (fun u h => Keeps.resolveHold u h _) _ _

theorem Keeps.clearReads (s : State) (p : Port) : Keeps s (s.clearReads p) := Keeps.seq s _

theorem Keeps.clearPort (s : State) (p : Port) : Keeps s (s.clearPort p) :=
  ((((((Keeps.askTransmission s p).trans (Keeps.modPort _ p _ (fun l _ => l.clear_lawful) PortLink.clear_sends)).trans
    (Keeps.clearBuffers _ p)).trans (Keeps.clearJobs _ p)).trans (Keeps.clearOwnHold _ p)).trans
      (Keeps.clearWatched _ p)).trans (Keeps.clearReads _ p)

theorem Keeps.portClearFrame (s : State) (p : Port) (tag : Byte) : Keeps s (s.portClearFrame p tag) :=
  (Keeps.clearPort s p).trans (Keeps.modPort _ p _ (PortLink.pushOut_lawful _ (by simp))
    (fun _ => SendKept.of_append _ rfl rfl rfl))

theorem Keeps.disposeFrame (s : State) (p : Port) (f : Frame) : Keeps s (s.disposeFrame p f) := by
  unfold State.disposeFrame
  split
  · exact Keeps.linkError _ _ _
  · split
    · exact Keeps.portClearFrame _ _ _
    · split
      · exact Keeps.linkError _ _ _
      · next h =>
        refine Keeps.modPortAt s p _ (fun l => ?_)
          (SendKept.trans (m := { s.port p with inbound := (s.port p).inbound ++ [f] }) (SendKept.of_eq rfl rfl rfl)
            (PortLink.takeRequest_sends _))
        refine PortLink.takeRequest_lawful _ ⟨?_, l.2.1, l.2.2.1, l.2.2.2.1, l.2.2.2.2⟩
        simp only [Config.inboundMax] at h
        simp only [List.length_append, List.length_singleton]
        omega

theorem Keeps.checkFrame (s : State) (p : Port) : Keeps s (s.checkFrame p) := by
  unfold State.checkFrame
  split
  · dsimp only
    split
    · exact (Keeps.framer s p _).trans (Keeps.disposeFrame _ _ _)
    · exact (Keeps.framer s p _).trans (Keeps.linkError _ _ _)
  · exact Keeps.refl s

theorem Keeps.abandonLength (s : State) (p : Port) : Keeps s (s.abandonLength p) := by
  unfold State.abandonLength
  split
  · split
    · exact Keeps.framer s p _
    · exact Keeps.refl s
  · exact Keeps.refl s

theorem Keeps.receiveByte (s : State) (p : Port) (b : Byte) : Keeps s (s.receiveByte p b) := by
  unfold State.receiveByte
  split
  · exact Keeps.refl s
  · exact ((Keeps.checkFrame s p).trans (Keeps.abandonLength _ p)).trans (Keeps.framer _ p _)

theorem Keeps.expireGap (s : State) (p : Port) : Keeps s (s.expireGap p) := by
  unfold State.expireGap
  split
  · exact Keeps.framer s p _
  · exact Keeps.framer s p _
  · exact Keeps.refl s

theorem Keeps.portClearEvent (s : State) (p : Port) : Keeps s (s.portClearEvent p) := by
  have a : Keeps s (s.onRequest .portClear p (fun _ t => t)) := Keeps.onRequest _ _ _ _ (fun _ u => Keeps.refl u)
  unfold State.portClearEvent
  split
  · split
    · exact Keeps.checkFrame s p
    · exact a
  · exact a

theorem Keeps.clrEdge (s : State) (p : Port) : Keeps s (s.clrEdge p) := by
  unfold State.clrEdge
  split
  · exact (Keeps.framer s p _).trans (Keeps.clearPort _ p)
  · exact Keeps.refl s

theorem Keeps.refuseUnknown (s : State) (p : Port) : Keeps s (s.refuseUnknown p) := by
  unfold State.refuseUnknown
  split
  · exact Keeps.refl s
  · split
    · exact (Keeps.markJudged _ _).trans (Keeps.answer _ _ _ _ _)
    · exact Keeps.refl s

/-! ### The array -/

theorem Keeps.expireResumeGap (s : State) : Keeps s s.expireResumeGap := by
  unfold State.expireResumeGap
  split
  · exact (Keeps.seq s _).trans (Keeps.requestSuspend _)
  · exact Keeps.refl s

theorem Keeps.takeSuspension (s : State) : Keeps s s.takeSuspension := by
  have a : Keeps s s.haltStep := Keeps.of_eq rfl rfl rfl rfl rfl (by simp [State.haltStep])
  unfold State.takeSuspension
  split
  · exact (a.trans (Keeps.formOffer _)).trans (Keeps.arbitrate _)
  · exact Keeps.refl s

theorem Keeps.completeRead (s : State) : Keeps s s.completeRead := by
  unfold State.completeRead
  split
  · exact Keeps.refl s
  · split
    · exact Keeps.trans (t := s.endService) (Keeps.seq s _) (Keeps.arbitrate _)
    · exact (Keeps.trans (t := s.endService) (Keeps.seq s _) (Keeps.answer _ _ _ _ _)).trans (Keeps.arbitrate _)

theorem Keeps.stepDone (s : State) : Keeps s s.stepDone := Keeps.of_eq rfl rfl rfl rfl rfl (Nat.le_refl _)

theorem Keeps.endActive (s : State) (st : EndStatus) (d : Nat) : Keeps s (s.endActive st d) := by
  unfold State.endActive
  split
  · exact Keeps.endJob _ _ _ _ _ _
  · exact Keeps.formOffer s

/-- The main array changes, in canonical form. -/
theorem Keeps.mem {s t : State} (hp : t.ports = s.ports) (hw : t.windows = s.windows) (hg : t.guards = s.guards)
    (hm : s.mem.wf = true → t.mem.wf = true) (hb : t.buffers = s.buffers) (hj : t.jobs = s.jobs) : Keeps s t := by
  refine ⟨linksKept_of_eq hp, latchesKept_of_eq hw hg, fun h => ⟨hm h.1, fun b => ?_⟩, buffersKept_of_eq hb,
    fun h => by unfold State.JobsBounded; rw [hj]; exact h, sendsKept_of_eq hp⟩
  have e : t.buffer b = s.buffer b := by simp [State.buffer, hb]
  rw [e]; exact h.2 b

theorem Keeps.completeProgram (s : State) : Keeps s s.completeProgram := by
  unfold State.completeProgram
  split
  · refine Keeps.trans ?_ (((Keeps.stepDone _).trans (Keeps.endActive _ _ _)).trans (Keeps.arbitrate _))
    exact Keeps.mem rfl rfl rfl (fun h => Memory.programRange_wf h _ _) rfl rfl
  · exact Keeps.refl s

theorem Keeps.eraseStepEnds (s : State) : Keeps s s.eraseStepEnds := by
  unfold State.eraseStepEnds
  split
  · exact Keeps.formOffer s
  · split
    · split
      · exact Keeps.endJob _ _ _ _ _ _
      · exact (Keeps.modJob _ _ _).trans (Keeps.formOffer _)
    · exact Keeps.endJob _ _ _ _ _ _

theorem Keeps.completeErase (s : State) : Keeps s s.completeErase := by
  unfold State.completeErase
  split
  · refine Keeps.trans ?_ (((Keeps.stepDone _).trans (Keeps.eraseStepEnds _)).trans (Keeps.arbitrate _))
    exact Keeps.mem rfl rfl rfl (fun h => Memory.eraseRange_wf h _ _) rfl rfl
  · exact Keeps.refl s

theorem Keeps.completeSave (s : State) : Keeps s s.completeSave := by
  unfold State.completeSave
  split
  · refine Keeps.trans ?_ (((Keeps.stepDone _).trans (Keeps.endActive _ _ _)).trans (Keeps.arbitrate _))
    exact Keeps.of_eq rfl rfl rfl rfl rfl (Nat.le_refl _)
  · exact Keeps.refl s

theorem Keeps.programFuse (s : State) (i : Nat) (e : FuseSlot) : Keeps s (s.programFuse i e) :=
  Keeps.of_eq rfl rfl rfl rfl rfl (Nat.le_refl _)

theorem Keeps.completeFuse (s : State) : Keeps s s.completeFuse := by
  unfold State.completeFuse
  split
  · exact (((Keeps.programFuse s _ _).trans (Keeps.stepDone _)).trans (Keeps.endActive _ _ _)).trans (Keeps.arbitrate _)
  · exact Keeps.refl s

/-! ### Device reset and start-up -/

theorem Keeps.interruptStep (s : State) : Keeps s s.interruptStep := by
  unfold State.interruptStep
  split
  · exact Keeps.refl s
  · exact Keeps.mem rfl rfl rfl (fun h => Memory.tearProgram_wf h _ _ _) rfl rfl
  · exact Keeps.mem rfl rfl rfl (fun h => Memory.tearErase_wf h _ _ _) rfl rfl
  · exact Keeps.of_eq rfl rfl rfl rfl rfl (Nat.le_refl _)
  · exact Keeps.of_eq rfl rfl rfl rfl rfl (Nat.le_refl _)

theorem Keeps.recoverAction (s : State) (m : Marker) : Keeps s (s.recoverAction m) := by
  unfold State.recoverAction
  split <;> exact Keeps.of_eq rfl rfl rfl rfl rfl (Nat.le_refl _)

theorem Keeps.interruptRecover (s : State) : Keeps s s.interruptRecover := by
  unfold State.interruptRecover
  split
  · exact Keeps.refl s
  · split
    · next m _ _ =>
      refine Keeps.trans ?_ (Keeps.drawn _)
      split
      · exact Keeps.refl s
      · split
        · exact Keeps.of_eq rfl rfl rfl rfl rfl (Nat.le_refl _)
        · exact Keeps.refl s
      · exact Keeps.recoverAction s _
      · refine (Keeps.recoverAction s m).trans ?_
        exact Keeps.of_eq rfl rfl rfl rfl rfl (Nat.le_refl _)
    · exact Keeps.refl s

/-- A link after device reset is lawful. -/
theorem PortLink.reset_lawful : PortLink.reset.Lawful := by
  refine ⟨by decide, by decide, by decide, by decide, by decide⟩

theorem Keeps.deviceReset (s : State) : Keeps s s.deviceReset := by
  have k := (Keeps.interruptRecover s).trans (Keeps.interruptStep _)
  have w : ∀ v, s.deviceReset.window v = none := by
    intro v
    unfold State.deviceReset State.window State.reset
    simp [Vector.get]
  have b : ∀ c, s.deviceReset.buffer c = Buffer.reset := by
    intro c
    unfold State.deviceReset State.buffer State.reset
    simp [Vector.get]
  refine ⟨fun p _ => ?_, fun _ v x hx => ?_, fun h => ⟨(k.memory h).1, fun c => ?_⟩, fun _ p => ?_, fun _ => ?_, fun p => ?_⟩
  · cases p <;> exact PortLink.reset_lawful
  · rw [w] at hx; simp at hx
  · rw [b]; rfl
  · unfold State.buffersOwned
    simp [b, Buffer.reset, BufferState.owner?]
  · exact Nat.zero_le _
  · cases p <;> exact SendKept.of_idle rfl

theorem Keeps.resetRelease (s : State) (a r : BitVec 2) : Keeps s (s.resetRelease a r) := by
  unfold State.resetRelease
  split
  · exact Keeps.of_eq rfl rfl rfl rfl rfl (Nat.le_refl _)
  · exact Keeps.refl s

theorem Keeps.recover (s : State) : Keeps s s.recover := by
  unfold State.recover
  split
  · split
    · exact Keeps.of_eq rfl rfl rfl rfl rfl (Nat.le_refl _)
    · next m _ =>
      refine (Keeps.recoverAction s m).trans ?_
      exact Keeps.of_eq rfl rfl rfl rfl rfl (Nat.le_refl _)
  · exact Keeps.refl s

/-- After the table is loaded every latch is SHUT (R180). -/
theorem State.loadTable_shut (s : State) (w : Slot) (x : Window) (h : s.loadTable.window w = some x) :
    x.latchOpen = false := by
  unfold State.loadTable State.window at h
  split at h
  · simp only [Vector.get, Vector.map, Array.getElem_map, Fin.val_cast, Vector.getElem_toArray] at h
    obtain ⟨f, _, rfl⟩ := Option.map_eq_some_iff.1 h
    rfl
  · simp [Vector.get] at h
  · simp [Vector.get] at h

theorem Keeps.load (s : State) : Keeps s s.load := by
  unfold State.load
  split
  · refine ⟨linksKept_of_eq ?_, fun _ w x hx ho => ?_, memoryKept_of_eq ?_ ?_, buffersKept_of_eq ?_, fun h => ?_,
      sendsKept_of_eq ?_⟩
    · unfold State.sampleGuards State.loadTable; split <;> rfl
    · rw [s.loadTable_shut w x hx] at ho; simp at ho
    · unfold State.sampleGuards State.loadTable; split <;> rfl
    · unfold State.sampleGuards State.loadTable; split <;> rfl
    · unfold State.sampleGuards State.loadTable; split <;> rfl
    · unfold State.JobsBounded State.sampleGuards State.loadTable; split <;> exact h
    · unfold State.sampleGuards State.loadTable; split <;> rfl
  · exact Keeps.refl s

theorem Keeps.becomeReady (s : State) : Keeps s s.becomeReady := by
  unfold State.becomeReady
  split
  · refine Keeps.trans ?_ (Keeps.postEach _ _ _)
    refine ⟨fun p l => ?_, latchesKept_of_eq rfl rfl, memoryKept_of_eq rfl rfl, buffersKept_of_eq rfl, id, fun p => ?_⟩
    · cases p <;> exact PortLink.lawful_of l (Nat.le_refl _) rfl rfl rfl (Nat.le_refl _)
    · cases p <;> exact SendKept.of_eq rfl rfl rfl
  · exact Keeps.refl s

/-! ### Time -/

theorem IdleTimer.elapse_latch (x : Window) : ({ x with idle := x.idle.elapse } : Window).latchOpen = x.latchOpen := rfl

theorem InputState.elapse_reads (x : InputState) : x.elapse.reads = x.reads := by cases x <;> rfl

theorem BufferState.elapse_owner (x : BufferState) : x.elapse.owner? = x.owner? := by cases x <;> rfl

theorem State.window_runDown (s : State) (w : Slot) :
    s.runDown.window w = (s.window w).map (fun y => { y with idle := y.idle.elapse }) := by
  unfold State.runDown State.window
  simp [Vector.get]

theorem State.buffer_runDown (s : State) (b : BufferNo) :
    s.runDown.buffer b = { s.buffer b with state := (s.buffer b).state.elapse } := by
  unfold State.runDown State.buffer
  simp [Vector.get]

/-- A unit of transmission changes nothing but the transmission itself, which goes on or begins while a frame is there. -/
theorem PortLink.transmit_eq (rate : LinkRate) (l : PortLink) : ∃ bytes left, l.transmit rate =
    { l with sending := l.sending || !l.output.isEmpty, txBytes := bytes, txLeft := left } := by
  rcases l with ⟨_, _, _, _, out, sending, _, _, _, _, _, _⟩
  cases out with
  | nil => cases sending <;> exact ⟨_, _, rfl⟩
  | cons f rest =>
    cases sending with
    | false =>
      simp only [PortLink.transmit, Bool.false_eq_true, if_false]
      split <;> exact ⟨_, _, rfl⟩
    | true =>
      simp only [PortLink.transmit, if_true]
      split <;> exact ⟨_, _, rfl⟩

theorem PortLink.elapse_lawful (rate : LinkRate) (l : PortLink) (hl : l.Lawful) : (l.elapse rate).Lawful := by
  obtain ⟨bytes, left, e⟩ := l.transmit_eq rate
  unfold PortLink.elapse
  rw [e]
  refine PortLink.lawful_of hl (Nat.le_refl _) rfl rfl rfl ?_
  cases ho : l.output with
  | nil => simp [PortLink.waitingLinkErrors, PortLink.waitingOut, ho]
  | cons f rest => exact PortLink.waitingLinkErrors_sending (by simp [ho]) (by simp)

theorem PortLink.transmit_sends (rate : LinkRate) (l : PortLink) : SendKept l (l.transmit rate) := by
  unfold PortLink.transmit
  split
  · exact SendKept.refl l
  · next f rest ho =>
    have hm : SendKept l (if l.sending then l else l.beginFrame rate) := by
      split
      · exact SendKept.refl l
      · exact PortLink.beginFrame_sends rate l (by simp [ho])
    have om : (if l.sending then l else l.beginFrame rate).output = f :: rest := by split <;> exact ho
    revert hm om
    generalize (if l.sending then l else l.beginFrame rate) = m
    intro hm om
    dsimp only
    split
    · refine hm.trans ⟨id, fun _ _ _ g q e => ?_⟩
      rw [om, List.cons.injEq] at e
      rw [← e.1]
      exact List.take_prefix _ _
    · exact hm.trans (SendKept.of_eq rfl rfl rfl)

theorem PortLink.elapse_sends (rate : LinkRate) (l : PortLink) : SendKept l (l.elapse rate) :=
  (l.transmit_sends rate).trans (SendKept.of_eq rfl rfl rfl)

@[simp] theorem State.port_runDown (s : State) (p : Port) : s.runDown.port p = (s.port p).elapse s.linkRate := by
  cases p <;> rfl

theorem Keeps.runDown (s : State) : Keeps s s.runDown := by
  refine ⟨fun p l => ?_, latchesKept_of (fun k => ?_) (fun w x hx ho => ?_), fun h => ⟨h.1, fun b => ?_⟩,
    buffersKept_of (fun b => Or.inl ?_), id, fun p => ?_⟩
  · rw [State.port_runDown]; exact PortLink.elapse_lawful _ _ l
  · cases k <;> exact InputState.elapse_reads _
  · rw [State.window_runDown] at hx
    obtain ⟨y, hy, rfl⟩ := Option.map_eq_some_iff.1 hx
    exact ⟨y, hy, ho, rfl⟩
  · rw [State.buffer_runDown]; exact h.2 b
  · rw [State.buffer_runDown]; exact BufferState.elapse_owner _
  · rw [State.port_runDown]; exact PortLink.elapse_sends _ _

theorem Keeps.expire (s : State) (t : Timer) : Keeps s (s.expire t) := by
  cases t with
  | gap p => exact Keeps.expireGap s p
  | settle g => exact Keeps.expireSettle s g
  | idle w => exact Keeps.expireIdle s w
  | lease b => exact Keeps.expireLease s b
  | hold id => exact Keeps.expireHold s id
  | resume => exact Keeps.expireResumeGap s
  | frame p => exact Keeps.modPort s p _ PortLink.sent_lawful PortLink.sent_sends

theorem Keeps.expireIfDue (s : State) (t : Timer) : Keeps s (s.expireIfDue t) := by
  unfold State.expireIfDue
  split
  · exact Keeps.expire s t
  · exact Keeps.refl s

theorem Keeps.elapse (s : State) : Keeps s s.elapse := by
  unfold State.elapse
  refine (Keeps.runDown s).trans (Keeps.trans ?_ (Keeps.foldl _ (fun u t => Keeps.expireIfDue u t) _ _))
  exact Keeps.of_eq rfl rfl rfl rfl rfl (Nat.le_refl _)

end Sys2Proof.Machine
end

