-- ==== Sys2Proof/Laws/Settling.lean ====
section
/-! SUPPORT. The offer (R123) and the array left IDLE (R143): what keeps them, and that a decision of the sequencer restores
them. -/

namespace Sys2Proof.Machine

/-! ### What leaves them alone -/

/-- The offer that is called for rests on the job list and on whether the array operation is NONE. -/
theorem State.offerNow_congr {s t : State} (hj : t.jobs = s.jobs) (ha : t.arrayOp = .none ↔ s.arrayOp = .none) :
    t.offerNow = s.offerNow := by
  unfold State.offerNow State.activeJob
  rw [hj]
  split
  · simp only [ha]
  · rfl

theorem State.OfferLawful.of_eq {s t : State} (hj : t.jobs = s.jobs) (ho : t.offer = s.offer)
    (ha : t.arrayOp = .none ↔ s.arrayOp = .none) (h : s.OfferLawful) : t.OfferLawful := by
  unfold State.OfferLawful at h ⊢
  rw [ho, State.offerNow_congr hj ha]
  exact h

theorem State.nextReader_congr {s t : State} (hr : t.seq.pendingReads = s.seq.pendingReads)
    (hp : t.seq.pointer = s.seq.pointer) : t.nextReader = s.nextReader := by
  unfold State.nextReader
  rw [hr, hp]

theorem State.Settled.of_eq {s t : State} (hj : t.jobs = s.jobs) (ho : t.offer = s.offer)
    (ha : t.arrayOp = .none ↔ s.arrayOp = .none) (hs : t.seq.arrayState = s.seq.arrayState)
    (hr : t.seq.pendingReads = s.seq.pendingReads) (hp : t.seq.pointer = s.seq.pointer) (h : s.Settled) : t.Settled := by
  refine ⟨State.OfferLawful.of_eq hj ho ha h.1, fun hi => ?_⟩
  have := h.2 (hs ▸ hi)
  unfold State.jobSuspended at this ⊢
  rw [hj, State.nextReader_congr hr hp, ho]
  exact this

/-- The offer formed anew is the one called for. -/
theorem State.formOffer_lawful (s : State) : s.formOffer.OfferLawful := by
  unfold State.OfferLawful
  exact (State.offerNow_congr (s := s) (t := s.formOffer) rfl Iff.rfl).symm

/-- An array that is not IDLE is settled as soon as the offer is lawful. -/
theorem State.Settled.of_busy {s : State} (h : s.OfferLawful) (hi : s.seq.arrayState ≠ .idle) : s.Settled :=
  ⟨h, fun e => absurd e hi⟩

theorem State.Settled.window {s t : State} (a : WindowShape s t) (h : s.Settled) : t.Settled := by
  obtain ⟨_, _, _, rfl⟩ := a
  exact State.Settled.of_eq (s := s) rfl rfl Iff.rfl rfl rfl rfl h

theorem State.Settled.link {s t : State} (a : LinkShape s t) (h : s.Settled) : t.Settled := h.window a.window

theorem State.OfferLawful.link {s t : State} (a : LinkShape s t) (h : s.OfferLawful) : t.OfferLawful := by
  obtain ⟨_, rfl⟩ := a
  exact State.OfferLawful.of_eq (s := s) rfl rfl Iff.rfl h

theorem State.Settled.syncIdle {s : State} (w : Slot) (r : Bool) (h : s.Settled) : (s.syncIdle w r).Settled := by
  obtain ⟨_, e⟩ := s.syncIdle_shape w r
  rw [e]
  exact State.Settled.of_eq (s := s) rfl rfl Iff.rfl rfl rfl rfl h

/-! ### The decision -/

/-- The jobs and the pending reads, which bound the decisions of one event. -/
def State.workLeft (s : State) : Nat := s.jobs.length + s.pendingReadCount

theorem readOrder_mem (q p : Port) : p ∈ readOrder q := by cases q <;> cases p <;> decide

theorem State.nextReader_some {s : State} {p : Port} (h : s.nextReader = some p) :
    (s.seq.pendingReads.get p).isSome = true := by
  unfold State.nextReader at h
  simpa using List.find?_some h

theorem State.nextReader_none {s : State} : s.nextReader = none ↔ ∀ p, s.seq.pendingReads.get p = none := by
  unfold State.nextReader
  rw [List.find?_eq_none]
  constructor
  · intro h p
    have := h p (readOrder_mem _ p)
    simpa using this
  · intro h p _
    simp [h p]

theorem State.pendingReadCount_set {s : State} {p : Port} (h : (s.seq.pendingReads.get p).isSome = true) (t : State)
    (ht : t.seq.pendingReads = s.seq.pendingReads.set p none) : t.pendingReadCount + 1 = s.pendingReadCount := by
  unfold State.pendingReadCount
  rw [ht]
  generalize s.seq.pendingReads = v at h ⊢
  obtain ⟨a, b, c, d⟩ := v
  cases p <;> simp only [PerPort.get] at h <;>
    cases a <;> cases b <;> cases c <;> cases d <;>
    first | (simp at h; done) | rfl

theorem State.grantRead_spec {s : State} {p : Port} (h : (s.seq.pendingReads.get p).isSome = true) :
    (s.grantRead p).workLeft + 1 = s.workLeft ∧ (s.grantRead p).jobs = s.jobs ∧ (s.grantRead p).offer = s.offer ∧
      (s.grantRead p).arrayOp = s.arrayOp := by
  unfold State.grantRead
  obtain ⟨r, hr⟩ := Option.isSome_iff_exists.1 h
  rw [hr]
  dsimp only
  split
  · refine ⟨?_, rfl, rfl, rfl⟩
    have := State.pendingReadCount_set h ((s.takeRead p).answer p r.frame .inProgress []) rfl
    unfold State.workLeft
    show s.jobs.length + _ + 1 = _
    omega
  · refine ⟨?_, rfl, rfl, rfl⟩
    have := State.pendingReadCount_set h ((s.takeRead p).beginRead p r) rfl
    unfold State.workLeft
    show s.jobs.length + _ + 1 = _
    omega

/-- What ending a job leaves of the sequencer and of the job list. -/
theorem State.endJob_spec (s : State) (j : Job) (st : EndStatus) (r : EndReason) (d : Nat) (n : Bool) :
    (s.endJob j st r d n).jobs = s.jobs.filter (fun k => k.id != j.id) ∧ (s.endJob j st r d n).seq = s.seq ∧
      (s.endJob j st r d n).arrayOp = s.arrayOp ∧ (s.endJob j st r d n).OfferLawful := by
  have a : ∀ (u : State) (w : JobWork), (u.releaseJobBuffer w).jobs = u.jobs ∧ (u.releaseJobBuffer w).seq = u.seq ∧
      (u.releaseJobBuffer w).arrayOp = u.arrayOp := by
    intro u w
    unfold State.releaseJobBuffer
    split <;> exact ⟨rfl, rfl, rfl⟩
  have b : ∀ (u : State) (w : JobWork), (u.syncJobWindow w).jobs = u.jobs ∧ (u.syncJobWindow w).seq = u.seq ∧
      (u.syncJobWindow w).arrayOp = u.arrayOp := by
    intro u w
    unfold State.syncJobWindow
    split
    · obtain ⟨_, e⟩ := u.syncIdle_shape (by assumption) true
      rw [e]; exact ⟨rfl, rfl, rfl⟩
    · exact ⟨rfl, rfl, rfl⟩
  have c : ∀ u : State, (u.notifyEnd j st r d n).jobs = u.jobs ∧ (u.notifyEnd j st r d n).seq = u.seq ∧
      (u.notifyEnd j st r d n).arrayOp = u.arrayOp := by
    intro u
    obtain ⟨_, e⟩ := LinkShape.notifyEnd u j st r d n
    rw [e]; exact ⟨rfl, rfl, rfl⟩
  unfold State.endJob
  refine ⟨?_, ?_, ?_, State.formOffer_lawful _⟩
  · show (State.notifyEnd _ j st r d n).jobs = _
    rw [(c _).1, (b _ _).1]
    show (State.releaseJobBuffer _ _).jobs = _
    rw [(a _ _).1]
    rfl
  · show (State.notifyEnd _ j st r d n).seq = _
    rw [(c _).2.1, (b _ _).2.1]
    show (State.releaseJobBuffer _ _).seq = _
    rw [(a _ _).2.1]
    rfl
  · show (State.notifyEnd _ j st r d n).arrayOp = _
    rw [(c _).2.2, (b _ _).2.2]
    show (State.releaseJobBuffer _ _).arrayOp = _
    rw [(a _ _).2.2]
    rfl

theorem State.findJob_mem {s : State} {id : Byte} {j : Job} (h : s.findJob id = some j) : j ∈ s.jobs := by
  unfold State.findJob at h
  exact List.mem_of_find?_eq_some h

theorem State.endJob_shrinks {s : State} {j : Job} (h : j ∈ s.jobs) (st : EndStatus) (r : EndReason) (d : Nat)
    (n : Bool) : (s.endJob j st r d n).workLeft < s.workLeft := by
  obtain ⟨hj, hq, _, _⟩ := s.endJob_spec j st r d n
  have : (s.jobs.filter (fun k => k.id != j.id)).length < s.jobs.length := by
    refine List.length_filter_lt_length_iff_exists.2 ⟨j, h, by simp⟩
  unfold State.workLeft State.pendingReadCount
  rw [hj, hq]
  omega

/-- A started step leaves the array in RUN with a lawful offer. -/
theorem State.startStep_spec (s : State) (j : Job) :
    (s.startStep j).seq.arrayState = .run ∧ (s.startStep j).OfferLawful := by
  unfold State.startStep State.beginStep
  split <;> exact ⟨rfl, State.formOffer_lawful _⟩

/-- A granted offer starts a step, or ends a job. -/
theorem State.grantOffer_spec {s : State} (h : s.OfferLawful) (hn : s.offer ≠ .none) :
    s.grantOffer.Settled ∨ (s.grantOffer.OfferLawful ∧ s.grantOffer.workLeft < s.workLeft) := by
  have member : ∀ id, (s.offer = .queued id ∨ s.offer = .nextStep id) → ∃ j, s.findJob id = some j := by
    intro id hid
    have found : ∀ j ∈ s.jobs, j.id = id → ∃ k, s.findJob id = some k := by
      intro j hj e
      rw [← Option.isSome_iff_exists]
      unfold State.findJob
      rw [List.find?_isSome]
      exact ⟨j, hj, by simp [e]⟩
    unfold State.OfferLawful State.offerNow at h
    split at h
    · next j hj =>
      unfold State.activeJob at hj
      split at h
      · rw [h] at hid
        refine found j (List.mem_of_find?_eq_some hj) ?_
        rcases hid with e | e <;> simp at e
        exact e
      · rw [h] at hid; simp at hid
    · split at h
      · next j js hjs =>
        rw [h] at hid
        refine found j (by rw [hjs]; simp) ?_
        rcases hid with e | e <;> simp at e
        exact e
      · rw [h] at hid; simp at hid
  have busy : ∀ j : Job, (s.startStep j).Settled := fun j =>
    State.Settled.of_busy (s.startStep_spec j).2 (by rw [(s.startStep_spec j).1]; decide)
  unfold State.grantOffer
  split
  · next e => exact absurd e hn
  · next id e =>
    obtain ⟨j, hj⟩ := member id (Or.inl e)
    rw [hj]
    dsimp only
    split
    · exact Or.inr ⟨(s.endJob_spec j _ _ _ _).2.2.2, State.endJob_shrinks (State.findJob_mem hj) _ _ _ _⟩
    · exact Or.inl (busy j)
  · next id e =>
    obtain ⟨j, hj⟩ := member id (Or.inr e)
    rw [hj]
    dsimp only
    split
    · exact Or.inr ⟨(s.endJob_spec j _ _ _ _).2.2.2, State.endJob_shrinks (State.findJob_mem hj) _ _ _ _⟩
    · exact Or.inl (busy j)

theorem State.decideN_busy (n : Nat) (s : State) (h : s.seq.arrayState ≠ .idle) : State.decideN n s = s := by
  cases n with
  | zero => rfl
  | succ n => simp [State.decideN, h]

/-- R143: decisions go on until the array is busy or there is nothing to grant. -/
theorem State.decideN_settled (n : Nat) (s : State) (h : s.OfferLawful) (hw : s.workLeft < n) :
    (State.decideN n s).Settled := by
  induction n generalizing s with
  | zero => omega
  | succ n ih =>
    unfold State.decideN
    split
    · next hi =>
      split
      · next p hd =>
        have hp : s.nextReader = some p := by
          unfold State.decision at hd
          repeat' split at hd
          all_goals simp_all
        obtain ⟨h1, h2, h3, h4⟩ := State.grantRead_spec (State.nextReader_some hp)
        exact ih _ (State.OfferLawful.of_eq h2 h3 (by rw [h4]) h) (by omega)
      · exact State.Settled.of_busy (State.formOffer_lawful _) (by simp [State.resumeStep, State.formOffer])
      · next hd =>
        have ho : s.offer ≠ .none := by
          unfold State.decision at hd
          repeat' split at hd
          all_goals simp_all
        rcases State.grantOffer_spec h ho with e | ⟨e1, e2⟩
        · by_cases b : s.grantOffer.seq.arrayState = .idle
          · have x := e.2 b
            have nothing : s.grantOffer.decision = .nothing := by
              unfold State.decision
              simp [x.1, x.2.1, x.2.2]
            cases n with
            | zero => exact e
            | succ n => simpa [State.decideN, b, nothing] using e
          · rw [State.decideN_busy _ _ b]; exact e
        · exact ih _ e1 (by omega)
      · next hd =>
        refine ⟨h, fun _ => ?_⟩
        unfold State.decision at hd
        repeat' split at hd
        all_goals simp_all
    · next hi => exact State.Settled.of_busy h hi

/-- R143: after a decision the array is settled. -/
theorem State.arbitrate_settled (s : State) (h : s.OfferLawful) : s.arbitrate.Settled :=
  State.decideN_settled _ s h (Nat.lt_succ_self _)

/-- A decision at a settled array changes nothing. -/
theorem State.arbitrate_of_settled {s : State} (h : s.Settled) : s.arbitrate = s := by
  unfold State.arbitrate
  by_cases b : s.seq.arrayState = .idle
  · have x := h.2 b
    have nothing : s.decision = .nothing := by
      unfold State.decision
      simp [x.1, x.2.1, x.2.2]
    simp [State.decideN, b, nothing]
  · exact State.decideN_busy _ _ b

/-! ### What keeps the array settled -/

theorem State.Settled.requestSuspend {s : State} (h : s.OfferLawful) (hi : s.seq.arrayState ≠ .idle) :
    s.requestSuspend.Settled := by
  unfold State.requestSuspend
  split
  · next c =>
    refine State.Settled.of_busy (State.OfferLawful.of_eq (s := s) rfl rfl ?_ h) (by simp [c.1])
    simp [c.2.1]
  · exact State.Settled.of_busy h hi

theorem State.Settled.acceptRead {s : State} (h : s.Settled) (p : Port) (tag : Byte) (a n : Nat) (w : Slot) (x : Window)
    (note : Bool) : (s.acceptRead p tag a n w x note).Settled := by
  have o : (((s.addPending p { tag := tag, address := a, length := n, slot := w }).reloadForRead w x).noteTrap note x
      (.trap w p .read a n 0)).OfferLawful := by
    refine State.OfferLawful.link (LinkShape.noteTrap _ _ _ _) ?_
    unfold State.reloadForRead
    split
    · obtain ⟨_, e⟩ := (s.addPending p { tag := tag, address := a, length := n, slot := w }).syncIdle_shape w true
      rw [e]
      exact State.OfferLawful.of_eq (s := s) rfl rfl Iff.rfl h.1
    · exact State.OfferLawful.of_eq (s := s) rfl rfl Iff.rfl h.1
  unfold State.acceptRead State.considerReads
  split
  · exact State.arbitrate_settled _ o
  · next hi => exact State.Settled.requestSuspend o hi

theorem State.acceptWrite_settled (s : State) (p : Port) (f : Frame) (w : Slot) (x : Window) (req : WriteReq)
    (note : Bool) : (s.acceptWrite p f w x req note).Settled :=
  State.arbitrate_settled _ (State.formOffer_lawful _)

theorem State.Settled.recheck {s : State} (hs : s.Settled) (h : Hold) : (s.recheck h).Settled := by
  unfold State.recheck
  split
  · dsimp only
    split
    · exact hs.link (LinkShape.answer _ _ _ _ _)
    · split
      · exact hs.link (LinkShape.answer _ _ _ _ _)
      · exact hs.acceptRead _ _ _ _ _ _ _
  · split
    · exact hs.link (LinkShape.answer _ _ _ _ _)
    · exact State.acceptWrite_settled _ _ _ _ _ _ _

theorem State.Settled.resolveHold {s : State} (hs : s.Settled) (h : Hold) (v : Verdict) : (s.resolveHold h v).Settled := by
  have a : (s.removeHold h).Settled := State.Settled.of_eq (s := s) rfl rfl Iff.rfl rfl rfl rfl hs
  have b := a.link (LinkShape.modPort (s.removeHold h) h.requester (PortLink.unhold h.request))
  unfold State.resolveHold
  dsimp only
  split
  · exact b.link (LinkShape.answer _ _ _ _ _)
  · exact b.recheck h

theorem State.Settled.park {s : State} (hs : s.Settled) (p : Port) (f : Frame) (w : Slot) (q : Port) (k : AccessKind)
    (a n : Nat) : (s.park p f w q k a n).Settled := by
  have x : (s.addHold (s.newHold p f w q k)).Settled := State.Settled.of_eq (s := s) rfl rfl Iff.rfl rfl rfl rfl hs
  exact (x.link (LinkShape.post _ _ _)).link (LinkShape.modPort _ _ _)

theorem State.Settled.judgeRead {s : State} (hs : s.Settled) (p : Port) (f : Frame) : (s.judgeRead p f).Settled := by
  unfold State.judgeRead
  dsimp only
  split
  · exact hs.link (LinkShape.answer _ _ _ _ _)
  · split
    · exact hs.link (LinkShape.answer _ _ _ _ _)
    · split
      · exact hs.acceptRead _ _ _ _ _ _ _
      · exact hs.acceptRead _ _ _ _ _ _ _
      · exact hs.park _ _ _ _ _ _ _

theorem State.Settled.judgeWrite {s : State} (hs : s.Settled) (p : Port) (f : Frame) (req : WriteReq) :
    (s.judgeWrite p f req).Settled := by
  unfold State.judgeWrite
  split
  · exact hs.link (LinkShape.answer _ _ _ _ _)
  · split
    · exact State.acceptWrite_settled _ _ _ _ _ _ _
    · exact State.acceptWrite_settled _ _ _ _ _ _ _
    · exact hs.park _ _ _ _ _ _ _

/-- A change of a job record that leaves its state alone leaves the job that is ACTIVE or SUSPENDED in its place. -/
theorem State.activeJob_modJob {s : State} {j : Job} (h : s.activeJob = some j) (f : Job → Job)
    (hf : ∀ k, (f k).state = k.state) : (s.modJob j.id f).activeJob = some (f j) := by
  have h' : s.jobs.find? (fun k => k.state != .queued) = some j := h
  show (s.jobs.map (fun k => if k.id = j.id then f k else k)).find? _ = _
  rw [List.find?_map, show ((fun k : Job => k.state != .queued) ∘ fun k => if k.id = j.id then f k else k) =
    fun k => k.state != .queued from funext fun k => by simp only [Function.comp]; split <;> simp [hf], h']
  simp

/-- R123: an ACTIVE ERASE-WINDOW with no step in the array is offered for its next step. -/
theorem State.offerNow_nextStep {s : State} {j : Job} (h : s.activeJob = some j) (ha : j.state = .active)
    (hw : j.work.isEraseWindow = true) (ho : s.arrayOp = .none) : s.offerNow = .nextStep j.id := by
  unfold State.offerNow
  rw [h]
  simp [ha, hw, ho]

/-- A job record changed in nothing that the offer rests on. -/
theorem State.Settled.modJob {s : State} (h : s.Settled) (id : Byte) (f : Job → Job)
    (hf : ∀ j, (f j).id = j.id ∧ (f j).state = j.state ∧ (f j).work = j.work) : (s.modJob id f).Settled := by
  obtain ⟨g, hg, hm⟩ : ∃ g : Job → Job,
      (∀ j, (g j).id = j.id ∧ (g j).state = j.state ∧ (g j).work = j.work) ∧ (s.modJob id f).jobs = s.jobs.map g := by
    refine ⟨fun j => if j.id = id then f j else j, fun j => ?_, rfl⟩
    dsimp only
    split
    · exact hf j
    · exact ⟨rfl, rfl, rfl⟩
  have active : (s.modJob id f).activeJob = s.activeJob.map g := by
    unfold State.activeJob
    rw [hm, List.find?_map]
    congr 2
    funext j
    simp [(hg j).2.1]
  have now : (s.modJob id f).offerNow = s.offerNow := by
    unfold State.offerNow
    rw [active, hm]
    cases s.activeJob with
    | some j => simp only [Option.map_some, (hg j).1, (hg j).2.1, (hg j).2.2]; rfl
    | none => cases s.jobs <;> simp [hg]
  have susp : (s.modJob id f).jobSuspended = s.jobSuspended := by
    unfold State.jobSuspended
    rw [hm, List.any_map]
    congr 1
    funext j
    simp [(hg j).2.1]
  refine ⟨?_, fun hi => ?_⟩
  · unfold State.OfferLawful
    rw [now]
    exact h.1
  · rw [susp]
    exact h.2 hi

theorem State.Settled.clearReads {s : State} (h : s.Settled) (p : Port) : (s.clearReads p).Settled := by
  refine ⟨State.OfferLawful.of_eq (s := s) rfl rfl Iff.rfl h.1, fun hi => ?_⟩
  have x := h.2 hi
  refine ⟨x.1, ?_, x.2.2⟩
  rw [State.nextReader_none] at x ⊢
  intro q
  show (PerPort.set s.seq.pendingReads p none).get q = none
  have := x.2.1 q
  cases p <;> cases q <;> first | rfl | exact this

theorem State.clearJobs_settled (s : State) (p : Port) : (s.clearJobs p).Settled :=
  State.arbitrate_settled _ (State.formOffer_lawful _)

theorem State.Settled.clearOwnHold {s : State} (h : s.Settled) (p : Port) : (s.clearOwnHold p).Settled :=
  State.Settled.of_eq (s := s) rfl rfl Iff.rfl rfl rfl rfl h

theorem State.Settled.clearWatched {s : State} (h : s.Settled) (p : Port) : (s.clearWatched p).Settled := by
  unfold State.clearWatched
  generalize s.holds.filter _ = l
  induction l generalizing s with
  | nil => exact h
  | cons k l ih => exact ih (h.resolveHold k _)

theorem State.clearPort_settled (s : State) (p : Port) : (s.clearPort p).Settled :=
  (((State.clearJobs_settled (((s.askTransmission p).modPort p PortLink.clear).clearBuffers p) p).clearOwnHold
    p).clearWatched p).clearReads p

/-- A step's end leaves a lawful offer. -/
theorem State.endActive_lawful (s : State) (st : EndStatus) (d : Nat) : (s.endActive st d).OfferLawful := by
  unfold State.endActive
  split
  · exact (s.endJob_spec _ _ _ _ _).2.2.2
  · exact s.formOffer_lawful

theorem State.eraseStepEnds_lawful (s : State) : s.eraseStepEnds.OfferLawful := by
  unfold State.eraseStepEnds
  split
  · exact s.formOffer_lawful
  · split
    · split
      · exact (s.endJob_spec _ _ _ _ _).2.2.2
      · exact State.formOffer_lawful _
    · exact (s.endJob_spec _ _ _ _ _).2.2.2

/-- The sequencer's timer bears on nothing here. -/
theorem State.Settled.resumeGap {s : State} (h : s.Settled) (g : ResumeGap) :
    ({ s with seq := { s.seq with resumeGap := g } } : State).Settled :=
  State.Settled.of_eq (s := s) rfl rfl Iff.rfl rfl rfl rfl h

theorem State.Settled.expireResumeGap {s : State} (h : s.Settled) : s.expireResumeGap.Settled := by
  unfold State.expireResumeGap
  split
  · by_cases hi : s.seq.arrayState = .idle
    · unfold State.requestSuspend
      rw [if_neg (by simp [hi])]
      exact h.resumeGap .elapsed
    · exact State.Settled.requestSuspend (h.resumeGap .elapsed).1 hi
  · exact h

end Sys2Proof.Machine
end

