-- ==== Sys2Proof/Laws/Clearing.lean ====
section
/-! SUPPORT. What a port clear leaves of the port link, the staging buffers and the job list (R16, R112, R137), and what the
removal of jobs without notice changes. -/

namespace Sys2Proof.Machine

/-- Table 5.3 on a reload: the timer does not depend on what it was. -/
theorem Window.timer_reload (x : Window) (live : Nat) : x.timer live true =
    if x.latchOpen = false ∨ x.fields.settings.idlePeriod = 0 then .stopped
    else if 0 < live then .held else .counting x.period := by
  unfold Window.timer
  by_cases h : x.latchOpen = false ∨ x.fields.settings.idlePeriod = 0
  · rw [if_pos h, if_pos (by simpa using h)]
  · rw [if_neg h, if_neg (by simpa using h)]
    split
    · rfl
    · cases x.idle <;> rfl

/-- A job is removed without notice (R132, R137): what changes, field by field. -/
structure RemovedJob (s t : State) (j : Job) : Prop where
  jobs : t.jobs = s.jobs.filter (fun k => k.id != j.id)
  reservations : t.reservations = s.reservations.filter (fun r => r.job != j.id)
  freed : ∀ w a n b, j.work = .program w a n b → t.buffer b = { s.buffer b with state := .free }
  buffers : ∀ b, (∀ w a n, j.work ≠ .program w a n b) → t.buffer b = s.buffer b
  synced : ∀ w, j.work.slot? = some w → t.window w = (s.window w).map (fun x => { x with idle := x.timer (t.liveJobs w) true })
  windows : ∀ w, j.work.slot? ≠ some w → t.window w = s.window w
  rest : { t with jobs := s.jobs, reservations := s.reservations, buffers := s.buffers, windows := s.windows, offer := s.offer } = s

theorem State.endJob_silent (s : State) (j : Job) (st : EndStatus) (r : EndReason) (d : Nat) :
    RemovedJob s (s.endJob j st r d false) j := by
  obtain ⟨ws, hw⟩ : ∃ ws, (((s.removeJob j).releaseJobBuffer j.work).dropReservation j).syncJobWindow j.work =
      { ((s.removeJob j).releaseJobBuffer j.work).dropReservation j with windows := ws } := by
    unfold State.syncJobWindow
    split
    · exact State.syncIdle_shape _ _ _
    · exact ⟨_, rfl⟩
  obtain ⟨bs, hb⟩ : ∃ bs, (s.removeJob j).releaseJobBuffer j.work = { s.removeJob j with buffers := bs } := by
    unfold State.releaseJobBuffer
    split <;> exact ⟨_, rfl⟩
  have e : s.endJob j st r d false =
      State.formOffer ((((s.removeJob j).releaseJobBuffer j.work).dropReservation j).syncJobWindow j.work) := rfl
  have win : ∀ w, (s.endJob j st r d false).window w =
      ((((s.removeJob j).releaseJobBuffer j.work).dropReservation j).syncJobWindow j.work).window w := fun _ => rfl
  have live : ∀ w, (s.endJob j st r d false).liveJobs w =
      (((s.removeJob j).releaseJobBuffer j.work).dropReservation j).liveJobs w := by
    intro w; rw [e, hw]; rfl
  have old : ∀ w, (((s.removeJob j).releaseJobBuffer j.work).dropReservation j).window w = s.window w := by
    intro w; rw [hb]; rfl
  have buf : ∀ b, (s.endJob j st r d false).buffer b = ((s.removeJob j).releaseJobBuffer j.work).buffer b := by
    intro b; rw [e, hw]; rfl
  refine ⟨?_, ?_, fun w a n b h => ?_, fun b h => ?_, fun w h => ?_, fun w h => ?_, ?_⟩
  · rw [e, hw, hb]; rfl
  · rw [e, hw, hb]; rfl
  · rw [buf]; unfold State.releaseJobBuffer; rw [h]; exact State.buffer_setBuffer_same _ _ _
  · rw [buf]; unfold State.releaseJobBuffer
    split
    · next c hc =>
      exact State.buffer_setBuffer_ne _ _ (fun hbc => h _ _ _ (by rw [hc, hbc]))
    · rfl
  · rw [win, live, ← old w]
    unfold State.syncJobWindow
    rw [h]
    dsimp only
    unfold State.syncIdle
    cases hx : (((s.removeJob j).releaseJobBuffer j.work).dropReservation j).window w with
    | none => dsimp only; rw [hx]; rfl
    | some x => dsimp only; exact State.window_setWindow_same _ _ _
  · rw [win, ← old w]
    unfold State.syncJobWindow
    split
    · next v hv =>
      unfold State.syncIdle
      split
      · rfl
      · exact State.window_setWindow_ne _ _ (fun hwv => h (by rw [hv, hwv]))
    · rfl
  · rw [e, hw, hb]; rfl

/-- The job ids of a list that has no two jobs with one id tell its jobs apart. -/
theorem job_eq_of_id {l : List Job} (h : (l.map Job.id).Nodup) {j k : Job} (hj : j ∈ l) (hk : k ∈ l) (e : j.id = k.id) :
    j = k := List.inj_on_of_nodup_map h hj hk e

/-- Several jobs are removed without notice, oldest first: what changes, field by field. -/
structure RemovedJobs (s t : State) (l : List Job) : Prop where
  jobs : t.jobs = s.jobs.filter (fun k => !l.any (fun j => j.id == k.id))
  reservations : t.reservations = s.reservations.filter (fun r => !l.any (fun j => j.id == r.job))
  freed : ∀ b, (∃ j ∈ l, ∃ w a n, j.work = .program w a n b) → t.buffer b = { s.buffer b with state := .free }
  buffers : ∀ b, (∀ j ∈ l, ∀ w a n, j.work ≠ .program w a n b) → t.buffer b = s.buffer b
  windows : ∀ w, t.window w = (s.window w).map (fun x =>
    if l.any (fun j => j.work.slot? == some w) then { x with idle := x.timer (t.liveJobs w) true } else x)
  rest : { t with jobs := s.jobs, reservations := s.reservations, buffers := s.buffers, windows := s.windows, offer := s.offer } = s

theorem RemovedJobs.foldl (st : EndStatus) (r : EndReason) (d : Nat) (l : List Job) : ∀ s : State, s.JobIdsDistinct → l.Sublist s.jobs →
    RemovedJobs s (l.foldl (fun s j => s.endJob j st r d false) s) l := by
  induction l with
  | nil =>
    intro s _ _
    refine ⟨by simp, by simp, fun b h => ?_, fun _ _ => rfl, fun w => by simp, rfl⟩
    obtain ⟨j, hj, _⟩ := h
    simp at hj
  | cons j l ih =>
    intro s hd hl
    have one := s.endJob_silent j st r d
    have dist : ((j :: l).map Job.id).Nodup := hd.sublist (hl.map Job.id)
    have ne : ∀ k ∈ l, (k.id != j.id) = true := fun k hk => by
      have := (List.nodup_cons.1 dist).1
      simp only [bne_iff_ne, ne_eq]
      exact fun e => this (e ▸ List.mem_map_of_mem hk)
    have hl' : l.Sublist (s.endJob j st r d false).jobs := by
      rw [one.jobs]
      have := ((List.sublist_cons_self j l).trans hl).filter (fun k => k.id != j.id)
      rwa [List.filter_eq_self.2 ne] at this
    have hd' : (s.endJob j st r d false).JobIdsDistinct := by
      unfold State.JobIdsDistinct
      rw [one.jobs]
      exact hd.sublist (List.filter_sublist.map Job.id)
    have more := ih _ hd' hl'
    rw [List.foldl_cons]
    generalize (s.endJob j st r d false) = u at *
    generalize l.foldl (fun s j => s.endJob j st r d false) u = t at *
    refine ⟨?_, ?_, fun b h => ?_, fun b h => ?_, fun w => ?_, ?_⟩
    · rw [more.jobs, one.jobs, List.filter_filter]
      refine List.filter_congr (fun k _ => ?_)
      simp only [List.any_cons, Bool.not_or]
      rw [Bool.and_comm]
      congr 1
      rw [bne, BEq.comm]
    · rw [more.reservations, one.reservations, List.filter_filter]
      refine List.filter_congr (fun k _ => ?_)
      simp only [List.any_cons, Bool.not_or]
      rw [Bool.and_comm]
      congr 1
      rw [bne, BEq.comm]
    · by_cases hin : ∃ k ∈ l, ∃ w a n, k.work = .program w a n b
      · rw [more.freed b hin]
        by_cases hj : ∃ w a n, j.work = .program w a n b
        · obtain ⟨w, a, n, hj⟩ := hj; rw [one.freed w a n b hj]
        · rw [one.buffers b (fun w a n e => hj ⟨w, a, n, e⟩)]
      · rw [more.buffers b (fun k hk w a n e => hin ⟨k, hk, w, a, n, e⟩)]
        obtain ⟨k, hk, w, a, n, e⟩ := h
        rcases List.mem_cons.1 hk with rfl | hk
        · exact one.freed w a n b e
        · exact absurd ⟨k, hk, w, a, n, e⟩ hin
    · rw [more.buffers b (fun k hk => h k (List.mem_cons_of_mem _ hk)), one.buffers b (h j (List.mem_cons_self))]
    · rw [more.windows w]
      simp only [List.any_cons]
      by_cases hin : l.any (fun k => k.work.slot? == some w) = true
      · simp only [hin, Bool.or_true, if_true]
        by_cases hj : j.work.slot? = some w
        · rw [one.synced w hj, Option.map_map]
          congr 1
          funext x
          simp only [Function.comp, Window.timer_reload]
          rfl
        · rw [one.windows w hj]
      · simp only [hin, Bool.or_false, Bool.false_eq_true, if_false, Option.map_id']
        by_cases hj : j.work.slot? = some w
        · rw [one.synced w hj]
          have same : t.liveJobs w = u.liveJobs w := by
            unfold State.liveJobs
            rw [more.jobs, List.filter_filter]
            congr 1
            refine List.filter_congr (fun k hk => ?_)
            by_cases hs : (k.work.slot? == some w) = true
            · simp only [hs, Bool.true_and, Bool.not_eq_true']
              rw [← Bool.not_eq_true]
              intro hany
              obtain ⟨i, hi, e⟩ := List.any_eq_true.1 hany
              have := job_eq_of_id hd' (hl'.subset hi) hk (by simpa using e)
              exact hin (List.any_eq_true.2 ⟨i, hi, by rw [this]; exact hs⟩)
            · simp [hs]
          rw [same]
          simp [hj]
        · rw [one.windows w hj]
          simp [hj]
    · have a := more.rest
      have b := one.rest
      cases s; cases t; cases u
      simp only [State.mk.injEq] at a b ⊢
      simp_all

/-! ### The staging buffers (R112) -/

theorem State.clearBuffers_eq (s : State) (p : Port) : (∃ bs, s.clearBuffers p = { s with buffers := bs }) ∧
    ∀ b, (s.clearBuffers p).buffer b =
      if s.fillingFor b p = true then { s.buffer b with state := .free } else s.buffer b := by
  have key : ∀ (l : List BufferNo) (u : State),
      (∃ bs, l.foldl (fun s b => if s.fillingFor b p then s.freeBuffer b else s) u = { u with buffers := bs }) ∧
      ∀ b, (l.foldl (fun s b => if s.fillingFor b p then s.freeBuffer b else s) u).buffer b =
        if b ∈ l ∧ u.fillingFor b p = true then { u.buffer b with state := .free } else u.buffer b := by
    intro l
    induction l with
    | nil => intro u; exact ⟨⟨_, rfl⟩, fun b => by simp⟩
    | cons c l ih =>
      intro u
      rw [List.foldl_cons]
      by_cases hc : u.fillingFor c p = true
      · rw [if_pos hc]
        obtain ⟨⟨bs, e⟩, hb⟩ := ih (u.freeBuffer c)
        refine ⟨⟨bs, by rw [e]; rfl⟩, fun b => ?_⟩
        rw [hb]
        by_cases ebc : b = c
        · subst ebc
          have : (u.freeBuffer b).fillingFor b p = false := by
            unfold State.fillingFor State.freeBuffer
            rw [State.buffer_setBuffer_same]
          rw [this]
          simp [hc, State.freeBuffer]
        · have h1 : (u.freeBuffer c).buffer b = u.buffer b := State.buffer_setBuffer_ne _ _ ebc
          have h2 : (u.freeBuffer c).fillingFor b p = u.fillingFor b p := by unfold State.fillingFor; rw [h1]
          rw [h1, h2]
          simp [ebc]
      · rw [if_neg hc]
        obtain ⟨⟨bs, e⟩, hb⟩ := ih u
        refine ⟨⟨bs, e⟩, fun b => ?_⟩
        rw [hb]
        by_cases ebc : b = c
        · subst ebc; simp [hc]
        · simp [ebc]
  obtain ⟨h, hb⟩ := key allBuffers s
  refine ⟨h, fun b => ?_⟩
  have m : b ∈ allBuffers := by revert b; decide
  have := hb b
  simp only [m, true_and] at this
  exact this

/-! ### The link (R16) -/

/-- A port clear of the link whose framer is in HUNT: what it leaves, with a frame in transmission where one has begun. -/
theorem State.clearLink_eq (s : State) (p : Port) (ht : (s.port p).sending = true → (s.port p).output ≠ []) :
    let a := ((s.setFramer p .hunt).askTransmission p).modPort p PortLink.clear
    (∃ ps n, a = { s with ports := ps, freeCount := n }) ∧ (∀ q, q ≠ p → a.port q = s.port q) ∧
    ∃ begun : List OutFrame,
      ((begun = [] ∧ (s.port p).sending = false) ∨ ∃ g rest, (s.port p).output = g :: rest ∧
        begun = [{ g with kind := if g.kind = .answer then .orphan else g.kind }]) ∧
      a.port p =
        { framer := .hunt, inbound := [], engine := .waiting, request := none, output := begun, sending := !begun.isEmpty
          txBytes := if begun ≠ [] ∧ (s.port p).sending = false then [] else (s.port p).txBytes
          txLeft := if begun ≠ [] ∧ (s.port p).sending = false then s.linkRate.gapTime else (s.port p).txLeft
          notices := [], overflow := false, atn := false, ready := (s.port p).ready } := by
  intro a
  have hp : (s.setFramer p .hunt).port p = { s.port p with framer := .hunt } := State.port_modPort_same _ _ _
  by_cases hb : (s.port p).output.isEmpty = true ∨ (s.port p).sending = true
  · have ha : a = (s.setFramer p .hunt).modPort p PortLink.clear := by
      show State.modPort (State.askTransmission _ _) _ _ = _
      unfold State.askTransmission
      rw [if_pos (by rw [hp]; simpa using hb)]
    refine ⟨⟨_, _, ha⟩, fun q hq => ?_, ?_⟩
    · rw [ha, State.port_modPort_ne _ _ hq]; exact State.port_modPort_ne _ _ hq
    · rw [ha, State.port_modPort_same, hp]
      generalize s.port p = l at *
      rcases l with ⟨_, _, _, _, out, sending, _, _, _, _, _, _⟩
      cases sending with
      | false => exact ⟨[], .inl ⟨rfl, rfl⟩, rfl⟩
      | true =>
        cases out with
        | nil => exact absurd rfl (ht rfl)
        | cons g rest => exact ⟨_, .inr ⟨g, rest, rfl, rfl⟩, rfl⟩
  · have ho : (s.port p).output.isEmpty = false := by
      cases h : (s.port p).output.isEmpty <;> simp_all
    have hs : (s.port p).sending = false := by
      cases h : (s.port p).sending <;> simp_all
    cases hf : Config.transmissionBegun s.freeCount with
    | true =>
      have ha : a = (((s.setFramer p .hunt).modPort p (PortLink.beginFrame s.linkRate)).drawn).modPort p PortLink.clear := by
        show State.modPort (State.askTransmission _ _) _ _ = _
        unfold State.askTransmission
        rw [if_neg (by rw [hp]; simp [ho, hs])]
        rw [show (s.setFramer p .hunt).freeCount = s.freeCount from rfl, if_pos hf]
        rfl
      refine ⟨⟨_, _, ha⟩, fun q hq => ?_, ?_⟩
      · rw [ha, State.port_modPort_ne _ _ hq]
        show ((s.setFramer p .hunt).modPort p _).port q = _
        rw [State.port_modPort_ne _ _ hq]; exact State.port_modPort_ne _ _ hq
      · rw [ha, State.port_modPort_same]
        rw [show (((s.setFramer p .hunt).modPort p (PortLink.beginFrame s.linkRate)).drawn).port p =
          PortLink.beginFrame s.linkRate ((s.setFramer p .hunt).port p) from State.port_modPort_same _ _ _, hp]
        generalize s.port p = l at *
        rcases l with ⟨_, _, _, _, out, sending, _, _, _, _, _, _⟩
        dsimp only at ho hs
        subst hs
        cases out with
        | nil => simp at ho
        | cons g rest => exact ⟨_, .inr ⟨g, rest, rfl, rfl⟩, rfl⟩
    | false =>
      have ha : a = ((s.setFramer p .hunt).drawn).modPort p PortLink.clear := by
        show State.modPort (State.askTransmission _ _) _ _ = _
        unfold State.askTransmission
        rw [if_neg (by rw [hp]; simp [ho, hs])]
        rw [show (s.setFramer p .hunt).freeCount = s.freeCount from rfl, if_neg (by simp [hf])]
      refine ⟨⟨_, _, ha⟩, fun q hq => ?_, ?_⟩
      · rw [ha, State.port_modPort_ne _ _ hq]
        show (s.setFramer p .hunt).port q = _
        exact State.port_modPort_ne _ _ hq
      · rw [ha, State.port_modPort_same]
        rw [show (s.setFramer p .hunt).drawn.port p = (s.setFramer p .hunt).port p from rfl, hp]
        generalize s.port p = l at *
        rcases l with ⟨_, _, _, _, out, sending, _, _, _, _, _, _⟩
        dsimp only at ho hs
        subst hs
        exact ⟨[], .inl ⟨rfl, rfl⟩, rfl⟩

/-! ### The whole port clear -/

/-- The link, the buffers and the job list (R16, R112, R137). -/
theorem State.clearedToJobs (s : State) (p : Port) (hd : s.JobIdsDistinct)
    (ht : (s.port p).sending = true → (s.port p).output ≠ []) :
    ∃ v, ClearedToJobs s v p ∧
      (((((s.setFramer p .hunt).askTransmission p).modPort p PortLink.clear).clearBuffers p).clearJobs p) = v.arbitrate := by
  obtain ⟨⟨ps, n, ha⟩, other, begun, hbegun, hport⟩ := s.clearLink_eq p ht
  obtain ⟨⟨bs, hb⟩, buf⟩ := State.clearBuffers_eq (((s.setFramer p .hunt).askTransmission p).modPort p PortLink.clear) p
  generalize ((s.setFramer p .hunt).askTransmission p).modPort p PortLink.clear = a at *
  generalize a.clearBuffers p = u at *
  have uj : u.jobs = s.jobs := by rw [hb, ha]
  have sub : (u.jobs.filter (fun j => j.clearedWith p)).Sublist u.jobs := List.filter_sublist
  have rm := RemovedJobs.foldl .cancelled .none 0 _ u (by unfold State.JobIdsDistinct; rw [uj]; exact hd) sub
  refine ⟨(((u.jobs.filter (fun j => j.clearedWith p)).foldl (fun s j => s.endJob j .cancelled .none 0 false) u).formOffer), ?_, rfl⟩
  generalize ((u.jobs.filter (fun j => j.clearedWith p)).foldl (fun s j => s.endJob j .cancelled .none 0 false) u) = t at *
  have tp : t.ports = ps := by have := congrArg State.ports rm.rest; rw [hb, ha] at this; exact this
  have tport : ∀ q, t.formOffer.port q = a.port q := by
    intro q
    have : a.ports = ps := by rw [ha]
    show t.ports.get q = a.ports.get q
    rw [tp, this]
  have any_iff : ∀ (P : Job → Bool), (u.jobs.filter (fun j => j.clearedWith p)).any P = s.jobs.any (fun j => j.clearedWith p && P j) := by
    intro P; rw [List.any_filter, uj]
  have fill : ∀ b, a.fillingFor b p = s.fillingFor b p := by intro b; rw [ha]; rfl
  have abuf : ∀ b, a.buffer b = s.buffer b := by intro b; rw [ha]; rfl
  have mem : ∀ j, j ∈ u.jobs.filter (fun j => j.clearedWith p) ↔ j ∈ s.jobs ∧ j.clearedWith p = true := by
    intro j; rw [List.mem_filter, uj]
  have tjobs : t.jobs = s.jobs.filter (fun j => !j.clearedWith p) := by
    rw [rm.jobs, uj]
    refine List.filter_congr (fun k hk => ?_)
    congr 1
    refine Bool.eq_iff_iff.2 ⟨fun h => ?_, fun h => ?_⟩
    · obtain ⟨j, hj, e⟩ := List.any_eq_true.1 h
      rw [← uj] at hj
      obtain ⟨hj, hc⟩ := (mem j).1 hj
      rw [← job_eq_of_id hd hj hk (by simpa using e)]
      exact hc
    · exact List.any_eq_true.2 ⟨k, by rw [← uj]; exact (mem k).2 ⟨hk, h⟩, by simp⟩
  refine ⟨⟨begun, hbegun, ?_⟩, fun q hq => ?_, fun b h => ?_, fun b h1 h2 => ?_, tjobs, ?_, fun w => ?_, rfl, ?_⟩
  · rw [tport]; exact hport
  · rw [tport]; exact other q hq
  · show t.buffer b = _
    by_cases hj : ∃ j ∈ u.jobs.filter (fun j => j.clearedWith p), ∃ w a n, j.work = .program w a n b
    · rw [rm.freed b hj, buf, abuf]; split <;> rfl
    · rw [rm.buffers b (fun j hj' w a n e => hj ⟨j, hj', w, a, n, e⟩), buf, fill, abuf]
      rcases h with h | ⟨j, hj1, hc, w, a, n, e⟩
      · rw [if_pos h]
      · exact absurd ⟨j, (mem j).2 ⟨hj1, hc⟩, w, a, n, e⟩ hj
  · show t.buffer b = _
    rw [rm.buffers b (fun j hj => h2 j ((mem j).1 hj).1 ((mem j).1 hj).2), buf, fill, abuf, if_neg (by simp [h1])]
  · show t.reservations = _
    rw [rm.reservations]
    rw [show u.reservations = s.reservations by rw [hb, ha]]
    refine List.filter_congr (fun r _ => ?_)
    rw [any_iff]
  · show t.window w = _
    rw [rm.windows w, any_iff]
    rw [show u.window w = s.window w by rw [hb, ha]; rfl]
    congr 1
    funext x
    have live : (0 < t.liveJobs w) = ((t.formOffer.jobs.any (fun j => j.work.slot? == some w)) = true) := by
      show (0 < (t.jobs.filter _).length) = (t.jobs.any _ = true)
      rw [eq_iff_iff, List.length_pos_iff_exists_mem, List.any_eq_true]
      simp [List.mem_filter]
    simp only [Window.timer_reload, live]
    rfl
  · have r := rm.rest
    rw [hb, ha] at r
    cases s; cases t
    simp only [State.formOffer, State.mk.injEq] at r ⊢
    simp_all

theorem State.clearPort_eq (s : State) (p : Port) (hd : s.JobIdsDistinct)
    (ht : (s.port p).sending = true → (s.port p).output ≠ []) :
    ∃ v, ClearedToJobs s v p ∧ (s.setFramer p .hunt).clearPort p =
      (State.clearWatched { v.arbitrate with holds := s.holds.filter (fun h => h.requester != p) } p).clearReads p := by
  obtain ⟨v, hv, e⟩ := s.clearedToJobs p hd ht
  refine ⟨v, hv, ?_⟩
  have hh : v.arbitrate.holds = s.holds := by
    obtain ⟨_, _, _, _, _, _, _, _, _, _, _, h⟩ := ArrayShape.arbitrate v
    have := congrArg State.holds hv.2.2.2.2.2.2.2.2
    rw [h]
    exact this
  unfold State.clearPort
  dsimp only
  rw [e]
  unfold State.clearOwnHold
  rw [hh]

end Sys2Proof.Machine
end

