-- ==== Sys2Proof/Laws/Ids.lean ====
section
/-! SUPPORT. What the search for a hold id or a job id finds: the first value, from the offered one on, that is not in use
(R87, R115). -/

namespace Sys2Proof.Machine

theorem idFrom_succ (first : Byte) (n : Nat) : idFrom first (n + 1) = idAfter (idFrom first n) := rfl

theorem idFrom_idAfter (first : Byte) (n : Nat) : idFrom (idAfter first) n = idFrom first (n + 1) := by
  induction n with
  | zero => rfl
  | succ n ih => rw [idFrom_succ, ih]; rfl

theorem idAfter_toNat (id : Byte) : (idAfter id).toNat = id.toNat % 255 + 1 := by
  unfold idAfter
  split
  · next h => rw [h]; rfl
  · next h =>
    have : id.toNat ≠ 255 := fun e => h (BitVec.eq_of_toNat_eq e)
    have := id.isLt
    simp [BitVec.toNat_add]
    omega

/-- The ids after the first go round 1 to 255. -/
theorem idFrom_toNat (first : Byte) (n : Nat) : (idFrom first (n + 1)).toNat = (first.toNat + n) % 255 + 1 := by
  induction n with
  | zero => exact idAfter_toNat first
  | succ n ih => rw [idFrom_succ, idAfter_toNat, ih]; omega

/-- No id comes back within 255 places. -/
theorem idFrom_ne (first : Byte) {a b : Nat} (h : a < b) (hb : b < 255) : idFrom first a ≠ idFrom first b := by
  intro e
  have e' := congrArg BitVec.toNat e
  have := first.isLt
  cases b with
  | zero => omega
  | succ b =>
    rw [idFrom_toNat] at e'
    cases a with
    | zero => simp only [idFrom] at e'; omega
    | succ a => rw [idFrom_toNat] at e'; omega

/-- What the search for an id finds: the first of the ids from `first` on that is not in use, if its fuel lasts. -/
theorem freshId_eq (used : List Byte) (n : Nat) (first : Byte) : ∃ k, k ≤ n ∧ freshId used n first = idFrom first k ∧
    (∀ m, m < k → idFrom first m ∈ used) ∧ (k < n → idFrom first k ∉ used) := by
  induction n generalizing first with
  | zero => exact ⟨0, Nat.le_refl _, rfl, fun _ h => absurd h (Nat.not_lt_zero _), fun h => absurd h (Nat.not_lt_zero _)⟩
  | succ n ih =>
    unfold freshId
    split
    · next h =>
      obtain ⟨k, hk, e, before, after⟩ := ih (idAfter first)
      rw [idFrom_idAfter] at e after
      refine ⟨k + 1, Nat.succ_le_succ hk, e, fun m hm => ?_, fun h => after (Nat.lt_of_succ_lt_succ h)⟩
      cases m with
      | zero => simpa [idFrom] using h
      | succ m => rw [← idFrom_idAfter]; exact before m (Nat.lt_of_succ_lt_succ hm)
    · next h => exact ⟨0, Nat.zero_le _, rfl, fun _ h => absurd h (Nat.not_lt_zero _), fun _ => by simpa [idFrom] using h⟩

/-- R87, R115: with fewer than 255 ids in use, the search finds the first that is free. -/
theorem freshId_firstFree {used : List Byte} (h : used.length < 255) (first : Byte) :
    FirstFree used first (freshId used used.length first) := by
  obtain ⟨k, hk, e, before, after⟩ := freshId_eq used used.length first
  refine ⟨?_, k, e, before⟩
  rw [e]
  by_cases hlt : k < used.length
  · exact after hlt
  · intro hin
    have ek : k = used.length := by omega
    have all : ∀ m, m < used.length + 1 → idFrom first m ∈ used := fun m hm => by
      by_cases hm' : m = k
      · rw [hm']; exact hin
      · exact before m (by omega)
    have nd : ((List.range (used.length + 1)).map (idFrom first)).Nodup := by
      refine List.Nodup.map_on (fun a ha b hb e => ?_) List.nodup_range
      simp only [List.mem_range] at ha hb
      rcases Nat.lt_trichotomy a b with l | l | l
      · exact absurd e (idFrom_ne first l (by omega))
      · exact l
      · exact absurd e.symm (idFrom_ne first l (by omega))
    have sub : ((List.range (used.length + 1)).map (idFrom first)) ⊆ used := fun x hx => by
      obtain ⟨m, hm, rfl⟩ := List.mem_map.1 hx
      exact all m (List.mem_range.1 hm)
    have := (nd.subperm sub).length_le
    simp at this

theorem State.newJobId_firstFree {s : State} (h : s.jobs.length < 255) :
    FirstFree (s.jobs.map Job.id) s.nextJobId s.newJobId := by
  have := freshId_firstFree (used := s.jobs.map Job.id) (by simpa using h) s.nextJobId
  rwa [List.length_map] at this

theorem State.newHoldId_firstFree {s : State} (h : s.holds.length < 255) :
    FirstFree (s.holds.map Hold.id) s.nextHoldId s.newHoldId := by
  have := freshId_firstFree (used := s.holds.map Hold.id) (by simpa using h) s.nextHoldId
  rwa [List.length_map] at this

end Sys2Proof.Machine
end

