-- ==== Sys2Proof/Laws/PerInstr.lean ====
section
/-! SUPPORT. A statement about every command as syntax: the request kind that its row stands for is the one its TYPE code
names (Table 12.4), no response and no link error response carries that code (Table 12.1: a response carries the code plus
H'80), and a row that is no request is well formed as its operand types say. -/

namespace Sys2Proof.Laws.Request

open Sys2Proof.Machine

/-- A row that stands for a request kind is well formed, and the kind is the one that its TYPE code names, a code below H'80;
a row of an event is well formed but for a hold id of 0. -/
def Statement (i : Instr) : Prop :=
  (∀ p k, requestOf i = some (p, k) → i.wf = true ∧ ReqType.ofCode k.code = some k ∧ k.code.toNat < 0x80) ∧
    (i.wf = false → i = .holdLimitExpiry 0)

/-- Every TYPE code names its own kind. -/
theorem code_names_kind (k : ReqType) : ReqType.ofCode k.code = some k ∧ k.code.toNat < 0x80 := by
  cases k <;> decide

/-- A command whose well-formedness asks nothing. -/
theorem of_wf (i : Instr) (h : i.wf = true) : Statement i :=
  ⟨fun _ k _ => ⟨h, code_names_kind k⟩, fun e => by rw [h] at e; cases e⟩

theorem deviceReset : Statement .deviceReset := of_wf _ rfl

theorem resetRelease (admsel ratesel : BitVec 2) : Statement (.resetRelease admsel ratesel) := of_wf _ rfl

theorem recover : Statement .recover := of_wf _ rfl

theorem load : Statement .load := of_wf _ rfl

theorem ready : Statement .ready := of_wf _ rfl

theorem frameCheck (p : Port) : Statement (.frameCheck p) := of_wf _ rfl

theorem lengthAbandon (p : Port) : Statement (.lengthAbandon p) := of_wf _ rfl

theorem gapTimerExpiry (p : Port) : Statement (.gapTimerExpiry p) := of_wf _ rfl

theorem responseSent (p : Port) : Statement (.responseSent p) := of_wf _ rfl

theorem unknownType (p : Port) : Statement (.unknownType p) := of_wf _ rfl

theorem status (p : Port) : Statement (.status p) := of_wf _ rfl

theorem fetchNotices (p : Port) : Statement (.fetchNotices p) := of_wf _ rfl

theorem portClear (p : Port) : Statement (.portClear p) := of_wf _ rfl

theorem clrFallingEdge (p : Port) : Statement (.clrFallingEdge p) := of_wf _ rfl

theorem read (p : Port) : Statement (.read p) := of_wf _ rfl

theorem claimBuffer (p : Port) : Statement (.claimBuffer p) := of_wf _ rfl

theorem fill (p : Port) : Statement (.fill p) := of_wf _ rfl

theorem releaseBuffer (p : Port) : Statement (.releaseBuffer p) := of_wf _ rfl

theorem program (p : Port) : Statement (.program p) := of_wf _ rfl

theorem eraseSector (p : Port) : Statement (.eraseSector p) := of_wf _ rfl

theorem eraseWindow (p : Port) : Statement (.eraseWindow p) := of_wf _ rfl

theorem cancel (p : Port) : Statement (.cancel p) := of_wf _ rfl

theorem jobQuery (p : Port) : Statement (.jobQuery p) := of_wf _ rfl

theorem openLatch (p : Port) : Statement (.openLatch p) := of_wf _ rfl

theorem shutLatch (p : Port) : Statement (.shutLatch p) := of_wf _ rfl

theorem shutAll (p : Port) : Statement (.shutAll p) := of_wf _ rfl

theorem verdict (p : Port) : Statement (.verdict p) := of_wf _ rfl

theorem holdLimitExpiry (id : Byte) : Statement (.holdLimitExpiry id) :=
  ⟨fun _ _ h => by simp [requestOf] at h, fun e => by
    simp only [Instr.wf, bne_eq_false_iff_eq] at e
    rw [e]⟩

theorem describeWindow (p : Port) : Statement (.describeWindow p) := of_wf _ rfl

theorem listTorn (p : Port) : Statement (.listTorn p) := of_wf _ rfl

theorem listFuses (p : Port) : Statement (.listFuses p) := of_wf _ rfl

theorem defineWindow (p : Port) : Statement (.defineWindow p) := of_wf _ rfl

theorem modifyWindow (p : Port) : Statement (.modifyWindow p) := of_wf _ rfl

theorem undefineWindow (p : Port) : Statement (.undefineWindow p) := of_wf _ rfl

theorem saveTable (p : Port) : Statement (.saveTable p) := of_wf _ rfl

theorem lockTable (p : Port) : Statement (.lockTable p) := of_wf _ rfl

theorem freezeWindow (p : Port) : Statement (.freezeWindow p) := of_wf _ rfl

theorem setGuard (p : Port) : Statement (.setGuard p) := of_wf _ rfl

theorem setTiming (p : Port) : Statement (.setTiming p) := of_wf _ rfl

theorem guardLevelChange (g : GuardInput) (high : Bool) : Statement (.guardLevelChange g high) := of_wf _ rfl

theorem settleTimerExpiry (g : GuardInput) : Statement (.settleTimerExpiry g) := of_wf _ rfl

theorem idleTimerExpiry (w : Slot) : Statement (.idleTimerExpiry w) := of_wf _ rfl

theorem leaseExpiry (b : BufferNo) : Statement (.leaseExpiry b) := of_wf _ rfl

theorem resumeGapExpiry : Statement .resumeGapExpiry := of_wf _ rfl

theorem suspensionTaken : Statement .suspensionTaken := of_wf _ rfl

theorem readServiceCompletion : Statement .readServiceCompletion := of_wf _ rfl

theorem programStepCompletion : Statement .programStepCompletion := of_wf _ rfl

theorem sectorEraseCompletion : Statement .sectorEraseCompletion := of_wf _ rfl

theorem tableSaveCompletion : Statement .tableSaveCompletion := of_wf _ rfl

theorem fuseWriteCompletion : Statement .fuseWriteCompletion := of_wf _ rfl

theorem byteReceived (p : Port) (b : Byte) : Statement (.byteReceived p b) := of_wf _ rfl

end Sys2Proof.Laws.Request
end

