-- ==== Sys2Proof/Laws/Requests.lean ====
section
/-! SUPPORT. A request before its owner: what `exec` does with it, and what its answer changes. -/

namespace Sys2Proof.Machine

/-- A taken request that has passed the port checks is handed to its owner. -/
theorem State.onRequest_of_asks {s : State} {p : Port} {k : ReqType} {f : Frame} (h : s.Asks p k f)
    (owner : Frame → State → State) : s.onRequest k p owner = owner f (s.judging p) := by
  unfold State.onRequest
  rw [h.1]
  simp only [h.2.1, if_true, h.2.2]
  rfl

/-- A taken request that fails a port check is answered with its first failure. -/
theorem State.onRequest_refused {s : State} {p : Port} {k : ReqType} {f : Frame} {r : Result} (h : s.taken p = some f)
    (ht : f.type = k.code) (hc : k.portCheck f.body = some r) (owner : Frame → State → State) :
    s.onRequest k p owner = (s.judging p).answer p f r [] := by
  unfold State.onRequest
  rw [h]
  simp only [ht, if_true, hc]
  rfl

/-- What it is to have taken a request. -/
theorem State.taken_some {s : State} {p : Port} {f : Frame} (h : s.taken p = some f) :
    (s.port p).engine = .working ∧ (s.port p).request = some { frame := f, judged := false } := by
  unfold State.taken at h
  split at h
  · next r h1 h2 =>
    split at h
    · simp at h
    · next hj =>
      obtain ⟨fr, j⟩ := r
      simp only [Option.some.injEq] at h hj
      subst h
      refine ⟨h1, ?_⟩
      rw [h2]
      simp at hj
      rw [hj]
  · simp at h

theorem PerPort.get_set {α : Type} (v : PerPort α) (p q : Port) (x : α) :
    (v.set p x).get q = if q = p then x else v.get q := by
  cases p <;> cases q <;> rfl

theorem State.port_modPort (s : State) (p q : Port) (f : PortLink → PortLink) :
    (s.modPort p f).port q = if q = p then f (s.port p) else s.port q := by
  unfold State.port State.modPort
  rw [PerPort.get_set]

/-- The link of a port whose request is being judged. -/
theorem State.port_judging {s : State} {p : Port} {f : Frame} (h : s.taken p = some f) (q : Port) :
    (s.judging p).port q = if q = p then (s.port p).handed f else s.port q := by
  unfold State.judging
  rw [State.port_modPort]
  congr 1
  unfold PortLink.markJudged PortLink.handed
  rw [(State.taken_some h).2]
  rfl

theorem State.port_answer (s : State) (p q : Port) (f : Frame) (r : Result) (l : List Byte) :
    (s.answer p f r l).port q =
      if q = p then { s.port p with output := (s.port p).output ++ [f.response r l] } else s.port q := by
  unfold State.answer
  rw [State.port_modPort]
  rfl

theorem State.port_post (s : State) (p q : Port) (n : Notice) :
    (s.post p n).port q = if q = p then (s.port p).post n else s.port q := by
  unfold State.post
  rw [State.port_modPort]

/-- The answer to a request that is being judged. -/
theorem State.answer_judging {s : State} {p : Port} {f : Frame} (h : s.taken p = some f) (r : Result) (l : List Byte) :
    OnlyAnswers s ((s.judging p).answer p f r l) p f r l := by
  refine ⟨?_, rfl⟩
  show ((s.judging p).answer p f r l).ports = _
  refine PerPort.ext_get fun q => ?_
  have a := State.port_answer (s.judging p) p q f r l
  unfold State.port at a
  rw [a, PerPort.get_set]
  have b := State.port_judging h
  unfold State.port at b
  by_cases e : q = p
  · subst e
    simp only [if_true]
    rw [b]
    simp only [if_true]
    rfl
  · simp only [e, if_false]
    rw [b]
    simp only [e, if_false]

/-- A request that its owner refuses, or answers from the state as it stands. -/
theorem State.asks_answers {s : State} {p : Port} {k : ReqType} {f : Frame} (h : s.Asks p k f)
    {owner : Frame → State → State} {r : Result} {l : List Byte}
    (ho : owner f (s.judging p) = (s.judging p).answer p f r l) :
    OnlyAnswers s (s.onRequest k p owner) p f r l := by
  rw [State.onRequest_of_asks h, ho]
  exact State.answer_judging h.1 r l

end Sys2Proof.Machine
end

