-- ==== Sys2Proof/Tests/Slice0.lean ====
section
/-! SUPPORT. The model's own tests: worked examples of the spec on small states, and, for each statement with hypotheses,
concrete states and operands that meet them (theorems `meets_...`). -/

namespace Sys2Proof.Tests

open Sys2Proof Sys2Proof.Machine

/-! ### Small states -/

/-- Every port may read and write; no watch port, no traps, no guard. -/
def plain : Settings :=
  { readers := 0xF, writers := 0xF, watch := none, readTrap := .off, writeTrap := .off, holdDefault := .deny,
    idlePeriod := 5, idleCountsReads := false, guard := none }

/-- A window of two sectors from address 0. -/
def window (y : Settings) (isOpen : Bool) : Window :=
  { fields := { range := { base := 0, k := 13 }, settings := y }, latchOpen := isOpen,
    idle := if isOpen then .counting 100 else .stopped }

/-- A part that is READY, with the window as W0. -/
def ready (y : Settings) (isOpen : Bool) : State :=
  let l : PortLink := { PortLink.reset with ready := true }
  { State.reset with
    phase := .ready, resetHeld := false, guardsFollow := true, ports := { p0 := l, p1 := l, p2 := l, p3 := l }
    windows := (Vector.replicate 16 none).set 0 (some (window y isOpen)) }

/-- The frame of a request. -/
def frameOf (k : ReqType) (body : List Byte) : Frame := { type := k.code, tag := 7, body := body }

/-- The state in which the port has taken a request. -/
def asking (s : State) (p : Port) (k : ReqType) (body : List Byte) : State :=
  s.modPort p (fun l => { l with engine := .working, request := some { frame := frameOf k body, judged := false } })

/-- A job record. -/
def job (id : Byte) (work : JobWork) (state : JobState) : Job :=
  { id := id, owner := .p1, work := work, state := state, sectorsDone := 0, stopRequested := false, suspensions := 0 }

/-- The state with buffer B0 FILLING for P1. -/
def filled (s : State) (bytes : List Byte) : State :=
  s.setBuffer 0 { state := .filling .p1 bytes.length 500, data := Memory.writeRange [] 0 bytes }

/-- The state after a command. -/
def after (c : Instr) (s : State) : State :=
  match exec c s with
  | .next t => t
  | .fault _ => s
  | .refused _ => s

theorem test_crc_check_value : crcOf [0x31, 0x32, 0x33, 0x34, 0x35, 0x36, 0x37, 0x38, 0x39] = 0x29B1 := by decide +kernel

theorem test_wf_refuses_hold_id_zero : (Instr.holdLimitExpiry 0).wf = false ∧ (Instr.holdLimitExpiry 1).wf = true := by decide

theorem test_no_word_spells_a_command (n w : Nat) : decodeTableWord n w = none := rfl

theorem test_fetch_word_leaves_the_queue (n w : Nat) : State.reset.withFetchWord n w = State.reset := rfl


/-! ### Start-up -/

theorem test_release_samples_the_straps :
    (after (.resetRelease 0b01 0b10) State.reset).adminPort = .p1 ∧
    (after (.resetRelease 0b01 0b10) State.reset).linkRate = .baud921600 := by decide

/-- A marker PROGRAM of sector 5 found at start-up. -/
theorem test_recover_lists_the_torn_sector :
    after .recover { State.reset with resetHeld := false, marker := some (.program 5) } =
      { State.reset with resetHeld := false, torn := [{ sector := 5, cause := .program }], recovery := .torn 5 .program,
                         phase := .load } := by decide

theorem test_load_samples_a_low_pin_as_active :
    (after .load { State.reset with phase := .load, guards := { g0 := { high := false, input := .inactive }, g1 := .reset } }).guards =
      { g0 := { high := false, input := .active }, g1 := { high := true, input := .inactive } } := by decide

theorem test_ready_posts_started :
    ((after .ready { State.reset with phase := .load, guardsFollow := true }).port .p3).notices = [.started .blank 0 0 .none] ∧
    ((after .ready { State.reset with phase := .load, guardsFollow := true }).port .p3).atn = true := by decide

theorem test_device_reset_frees_the_buffers :
    ((after .deviceReset (filled (ready plain true) [1, 2])).buffer 0) = { state := .free, data := [] } := by decide

/-! ### Port links -/

/-- A frame of STATUS with its LEN and content, and a running CRC of 0. -/
def assembly (len content crc : List Byte) : Assembly :=
  { lenBytes := len, content := content, crcBytes := crc, crc := 0, gapLeft := 9 }

/-- The state with the framer of P1 as given. -/
def framing (x : Framer) : State := (ready plain true).setFramer .p1 x

theorem test_sync_byte_begins_a_frame :
    ((after (.byteReceived .p1 0xC5) (framing .hunt)).port .p1).framer =
      .length { lenBytes := [], content := [], crcBytes := [], crc := 0xFFFF, gapLeft := 5000 } := by decide

theorem test_length_of_one_is_abandoned :
    ((after (.lengthAbandon .p1) (framing (.length (assembly [0, 1] [] [])))).port .p1).framer = .hunt := by decide

theorem test_gap_expiry_abandons_the_frame :
    ((after (.gapTimerExpiry .p1) (framing (.body (assembly [0, 2] [1] [])))).port .p1).framer = .hunt := by decide

theorem test_good_frame_is_taken :
    ((after (.frameCheck .p1) (framing (.check (assembly [0, 2] [1, 9] [0, 0])))).port .p1).request =
      some { frame := { type := 1, tag := 9, body := [] }, judged := false } := by decide

theorem test_bad_frame_is_answered :
    ((after (.frameCheck .p1) (framing (.check (assembly [0, 2] [1, 9] [0, 1])))).port .p1).output =
      [{ kind := .linkError, type := 0xFF, tag := 0, body := [0x10] }] := by decide

theorem test_sent_response_takes_the_next_request :
    ((after (.responseSent .p1) ((ready plain true).modPort .p1 (fun l =>
      { l with engine := .working, output := [{ kind := .answer, type := 0x81, tag := 1, body := [0] }],
               inbound := [frameOf .status []] }))).port .p1).request =
      some { frame := frameOf .status [], judged := false } := by decide

theorem test_unknown_type :
    ((after (.unknownType .p1) ((ready plain true).modPort .p1 (fun l =>
      { l with engine := .working, request := some { frame := { type := 0x13, tag := 7, body := [] }, judged := false } }))).port
        .p1).output = [{ kind := .answer, type := 0x80, tag := 7, body := [0x13] }] := by decide

theorem test_status :
    ((after (.status .p1) (asking (ready plain true) .p1 .status [])).port .p1).output =
      [{ kind := .answer, type := 0x81, tag := 7, body := [0, 0, 0, 0, 0, 4, 0, 0, 0, 0, 0] }] := by decide

theorem test_fetch_notices :
    ((after (.fetchNotices .p1) ((asking (ready plain true) .p1 .fetchNotices [8]).post .p1 (.bufferExpired 2))).port .p1).output =
      [{ kind := .answer, type := 0x8D, tag := 7, body := [0, 1, 0, 6, 2, 0, 0, 0, 0, 0, 0, 0, 0, 0, 0, 0, 0, 0, 0] }] := by
  decide

theorem test_port_clear_frame_is_answered :
    ((after (.portClear .p1) (framing (.check (assembly [0, 2] [0x12, 9] [0, 0])))).port .p1).output =
      [{ kind := .portClear, type := 0x92, tag := 9, body := [0] }] := by decide

theorem test_clr_edge_frees_the_filling_buffer :
    ((after (.clrFallingEdge .p1) (filled (ready plain true) [1])).buffer 0).state = .free := by decide

/-- The bytes of a response on the line: SYNC, LEN, TYPE, TAG, body and CRC (Table 12.1). -/
theorem test_wire_of_a_response :
    OutFrame.wire { kind := .answer, type := 0x81, tag := 7, body := [0] } =
      [0xC5, 0x00, 0x03, 0x81, 0x07, 0x00] ++ be2 (crcOf [0x00, 0x03, 0x81, 0x07, 0x00]).toNat := by decide +kernel

/-- A response of eight bytes in transmission at P1, with as many bytes sent and as much time left as given. -/
def sending (sent left : Nat) : State :=
  let f : OutFrame := { kind := .answer, type := 0x81, tag := 7, body := [0] }
  (ready plain true).modPort .p1 (fun l =>
    { l with engine := .working, output := [f], sending := true, txBytes := f.wire.take sent, txLeft := left })

/-- At 115,200 baud a byte-time is 250 units, 5,000 parts; the second byte ends in the middle of a unit. -/
theorem test_a_byte_leaves_and_the_next_begins :
    ((sending 1 15).runDown.port .p1).txBytes = [0xC5, 0x00] ∧ ((sending 1 15).runDown.port .p1).txLeft = 4995 ∧
    ((sending 1 15).runDown.port .p1).txdIdle = false := by decide +kernel

theorem test_the_last_byte_ends_the_frame :
    ((sending 7 20).elapse.port .p1).output = [] ∧ ((sending 7 20).elapse.port .p1).engine = .waiting ∧
    ((sending 7 20).elapse.port .p1).txBytes.length = 8 ∧ ((sending 7 20).elapse.port .p1).txdIdle = true := by
  decide +kernel

/-- R1: the byte that has begun is the last; on a byte boundary none has. -/
theorem test_device_reset_cuts_the_frame_off :
    ((after .deviceReset (sending 3 4999)).port .p1).txBytes = [0xC5, 0x00, 0x03, 0x81] ∧
    ((after .deviceReset (sending 3 5000)).port .p1).txBytes = [0xC5, 0x00, 0x03] ∧
    ((after .deviceReset (sending 3 5000)).port .p1).txdIdle = true := by decide +kernel

/-! ### Buffers -/

theorem test_claim_takes_buffer_zero :
    ((after (.claimBuffer .p1) (asking (ready plain true) .p1 .claimBuffer [])).buffer 0).state = .filling .p1 0 14400000 := by
  decide

theorem test_fill_grows_the_extent :
    ((after (.fill .p1) (asking (filled (ready plain true) [1, 2]) .p1 .fill [0, 1, 9, 8])).buffer 0) =
      { state := .filling .p1 3 14400000, data := [(0, 1), (1, 9), (2, 8)] } := by decide

theorem test_release_frees :
    ((after (.releaseBuffer .p1) (asking (filled (ready plain true) [1]) .p1 .releaseBuffer [0])).buffer 0).state = .free := by
  decide

theorem test_lease_expiry_posts :
    ((after (.leaseExpiry 0) (filled (ready plain true) [1])).port .p1).notices = [.bufferExpired 0] := by decide

/-! ### Jobs and the array -/

theorem test_program_starts_at_once :
    (after (.program .p1) (asking (filled (ready plain true) [0x0F]) .p1 .program [0, 0x10, 0, 0])).arrayStep =
      some (.program 0x1000 1 0) ∧
    (after (.program .p1) (asking (filled (ready plain true) [0x0F]) .p1 .program [0, 0x10, 0, 0])).marker =
      some (.program 1) := by decide

theorem test_program_across_a_page_is_refused :
    ((after (.program .p1) (asking (filled (ready plain true) [1, 2]) .p1 .program [0, 0x10, 0xFF, 0])).port .p1).output =
      [{ kind := .answer, type := 0x86, tag := 7, body := [0x44] }] := by decide

theorem test_erase_sector_with_a_shut_latch_is_refused :
    ((after (.eraseSector .p1) (asking (ready plain false) .p1 .eraseSector [0, 1])).port .p1).output =
      [{ kind := .answer, type := 0x87, tag := 7, body := [0x36] }] := by decide

theorem test_erase_window_starts_with_the_lowest_sector :
    (after (.eraseWindow .p1) (asking (ready plain true) .p1 .eraseWindow [0])).arrayStep = some (.erase 0) := by decide

/-- A part whose array runs a step for job 1. -/
def running (work : JobWork) (step : ArrayStep) : State :=
  let s := ready plain true
  { s with
    jobs := [job 1 work .active], nextJobId := 2, arrayStep := some step, arrayOp := .running
    marker := some .save
    seq := { s.seq with arrayState := .run, lastGrant := .job, resumeGap := .running 4320 } }

/-- The same with the step's suspension requested, or the job SUSPENDED in an IDLE array. -/
def suspending : State :=
  let s := running (.eraseSector 0 1) (.erase 1)
  { s with arrayOp := .suspending, seq := { s.seq with resumeGap := .elapsed, suspendRequest := true } }

/-- A pending read of one byte of sector 0. -/
def oneRead : ReadRecord := { tag := 3, address := 5, length := 1, slot := 0 }

theorem test_cancel_of_a_running_erase_is_too_late :
    ((after (.cancel .p1) (asking (running (.eraseSector 0 1) (.erase 1)) .p1 .cancel [1])).port .p1).output =
      [{ kind := .answer, type := 0x89, tag := 7, body := [0x52] }] := by decide

theorem test_job_query :
    ((after (.jobQuery .p2) (asking (running (.eraseSector 0 1) (.erase 1)) .p2 .jobQuery [1])).port .p2).output =
      [{ kind := .answer, type := 0x8A, tag := 7, body := [0, 1, 7, 2, 1, 0, 0, 0, 0, 0, 0, 0] }] := by decide

theorem test_save_table_takes_the_capture :
    (after (.saveTable .p0) (asking (ready plain true) .p0 .saveTable [])).captureMark = .clean := by decide

theorem test_freeze_window_writes_slot_zero :
    (after (.freezeWindow .p0) (asking (ready plain true) .p0 .freezeWindow [0])).arrayStep =
      some (.fuse 0 { base := 0, k := 13 }) := by decide

/-- The ids 255 and 1 are in use: the offered 255 gives 2. -/
theorem test_job_ids_in_use_are_passed_over :
    State.newJobId { ready plain true with jobs := [job 255 .saveTable .queued, job 1 .saveTable .queued], nextJobId := 255 } = 2 ∧
    (after (.saveTable .p0) { asking (ready plain true) .p0 .saveTable [] with
      jobs := [job 255 (.eraseSector 0 1) .active, job 1 (.eraseSector 0 1) .queued], nextJobId := 255 }).nextJobId = 3 := by
  decide

theorem test_read_is_granted :
    (after (.read .p1) (asking (ready plain true) .p1 .read [0, 0, 5, 0, 1])).seq.arrayState = .read := by decide

theorem test_gap_expiry_requests_a_suspension :
    (after .resumeGapExpiry ((running (.eraseSector 0 1) (.erase 1)).addPending .p2 oneRead)).arrayOp = .suspending := by decide

theorem test_suspension_serves_the_read :
    (after .suspensionTaken (suspending.addPending .p2 oneRead)).seq.inService =
      some { port := .p2, record := oneRead, withdrawn := false } := by decide

theorem test_read_service_answers_with_the_torn_flag :
    ((after .readServiceCompletion { ready plain true with
      mem := [(5, 0xA7)], torn := [{ sector := 0, cause := .erase }]
      seq := { Sequencer.reset with
        arrayState := .read, inService := some { port := .p2, record := oneRead, withdrawn := false } } }).port .p2).output =
      [{ kind := .answer, type := 0x82, tag := 3, body := [0x00, 0x01, 0xA7] }] := by decide

theorem test_program_completion_ands_and_counts :
    (after .programStepCompletion
      { filled (running (.program 0 16 2 0) (.program 16 2 0)) [0x0F, 0xF0] with mem := [(16, 0x33)] }).mem =
      [(16, 0x03), (17, 0xF0)] ∧
    ((after .programStepCompletion
      { filled (running (.program 0 16 2 0) (.program 16 2 0)) [0x0F, 0xF0] with mem := [(16, 0x33)] }).port .p1).notices =
      [.jobEnd 1 .program .mismatch .none 1] := by decide

theorem test_erase_completion_clears_the_sector :
    (after .sectorEraseCompletion
      { running (.eraseSector 0 1) (.erase 1) with mem := [(4095, 1), (4096, 2), (8191, 3), (8192, 4)] }).mem =
      [(4095, 1), (8192, 4)] := by decide

theorem test_save_completion_after_an_edit_stays_unsaved :
    (after .tableSaveCompletion
      { running .saveTable (.save .empty) with tableState := .unsaved, captureMark := .edited }).tableState = .unsaved := by
  decide

theorem test_fuse_completion_writes_the_slot :
    (after .fuseWriteCompletion
      (running (.freezeWindow 0 { base := 0, k := 13 }) (.fuse 0 { base := 0, k := 13 }))).fuses.get 0 =
      { base := 0, k := 13 } := by decide

/-! ### Latches, holds, guard inputs, the window table -/

theorem test_open_latch_counts :
    (after (.openLatch .p1) (asking (ready plain false) .p1 .openLatch [0])).window 0 =
      some { window plain false with latchOpen := true, idle := .counting 14400000 } := by decide

theorem test_shut_latch_posts_to_the_writers :
    ((after (.shutLatch .p1) (asking (ready plain true) .p1 .shutLatch [0])).port .p3).notices = [.latchShut 0 .request] := by
  decide

theorem test_shut_all_counts_the_latches :
    ((after (.shutAll .p0) (asking (ready plain true) .p0 .shutAll [])).port .p0).output =
      [{ kind := .answer, type := 0xA8, tag := 7, body := [0, 1] }] := by decide

theorem test_idle_expiry_shuts :
    (after (.idleTimerExpiry 0) (ready plain true)).window 0 = some (window plain false) := by decide

/-- HOLD traps watched by P2. -/
def watched : Settings := { plain with watch := some .p2, readTrap := .hold, writeTrap := .hold }

/-- A hold of P1's READ, watched by P2. -/
def held : State :=
  let s := ready watched true
  { s.modPort .p1 (fun l => { l with engine := .held, request := some { frame := frameOf .read [0, 0, 5, 0, 1], judged := true } })
    with
    holds := [{ id := 1, requester := .p1, watch := .p2, slot := 0, kind := .read, request := frameOf .read [0, 0, 5, 0, 1],
                left := 77 }]
    nextHoldId := 2 }

theorem test_hold_trap_parks :
    ((after (.read .p1) (asking (ready watched true) .p1 .read [0, 0, 5, 0, 1])).port .p1).engine = .held := by decide

theorem test_deny_answers_denied :
    ((after (.verdict .p2) (asking held .p2 .verdict [1, 2])).port .p1).output =
      [{ kind := .answer, type := 0x82, tag := 7, body := [0x39] }] := by decide

theorem test_hold_timeout_posts :
    ((after (.holdLimitExpiry 1) held).port .p2).notices = [.holdTimeout 1 0 .p1 .deny] := by decide

theorem test_describe_window :
    ((after (.describeWindow .p1) (asking (ready plain true) .p1 .describeWindow [0])).port .p1).output =
      [{ kind := .answer, type := 0x8F, tag := 7,
         body := [0, 0, 0, 0, 13, 0x0F, 0x0F, 0xFF, 0, 0, 2, 5, 0, 0, 1, 1, 1, 0, 0, 0] }] := by decide

theorem test_list_torn :
    ((after (.listTorn .p1) { asking (ready plain true) .p1 .listTorn [] with torn := [{ sector := 258, cause := .erase }] }).port
      .p1).output = [{ kind := .answer, type := 0x90, tag := 7, body := [0, 1, 1, 2, 2] }] := by decide

theorem test_list_fuses :
    ((after (.listFuses .p1) { asking (ready plain true) .p1 .listFuses [] with
        fuses := (Vector.replicate 8 FuseSlot.blank).set 0 { base := 0x012000, k := 13 } }).port .p1).output =
      [{ kind := .answer, type := 0x91, tag := 7, body := [0, 1, 0, 0x01, 0x20, 0x00, 13, 0] }] := by decide

theorem test_define_window :
    (after (.defineWindow .p0) (asking (ready plain true) .p0 .defineWindow
      [15, 0x7F, 0xF0, 0x00, 12, 3, 1, 2, 1, 2, 1, 9, 1, 2])).window 15 =
      some { fields := { range := { base := 0x7FF000, k := 12 }
                         settings := { readers := 3, writers := 1, watch := some .p2, readTrap := .note, writeTrap := .hold,
                                       holdDefault := .allow, idlePeriod := 9, idleCountsReads := true, guard := some .g1 } }
             latchOpen := false, idle := .stopped } := by decide

theorem test_modify_window_shuts_the_latch :
    (after (.modifyWindow .p0) (asking (ready plain true) .p0 .modifyWindow [0, 15, 15, 0xFF, 0, 0, 2, 5, 0, 0])).window 0 =
      some (window plain false) := by decide

theorem test_undefine_window :
    (after (.undefineWindow .p0) (asking (ready plain true) .p0 .undefineWindow [0])).window 0 = none := by decide

theorem test_lock_table : (after (.lockTable .p0) (asking (ready plain true) .p0 .lockTable [])).locked = true := by decide

theorem test_set_timing :
    (after (.setTiming .p0) (asking (ready plain true) .p0 .setTiming [60, 250])).header =
      { Header.empty with leasePeriod := 60, holdLimit := 250 } := by decide

theorem test_set_guard_active_high_shuts_the_latch :
    (after (.setGuard .p0) (asking (ready { plain with guard := some .g0 } true) .p0 .setGuard [1, 1, 0])).window 0 =
      some (window { plain with guard := some .g0 } false) := by decide

theorem test_guard_level_settles :
    ((after (.guardLevelChange .g0 false) (ready plain true)).guardPin .g0) =
      { high := false, input := .settlingToActive 57600 } := by decide

theorem test_settle_expiry_posts_to_the_admin_port :
    ((after (.settleTimerExpiry .g0)
      ((ready plain true).setGuardPin .g0 { high := false, input := .settlingToActive 0 })).port .p0).notices =
      [.guardChange .g0 true] := by decide


/-- The first record of the worked example of section 12.6. -/
theorem test_job_end_record :
    (Notice.jobEnd 0x28 .eraseWindow .cancelled .none 3).record =
      [0x01, 0x28, 0x08, 0x03, 0x00, 0x00, 0x03, 0, 0, 0, 0, 0, 0, 0, 0, 0] := by decide

/-! ### The hypotheses of the statements are met -/

theorem of_none {α : Type} {o : Option α} {P : α → Prop} (h : o = none) : ∀ x, o = some x → P x := by
  intro x e
  rw [h] at e
  cases e

theorem of_some {α : Type} {o : Option α} {y : α} {P : α → Prop} (h : o = some y) (hp : P y) : ∀ x, o = some x → P x := by
  intro x e
  rw [h] at e
  cases e
  exact hp

/-- A state in which a timer of every kind has `n` units left: the gap of P1 in BODY and of P2 in LENGTH, both settle
timers, the idle timer of W0, the lease of B0, a hold and the resume gap. P3 is in CHECK, P0 in HUNT. -/
def ticking (n : Nat) : State :=
  { ((((ready plain true).setWindow 0 (some { window plain true with idle := .counting n })).setBuffer 0
      { state := .filling .p1 1 n, data := [] }).setFramer .p1 (.body { assembly [0, 2] [] [] with gapLeft := n })).setFramer .p2
        (.length { assembly [] [] [] with gapLeft := n }) with
    holds := [{ held.holds.headD { id := 1, requester := .p1, watch := .p2, slot := 0, kind := .read,
                                   request := frameOf .read [], left := 0 } with left := n }]
    guards := { g0 := { high := true, input := .settlingToActive n }, g1 := { high := true, input := .settlingToInactive n } }
    seq := { Sequencer.reset with resumeGap := .running n } }

/-- Only the idle timer of W0 runs, with `n` units left. -/
def idling (n : Nat) : State := (ready plain true).setWindow 0 (some { window plain true with idle := .counting n })

/-- The state with `n` link error responses in P1's output list. -/
def erring (n : Nat) (sending : Bool) : State :=
  (framing .hunt).modPort .p1 (fun l =>
    { l with output := List.replicate n { kind := .linkError, type := 0xFF, tag := 0, body := [0x10] }, sending := sending })

/-- Each kind of timer with 2 units left, none due after one; one due after one; transmitters with no frame, a frame not begun,
and a byte with 21 and 20 parts of time left; and each kind of timer due. -/
theorem meets_EmptyQueueLetsOneUnitOfTimePass :
    (ticking 2).pending = [] ∧ (ticking 2).window 0 = some { window plain true with idle := .counting 2 } ∧
    ((ticking 2).buffer 0).state = .filling .p1 1 2 ∧ (ticking 2).seq.resumeGap = .running 2 ∧
    ((ticking 2).guardPin .g0).input = .settlingToActive 2 ∧ ((ticking 2).guardPin .g1).input = .settlingToInactive 2 ∧
    ((ticking 2).port .p1).framer = .body { assembly [0, 2] [] [] with gapLeft := 2 } ∧
    ((ticking 2).port .p2).framer = .length { assembly [] [] [] with gapLeft := 2 } ∧ ((ticking 2).port .p1).output = [] ∧
    (∀ m ∈ (ticking 2).runDown.timers, (ticking 2).runDown.isDue m = false) ∧
    (idling 1).pending = [] ∧ (idling 1).runDown.timers.filter (idling 1).runDown.isDue = [.idle 0] ∧
    (((erring 1 false).port .p1).output ≠ [] ∧ ((erring 1 false).port .p1).sending = false) ∧
    (((sending 1 21).port .p1).sending = true ∧ 20 < ((sending 1 21).port .p1).txLeft) ∧
    (((sending 1 20).port .p1).sending = true ∧ ((sending 1 20).port .p1).txLeft ≤ 20) ∧
    (∀ m ∈ [Timer.gap .p1, .gap .p2, .settle .g0, .settle .g1, .idle 0, .lease 0, .hold 1, .resume],
      (ticking 0).isDue m = true ∧ (ticking 1).isDue m = false) ∧
    (sending 8 1).isDue (.frame .p1) = true ∧ (sending 7 1).isDue (.frame .p1) = false := by decide +kernel

theorem meets_RequestRowWithoutItsRequestChangesNothing :
    (requestOf (.read .p1) = some (.p1, .read) ∧
      (∀ f, (ready plain true).taken .p1 = some f → f.type ≠ ReqType.read.code) ∧
      (∀ f, (asking (ready plain true) .p1 .status []).taken .p1 = some f → f.type ≠ ReqType.read.code)) ∧
    (requestOf (.portClear .p1) = some (.p1, .portClear) ∧
      (∀ f, (ready plain true).taken .p1 = some f → f.type ≠ ReqType.portClear.code) ∧
      ∀ a, ((ready plain true).port .p1).framer ≠ .check a) ∧
    ∀ f, (asking (ready plain true) .p1 .status []).taken .p1 = some f → ReqType.ofCode f.type ≠ none :=
  ⟨⟨rfl, of_none rfl, of_some rfl (by decide)⟩, ⟨rfl, of_none rfl, fun a h => by cases h⟩, of_some rfl (by decide)⟩

/-- The entry of sector 1, as a fuse write programs it. -/
def entry : FuseSlot := { base := 0x001000, k := 12 }

/-- Start-up about to begin RECOVER with a marker. -/
def marked (m : Option Marker) : State := { State.reset with resetHeld := false, marker := m }

/-- A device reset outside RECOVER; in RECOVER without a marker, with each kind of marker, and with a fuse slot at the end of the
list; and a frame in transmission inside a byte and on a boundary. -/
theorem meets_DeviceResetTakesResetValues :
    (State.reset.arrayStep = none ∧ ¬(State.reset.phase = .recover ∧ State.reset.resetHeld = false)) ∧
    (∀ m, (marked m).arrayStep = none ∧ (marked m).phase = .recover ∧ (marked m).resetHeld = false ∧ (marked m).marker = m ∧
      ∃ r, exec .recover (marked m) = .next r) ∧
    ((marked (some (.freeze 7 entry))).marker = some (.freeze (7 : Fin 8).val entry)) ∧
    (((sending 3 4999).port .p1).sending = true ∧ ((sending 3 4999).port .p1).txLeft < (sending 3 4999).linkRate.gapTime) ∧
    ¬((sending 3 5000).port .p1).txLeft < (sending 3 5000).linkRate.gapTime :=
  ⟨by decide, fun m => ⟨rfl, rfl, rfl, rfl, _, rfl⟩, rfl, by decide, by decide⟩

theorem meets_DeviceResetInterruptsTheStep :
    ((running (.program 0 0 256 0) (.program 0 256 0)).mem.wf = true ∧
      (running (.program 0 0 256 0) (.program 0 256 0)).phase = .ready ∧
      (running (.program 0 0 256 0) (.program 0 256 0)).arrayStep = some (.program 0 256 0)) ∧
    ((running (.eraseSector 0 2047) (.erase 2047)).mem.wf = true ∧
      (running (.eraseSector 0 2047) (.erase 2047)).phase = .ready ∧
      (running (.eraseSector 0 2047) (.erase 2047)).arrayStep = some (.erase 2047)) ∧
    ((running .saveTable (.save .empty)).mem.wf = true ∧ (running .saveTable (.save .empty)).phase = .ready ∧
      (running .saveTable (.save .empty)).arrayStep = some (.save .empty)) ∧
    ((running (.freezeWindow 0 { base := 0x1000, k := 12 }) (.fuse 7 entry)).mem.wf = true ∧
      (running (.freezeWindow 0 { base := 0x1000, k := 12 }) (.fuse 7 entry)).phase = .ready ∧
      (running (.freezeWindow 0 { base := 0x1000, k := 12 }) (.fuse 7 entry)).arrayStep = some (.fuse (7 : Fin 8).val entry) ∧
      (running (.freezeWindow 0 { base := 0x1000, k := 12 }) (.fuse 7 entry)).fuses.get 7 = { base := 0xFFFFFF, k := 0xFF }) := by
  decide

theorem meets_ReleaseOfResetSamplesTheStraps :
    State.reset.resetHeld = true ∧ (ready plain true).resetHeld = false := by decide

theorem meets_RecoverActsOnTheMarker :
    (∀ m, (marked m).phase = .recover ∧ (marked m).resetHeld = false ∧ (marked m).marker = m) ∧
    (marked none).marker = none ∧ (marked (some (.program 0))).marker = some (.program 0) ∧
    (marked (some (.erase 2047))).marker = some (.erase 2047) ∧ (marked (some .save)).marker = some .save ∧
    (marked (some (.freeze 7 entry))).marker = some (.freeze (7 : Fin 8).val entry) :=
  ⟨fun _ => ⟨rfl, rfl, rfl⟩, rfl, rfl, rfl, rfl, rfl⟩

/-- Start-up about to begin LOAD with an image state. -/
def loading (i : ImageState) : State := { State.reset with resetHeld := false, phase := .load, imageState := i }

theorem meets_LoadSetsTheTableAndTheGuards :
    ∀ i, (loading i).phase = .load ∧ (loading i).guardsFollow = false ∧ (loading i).imageState = i :=
  fun _ => ⟨rfl, rfl, rfl⟩

theorem meets_ReadyPostsStartedToEveryPort :
    ({ loading .none with guardsFollow := true } : State).phase = .load ∧
    ({ loading .none with guardsFollow := true } : State).guardsFollow = true ∧
    (({ loading .none with guardsFollow := true } : State).port .p2).notices = [] ∧
    (({ loading .none with guardsFollow := true } : State).port .p2).overflow = false := by decide

/-- A framer that has collected one byte fewer than LEN, LEN bytes, or LEN bytes and one CRC byte. -/
theorem meets_FramerTakesBytes :
    State.reset.resetHeld = true ∧ (∀ x, (framing x).resetHeld = false ∧ ((framing x).port .p1).framer = x) ∧
    (2 ≤ (0 : Byte).toNat * 256 + (2 : Byte).toNat ∧ (1 : Byte).toNat * 256 + (4 : Byte).toNat ≤ 260) ∧
    ((0 : Byte).toNat * 256 + (1 : Byte).toNat < 2 ∧ 260 < (1 : Byte).toNat * 256 + (5 : Byte).toNat) ∧
    (assembly [] [] []).lenBytes = [] ∧ (assembly [0] [] []).lenBytes = [0] ∧ (assembly [1, 5] [] []).lenBytes = [1, 5] ∧
    (assembly [0, 2] [9] []).content.length < fromBE (assembly [0, 2] [9] []).lenBytes ∧
    fromBE (assembly [0, 2] [9, 9] []).lenBytes ≤ (assembly [0, 2] [9, 9] []).content.length ∧
    (assembly [0, 2] [9, 9] []).crcBytes = [] ∧ (assembly [0, 2] [9, 9] [4]).crcBytes = [4] :=
  ⟨rfl, fun _ => ⟨rfl, rfl⟩, by decide⟩

/-- The state with P1's inbound queue holding `n` frames and its engine as given. -/
def queued (n : Nat) (e : Engine) (x : Framer) : State :=
  (framing x).modPort .p1 (fun l => { l with inbound := List.replicate n (frameOf .status []), engine := e })

theorem meets_FrameCheckDisposesOfTheFrame :
    (∀ n e a, ((queued n e (.check a)).port .p1).framer = .check a ∧ ((queued n e (.check a)).port .p1).ready = true ∧
      ((queued n e (.check a)).port .p1).engine = e) ∧
    (assembly [0, 2] [1, 9] [0, 1]).crc.toNat ≠ fromBE (assembly [0, 2] [1, 9] [0, 1]).crcBytes ∧
    (assembly [0, 2] [1, 9] [0, 0]).crc.toNat = fromBE (assembly [0, 2] [1, 9] [0, 0]).crcBytes ∧
    (assembly [0, 3] [0x12, 9, 0] [0, 0]).content.drop 2 ≠ [] ∧ (assembly [0, 2] [1, 9] [0, 0]).content.getD 0 0 ≠ 0x12 ∧
    (State.reset.port .p1).ready = false ∧
    4 ≤ ((queued 4 .working .hunt).port .p1).inbound.length ∧ ((queued 3 .held .hunt).port .p1).inbound.length < 4 ∧
    ((queued 0 .waiting .hunt).port .p1).inbound = [] ∧
    ((erring 3 false).port .p1).waitingLinkErrors < 4 ∧
    (4 ≤ ((erring 5 true).port .p1).waitingLinkErrors ∧ ((erring 5 true).port .p1).sending = true) ∧
    4 ≤ ((erring 4 false).port .p1).waitingLinkErrors ∧ ((erring 4 false).port .p1).sending = false ∧
    (assembly [0, 2] [0x12, 9] [0, 0]).content.getD 0 0 = 0x12 ∧ (assembly [0, 2] [0x12, 9] [0, 0]).content.drop 2 = [] :=
  ⟨fun _ _ _ => ⟨rfl, rfl, rfl⟩, by decide⟩

theorem meets_ResponseSentLetsTheNextRequestIn :
    let f : OutFrame := { kind := .answer, type := 0x81, tag := 1, body := [0] }
    let g : OutFrame := { kind := .orphan, type := 0x81, tag := 1, body := [0] }
    let s := fun x n => (queued n .working .hunt).modPort .p1 (fun l => { l with output := [x] })
    (((s f 0).port .p1).output = f :: [] ∧ f.kind = .answer ∧ ((s f 0).port .p1).inbound = []) ∧
    (((s f 1).port .p1).output = f :: [] ∧ ((s f 1).port .p1).inbound = frameOf .status [] :: []) ∧
    ((s g 1).port .p1).output = g :: [] ∧ g.kind ≠ .answer := by decide

/-- Sizes and port-checked fields at the ends of their ranges: FILL of 2 and 259 bytes; READ of length 0 and 257. -/
theorem meets_PortChecksRefuse :
    ((∀ k : ReqType, (0x13 : Byte) ≠ k.code) ∧
      ((framing .hunt).modPort .p1 (fun l =>
        { l with engine := .working, request := some { frame := { type := 0x13, tag := 7, body := [] }, judged := false } })).taken
          .p1 = some { type := 0x13, tag := 7, body := [] }) ∧
    (∀ k b, (asking (ready plain true) .p1 k b).taken .p1 = some (frameOf k b) ∧ (frameOf k b).type = k.code) ∧
    (requestOf (.fill .p1) = some (.p1, .fill) ∧ ReqType.fill.sizeOk 2 = false ∧ ReqType.fill.sizeOk 259 = false) ∧
    (requestOf (.read .p1) = some (.p1, .read) ∧ ReqType.read.sizeOk 5 = true ∧
      ReqType.read.fieldsOk [0, 0, 0, 0, 0] = false ∧ ReqType.read.fieldsOk [0, 0, 0, 1, 1] = false ∧
      ReqType.read.fieldsOk [0x80, 0, 0, 0, 1] = false) ∧
    (requestOf (.portClear .p1) = some (.p1, .portClear) ∧ ReqType.portClear.sizeOk 1 = false ∧
      ∀ a, ((asking (ready plain true) .p1 .portClear [0]).port .p1).framer ≠ .check a) :=
  ⟨⟨fun k => by cases k <;> decide, rfl⟩, fun _ _ => ⟨rfl, rfl⟩, by decide, by decide, by decide, by decide, fun a h => by cases h⟩

/-- The state with `n` notices in P1's queue. -/
def noticed (n : Nat) : State :=
  (ready plain true).modPort .p1 (fun l => { l with notices := List.replicate n (.bufferExpired 0), atn := true })

theorem meets_PostAddsOrDropsTheNotice :
    ((noticed 15).port .p1).notices.length < 16 ∧ ((noticed 16).port .p1).notices.length = 16 := by decide

/-- A request that passes the port checks is before its owner. -/
theorem asks_of (s : State) (p : Port) (k : ReqType) (body : List Byte) (h : k.portCheck body = none) :
    (asking s p k body).Asks p k (frameOf k body) := by
  refine ⟨?_, rfl, h⟩
  cases p <;> rfl

theorem meets_FetchNoticesRemovesTheOldest :
    (asking (noticed 16) .p1 .fetchNotices [1]).Asks .p1 .fetchNotices (frameOf .fetchNotices [1]) ∧
    (asking (noticed 16) .p1 .fetchNotices [8]).Asks .p1 .fetchNotices (frameOf .fetchNotices [8]) := by decide

theorem meets_ReportingRequestsChangeNothing :
    (asking (ready plain true) .p1 .status []).Asks .p1 .status (frameOf .status []) ∧
    (asking (ready plain true) .p1 .listTorn []).Asks .p1 .listTorn (frameOf .listTorn []) ∧
    (asking (ready plain true) .p1 .listFuses []).Asks .p1 .listFuses (frameOf .listFuses []) ∧
    ((asking (ready plain true) .p1 .jobQuery [1]).Asks .p1 .jobQuery (frameOf .jobQuery [1]) ∧
      ∀ j ∈ (asking (ready plain true) .p1 .jobQuery [1]).jobs, j.id ≠ byteAt [1] 0) ∧
    ((asking (running .saveTable (.save .empty)) .p1 .jobQuery [1]).Asks .p1 .jobQuery (frameOf .jobQuery [1]) ∧
      (asking (running .saveTable (.save .empty)) .p1 .jobQuery [1]).findJob (byteAt [1] 0) =
        some (job 1 .saveTable .active)) ∧
    ((asking (ready plain true) .p1 .describeWindow [15]).Asks .p1 .describeWindow (frameOf .describeWindow [15]) ∧
      (asking (ready plain true) .p1 .describeWindow [15]).window (slotAt [15] 0) = none) ∧
    (asking (ready plain true) .p1 .describeWindow [0]).Asks .p1 .describeWindow (frameOf .describeWindow [0]) ∧
      (asking (ready plain true) .p1 .describeWindow [0]).window (slotAt [0] 0) = some (window plain true) := by decide

/-! #### Port clear and reads -/

/-- A PORT-CLEAR frame in CHECK. -/
def clearFrame : Assembly := assembly [0, 2] [0x12, 9] [0, 0]

/-- P1 with a hold of its own, a FILLING buffer, a QUEUED FREEZE-WINDOW with its reservation, the last job of W0, a QUEUED
PROGRAM with its buffer, and the read in service; nothing is watched by P1. -/
def clearing : State :=
  { (filled ((held).setFramer .p1 (.check clearFrame)) [1]).setBuffer 1 { state := .bound .p1 1 4, data := [] } with
    jobs := [job 3 (.freezeWindow 0 { base := 0, k := 13 }) .queued, job 4 (.program 0 0 1 1) .queued]
    reservations := [{ job := 3, range := { base := 0, k := 13 } }]
    offer := .queued 3
    seq := { Sequencer.reset with
      arrayState := .read, inService := some { port := .p1, record := oneRead, withdrawn := false } } }

theorem test_port_clear_drops_the_reservation_and_starts_the_timer :
    (after (.frameCheck .p1) clearing).reservations = [] ∧ (after (.frameCheck .p1) clearing).jobs = [] ∧
    ((after (.frameCheck .p1) clearing).buffer 1).state = .free ∧
    (after (.frameCheck .p1) clearing).window 0 = some { window watched true with idle := .counting 14400000 } := by
  decide +kernel

theorem meets_PortClearEmptiesThePort :
    ((clearing.port .p1).ready = true ∧ clearing.JobIdsDistinct ∧ clearing.TransmittersLawful ∧
      (∀ h ∈ clearing.holds, h.requester ≠ .p1 → h.watch ≠ .p1) ∧ clearing.seq.arrayState ≠ .idle ∧
      (clearing.port .p1).framer = .check clearFrame ∧ clearFrame.good = true ∧ clearFrame.frame.isPortClear = true ∧
      clearing.fillingFor 0 .p1 = true ∧ clearing.fillingFor 1 .p1 = false ∧
      (∀ j ∈ clearing.jobs, j.clearedWith .p1 = true)) ∧
    ((framing .hunt).port .p1).ready = true ∧ (framing .hunt).JobIdsDistinct ∧ (framing .hunt).TransmittersLawful ∧
      (∀ h ∈ (framing .hunt).holds, h.requester ≠ .p1 → h.watch ≠ .p1) ∧
      (framing .hunt).jobs = [] ∧ (framing .hunt).nextReader = none := by
  refine ⟨⟨rfl, ?_, ?_, ?_⟩, rfl, ?_, ?_, ?_⟩
  · unfold State.JobIdsDistinct; decide
  · intro p; cases p <;> decide
  · decide
  · unfold State.JobIdsDistinct; decide
  · intro p; cases p <;> decide
  · decide

/-- P2 watches a hold; a PORT-CLEAR frame stands in CHECK there. -/
theorem meets_PortClearResolvesWatchedHoldsAndLeavesTheTable :
    let s := held.setFramer .p2 (.check clearFrame)
    (s.port .p2).ready = true ∧ s.JobIdsDistinct ∧ s.TransmittersLawful ∧
      (s.holds.filter (fun h => h.watch == .p2)).length = 1 ∧ (s.port .p2).framer = .check clearFrame := by
  refine ⟨rfl, List.nodup_nil, fun p h => ?_, rfl, rfl⟩
  cases p <;> cases h

/-- The window in which P1 has no right of its own. -/
def barred : Settings := { plain with readers := 0xD, writers := 0xD }

/-- Addresses at the ends of the window of 8,192 bytes: 8192 lies past it, and 8191 is its last byte. -/
theorem meets_ReadIsRefusedByTheDecode :
    (let s := asking (ready plain true) .p1 .read [0, 0x20, 0, 0, 1]
     s.Asks .p1 .read (frameOf .read [0, 0x20, 0, 0, 1]) ∧ s.windowAt (fieldAt [0, 0x20, 0, 0, 1] 0 3) = none ∧
       (window plain true).fields.range.base + 2 ^ (window plain true).fields.range.k ≤ fieldAt [0, 0x20, 0, 0, 1] 0 3) ∧
    (let s := asking (ready barred true) .p1 .read [0, 0x1F, 0xFF, 0, 1]
     s.Asks .p1 .read (frameOf .read [0, 0x1F, 0xFF, 0, 1]) ∧ s.windowAt (fieldAt [0, 0x1F, 0xFF, 0, 1] 0 3) = some 0 ∧
       s.window 0 = some (window barred true) ∧ barred.readers.getLsbD Port.p1.idx = false) ∧
    (let s := asking (ready plain true) .p1 .read [0, 0x1F, 0xFF, 0, 2]
     s.Asks .p1 .read (frameOf .read [0, 0x1F, 0xFF, 0, 2]) ∧ s.windowAt (fieldAt [0, 0x1F, 0xFF, 0, 2] 0 3) = some 0 ∧
       s.window 0 = some (window plain true) ∧ plain.readers.getLsbD Port.p1.idx = true ∧
       0 + 2 ^ 13 < fieldAt [0, 0x1F, 0xFF, 0, 2] 0 3 + fieldAt [0, 0x1F, 0xFF, 0, 2] 3 2) := by decide

/-- With no window at all, no window holds an address. -/
theorem meets_ReadIsRefusedByTheDecode_no_window (a : Nat) :
    ∀ w x, (asking { ready plain true with windows := Vector.replicate 16 none } .p1 .read [0, 0, 0, 0, 1]).window w = some x →
      a < x.fields.range.base ∨ x.fields.range.base + 2 ^ x.fields.range.k ≤ a := by
  intro w x h
  have e : ∀ v, (asking { ready plain true with windows := Vector.replicate 16 none } .p1 .read [0, 0, 0, 0, 1]).window v = none := by
    decide
  rw [e w] at h
  cases h

theorem meets_ReadBecomesPending :
    (∀ y ∈ [plain, { plain with readTrap := .note, idleCountsReads := true }, { watched with watch := some .p1 }],
      let s := asking (ready y true) .p1 .read [0, 0x1F, 0xFF, 0, 1]
      s.Asks .p1 .read (frameOf .read [0, 0x1F, 0xFF, 0, 1]) ∧ s.windowAt (fieldAt [0, 0x1F, 0xFF, 0, 1] 0 3) = some 0 ∧
      s.window 0 = some (window y true) ∧ y.readers.getLsbD Port.p1.idx = true ∧
      fieldAt [0, 0x1F, 0xFF, 0, 1] 0 3 + fieldAt [0, 0x1F, 0xFF, 0, 1] 3 2 ≤ 0 + 2 ^ 13 ∧
      (y.readTrap = .off ∨ y.readTrap = .note ∨ (y.readTrap = .hold ∧ y.watch = some .p1))) := by decide

theorem meets_HoldTrapParksTheRequest :
    (asking (ready watched true) .p1 .read [0, 0x1F, 0xFF, 0, 1]).holds.length < 255 ∧ watched.watch = some .p2 ∧ Port.p2 ≠ Port.p1 ∧ watched.readTrap = .hold ∧ watched.writeTrap = .hold ∧
    (let s := asking (ready watched true) .p1 .read [0, 0x1F, 0xFF, 0, 1]
     s.window 0 = some (window watched true) ∧ s.Asks .p1 .read (frameOf .read [0, 0x1F, 0xFF, 0, 1]) ∧
       s.windowAt (fieldAt [0, 0x1F, 0xFF, 0, 1] 0 3) = some 0 ∧ watched.readers.getLsbD Port.p1.idx = true ∧
       fieldAt [0, 0x1F, 0xFF, 0, 1] 0 3 + fieldAt [0, 0x1F, 0xFF, 0, 1] 3 2 ≤ 0 + 2 ^ 13) := by decide

/-- The acceptance checks of the three write-side requests, passed. -/
theorem meets_acceptCheck (y : Settings) (h : y = plain ∨ y = watched) :
    (asking (filled (ready y true) [1]) .p1 .program [0, 0x1F, 0xFF, 0]).acceptCheck .p1 (.program 0x1FFF 0) =
      .ok (0, window y true) ∧
    (asking (ready y true) .p1 .eraseSector [0, 1]).acceptCheck .p1 (.eraseSector 1) = .ok (0, window y true) ∧
    (asking (ready y true) .p1 .eraseWindow [0]).acceptCheck .p1 (.eraseWindow 0) = .ok (0, window y true) := by
  rcases h with rfl | rfl <;> exact ⟨rfl, rfl, rfl⟩

/-- The three write-side requests, asked for at the port. -/
theorem meets_AsksWrite (y : Settings) (o : Bool) :
    AsksWrite (asking (filled (ready y o) [1]) .p1 .program [0, 0x1F, 0xFF, 0]) (.program .p1) .p1
      (frameOf .program [0, 0x1F, 0xFF, 0]) (.program 0x1FFF 0) ∧
    AsksWrite (asking (ready y o) .p1 .eraseSector [0, 1]) (.eraseSector .p1) .p1 (frameOf .eraseSector [0, 1])
      (.eraseSector 1) ∧
    AsksWrite (asking (ready y o) .p1 .eraseWindow [0]) (.eraseWindow .p1) .p1 (frameOf .eraseWindow [0])
      (.eraseWindow 0) :=
  ⟨.inl ⟨rfl, asks_of _ _ _ _ (by decide), rfl⟩, .inr (.inl ⟨rfl, asks_of _ _ _ _ (by decide), rfl⟩),
   .inr (.inr ⟨rfl, asks_of _ _ _ _ (by decide), rfl⟩)⟩

/-- A part that serves a read, withdrawn or not. -/
def serving (withdrawn : Bool) : State :=
  { ready plain true with
    seq := { Sequencer.reset with
      arrayState := .read, inService := some { port := .p2, record := oneRead, withdrawn := withdrawn } } }

theorem meets_ReadServiceCompletesWithTheStoredValues :
    ∀ x, (serving x).seq.inService = some { port := .p2, record := oneRead, withdrawn := x } := fun _ => rfl

/-! #### The sequencer -/

/-- An IDLE array with a SUSPENDED job, `n` reads served, and a pending read where `read`. -/
def suspended (n : Nat) (read : Bool) : State :=
  let s := running (.eraseSector 0 1) (.erase 1)
  { s with
    jobs := [job 1 (.eraseSector 0 1) .suspended], arrayOp := .suspended
    seq := { Sequencer.reset with
      readsServed := n, lastGrant := .job
      pendingReads := { p0 := none, p1 := none, p2 := if read then some oneRead else none, p3 := none } } }

/-- An IDLE array with a job QUEUED and offered where `offered`, a pending read where `read`, and the last grant. -/
def deciding (offered read : Bool) (last : LastGrant) : State :=
  let s := ready plain true
  { s with
    jobs := if offered then [job 1 (.eraseSector 0 1) .queued] else [], offer := if offered then .queued 1 else .none
    seq := { Sequencer.reset with
      lastGrant := last
      pendingReads := { p0 := none, p1 := none, p2 := if read then some oneRead else none, p3 := none } } }

theorem meets_DecisionsTakeTheFirstCaseAndSettle :
    ((suspended 3 true).nextReader = some .p2 ∧ (suspended 3 true).jobSuspended = true ∧
      (suspended 3 true).seq.readsServed < 4) ∧
    ((suspended 4 true).nextReader = some .p2 ∧ (suspended 4 true).jobSuspended = true ∧
      4 ≤ (suspended 4 true).seq.readsServed) ∧
    ((suspended 0 false).nextReader = none ∧ (suspended 0 false).jobSuspended = true) ∧
    ((deciding true true .read).nextReader = some .p2 ∧ (deciding true true .read).jobSuspended = false ∧
      (deciding true true .read).offer ≠ .none ∧ (deciding true true .read).seq.lastGrant = .read) ∧
    ((deciding false true .read).nextReader = some .p2 ∧ (deciding false true .read).jobSuspended = false ∧
      (deciding false true .read).offer = .none) ∧
    ((deciding true true .job).nextReader = some .p2 ∧ (deciding true true .job).seq.lastGrant ≠ .read) ∧
    ((deciding true false .none).nextReader = none ∧ (deciding true false .none).jobSuspended = false ∧
      (deciding true false .none).offer ≠ .none) ∧
    ((deciding false false .none).nextReader = none ∧ (deciding false false .none).jobSuspended = false ∧
      (deciding false false .none).offer = .none) ∧
    (serving false).seq.arrayState ≠ .idle ∧ (deciding true true .job).offer = (deciding true true .job).offerNow := by
  decide

/-- A read of the last byte of sector 0 or the first byte of sector 1. -/
theorem meets_DecisionGrants :
    ((suspended 3 true).seq.arrayState = .idle ∧ (suspended 3 true).decision = .read .p2 ∧
      (suspended 3 true).seq.pendingReads.get .p2 = some oneRead ∧ (suspended 3 true).readInProgress 5 1 = false) ∧
    ((suspended 3 true).readInProgress 4095 1 = false ∧ (suspended 3 true).readInProgress 4095 2 = true ∧
      (suspended 3 true).readInProgress 8191 1 = true ∧ (suspended 3 true).readInProgress 8192 1 = false) ∧
    (let s := (suspended 3 false).addPending .p2 { oneRead with address := 4096 }
     s.seq.arrayState = .idle ∧ s.decision = .read .p2 ∧
       s.seq.pendingReads.get .p2 = some { oneRead with address := 4096 } ∧ s.readInProgress 4096 1 = true) ∧
    ((suspended 4 true).seq.arrayState = .idle ∧ (suspended 4 true).decision = .resume) ∧
    ((deciding true false .none).seq.arrayState = .idle ∧ (deciding true false .none).decision = .offer ∧
      (deciding true false .none).offer = .queued 1 ∧
      (deciding true false .none).findJob 1 = some (job 1 (.eraseSector 0 1) .queued) ∧
      (deciding true false .none).startCheck (job 1 (.eraseSector 0 1) .queued) = none) ∧
    (let s := (deciding true false .none).setWindow 0 (some (window plain false))
     s.decision = .offer ∧ s.startCheck (job 1 (.eraseSector 0 1) .queued) = some .latchShut) := by decide

/-- An ERASE-WINDOW between its two steps, its next step offered, its stop requested where `stop`. -/
def between (stop : Bool) : State :=
  { ready plain true with
    jobs := [{ job 1 (.eraseWindow 0 { base := 0, k := 13 }) .active with sectorsDone := 1, stopRequested := stop }]
    offer := .nextStep 1 }

theorem meets_DecisionGrants_next_step :
    ((between false).seq.arrayState = .idle ∧ (between false).decision = .offer ∧ (between false).offer = .nextStep 1 ∧
      ∃ j, (between false).findJob 1 = some j ∧ (between false).boundaryCheck j = none) ∧
    ((between true).seq.arrayState = .idle ∧ (between true).decision = .offer ∧ (between true).offer = .nextStep 1 ∧
      ∃ j, (between true).findJob 1 = some j ∧ (between true).boundaryCheck j = some (.cancelled, .none)) :=
  ⟨⟨rfl, rfl, rfl, _, rfl, rfl⟩, rfl, rfl, rfl, _, rfl, rfl⟩

/-- The state with a reservation of sector 1, or with the fuse entry of it. -/
def reserved : State :=
  { ready plain true with reservations := [{ job := 9, range := { base := 0x1000, k := 12 } }] }

def fused : State := { ready plain true with fuses := (Vector.replicate 8 FuseSlot.blank).set 0 entry }

theorem meets_FrozenSectorsAndStartChecks :
    (∀ y o, (ready y o).window 0 = some (window y o)) ∧
    (reserved.sectorFrozen 0 = false ∧ reserved.sectorFrozen 1 = true ∧ fused.sectorFrozen 1 = true ∧
      fused.sectorFrozen 2 = false) ∧
    ((List.range (2 ^ 13 / 4096)).any (fun i => reserved.sectorFrozen (0 / 4096 + i)) = true ∧
      (List.range (2 ^ 13 / 4096)).any (fun i => (ready plain true).sectorFrozen (0 / 4096 + i)) = false) ∧
    ((ready { plain with guard := some .g1 } true).setGuardPin .g1 { high := true, input := .active }).guardReads
      (some .g1) = true ∧
    (ready plain true).guardReads plain.guard = false ∧ (window plain false).latchOpen = false ∧
    (between true).boundaryCheck (job 1 (.eraseWindow 0 { base := 0, k := 13 }) .active) = none := by
  refine ⟨fun _ _ => rfl, ?_⟩
  decide

theorem meets_SuspensionIsRequestedAndTaken :
    (let s := (running (.eraseSector 0 1) (.erase 1)).addPending .p2 oneRead
     s.seq.resumeGap = .running 4320 ∧ s.seq.arrayState = .run ∧ s.arrayOp = .running ∧ s.seq.suspendRequest = false ∧
       (s.seq.pendingReads.get .p2).isSome = true ∧ s.arrayStep = some (.erase 1)) ∧
    (let s := (running (.program 0 0 256 0) (.program 0 256 0)).addPending .p2 oneRead
     s.seq.resumeGap = .running 4320 ∧ s.arrayStep = some (.program 0 256 0)) ∧
    ((running (.eraseSector 0 1) (.erase 1)).seq.resumeGap = .running 4320 ∧
      (running (.eraseSector 0 1) (.erase 1)).pendingReadCount = 0) ∧
    (running .saveTable (.save .empty)).arrayStep = some (.save .empty) ∧ suspending.arrayOp = .suspending ∧
    (let s := (running (.eraseSector 0 1) (.erase 1)).addPending .p2 oneRead
     let u : State := { s with seq := { s.seq with resumeGap := .elapsed } }
     u.seq.arrayState = .run ∧ u.arrayOp = .running ∧ u.seq.resumeGap = .elapsed ∧ u.seq.suspendRequest = false ∧
       (u.seq.pendingReads.get .p2).isSome = true ∧ u.arrayStep = some (.erase 1) ∧ s.seq.resumeGap ≠ .elapsed) := by decide

theorem meets_ProgramCompletionAndsTheBuffer :
    let s := filled (running (.program 0 16 2 0) (.program 16 2 0)) [0x0F, 0xF0]
    s.mem.wf = true ∧ s.arrayOp = .running ∧ s.arrayStep = some (.program 16 2 0) ∧
      s.activeJob = some (job 1 (.program 0 16 2 0) .active) := by decide

theorem meets_EraseCompletionClearsTheSector :
    (let s := running (.eraseSector 0 1) (.erase 1)
     s.arrayOp = .running ∧ s.arrayStep = some (.erase 1) ∧ s.activeJob = some (job 1 (.eraseSector 0 1) .active)) ∧
    (let s := running (.eraseWindow 0 { base := 0, k := 13 }) (.erase 0)
     s.arrayOp = .running ∧ s.arrayStep = some (.erase 0) ∧
       s.activeJob = some (job 1 (.eraseWindow 0 { base := 0, k := 13 }) .active) ∧ 0 + 1 ≠ 2 ^ 13 / 4096 ∧
       (job 1 (.eraseWindow 0 { base := 0, k := 13 }) .active).state = .active) ∧
    (let s := running (.eraseWindow 0 { base := 0, k := 12 }) (.erase 0)
     s.activeJob = some (job 1 (.eraseWindow 0 { base := 0, k := 12 }) .active) ∧ 0 + 1 = 2 ^ 12 / 4096) := by decide

theorem meets_SaveAndFuseCompletions :
    (let s := running .saveTable (.save .empty)
     s.arrayOp = .running ∧ s.activeJob = some (job 1 .saveTable .active) ∧ s.arrayStep = some (.save .empty)) ∧
    (let s := running (.freezeWindow 0 { base := 0x1000, k := 12 }) (.fuse 7 entry)
     s.arrayOp = .running ∧ s.activeJob = some (job 1 (.freezeWindow 0 { base := 0x1000, k := 12 }) .active) ∧
       s.arrayStep = some (.fuse (7 : Fin 8).val entry)) := by decide

theorem meets_JobEndsInOneEvent :
    (job 1 (.program 0 16 2 0) .active).work = .program 0 16 2 0 ∧
    (job 1 .saveTable .active).work.slot? = none ∧ (job 1 (.eraseSector 0 1) .active).work.slot? = some 0 ∧
    (running (.eraseSector 0 1) (.erase 1)).window 0 = some (window plain true) := by decide

/-! #### Requests of the job queue -/

/-- A LATCH_SHUT failure, the decode of each kind, and the ends of the lists: 8 torn entries, 16 jobs. -/
theorem meets_WriteRequestIsAnsweredByTheFirstFailure :
    ((asking (filled (ready plain false) [1]) .p1 .program [0, 0x1F, 0xFF, 0]).acceptCheck .p1 (.program 0x1FFF 0) =
        .error .latchShut ∧
      (asking (ready plain false) .p1 .eraseSector [0, 1]).acceptCheck .p1 (.eraseSector 1) = .error .latchShut ∧
      (asking (ready plain false) .p1 .eraseWindow [0]).acceptCheck .p1 (.eraseWindow 0) = .error .latchShut) ∧
    ((ready plain true).windowAt 8192 = none ∧ (ready plain true).windowAt 8191 = some 0 ∧
      (ready plain true).window 0 = some (window plain true) ∧ (ready plain true).window 15 = none) ∧
    ((ready plain true).decodeWrite .p1 (.eraseSector 2) = .error .noWindow ∧
      (ready barred true).decodeWrite .p1 (.eraseWindow 0) = .error .notWriter ∧
      (filled (ready plain true) [1, 2]).decodeWrite .p1 (.program 8191 0) = .error .range ∧
      (filled (ready plain true) [1, 2]).decodeWrite .p1 (.program 8190 0) = .ok 0) :=
  ⟨⟨rfl, rfl, rfl⟩, ⟨rfl, rfl, rfl, rfl⟩, rfl, rfl, rfl, rfl⟩

/-- A request that is accepted: the traps that let it through, with an empty job list and with a job in it. -/
theorem meets_WriteRequestIsAcceptedAsAJob :
    (∀ y ∈ [plain, { plain with writeTrap := .note }, { watched with watch := some .p1 }],
      y.writeTrap = .off ∨ y.writeTrap = .note ∨ (y.writeTrap = .hold ∧ y.watch = some .p1)) ∧
    (ready plain true).jobs = [] ∧
    (deciding true false .none).jobs ≠ [] ∧ (deciding true false .none).offer = (deciding true false .none).offerNow ∧
    (asking (ready { watched with watch := some .p1 } true) .p1 .eraseWindow [0]).acceptCheck .p1 (.eraseWindow 0) =
      .ok (0, window { watched with watch := some .p1 } true) :=
  ⟨by decide, by decide, by decide, by decide, rfl⟩

/-- P1 asks to cancel job 1 of a job list. -/
def cancelling (p : Port) (l : List Job) : State := { asking (ready plain true) p .cancel [1] with jobs := l }

theorem meets_CancelByTheStateOfTheJob :
    (∀ p l, (cancelling p l).Asks p .cancel (frameOf .cancel [1])) ∧
    (∀ j ∈ (cancelling .p1 [job 2 .saveTable .active]).jobs, j.id ≠ byteAt [1] 0) ∧
    ((cancelling .p2 [job 1 .saveTable .queued]).findJob (byteAt [1] 0) = some (job 1 .saveTable .queued) ∧
      Port.p2 ≠ (job 1 .saveTable .queued).owner ∧ Port.p2 ≠ (cancelling .p2 []).adminPort) ∧
    ((job 1 .saveTable .queued).owner = .p1 ∧ Port.p0 = (cancelling .p0 []).adminPort) ∧
    ((cancelling .p1 [job 1 (.eraseWindow 0 { base := 0, k := 13 }) .active]).findJob (byteAt [1] 0) =
      some (job 1 (.eraseWindow 0 { base := 0, k := 13 }) .active)) ∧
    (cancelling .p1 [job 1 (.eraseSector 0 1) .suspended]).findJob (byteAt [1] 0) =
      some (job 1 (.eraseSector 0 1) .suspended) := by
  refine ⟨fun p l => ⟨?_, rfl, rfl⟩, by decide⟩
  cases p <;> rfl

/-- The admin port P0 asks, with the table lock and job list as given. -/
def admin (k : ReqType) (body : List Byte) (locked : Bool) (l : List Job) : State :=
  { asking (ready plain true) .p0 k body with locked := locked, jobs := l }

/-- `n` live jobs that name no window. -/
def many (n : Nat) : List Job := List.replicate n (job 3 (.eraseSector 5 1) .queued)

theorem meets_SaveTableIsAcceptedAsAJob :
    (∀ l, (admin .saveTable [] false l).Asks .p0 .saveTable (frameOf .saveTable []) ∧
      Port.p0 = (admin .saveTable [] false l).adminPort ∧ (admin .saveTable [] false l).locked = false ∧
      (admin .saveTable [] false l).jobs = l) ∧
    (∃ j ∈ [job 1 .saveTable .active], j.work = .saveTable) ∧ (∀ j ∈ many 16, j.work ≠ .saveTable) ∧ 16 ≤ (many 16).length ∧
    (∀ j ∈ many 15, j.work ≠ .saveTable) ∧ (many 15).length < 16 ∧ many 15 ≠ [] ∧ many 0 = [] :=
  ⟨fun _ => ⟨⟨rfl, rfl, rfl⟩, rfl, rfl, rfl⟩, by decide⟩

theorem meets_FreezeWindowReservesItsRange :
    (∀ l, (admin .freezeWindow [0] true l).Asks .p0 .freezeWindow (frameOf .freezeWindow [0]) ∧
      Port.p0 = (admin .freezeWindow [0] true l).adminPort ∧
      (admin .freezeWindow [0] true l).window (slotAt [0] 0) = some (window plain true)) ∧
    ((admin .freezeWindow [15] false []).Asks .p0 .freezeWindow (frameOf .freezeWindow [15]) ∧
      (admin .freezeWindow [15] false []).window (slotAt [15] 0) = none) ∧
    (({ ready plain true with reservations := [{ job := 9, range := { base := 0, k := 13 } }] } : State).frozenRanges.any
        (fun q => decide (q.base ≤ 0) && decide (0 + 2 ^ 13 ≤ q.base + 2 ^ q.k)) = true ∧
      reserved.frozenRanges.any (fun q => decide (q.base ≤ 0) && decide (0 + 2 ^ 13 ≤ q.base + 2 ^ q.k)) = false) ∧
    (([{ sector := 1, cause := .erase }] : List TornEntry).any
        (fun e => decide (0 ≤ e.sector * 4096) && decide ((e.sector + 1) * 4096 ≤ 0 + 2 ^ 13)) = true ∧
      ([{ sector := 2, cause := .erase }] : List TornEntry).any
        (fun e => decide (0 ≤ e.sector * 4096) && decide ((e.sector + 1) * 4096 ≤ 0 + 2 ^ 13)) = false) ∧
    8 ≤ ({ fused with reservations := List.replicate 7 { job := 9, range := { base := 0x3000, k := 12 } } } : State).fuseCount + 7 ∧
    fused.fuseCount + 6 < 8 ∧ 16 ≤ (many 16).length ∧ (many 15).length < 16 :=
  ⟨fun _ => ⟨⟨rfl, rfl, rfl⟩, rfl, rfl⟩, by decide, by decide, by decide, by decide⟩

theorem meets_AdministrativeRequestsAreRefused :
    (requestOf (.shutAll .p1) = some (.p1, .shutAll) ∧
      (asking (ready plain true) .p1 .shutAll []).Asks .p1 .shutAll (frameOf .shutAll []) ∧ ReqType.shutAll ∈ adminRequests ∧
      Port.p1 ≠ (asking (ready plain true) .p1 .shutAll []).adminPort) ∧
    (requestOf (.setTiming .p0) = some (.p0, .setTiming) ∧
      (admin .setTiming [0, 0] true []).Asks .p0 .setTiming (frameOf .setTiming [0, 0]) ∧
      ReqType.setTiming ∈ lockedRequests ∧ Port.p0 = (admin .setTiming [0, 0] true []).adminPort ∧
      (admin .setTiming [0, 0] true []).locked = true) := by decide

/-! #### Latches, holds and guard inputs -/

/-- The guard input G1 ACTIVE. -/
def guarded (s : State) : State := s.setGuardPin .g1 { high := true, input := .active }

theorem meets_OpenLatchOpensAndReloads :
    ((asking (ready plain true) .p1 .openLatch [15]).Asks .p1 .openLatch (frameOf .openLatch [15]) ∧
      (asking (ready plain true) .p1 .openLatch [15]).window (slotAt [15] 0) = none) ∧
    ((asking (ready barred false) .p1 .openLatch [0]).Asks .p1 .openLatch (frameOf .openLatch [0]) ∧
      (asking (ready barred false) .p1 .openLatch [0]).window (slotAt [0] 0) = some (window barred false) ∧
      barred.writers.getLsbD Port.p1.idx = false) ∧
    (let y : Settings := { plain with guard := some .g1 }
     (guarded (asking (ready y false) .p1 .openLatch [0])).Asks .p1 .openLatch (frameOf .openLatch [0]) ∧
       (guarded (asking (ready y false) .p1 .openLatch [0])).window (slotAt [0] 0) = some (window y false) ∧
       y.writers.getLsbD Port.p1.idx = true ∧
       (guarded (asking (ready y false) .p1 .openLatch [0])).guardReads y.guard = true ∧
       (asking (ready y false) .p1 .openLatch [0]).guardReads y.guard = false) ∧
    (asking (ready plain true) .p1 .openLatch [0]).Asks .p1 .openLatch (frameOf .openLatch [0]) := by decide

/-- P1 is no writer and watches the window. -/
def watcher : Settings := { barred with watch := some .p1 }

theorem meets_LatchIsShutOnRequestAndOnIdle :
    ((asking (ready plain true) .p1 .shutLatch [15]).Asks .p1 .shutLatch (frameOf .shutLatch [15]) ∧
      (asking (ready plain true) .p1 .shutLatch [15]).window (slotAt [15] 0) = none) ∧
    ((asking (ready barred true) .p1 .shutLatch [0]).Asks .p1 .shutLatch (frameOf .shutLatch [0]) ∧
      (asking (ready barred true) .p1 .shutLatch [0]).window (slotAt [0] 0) = some (window barred true) ∧
      barred.writers.getLsbD Port.p1.idx = false ∧ barred.watch ≠ some .p1) ∧
    ((asking (ready watcher true) .p1 .shutLatch [0]).Asks .p1 .shutLatch (frameOf .shutLatch [0]) ∧
      (asking (ready watcher true) .p1 .shutLatch [0]).window (slotAt [0] 0) = some (window watcher true) ∧
      watcher.watch = some .p1 ∧ (window watcher true).latchOpen = true) ∧
    ((asking (ready watcher false) .p1 .shutLatch [0]).window (slotAt [0] 0) = some (window watcher false) ∧
      (window watcher false).latchOpen = false) ∧
    ((idling 1).window 0 = some { window plain true with idle := .counting 1 } ∧
      ({ window plain true with idle := .counting 1 } : Window).latchOpen = true) ∧
    (ready plain false).window 0 = some (window plain false) ∧ (window plain false).idle = .stopped := by decide

theorem meets_ShutAllShutsEveryLatch :
    (admin .shutAll [] true []).Asks .p0 .shutAll (frameOf .shutAll []) ∧ Port.p0 = (admin .shutAll [] true []).adminPort := by
  decide

/-- The same hold with the default ALLOW. -/
def heldAllow : State := held.setWindow 0 (some (window { watched with holdDefault := .allow } true))

theorem meets_VerdictOrTimeoutResolvesTheHold :
    ((asking held .p2 .verdict [0, 1]).Asks .p2 .verdict (frameOf .verdict [0, 1]) ∧
      ∀ h ∈ (asking held .p2 .verdict [0, 1]).holds, h.id ≠ byteAt [0, 1] 0) ∧
    ((asking held .p3 .verdict [1, 1]).Asks .p3 .verdict (frameOf .verdict [1, 1]) ∧
      ((asking held .p3 .verdict [1, 1]).findHold (byteAt [1, 1] 0)).map Hold.watch = some .p2) ∧
    ((asking held .p2 .verdict [1, 2]).Asks .p2 .verdict (frameOf .verdict [1, 2]) ∧
      ((asking held .p2 .verdict [1, 2]).findHold (byteAt [1, 2] 0)).map (fun h => (h.watch, h.requester)) = some (.p2, .p1) ∧
      byteAt [1, 2] 1 = 0x02) ∧
    ((asking held .p2 .verdict [1, 1]).Asks .p2 .verdict (frameOf .verdict [1, 1]) ∧ byteAt [1, 1] 1 = 0x01) ∧
    (∀ h ∈ held.holds, h.id ≠ 2) ∧
    ((held.findHold 1).map (fun h => (h.slot, h.requester, h.watch)) = some (0, .p1, .p2) ∧
      held.window 0 = some (window watched true) ∧ watched.holdDefault = .deny) ∧
    (heldAllow.findHold 1).map Hold.slot = some 0 ∧
      heldAllow.window 0 = some (window { watched with holdDefault := .allow } true) := by decide

/-- An allowed READ that still passes, or whose window has gone; allowed write-side requests that pass, or find the latch
SHUT. -/
theorem meets_AllowedRequestIsCheckedAgain :
    (fieldAt [0, 0, 5, 0, 1] 0 3 = 5 ∧ fieldAt [0, 0, 5, 0, 1] 3 2 = 1) ∧
    ((ready watched true).decodeRead .p1 5 1 = .ok 0 ∧ (ready watched true).window 0 = some (window watched true)) ∧
    (ready watched true).decodeRead .p1 8192 1 = .error .noWindow ∧
    (ready watched true).acceptCheck .p1 (.eraseSector 1) = .ok (0, window watched true) ∧
    (ready watched false).acceptCheck .p1 (.eraseSector 1) = .error .latchShut :=
  ⟨by decide, ⟨rfl, rfl⟩, rfl, rfl, rfl⟩

theorem meets_GuardActivationShutsItsLatches :
    ((InputState.settlingToActive 57600).reads = ((ready plain true).guardPin .g0).input.reads) ∧
    (InputState.inactive.reads = false ∧ ((guarded (ready plain true)).guardPin .g1).input.reads = true) ∧
    InputState.active.reads = true ∧ ((ready plain true).guardPin .g1).input.reads = false := by decide

theorem meets_SetGuardAppliesAtOnce :
    (admin .setGuard [2, 1, 0] false []).Asks .p0 .setGuard (frameOf .setGuard [2, 1, 0]) ∧
    Port.p0 = (admin .setGuard [2, 1, 0] false []).adminPort ∧ (admin .setGuard [2, 1, 0] false []).locked = false ∧
    byteAt [2, 1, 0] 0 = guardInputCode .g1 := by decide

theorem meets_GuardInputFollowsItsPin :
    State.reset.guardsFollow = false ∧ ((ready plain true).guardPin .g0).high = true ∧
    (ready plain true).guardsFollow = true ∧ ((ready plain true).header.guard .g0).debounce = true ∧
    ((ready plain true).header.guard .g0).activeHigh = false ∧ ((ready plain true).guardPin .g0).input = .inactive ∧
    ((guarded (ready plain true)).guardPin .g1).input = .active ∧
    (∀ x, (((ready plain true).setGuardPin .g0 { high := false, input := x }).guardPin .g0).input = x) ∧
    (({ ready plain true with header := { Header.empty with g0 := { activeHigh := true, debounce := false } } } : State).header.guard
      .g0).debounce = false :=
  ⟨rfl, rfl, rfl, rfl, rfl, rfl, rfl, fun _ => rfl, rfl⟩

/-! #### The window table and the buffers -/

/-- A DEFINE-WINDOW body for W1. -/
def defineBody (base1 base2 k : Byte) : List Byte := [1, base1, base2, 0, k, 15, 15, 0xFF, 0, 0, 2, 5, 0, 0]

/-- SLOT_USED; a size exponent of 11, 12, 23, 24; a base that is not a multiple of 2^12; a base in W0 and next to it. -/
theorem meets_DefineWindowDefinesTheSlot :
    (∀ b, ReqType.defineWindow.portCheck b = none → (admin .defineWindow b false []).Asks .p0 .defineWindow (frameOf .defineWindow b)) ∧
    (∀ b, Port.p0 = (admin .defineWindow b false []).adminPort ∧ (admin .defineWindow b false []).locked = false) ∧
    (ReqType.defineWindow.portCheck (defineBody 0 0x20 12) = none ∧ ReqType.defineWindow.portCheck (defineBody 0x7F 0xF0 24) = none) ∧
    ((ready plain true).window (slotAt [0] 0) ≠ none ∧ (ready plain true).window (slotAt (defineBody 0 0 12) 0) = none) ∧
    ((byteAt (defineBody 0 0 11) 4).toNat < 12 ∧ 23 < (byteAt (defineBody 0 0 24) 4).toNat ∧
      12 ≤ (byteAt (defineBody 0 0 12) 4).toNat ∧ (byteAt (defineBody 0 0 23) 4).toNat ≤ 23) ∧
    (settingsAt (defineBody 0 0 12) 5 = some plain ∧ settingsAt [16, 0, 0, 0, 0, 1, 0, 0, 0] 0 = none) ∧
    (fieldAt (defineBody 0 0x28 12) 1 3 % 2 ^ 12 ≠ 0 ∧ fieldAt (defineBody 0 0x20 12) 1 3 % 2 ^ 12 = 0) ∧
    (fieldAt (defineBody 0 0x10 12) 1 3 < 0 + 2 ^ 13 ∧ 0 < fieldAt (defineBody 0 0x10 12) 1 3 + 2 ^ 12) ∧
    0 + 2 ^ 13 ≤ fieldAt (defineBody 0 0x20 12) 1 3 :=
  ⟨fun b h => ⟨rfl, rfl, h⟩, fun b => ⟨rfl, rfl⟩, by decide, by decide, by decide, by decide, by decide, by decide, by decide⟩

theorem meets_WindowSettingsAreLegalOrBadField :
    settingsAt [15, 15, 3, 2, 2, 2, 255, 1, 2] 0 = some
      { readers := 15, writers := 15, watch := some .p3, readTrap := .hold, writeTrap := .hold, holdDefault := .deny,
        idlePeriod := 255, idleCountsReads := true, guard := some .g1 } ∧
    settingsAt [15, 15, 4, 0, 0, 1, 0, 0, 0] 0 = none ∧ settingsAt [15, 15, 0xFF, 2, 0, 1, 0, 0, 0] 0 = none ∧
    settingsAt [15, 15, 0xFF, 3, 0, 1, 0, 0, 0] 0 = none ∧ settingsAt [15, 15, 0xFF, 0, 0, 0, 0, 0, 0] 0 = none := by decide

theorem meets_ModifyWindowShutsAndReplaces :
    (∀ b l, ReqType.modifyWindow.portCheck b = none →
      (admin .modifyWindow b false l).Asks .p0 .modifyWindow (frameOf .modifyWindow b) ∧
      Port.p0 = (admin .modifyWindow b false l).adminPort ∧ (admin .modifyWindow b false l).locked = false ∧
      (admin .modifyWindow b false l).window 0 = some (window plain true) ∧ (admin .modifyWindow b false l).jobs = l ∧
      (admin .modifyWindow b false l).holds = []) ∧
    ReqType.modifyWindow.portCheck [0, 15, 15, 0xFF, 0, 0, 2, 5, 0, 0] = none ∧
    settingsAt [0, 15, 15, 0xFF, 0, 0, 2, 5, 0, 0] 1 = some plain ∧
    settingsAt [0, 15, 15, 0xFF, 2, 0, 2, 5, 0, 0] 1 = none ∧
    (admin .modifyWindow [15, 15, 15, 0xFF, 0, 0, 2, 5, 0, 0] false []).window (slotAt [15] 0) = none ∧
    (∃ j ∈ [job 1 (.eraseSector 0 1) .queued], j.work.slot? = some 0) ∧ (∃ h ∈ held.holds, h.slot = 0) ∧
    (∀ j ∈ [job 1 .saveTable .active], j.work.slot? ≠ some 0) :=
  ⟨fun b l h => ⟨⟨rfl, rfl, h⟩, rfl, rfl, rfl, rfl, rfl⟩, by decide⟩

theorem meets_UndefineWindowEmptiesTheSlot :
    (∀ l, (admin .undefineWindow [0] false l).Asks .p0 .undefineWindow (frameOf .undefineWindow [0]) ∧
      Port.p0 = (admin .undefineWindow [0] false l).adminPort ∧ (admin .undefineWindow [0] false l).locked = false ∧
      (admin .undefineWindow [0] false l).window (slotAt [0] 0) = some (window plain true) ∧
      (admin .undefineWindow [0] false l).jobs = l ∧ (admin .undefineWindow [0] false l).holds = []) ∧
    (admin .undefineWindow [15] false []).Asks .p0 .undefineWindow (frameOf .undefineWindow [15]) ∧
    (admin .undefineWindow [15] false []).window (slotAt [15] 0) = none :=
  ⟨fun _ => ⟨⟨rfl, rfl, rfl⟩, rfl, rfl, rfl, rfl, rfl⟩, by decide⟩

theorem meets_LockTableAndSetTiming :
    ((admin .lockTable [] true []).Asks .p0 .lockTable (frameOf .lockTable []) ∧
      Port.p0 = (admin .lockTable [] true []).adminPort) ∧
    (∀ b, ReqType.setTiming.portCheck b = none → (admin .setTiming b false []).Asks .p0 .setTiming (frameOf .setTiming b) ∧
      Port.p0 = (admin .setTiming b false []).adminPort ∧ (admin .setTiming b false []).locked = false) ∧
    (ReqType.setTiming.portCheck [0, 1] = none ∧ (byteAt [0, 1] 0).toNat < 1 ∧ 60 < (byteAt [61, 1] 0).toNat ∧
      (byteAt [1, 0] 1).toNat < 1 ∧ 250 < (byteAt [1, 251] 1).toNat) ∧
    ReqType.setTiming.portCheck [60, 250] = none ∧ (byteAt [60, 250] 0).toNat ≤ 60 ∧ (byteAt [60, 250] 1).toNat ≤ 250 :=
  ⟨by decide, fun b h => ⟨⟨rfl, rfl, h⟩, rfl, rfl⟩, by decide, by decide⟩

/-- The buffers of a part with owners as given. -/
def owned (b0 b1 b2 b3 : BufferState) : State :=
  { ready plain true with
    buffers := #v[{ state := b0, data := [] }, { state := b1, data := [] }, { state := b2, data := [] },
                  { state := b3, data := [] }] }

/-- P1 with two buffers; P1 with one and none FREE; P1 with one and B3 alone FREE. -/
theorem meets_ClaimTakesTheLowestFreeBuffer :
    (∀ b0 b1 b2 b3, (asking (owned b0 b1 b2 b3) .p1 .claimBuffer []).Asks .p1 .claimBuffer (frameOf .claimBuffer [])) ∧
    2 ≤ (allBuffers.filter (fun b => ((asking (owned (.filling .p1 0 1) (.bound .p1 1 1) .free .free) .p1 .claimBuffer []).buffer
      b).state.owner? == some Port.p1)).length ∧
    (let s := asking (owned (.filling .p1 0 1) (.filling .p2 0 1) (.filling .p2 0 1) (.filling .p3 0 1)) .p1 .claimBuffer []
     (allBuffers.filter (fun b => (s.buffer b).state.owner? == some Port.p1)).length < 2 ∧ ∀ b, (s.buffer b).state ≠ .free) ∧
    (let s := asking (owned (.filling .p1 0 1) (.filling .p2 0 1) (.filling .p2 0 1) .free) .p1 .claimBuffer []
     (allBuffers.filter (fun b => (s.buffer b).state.owner? == some Port.p1)).length < 2 ∧ (s.buffer 3).state = .free ∧
       ∀ c, c < 3 → (s.buffer c).state ≠ .free) :=
  ⟨fun _ _ _ _ => ⟨rfl, rfl, rfl⟩, by decide, by decide, by decide⟩

/-- A FILL of one byte at offset 255, and of two bytes there. -/
theorem meets_FillWritesAndReloadsTheLease :
    ((asking (ready plain true) .p1 .fill [0, 255, 1]).Asks .p1 .fill (frameOf .fill [0, 255, 1]) ∧
      ((asking (ready plain true) .p1 .fill [0, 255, 1]).buffer (bufferAt [0, 255, 1] 0)).state = .free) ∧
    ((asking (filled (ready plain true) [1]) .p1 .fill [0, 255, 1, 2]).Asks .p1 .fill (frameOf .fill [0, 255, 1, 2]) ∧
      256 < (byteAt [0, 255, 1, 2] 1).toNat + ([0, 255, 1, 2].drop 2).length) ∧
    ((asking (filled (ready plain true) [1]) .p1 .fill [0, 255, 1]).Asks .p1 .fill (frameOf .fill [0, 255, 1]) ∧
      ((asking (filled (ready plain true) [1]) .p1 .fill [0, 255, 1]).buffer (bufferAt [0, 255, 1] 0)).state =
        .filling .p1 1 500 ∧
      (byteAt [0, 255, 1] 1).toNat + ([0, 255, 1].drop 2).length ≤ 256 ∧
      ((asking (filled (ready plain true) [1]) .p1 .fill [0, 255, 1]).buffer (bufferAt [0, 255, 1] 0)).data.wf = true) := by
  decide

theorem meets_ReleaseAndLeaseExpiryFreeTheBuffer :
    (∀ b0 b1 b2 b3, (asking (owned b0 b1 b2 b3) .p1 .releaseBuffer [0]).Asks .p1 .releaseBuffer (frameOf .releaseBuffer [0]) ∧
      ((asking (owned b0 b1 b2 b3) .p1 .releaseBuffer [0]).buffer (bufferAt [0] 0)).state = b0) ∧
    (Port.p2 ≠ Port.p1 ∧ (filled (ready plain true) [1]).fillingFor 0 .p1 = true) ∧
    ((ready plain true).buffer 0).state = .free :=
  ⟨fun _ _ _ _ => ⟨⟨rfl, rfl, rfl⟩, rfl⟩, by decide, rfl⟩

/-! #### Laws -/

/-- The state after reset steps, and meets the laws' hypotheses. -/
theorem meets_EveryStep : (∃ t, step State.reset = .next t) ∧ State.reset.pending = [] ∧
    (∃ t, step { State.reset with pending := [.resetRelease 0 0] } = .next t) :=
  ⟨⟨_, rfl⟩, rfl, _, rfl⟩

theorem meets_EveryStepKeepsTheArraySettled : State.reset.OfferLawful ∧ State.reset.jobSuspended = false ∧
    State.reset.nextReader = none ∧ State.reset.offer = .none := ⟨rfl, rfl, rfl, rfl⟩

theorem meets_EveryStepKeepsThePortLinksLawful :
    State.reset.LinksLawful ∧ State.reset.TransmittersLawful ∧ State.reset.WireLawful ∧ (sending 3 1).WireLawful := by
  refine ⟨fun p => ?_, fun p h => ?_, fun p h => ?_, fun p h f rest e => ?_⟩
  · cases p <;> (unfold PortLink.Lawful; decide)
  · cases p <;> cases h
  · cases p <;> cases h
  · cases p with
    | p1 => cases e; exact List.take_prefix _ _
    | p0 => cases h
    | p2 => cases h
    | p3 => cases h

end Sys2Proof.Tests
end

section
/-! PROOF. What one command, and one step, can do: the rows of requests, the laws of `Keeps`, and what stays of the queue and
of the start-up phase. -/

namespace Sys2Proof.Machine

/-! ### Rows of requests -/

/-- The row of a request hands the request that its port has taken to an owner; PORT_CLEAR does so unless a frame stands in
CHECK (log 15). -/
theorem exec_requestRow {c : Instr} {p : Port} {k : ReqType} {s : State} (h : requestOf c = some (p, k))
    (hf : c = .portClear p → ∀ a, (s.port p).framer ≠ .check a) :
    ∃ owner, exec c s = .next (s.onRequest k p owner) := by
  cases c <;> cases h
  case portClear =>
    refine ⟨fun _ t => t, ?_⟩
    show Host.Outcome.next (s.portClearEvent p) = _
    unfold State.portClearEvent
    split
    · next a ha => exact absurd ha (hf rfl a)
    · rfl
  all_goals exact ⟨_, rfl⟩

/-- With no request of the kind taken, the row changes nothing (log 2). -/
theorem State.onRequest_of_other {s : State} {p : Port} {k : ReqType} (h : ∀ f, s.taken p = some f → f.type ≠ k.code)
    (owner : Frame → State → State) : s.onRequest k p owner = s := by
  unfold State.onRequest
  split
  · rfl
  · next f hf => rw [if_neg (h f hf)]

/-- UNKNOWN_TYPE changes nothing unless the port has taken a request of no kind (log 2). -/
theorem State.refuseUnknown_of_known {s : State} {p : Port} (h : ∀ f, s.taken p = some f → ReqType.ofCode f.type ≠ none) :
    s.refuseUnknown p = s := by
  unfold State.refuseUnknown
  split
  · rfl
  · next f hf => rw [if_neg (h f hf)]

/-- A TYPE byte that is the code of no kind names none. -/
theorem ReqType.ofCode_none {t : Byte} (h : ∀ k : ReqType, t ≠ k.code) : ReqType.ofCode t = none := by
  refine List.find?_eq_none.2 fun k _ e => h k ?_
  exact (beq_iff_eq.1 e).symm

/-! ### Changes of a port link -/

/-- Two changes that agree on the link as it stands. -/
theorem State.modPort_congr {s : State} {p : Port} {f g : PortLink → PortLink} (h : f (s.port p) = g (s.port p)) :
    s.modPort p f = s.modPort p g := by
  unfold State.modPort
  rw [show f (s.ports.get p) = g (s.ports.get p) from h]

/-- A change that leaves the link as it stands. -/
theorem State.modPort_self {s : State} {p : Port} {f : PortLink → PortLink} (h : f (s.port p) = s.port p) :
    s.modPort p f = s := by
  rw [State.modPort_congr (g := id) h]
  simp [State.modPort]

/-- R7: with nothing in the inbound queue no request is taken. -/
theorem PortLink.takeRequest_of_empty {l : PortLink} (h : l.inbound = []) : l.takeRequest = l := by
  unfold PortLink.takeRequest
  split
  · next hi => simp [h] at hi
  · rfl

/-- R7: a request engine that is not WAITING takes no request. -/
theorem PortLink.takeRequest_of_busy {l : PortLink} (h : l.engine ≠ .waiting) : l.takeRequest = l := by
  unfold PortLink.takeRequest
  split
  · next he _ => exact absurd he h
  · rfl

/-- R7: a WAITING request engine takes the oldest frame. -/
theorem PortLink.takeRequest_of_waiting {l : PortLink} {f : Frame} {rest : List Frame} (he : l.engine = .waiting)
    (hi : l.inbound = f :: rest) : l.takeRequest =
      { l with engine := .working, request := some { frame := f, judged := false }, inbound := rest } := by
  unfold PortLink.takeRequest
  rw [he, hi]

/-! ### The laws of `Keeps` -/

/-- Every command keeps the laws of links, latches, memory, buffers and jobs. -/
theorem Keeps.exec (c : Instr) (s : State) : ∃ t, exec c s = .next t ∧ Keeps s t := by
  cases c with
  | deviceReset => exact ⟨_, rfl, Keeps.deviceReset s⟩
  | resetRelease a r => exact ⟨_, rfl, Keeps.resetRelease s a r⟩
  | recover => exact ⟨_, rfl, Keeps.recover s⟩
  | load => exact ⟨_, rfl, Keeps.load s⟩
  | ready => exact ⟨_, rfl, Keeps.becomeReady s⟩
  | frameCheck p => exact ⟨_, rfl, Keeps.checkFrame s p⟩
  | lengthAbandon p => exact ⟨_, rfl, Keeps.abandonLength s p⟩
  | gapTimerExpiry p => exact ⟨_, rfl, Keeps.expireGap s p⟩
  | responseSent p => exact ⟨_, rfl, Keeps.expire s (.frame p)⟩
  | unknownType p => exact ⟨_, rfl, Keeps.refuseUnknown s p⟩
  | status p => exact ⟨_, rfl, Keeps.onRequest _ _ _ _ fun _ _ => Keeps.answer _ _ _ _ _⟩
  | fetchNotices p =>
    exact ⟨_, rfl, Keeps.onRequest _ _ _ _ fun _ t => (Keeps.modPort t p _ (PortLink.fetch_lawful _)
      (fun _ => SendKept.of_eq rfl rfl rfl)).trans (Keeps.answer _ _ _ _ _)⟩
  | portClear p => exact ⟨_, rfl, Keeps.portClearEvent s p⟩
  | clrFallingEdge p => exact ⟨_, rfl, Keeps.clrEdge s p⟩
  | read p => exact ⟨_, rfl, Keeps.onRequest _ _ _ _ fun _ t => Keeps.judgeRead t p _⟩
  | claimBuffer p => exact ⟨_, rfl, Keeps.onRequest _ _ _ _ fun _ t => Keeps.claim t p _⟩
  | fill p => exact ⟨_, rfl, Keeps.onRequest _ _ _ _ fun _ t => Keeps.fill t p _⟩
  | releaseBuffer p => exact ⟨_, rfl, Keeps.onRequest _ _ _ _ fun _ t => Keeps.releaseBuffer t p _⟩
  | program p => exact ⟨_, rfl, Keeps.onRequest _ _ _ _ fun _ t => Keeps.judgeWrite t p _ _⟩
  | eraseSector p => exact ⟨_, rfl, Keeps.onRequest _ _ _ _ fun _ t => Keeps.judgeWrite t p _ _⟩
  | eraseWindow p => exact ⟨_, rfl, Keeps.onRequest _ _ _ _ fun _ t => Keeps.judgeWrite t p _ _⟩
  | cancel p => exact ⟨_, rfl, Keeps.onRequest _ _ _ _ fun _ t => Keeps.cancel t p _⟩
  | jobQuery p => exact ⟨_, rfl, Keeps.onRequest _ _ _ _ fun _ t => Keeps.queryJob t p _⟩
  | openLatch p => exact ⟨_, rfl, Keeps.onRequest _ _ _ _ fun _ t => Keeps.openLatch t p _⟩
  | shutLatch p => exact ⟨_, rfl, Keeps.onRequest _ _ _ _ fun _ t => Keeps.shutOnRequest t p _⟩
  | shutAll p => exact ⟨_, rfl, Keeps.onRequest _ _ _ _ fun _ t => Keeps.shutAll t p _⟩
  | verdict p => exact ⟨_, rfl, Keeps.onRequest _ _ _ _ fun _ t => Keeps.giveVerdict t p _⟩
  | holdLimitExpiry i => exact ⟨_, rfl, Keeps.expireHold s i⟩
  | describeWindow p => exact ⟨_, rfl, Keeps.onRequest _ _ _ _ fun _ t => Keeps.describe t p _⟩
  | listTorn p => exact ⟨_, rfl, Keeps.onRequest _ _ _ _ fun _ _ => Keeps.answer _ _ _ _ _⟩
  | listFuses p => exact ⟨_, rfl, Keeps.onRequest _ _ _ _ fun _ _ => Keeps.answer _ _ _ _ _⟩
  | defineWindow p => exact ⟨_, rfl, Keeps.onRequest _ _ _ _ fun _ t => Keeps.define t p _⟩
  | modifyWindow p => exact ⟨_, rfl, Keeps.onRequest _ _ _ _ fun _ t => Keeps.modify t p _⟩
  | undefineWindow p => exact ⟨_, rfl, Keeps.onRequest _ _ _ _ fun _ t => Keeps.undefine t p _⟩
  | saveTable p => exact ⟨_, rfl, Keeps.onRequest _ _ _ _ fun _ t => Keeps.saveTable t p _⟩
  | lockTable p => exact ⟨_, rfl, Keeps.onRequest _ _ _ _ fun _ t => Keeps.lockTable t p _⟩
  | freezeWindow p => exact ⟨_, rfl, Keeps.onRequest _ _ _ _ fun _ t => Keeps.freeze t p _⟩
  | setGuard p => exact ⟨_, rfl, Keeps.onRequest _ _ _ _ fun _ t => Keeps.setGuard t p _⟩
  | setTiming p => exact ⟨_, rfl, Keeps.onRequest _ _ _ _ fun _ t => Keeps.setTiming t p _⟩
  | guardLevelChange g high => exact ⟨_, rfl, Keeps.guardLevel s g high⟩
  | settleTimerExpiry g => exact ⟨_, rfl, Keeps.expireSettle s g⟩
  | idleTimerExpiry w => exact ⟨_, rfl, Keeps.expireIdle s w⟩
  | leaseExpiry b => exact ⟨_, rfl, Keeps.expireLease s b⟩
  | resumeGapExpiry => exact ⟨_, rfl, Keeps.expireResumeGap s⟩
  | suspensionTaken => exact ⟨_, rfl, Keeps.takeSuspension s⟩
  | readServiceCompletion => exact ⟨_, rfl, Keeps.completeRead s⟩
  | programStepCompletion => exact ⟨_, rfl, Keeps.completeProgram s⟩
  | sectorEraseCompletion => exact ⟨_, rfl, Keeps.completeErase s⟩
  | tableSaveCompletion => exact ⟨_, rfl, Keeps.completeSave s⟩
  | fuseWriteCompletion => exact ⟨_, rfl, Keeps.completeFuse s⟩
  | byteReceived p b => exact ⟨_, rfl, Keeps.receiveByte s p b⟩

/-- Every step keeps those laws. -/
theorem Keeps.step {s t : State} (h : step s = .next t) : Keeps s t := by
  unfold Machine.step at h
  split at h
  · cases h
    exact Keeps.elapse s
  · next c rest _ =>
    obtain ⟨u, hu, k⟩ := Keeps.exec c { s with pending := rest }
    obtain rfl : u = t := by simpa [hu] using h
    refine Keeps.trans ?_ k
    exact Keeps.of_eq rfl rfl rfl rfl rfl (Nat.le_refl _)

/-! ### The queue and the phase -/

/-- Neither the queue of waiting commands nor the start-up phase differs. -/
structure FlowKept (s t : State) : Prop where
  pending : t.pending = s.pending
  phase : t.phase = s.phase

theorem FlowKept.refl (s : State) : FlowKept s s := ⟨rfl, rfl⟩

theorem FlowKept.trans {s t u : State} (a : FlowKept s t) (b : FlowKept t u) : FlowKept s u :=
  ⟨b.pending.trans a.pending, b.phase.trans a.phase⟩

theorem RequestShape.flow {s t : State} (a : RequestShape s t) : FlowKept s t := by
  obtain ⟨_, _, _, _, _, _, _, _, _, _, _, _, _, _, rfl⟩ := a
  exact ⟨rfl, rfl⟩

theorem ArrayShape.flow {s t : State} (a : ArrayShape s t) : FlowKept s t := a.request.flow

theorem LinkShape.flow {s t : State} (a : LinkShape s t) : FlowKept s t := a.request.flow

theorem WindowShape.flow {s t : State} (a : WindowShape s t) : FlowKept s t := by
  obtain ⟨_, _, _, rfl⟩ := a
  exact ⟨rfl, rfl⟩

/-- An operation on a state whose queue and phase are those of `s`. -/
theorem FlowKept.after {s t u : State} (b : FlowKept t u) (a : FlowKept s t) : FlowKept s u := a.trans b

/-- An offer is formed anew, whatever went before. -/
theorem FlowKept.formOffer {s t : State} (a : FlowKept s t) : FlowKept s t.formOffer := a.trans (ArrayShape.formOffer t).flow

/-- A link is changed, whatever went before. -/
theorem FlowKept.modPort {s t : State} (a : FlowKept s t) (p : Port) (f : PortLink → PortLink) :
    FlowKept s (t.modPort p f) := a.trans (LinkShape.modPort t p f).flow

/-- The answer to a request leaves both alone, whatever went before it. -/
theorem FlowKept.answer {s t : State} (a : FlowKept s t) (p : Port) (f : Frame) (r : Result) (l : List Byte) :
    FlowKept s (t.answer p f r l) := a.trans (LinkShape.answer t p f r l).flow

/-- A decision of the sequencer leaves both alone, whatever went before it. -/
theorem FlowKept.arbitrate {s t : State} (a : FlowKept s t) : FlowKept s t.arbitrate :=
  a.trans (ArrayShape.arbitrate t).flow

theorem FlowKept.onRequest (s : State) (k : ReqType) (p : Port) (owner : Frame → State → State)
    (h : ∀ f u, FlowKept u (owner f u)) : FlowKept s (s.onRequest k p owner) := by
  unfold State.onRequest
  split
  · exact FlowKept.refl s
  · split
    · split
      · exact ⟨rfl, rfl⟩
      · exact (LinkShape.modPort s p _).flow.trans (h _ _)
    · exact FlowKept.refl s

/-! #### The owners of requests -/

theorem FlowKept.claim (s : State) (p : Port) (f : Frame) : FlowKept s (s.claim p f) := by
  unfold State.claim
  split
  · exact ⟨rfl, rfl⟩
  · split <;> exact ⟨rfl, rfl⟩

theorem FlowKept.fill (s : State) (p : Port) (f : Frame) : FlowKept s (s.fill p f) := by
  unfold State.fill
  dsimp only
  split
  · exact ⟨rfl, rfl⟩
  · split <;> exact ⟨rfl, rfl⟩

theorem FlowKept.releaseBuffer (s : State) (p : Port) (f : Frame) : FlowKept s (s.releaseBuffer p f) := by
  unfold State.releaseBuffer
  dsimp only
  split
  · exact ⟨rfl, rfl⟩
  · split <;> exact ⟨rfl, rfl⟩
  · exact ⟨rfl, rfl⟩

theorem FlowKept.cancel (s : State) (p : Port) (f : Frame) : FlowKept s (s.cancel p f) := by
  unfold State.cancel
  split
  · exact ⟨rfl, rfl⟩
  · split
    · exact ⟨rfl, rfl⟩
    · split
      · exact ((ArrayShape.endJob _ _ _ _ _ _).flow.answer _ _ _ _).arbitrate
      · split <;> exact ⟨rfl, rfl⟩

theorem FlowKept.queryJob (s : State) (p : Port) (f : Frame) : FlowKept s (s.queryJob p f) := by
  unfold State.queryJob
  split <;> exact ⟨rfl, rfl⟩

theorem FlowKept.saveTable (s : State) (p : Port) (f : Frame) : FlowKept s (s.saveTable p f) := by
  unfold State.saveTable
  split
  · exact ⟨rfl, rfl⟩
  · exact FlowKept.arbitrate ⟨rfl, rfl⟩

theorem FlowKept.acceptFreeze (s : State) (p : Port) (w : Slot) (r : Range) : FlowKept s (s.acceptFreeze p w r) :=
  (ArrayShape.syncIdle _ w true).flow.after ⟨rfl, rfl⟩

theorem FlowKept.freeze (s : State) (p : Port) (f : Frame) : FlowKept s (s.freeze p f) := by
  unfold State.freeze
  dsimp only
  split
  · exact ⟨rfl, rfl⟩
  · split
    · exact ⟨rfl, rfl⟩
    · split
      · exact ⟨rfl, rfl⟩
      · exact ((FlowKept.acceptFreeze s p _ _).answer _ _ _ _).formOffer.arbitrate

theorem FlowKept.setOpen (s : State) (w : Slot) (x : Window) : FlowKept s (s.setOpen w x) :=
  (ArrayShape.syncIdle (s.setWindow w (some { x with latchOpen := true })) w true).flow.after ⟨rfl, rfl⟩

theorem FlowKept.openLatch (s : State) (p : Port) (f : Frame) : FlowKept s (s.openLatch p f) := by
  unfold State.openLatch
  dsimp only
  split
  · exact ⟨rfl, rfl⟩
  · split
    · exact ⟨rfl, rfl⟩
    · split
      · exact ⟨rfl, rfl⟩
      · exact (FlowKept.setOpen s _ _).answer _ _ _ _

theorem FlowKept.shutOnRequest (s : State) (p : Port) (f : Frame) : FlowKept s (s.shutOnRequest p f) := by
  unfold State.shutOnRequest
  dsimp only
  split
  · exact ⟨rfl, rfl⟩
  · split
    · exact (WindowShape.shutLatch _ _ _).flow.answer _ _ _ _
    · exact ⟨rfl, rfl⟩

theorem FlowKept.shutAll (s : State) (p : Port) (f : Frame) : FlowKept s (s.shutAll p f) := by
  unfold State.shutAll
  split
  · exact ⟨rfl, rfl⟩
  · exact (WindowShape.shutEvery s .admin).flow.answer _ _ _ _

theorem FlowKept.giveVerdict (s : State) (p : Port) (f : Frame) : FlowKept s (s.giveVerdict p f) := by
  unfold State.giveVerdict
  split
  · exact ⟨rfl, rfl⟩
  · split
    · exact (RequestShape.resolveHold _ _ _).flow.answer _ _ _ _
    · exact ⟨rfl, rfl⟩

theorem FlowKept.describe (s : State) (p : Port) (f : Frame) : FlowKept s (s.describe p f) := by
  unfold State.describe
  dsimp only
  split <;> exact ⟨rfl, rfl⟩

theorem FlowKept.define (s : State) (p : Port) (f : Frame) : FlowKept s (s.define p f) := by
  unfold State.define
  split <;> exact ⟨rfl, rfl⟩

theorem FlowKept.modify (s : State) (p : Port) (f : Frame) : FlowKept s (s.modify p f) := by
  unfold State.modify
  dsimp only
  split
  · exact ⟨rfl, rfl⟩
  · refine FlowKept.answer ((WindowShape.shutLatch s (slotAt f.body 0) .modify).flow.trans ?_) p f .ok []
    exact ⟨rfl, rfl⟩

theorem FlowKept.undefine (s : State) (p : Port) (f : Frame) : FlowKept s (s.undefine p f) := by
  unfold State.undefine
  dsimp only
  split
  · exact ⟨rfl, rfl⟩
  · refine FlowKept.answer ((WindowShape.shutLatch s (slotAt f.body 0) .admin).flow.trans ?_) p f .ok []
    exact ⟨rfl, rfl⟩

theorem FlowKept.lockTable (s : State) (p : Port) (f : Frame) : FlowKept s (s.lockTable p f) := by
  unfold State.lockTable
  split <;> exact ⟨rfl, rfl⟩

theorem FlowKept.applyGuard (s : State) (g : GuardInput) (x : GuardSetting) : FlowKept s (s.applyGuard g x) :=
  (WindowShape.setInput { s with header := s.header.setGuard g x } g _).flow.after ⟨rfl, rfl⟩

theorem FlowKept.setGuard (s : State) (p : Port) (f : Frame) : FlowKept s (s.setGuard p f) := by
  unfold State.setGuard
  split
  · exact ⟨rfl, rfl⟩
  · exact (FlowKept.applyGuard s _ _).trans ⟨rfl, rfl⟩

theorem FlowKept.setTiming (s : State) (p : Port) (f : Frame) : FlowKept s (s.setTiming p f) := by
  unfold State.setTiming
  dsimp only
  split
  · exact ⟨rfl, rfl⟩
  · split <;> exact ⟨rfl, rfl⟩

/-! #### Port links -/

theorem FlowKept.askTransmission (s : State) (p : Port) : FlowKept s (s.askTransmission p) := by
  unfold State.askTransmission
  split
  · exact FlowKept.refl s
  · split <;> exact ⟨rfl, rfl⟩

theorem FlowKept.linkError (s : State) (p : Port) (r : Result) : FlowKept s (s.linkError p r) := by
  unfold State.linkError
  split
  · exact ⟨rfl, rfl⟩
  · exact (FlowKept.askTransmission s p).modPort p _

theorem FlowKept.clearBuffers (s : State) (p : Port) : FlowKept s (s.clearBuffers p) := by
  obtain ⟨⟨_, e⟩, _⟩ := State.clearBuffers_eq s p
  rw [e]
  exact ⟨rfl, rfl⟩

theorem FlowKept.clearJobs (s : State) (p : Port) : FlowKept s (s.clearJobs p) := by
  have removed := RequestShape.foldl (fun s j => s.endJob j .cancelled .none 0 false)
    (fun u j => (ArrayShape.endJob u j _ _ _ _).request) (s.jobs.filter (fun j => j.owner == p && j.state == .queued)) s
  exact removed.flow.formOffer.arbitrate

theorem FlowKept.clearOwnHold (s : State) (p : Port) : FlowKept s (s.clearOwnHold p) := ⟨rfl, rfl⟩

theorem FlowKept.clearWatched (s : State) (p : Port) : FlowKept s (s.clearWatched p) :=
  (RequestShape.foldl (fun s h => s.resolveHold h (s.holdDefault h)) (fun u h => RequestShape.resolveHold u h _) _ s).flow

theorem FlowKept.clearReads (s : State) (p : Port) : FlowKept s (s.clearReads p) := ⟨rfl, rfl⟩

theorem FlowKept.clearPort (s : State) (p : Port) : FlowKept s (s.clearPort p) := by
  have link : FlowKept s ((s.askTransmission p).modPort p PortLink.clear) :=
    (FlowKept.askTransmission s p).modPort p PortLink.clear
  exact ((((link.trans (FlowKept.clearBuffers _ p)).trans (FlowKept.clearJobs _ p)).trans (FlowKept.clearOwnHold _ p)).trans
    (FlowKept.clearWatched _ p)).trans (FlowKept.clearReads _ p)

theorem FlowKept.disposeFrame (s : State) (p : Port) (f : Frame) : FlowKept s (s.disposeFrame p f) := by
  unfold State.disposeFrame
  split
  · exact FlowKept.linkError s p _
  · split
    · exact (FlowKept.clearPort s p).modPort p _
    · split
      · exact FlowKept.linkError s p _
      · exact ⟨rfl, rfl⟩

theorem FlowKept.checkFrame (s : State) (p : Port) : FlowKept s (s.checkFrame p) := by
  unfold State.checkFrame
  split
  · dsimp only
    split
    · exact (FlowKept.disposeFrame _ p _).after ⟨rfl, rfl⟩
    · exact (FlowKept.linkError _ p _).after ⟨rfl, rfl⟩
  · exact FlowKept.refl s

theorem FlowKept.abandonLength (s : State) (p : Port) : FlowKept s (s.abandonLength p) := by
  unfold State.abandonLength
  split
  · split <;> exact ⟨rfl, rfl⟩
  · exact FlowKept.refl s

theorem FlowKept.receiveByte (s : State) (p : Port) (b : Byte) : FlowKept s (s.receiveByte p b) := by
  unfold State.receiveByte
  split
  · exact FlowKept.refl s
  · exact ((FlowKept.checkFrame s p).trans (FlowKept.abandonLength _ p)).modPort p _

theorem FlowKept.expireGap (s : State) (p : Port) : FlowKept s (s.expireGap p) := by
  unfold State.expireGap
  split <;> exact ⟨rfl, rfl⟩

theorem FlowKept.portClearEvent (s : State) (p : Port) : FlowKept s (s.portClearEvent p) := by
  have row : FlowKept s (s.onRequest .portClear p (fun _ t => t)) := FlowKept.onRequest _ _ _ _ fun _ u => FlowKept.refl u
  unfold State.portClearEvent
  split
  · split
    · exact FlowKept.checkFrame s p
    · exact row
  · exact row

theorem FlowKept.clrEdge (s : State) (p : Port) : FlowKept s (s.clrEdge p) := by
  unfold State.clrEdge
  split
  · exact (FlowKept.clearPort _ p).after ⟨rfl, rfl⟩
  · exact FlowKept.refl s

theorem FlowKept.refuseUnknown (s : State) (p : Port) : FlowKept s (s.refuseUnknown p) := by
  unfold State.refuseUnknown
  split
  · exact FlowKept.refl s
  · split <;> exact ⟨rfl, rfl⟩

/-! #### Timers -/

theorem FlowKept.expireIdle (s : State) (w : Slot) : FlowKept s (s.expireIdle w) := by
  unfold State.expireIdle
  split
  · exact FlowKept.refl s
  · split
    · exact (WindowShape.shutLatch s w .idle).flow
    · exact FlowKept.refl s

theorem FlowKept.expireHold (s : State) (id : Byte) : FlowKept s (s.expireHold id) := by
  unfold State.expireHold
  split
  · exact FlowKept.refl s
  · exact (LinkShape.post _ _ _).flow.trans (RequestShape.resolveHold _ _ _).flow

theorem FlowKept.expireLease (s : State) (b : BufferNo) : FlowKept s (s.expireLease b) := by
  unfold State.expireLease
  split <;> exact ⟨rfl, rfl⟩

theorem FlowKept.expireSettle (s : State) (g : GuardInput) : FlowKept s (s.expireSettle g) := by
  unfold State.expireSettle
  split
  · exact (WindowShape.setInput s g _).flow
  · exact (WindowShape.setInput s g _).flow
  · exact FlowKept.refl s

theorem FlowKept.guardLevel (s : State) (g : GuardInput) (high : Bool) : FlowKept s (s.guardLevel g high) := by
  unfold State.guardLevel
  dsimp only
  split
  · exact (WindowShape.setInput _ g _).flow.after ⟨rfl, rfl⟩
  · exact ⟨rfl, rfl⟩

theorem FlowKept.expireResumeGap (s : State) : FlowKept s s.expireResumeGap := by
  unfold State.expireResumeGap
  split
  · exact (ArrayShape.requestSuspend _).flow.after ⟨rfl, rfl⟩
  · exact FlowKept.refl s

theorem FlowKept.expire (s : State) (m : Timer) : FlowKept s (s.expire m) := by
  cases m with
  | gap p => exact FlowKept.expireGap s p
  | settle g => exact FlowKept.expireSettle s g
  | idle w => exact FlowKept.expireIdle s w
  | lease b => exact FlowKept.expireLease s b
  | hold id => exact FlowKept.expireHold s id
  | resume => exact FlowKept.expireResumeGap s
  | frame p => exact ⟨rfl, rfl⟩

/-! #### The array -/

theorem FlowKept.takeSuspension (s : State) : FlowKept s s.takeSuspension := by
  unfold State.takeSuspension
  split
  · exact FlowKept.arbitrate ⟨rfl, rfl⟩
  · exact FlowKept.refl s

theorem FlowKept.completeRead (s : State) : FlowKept s s.completeRead := by
  unfold State.completeRead
  split
  · exact FlowKept.refl s
  · split <;> exact FlowKept.arbitrate ⟨rfl, rfl⟩

theorem FlowKept.endActive (s : State) (st : EndStatus) (d : Nat) : FlowKept s (s.endActive st d) := by
  unfold State.endActive
  split
  · exact (ArrayShape.endJob _ _ _ _ _ _).flow
  · exact ⟨rfl, rfl⟩

theorem FlowKept.eraseStepEnds (s : State) : FlowKept s s.eraseStepEnds := by
  unfold State.eraseStepEnds
  split
  · exact ⟨rfl, rfl⟩
  · split
    · split
      · exact (ArrayShape.endJob _ _ _ _ _ _).flow
      · exact ⟨rfl, rfl⟩
    · exact (ArrayShape.endJob _ _ _ _ _ _).flow

theorem FlowKept.completeProgram (s : State) : FlowKept s s.completeProgram := by
  unfold State.completeProgram
  split
  · refine FlowKept.arbitrate (FlowKept.trans ?_ (FlowKept.endActive _ _ _))
    exact ⟨rfl, rfl⟩
  · exact FlowKept.refl s

theorem FlowKept.completeErase (s : State) : FlowKept s s.completeErase := by
  unfold State.completeErase
  split
  · refine FlowKept.arbitrate (FlowKept.trans ?_ (FlowKept.eraseStepEnds _))
    exact ⟨rfl, rfl⟩
  · exact FlowKept.refl s

theorem FlowKept.completeSave (s : State) : FlowKept s s.completeSave := by
  unfold State.completeSave
  split
  · refine FlowKept.arbitrate (FlowKept.trans ?_ (FlowKept.endActive _ _ _))
    exact ⟨rfl, rfl⟩
  · exact FlowKept.refl s

theorem FlowKept.completeFuse (s : State) : FlowKept s s.completeFuse := by
  unfold State.completeFuse
  split
  · refine FlowKept.arbitrate (FlowKept.trans ?_ (FlowKept.endActive _ _ _))
    exact ⟨rfl, rfl⟩
  · exact FlowKept.refl s

/-! #### Device reset and start-up -/

/-- Only the main array, the system area and the counter of free values differ. -/
def StorageShape (s t : State) : Prop :=
  ∃ m fs mk tn st im n, t = { s with
    mem := m, fuses := fs, marker := mk, torn := tn, imageState := st, image := im, freeCount := n }

theorem StorageShape.trans {s t u : State} (a : StorageShape s t) (b : StorageShape t u) : StorageShape s u := by
  obtain ⟨_, _, _, _, _, _, _, rfl⟩ := a
  obtain ⟨_, _, _, _, _, _, _, rfl⟩ := b
  exact ⟨_, _, _, _, _, _, _, rfl⟩

theorem StorageShape.recoverAction (s : State) (m : Marker) : StorageShape s (s.recoverAction m) := by
  cases m <;> exact ⟨_, _, _, _, _, _, _, rfl⟩

theorem StorageShape.interruptRecover (s : State) : StorageShape s s.interruptRecover := by
  unfold State.interruptRecover
  split
  · exact ⟨_, _, _, _, _, _, _, rfl⟩
  · next m _ =>
    split
    · refine StorageShape.trans ?_ ⟨_, _, _, _, _, _, _, rfl⟩
      split
      · exact ⟨_, _, _, _, _, _, _, rfl⟩
      · split <;> exact ⟨_, _, _, _, _, _, _, rfl⟩
      · exact StorageShape.recoverAction s m
      · exact (StorageShape.recoverAction s m).trans ⟨_, _, _, _, _, _, _, rfl⟩
    · exact ⟨_, _, _, _, _, _, _, rfl⟩

theorem StorageShape.interruptStep (s : State) : StorageShape s s.interruptStep := by
  unfold State.interruptStep
  split <;> exact ⟨_, _, _, _, _, _, _, rfl⟩

/-- What a device reset finds of the part when RECOVER and the step in progress have been interrupted. -/
theorem StorageShape.interrupted (s : State) : StorageShape s s.interruptRecover.interruptStep :=
  (StorageShape.interruptRecover s).trans (StorageShape.interruptStep _)

theorem State.pending_deviceReset (s : State) : s.deviceReset.pending = s.pending := by
  obtain ⟨_, _, _, _, _, _, _, h⟩ := StorageShape.interrupted s
  show s.interruptRecover.interruptStep.pending = _
  rw [h]

theorem FlowKept.resetRelease (s : State) (a r : BitVec 2) : FlowKept s (s.resetRelease a r) := by
  unfold State.resetRelease
  split <;> exact ⟨rfl, rfl⟩

theorem State.pending_recover (s : State) : s.recover.pending = s.pending := by
  unfold State.recover
  split
  · split
    · rfl
    · next m _ =>
      obtain ⟨_, _, _, _, _, _, _, h⟩ := StorageShape.recoverAction s m
      show (s.recoverAction m).pending = _
      rw [h]
  · rfl

/-- Loading the table leaves everything but the windows, the header and the table state. -/
theorem State.loadTable_shape (s : State) :
    ∃ ws h ts, s.loadTable = { s with windows := ws, header := h, tableState := ts } := by
  unfold State.loadTable
  split <;> exact ⟨_, _, _, rfl⟩

theorem FlowKept.load (s : State) : FlowKept s s.load := by
  unfold State.load
  split
  · obtain ⟨_, _, _, h⟩ := s.loadTable_shape
    rw [h]
    exact ⟨rfl, rfl⟩
  · exact FlowKept.refl s

theorem State.pending_becomeReady (s : State) : s.becomeReady.pending = s.pending := by
  unfold State.becomeReady
  split
  · exact (LinkShape.postEach _ Port.all s.startedNotice).flow.pending
  · rfl

/-! #### Time and commands -/

theorem FlowKept.expireIfDue (s : State) (m : Timer) : FlowKept s (s.expireIfDue m) := by
  unfold State.expireIfDue
  split
  · exact FlowKept.expire s m
  · exact FlowKept.refl s

theorem FlowKept.expireAll (l : List Timer) (s : State) : FlowKept s (l.foldl State.expireIfDue s) := by
  induction l generalizing s with
  | nil => exact FlowKept.refl s
  | cons m l ih => exact (FlowKept.expireIfDue s m).trans (ih _)

theorem FlowKept.elapse (s : State) : FlowKept s s.elapse :=
  (FlowKept.expireAll _ _).after ⟨rfl, rfl⟩

/-- The commands that move the start-up phase: DEVICE_RESET, RECOVER and READY. -/
def movesPhase : Instr → Bool
  | .deviceReset | .recover | .ready => true
  | _ => false

/-- What every command does to the queue and the phase. -/
abbrev FlowAfter (c : Instr) (s t : State) : Prop := t.pending = s.pending ∧ (movesPhase c = false → t.phase = s.phase)

theorem FlowKept.command {s t : State} (k : FlowKept s t) (c : Instr) : FlowAfter c s t := ⟨k.pending, fun _ => k.phase⟩

theorem FlowKept.request (s : State) (k : ReqType) (p : Port) {owner : Frame → State → State} (c : Instr)
    (h : ∀ f u, FlowKept u (owner f u)) : FlowAfter c s (s.onRequest k p owner) :=
  (FlowKept.onRequest s k p owner h).command c

/-- Every command answers a next state, leaves the queue as it is, and moves the phase only in start-up. -/
theorem exec_flow (c : Instr) (s : State) : ∃ t, exec c s = .next t ∧ FlowAfter c s t := by
  cases c with
  | deviceReset => exact ⟨_, rfl, s.pending_deviceReset, nofun⟩
  | resetRelease a r => exact ⟨_, rfl, (FlowKept.resetRelease s a r).command _⟩
  | recover => exact ⟨_, rfl, s.pending_recover, nofun⟩
  | load => exact ⟨_, rfl, (FlowKept.load s).command _⟩
  | ready => exact ⟨_, rfl, s.pending_becomeReady, nofun⟩
  | frameCheck p => exact ⟨_, rfl, (FlowKept.checkFrame s p).command _⟩
  | lengthAbandon p => exact ⟨_, rfl, (FlowKept.abandonLength s p).command _⟩
  | gapTimerExpiry p => exact ⟨_, rfl, (FlowKept.expireGap s p).command _⟩
  | responseSent p => exact ⟨_, rfl, (FlowKept.expire s (.frame p)).command _⟩
  | unknownType p => exact ⟨_, rfl, (FlowKept.refuseUnknown s p).command _⟩
  | status p => exact ⟨_, rfl, FlowKept.request _ _ _ _ fun _ _ => ⟨rfl, rfl⟩⟩
  | fetchNotices p => exact ⟨_, rfl, FlowKept.request _ _ _ _ fun _ _ => ⟨rfl, rfl⟩⟩
  | portClear p => exact ⟨_, rfl, (FlowKept.portClearEvent s p).command _⟩
  | clrFallingEdge p => exact ⟨_, rfl, (FlowKept.clrEdge s p).command _⟩
  | read p => exact ⟨_, rfl, FlowKept.request _ _ _ _ fun _ t => (RequestShape.judgeRead t p _).flow⟩
  | claimBuffer p => exact ⟨_, rfl, FlowKept.request _ _ _ _ fun _ t => FlowKept.claim t p _⟩
  | fill p => exact ⟨_, rfl, FlowKept.request _ _ _ _ fun _ t => FlowKept.fill t p _⟩
  | releaseBuffer p => exact ⟨_, rfl, FlowKept.request _ _ _ _ fun _ t => FlowKept.releaseBuffer t p _⟩
  | program p => exact ⟨_, rfl, FlowKept.request _ _ _ _ fun _ t => (RequestShape.judgeWrite t p _ _).flow⟩
  | eraseSector p => exact ⟨_, rfl, FlowKept.request _ _ _ _ fun _ t => (RequestShape.judgeWrite t p _ _).flow⟩
  | eraseWindow p => exact ⟨_, rfl, FlowKept.request _ _ _ _ fun _ t => (RequestShape.judgeWrite t p _ _).flow⟩
  | cancel p => exact ⟨_, rfl, FlowKept.request _ _ _ _ fun _ t => FlowKept.cancel t p _⟩
  | jobQuery p => exact ⟨_, rfl, FlowKept.request _ _ _ _ fun _ t => FlowKept.queryJob t p _⟩
  | openLatch p => exact ⟨_, rfl, FlowKept.request _ _ _ _ fun _ t => FlowKept.openLatch t p _⟩
  | shutLatch p => exact ⟨_, rfl, FlowKept.request _ _ _ _ fun _ t => FlowKept.shutOnRequest t p _⟩
  | shutAll p => exact ⟨_, rfl, FlowKept.request _ _ _ _ fun _ t => FlowKept.shutAll t p _⟩
  | verdict p => exact ⟨_, rfl, FlowKept.request _ _ _ _ fun _ t => FlowKept.giveVerdict t p _⟩
  | holdLimitExpiry i => exact ⟨_, rfl, (FlowKept.expireHold s i).command _⟩
  | describeWindow p => exact ⟨_, rfl, FlowKept.request _ _ _ _ fun _ t => FlowKept.describe t p _⟩
  | listTorn p => exact ⟨_, rfl, FlowKept.request _ _ _ _ fun _ _ => ⟨rfl, rfl⟩⟩
  | listFuses p => exact ⟨_, rfl, FlowKept.request _ _ _ _ fun _ _ => ⟨rfl, rfl⟩⟩
  | defineWindow p => exact ⟨_, rfl, FlowKept.request _ _ _ _ fun _ t => FlowKept.define t p _⟩
  | modifyWindow p => exact ⟨_, rfl, FlowKept.request _ _ _ _ fun _ t => FlowKept.modify t p _⟩
  | undefineWindow p => exact ⟨_, rfl, FlowKept.request _ _ _ _ fun _ t => FlowKept.undefine t p _⟩
  | saveTable p => exact ⟨_, rfl, FlowKept.request _ _ _ _ fun _ t => FlowKept.saveTable t p _⟩
  | lockTable p => exact ⟨_, rfl, FlowKept.request _ _ _ _ fun _ t => FlowKept.lockTable t p _⟩
  | freezeWindow p => exact ⟨_, rfl, FlowKept.request _ _ _ _ fun _ t => FlowKept.freeze t p _⟩
  | setGuard p => exact ⟨_, rfl, FlowKept.request _ _ _ _ fun _ t => FlowKept.setGuard t p _⟩
  | setTiming p => exact ⟨_, rfl, FlowKept.request _ _ _ _ fun _ t => FlowKept.setTiming t p _⟩
  | guardLevelChange g high => exact ⟨_, rfl, (FlowKept.guardLevel s g high).command _⟩
  | settleTimerExpiry g => exact ⟨_, rfl, (FlowKept.expireSettle s g).command _⟩
  | idleTimerExpiry w => exact ⟨_, rfl, (FlowKept.expireIdle s w).command _⟩
  | leaseExpiry b => exact ⟨_, rfl, (FlowKept.expireLease s b).command _⟩
  | resumeGapExpiry => exact ⟨_, rfl, (FlowKept.expireResumeGap s).command _⟩
  | suspensionTaken => exact ⟨_, rfl, (FlowKept.takeSuspension s).command _⟩
  | readServiceCompletion => exact ⟨_, rfl, (FlowKept.completeRead s).command _⟩
  | programStepCompletion => exact ⟨_, rfl, (FlowKept.completeProgram s).command _⟩
  | sectorEraseCompletion => exact ⟨_, rfl, (FlowKept.completeErase s).command _⟩
  | tableSaveCompletion => exact ⟨_, rfl, (FlowKept.completeSave s).command _⟩
  | fuseWriteCompletion => exact ⟨_, rfl, (FlowKept.completeFuse s).command _⟩
  | byteReceived p b => exact ⟨_, rfl, (FlowKept.receiveByte s p b).command _⟩

/-! ### The statements -/

/-- Settles O56: the laws of the port links and of transmission are laws of `Keeps`, which every step keeps. -/
theorem everyStepKeepsThePortLinksLawful : Obligations.EveryStepKeepsThePortLinksLawful := by
  refine ⟨fun s t hl h p => ?_, fun s t hs h p => ?_, fun s t hs hw h p => ?_⟩
  · exact (Keeps.step h).links p (hl p)
  · exact ((Keeps.step h).sends p).sends (hs p)
  · exact ((Keeps.step h).sends p).wire (hs p) (hw p)

/-- Settles O3: what each command does to the queue and the phase (`exec_flow`), command by command. -/
theorem everyCommandCompletesAndLeavesTheQueue : Obligations.EveryCommandCompletesAndLeavesTheQueue := by
  intro c s
  obtain ⟨t, ht, hq, _⟩ := exec_flow c s
  exact ⟨t, ht, hq⟩

/-- Settles O4: a request row is `onRequest`, which acts only on a taken request of its kind. -/
theorem requestRowWithoutItsRequestChangesNothing : Obligations.RequestRowWithoutItsRequestChangesNothing := by
  refine ⟨fun c p k s hc ht hf => ?_, fun p s ht => ?_⟩
  · obtain ⟨owner, h⟩ := exec_requestRow hc hf
    rw [h, State.onRequest_of_other ht]
  · show Host.Outcome.next (s.refuseUnknown p) = _
    rw [State.refuseUnknown_of_known ht]

end Sys2Proof.Machine
end

section
/-! PROOF. Start-up: until READY nothing is taken, queued, held or noticed (R19, R183), and what a device reset leaves
(R175, R176, R178). -/

namespace Sys2Proof.Machine

/-! ### Nothing is taken, queued, held or noticed -/

/-- What R19 asks of a port link: STARTING, with nothing taken, queued or noticed. -/
structure PortLink.Closed (l : PortLink) : Prop where
  starting : l.ready = false
  inbound : l.inbound = []
  engine : l.engine = .waiting
  request : l.request = none
  notices : l.notices = []
  overflow : l.overflow = false

/-- What R19 and R183 ask of the part until READY. -/
structure State.Closed (s : State) : Prop where
  links : ∀ p, (s.port p).Closed
  jobs : s.jobs = []
  holds : s.holds = []
  reservations : s.reservations = []
  seq : s.seq = Sequencer.reset
  arrayOp : s.arrayOp = .none
  arrayStep : s.arrayStep = none
  offer : s.offer = .none
  buffers : ∀ b, (s.buffer b).state = .free
  windows : ∀ w x, s.window w = some x → x.latchOpen = false ∧ x.idle = .stopped

theorem State.startupClosed_iff (s : State) : s.StartupClosed ↔ (s.phase ≠ .ready → s.Closed) := by
  refine forall_congr' fun _ => ⟨?_, fun h => ?_⟩
  · rintro ⟨links, jobs, holds, reservations, seq, arrayOp, arrayStep, offer, buffers, windows⟩
    refine ⟨fun p => ?_, jobs, holds, reservations, seq, arrayOp, arrayStep, offer, buffers, windows⟩
    obtain ⟨starting, inbound, engine, request, notices, overflow⟩ := links p
    exact ⟨starting, inbound, engine, request, notices, overflow⟩
  · exact ⟨fun p => ⟨(h.links p).starting, (h.links p).inbound, (h.links p).engine, (h.links p).request,
      (h.links p).notices, (h.links p).overflow⟩, h.jobs, h.holds, h.reservations, h.seq, h.arrayOp, h.arrayStep, h.offer,
      h.buffers, h.windows⟩

/-- The framer, the output list and the transmitter bear on none of it. -/
theorem PortLink.Closed.of_eq {l m : PortLink} (h : l.Closed) (hr : m.ready = l.ready) (hi : m.inbound = l.inbound)
    (he : m.engine = l.engine) (hq : m.request = l.request) (hn : m.notices = l.notices) (ho : m.overflow = l.overflow) :
    m.Closed :=
  ⟨hr.trans h.starting, hi.trans h.inbound, he.trans h.engine, hq.trans h.request, hn.trans h.notices,
    ho.trans h.overflow⟩

/-- The fields that it rests on. -/
theorem State.Closed.of_eq {s t : State} (h : s.Closed) (hp : t.ports = s.ports) (hj : t.jobs = s.jobs)
    (hh : t.holds = s.holds) (hr : t.reservations = s.reservations) (hq : t.seq = s.seq) (ha : t.arrayOp = s.arrayOp)
    (hs : t.arrayStep = s.arrayStep) (ho : t.offer = s.offer) (hb : t.buffers = s.buffers) (hw : t.windows = s.windows) :
    t.Closed := by
  refine ⟨fun p => ?_, hj.trans h.jobs, hh.trans h.holds, hr.trans h.reservations, hq.trans h.seq, ha.trans h.arrayOp,
    hs.trans h.arrayStep, ho.trans h.offer, fun b => ?_, fun w x hx => ?_⟩
  · have e : t.port p = s.port p := by simp [State.port, hp]
    rw [e]
    exact h.links p
  · have e : t.buffer b = s.buffer b := by simp [State.buffer, hb]
    rw [e]
    exact h.buffers b
  · have e : t.window w = s.window w := by simp [State.window, hw]
    exact h.windows w x (e ▸ hx)

/-- An event that changes nothing leaves the part closed. -/
theorem State.Closed.unchanged {s t : State} (h : s.Closed) (e : t = s) : t.Closed := e ▸ h

theorem State.Closed.modPort {s : State} (h : s.Closed) (p : Port) (f : PortLink → PortLink)
    (hf : (s.port p).Closed → (f (s.port p)).Closed) : (s.modPort p f).Closed := by
  refine ⟨fun q => ?_, h.jobs, h.holds, h.reservations, h.seq, h.arrayOp, h.arrayStep, h.offer, h.buffers, h.windows⟩
  rw [State.port_modPort]
  split
  · exact hf (h.links p)
  · exact h.links q

theorem State.Closed.framer {s : State} (h : s.Closed) (p : Port) (f : PortLink → Framer) :
    (s.modPort p (fun l => { l with framer := f l })).Closed :=
  h.modPort p _ fun l => l.of_eq rfl rfl rfl rfl rfl rfl

/-! ### Port links until READY -/

theorem State.Closed.taken {s : State} (h : s.Closed) (p : Port) : s.taken p = none := by
  unfold State.taken
  rw [(h.links p).engine]

theorem State.Closed.askTransmission {s : State} (h : s.Closed) (p : Port) : (s.askTransmission p).Closed := by
  unfold State.askTransmission
  split
  · exact h
  · split
    · exact (h.modPort p _ fun l => l.of_eq rfl rfl rfl rfl rfl rfl).of_eq rfl rfl rfl rfl rfl rfl rfl rfl rfl rfl
    · exact h.of_eq rfl rfl rfl rfl rfl rfl rfl rfl rfl rfl

theorem PortLink.Closed.pushLinkError {l : PortLink} (h : l.Closed) (r : Result) : (l.pushLinkError r).Closed := by
  unfold PortLink.pushLinkError
  split
  · exact h.of_eq rfl rfl rfl rfl rfl rfl
  · exact h

theorem State.Closed.linkError {s : State} (h : s.Closed) (p : Port) (r : Result) : (s.linkError p r).Closed := by
  unfold State.linkError
  split
  · exact h.modPort p _ fun l => l.pushLinkError r
  · exact (h.askTransmission p).modPort p _ fun l => l.pushLinkError r

/-- A frame that comes to a STARTING port is answered by a link error response (R5). -/
theorem State.Closed.checkFrame {s : State} (h : s.Closed) (p : Port) : (s.checkFrame p).Closed := by
  have hunt := h.framer p fun _ => .hunt
  unfold State.checkFrame
  split
  · dsimp only
    split
    · unfold State.disposeFrame
      rw [if_pos (hunt.links p).starting]
      exact hunt.linkError p _
    · exact hunt.linkError p _
  · exact h

theorem State.Closed.abandonLength {s : State} (h : s.Closed) (p : Port) : (s.abandonLength p).Closed := by
  unfold State.abandonLength
  split
  · split
    · exact h.framer p _
    · exact h
  · exact h

theorem State.Closed.receiveByte {s : State} (h : s.Closed) (p : Port) (b : Byte) : (s.receiveByte p b).Closed := by
  unfold State.receiveByte
  split
  · exact h
  · exact ((h.checkFrame p).abandonLength p).framer p _

theorem State.Closed.expireGap {s : State} (h : s.Closed) (p : Port) : (s.expireGap p).Closed := by
  unfold State.expireGap
  split
  · exact h.framer p _
  · exact h.framer p _
  · exact h

theorem State.Closed.portClearEvent {s : State} (h : s.Closed) (p : Port) : (s.portClearEvent p).Closed := by
  have row : s.onRequest .portClear p (fun _ t => t) = s := State.onRequest_of_other (by simp [h.taken p]) _
  unfold State.portClearEvent
  rw [row]
  split
  · split
    · exact h.checkFrame p
    · exact h
  · exact h

/-- With nothing in the inbound queue, the end of a frame lets no request in. -/
theorem PortLink.Closed.sent {l : PortLink} (h : l.Closed) : l.sent.Closed := by
  unfold PortLink.sent
  split
  · exact h
  · dsimp only
    split
    · rw [PortLink.takeRequest_of_empty (by exact h.inbound)]
      exact ⟨h.starting, h.inbound, rfl, rfl, h.notices, h.overflow⟩
    · exact h.of_eq rfl rfl rfl rfl rfl rfl

/-! ### Latches, guard inputs, timers and the array until READY -/

theorem State.Closed.shutLatch {s : State} (h : s.Closed) (w : Slot) (c : LatchCause) : s.shutLatch w c = s := by
  unfold State.shutLatch
  split
  · rfl
  · next x hx => simp [(h.windows w x hx).1]

theorem State.Closed.shutGuarded {s : State} (h : s.Closed) (g : GuardInput) : s.shutGuarded g = s := by
  refine List.foldl_fixed' (fun w => ?_) allSlots
  split
  · split
    · exact h.shutLatch w .guard
    · rfl
  · rfl

theorem State.Closed.setGuardPin {s : State} (h : s.Closed) (g : GuardInput) (x : GuardPin) : (s.setGuardPin g x).Closed :=
  h.of_eq rfl rfl rfl rfl rfl rfl rfl rfl rfl rfl

/-- Until READY a change of a guard input is reported to no port (R79), and every latch is SHUT already. -/
theorem State.Closed.setInput {s : State} (h : s.Closed) (hp : s.phase ≠ .ready) (g : GuardInput) (x : InputState) :
    (s.setInput g x).Closed := by
  have pin := h.setGuardPin g { s.guardPin g with input := x }
  unfold State.setInput
  dsimp only
  rw [if_neg (show ¬ (s.setGuardPin g _).phase = .ready from hp)]
  split
  · exact pin
  · split
    · rw [pin.shutGuarded g]
      exact pin
    · exact pin

theorem State.Closed.guardLevel {s : State} (h : s.Closed) (hp : s.phase ≠ .ready) (g : GuardInput) (high : Bool) :
    (s.guardLevel g high).Closed := by
  have pin := h.setGuardPin g { s.guardPin g with high := high }
  unfold State.guardLevel
  dsimp only
  split
  · exact pin.setInput hp g _
  · exact pin

theorem State.Closed.expireSettle {s : State} (h : s.Closed) (hp : s.phase ≠ .ready) (g : GuardInput) :
    (s.expireSettle g).Closed := by
  unfold State.expireSettle
  split
  · exact h.setInput hp g _
  · exact h.setInput hp g _
  · exact h

theorem State.Closed.expireIdle {s : State} (h : s.Closed) (w : Slot) : s.expireIdle w = s := by
  unfold State.expireIdle
  split
  · rfl
  · next x hx => rw [(h.windows w x hx).2]

theorem State.Closed.expireLease {s : State} (h : s.Closed) (b : BufferNo) : s.expireLease b = s := by
  unfold State.expireLease
  rw [h.buffers b]

theorem State.Closed.expireHold {s : State} (h : s.Closed) (id : Byte) : s.expireHold id = s := by
  unfold State.expireHold State.findHold
  rw [h.holds]
  rfl

theorem State.Closed.expireResumeGap {s : State} (h : s.Closed) : s.expireResumeGap = s := by
  unfold State.expireResumeGap
  rw [h.seq]
  rfl

theorem State.Closed.takeSuspension {s : State} (h : s.Closed) : s.takeSuspension = s := by
  unfold State.takeSuspension
  rw [h.arrayOp]
  rfl

theorem State.Closed.completeRead {s : State} (h : s.Closed) : s.completeRead = s := by
  unfold State.completeRead
  rw [h.seq]
  rfl

theorem State.Closed.runningStep {s : State} (h : s.Closed) : s.runningStep = none := by
  unfold State.runningStep
  rw [h.arrayStep, ite_self]

theorem State.Closed.expire {s : State} (h : s.Closed) (hp : s.phase ≠ .ready) (m : Timer) : (s.expire m).Closed := by
  cases m with
  | gap p => exact h.expireGap p
  | settle g => exact h.expireSettle hp g
  | idle w => exact h.unchanged (h.expireIdle w)
  | lease b => exact h.unchanged (h.expireLease b)
  | hold id => exact h.unchanged (h.expireHold id)
  | resume => exact h.unchanged h.expireResumeGap
  | frame p => exact h.modPort p _ fun l => l.sent

theorem State.Closed.runDown {s : State} (h : s.Closed) : s.runDown.Closed := by
  refine ⟨fun p => ?_, h.jobs, ?_, h.reservations, ?_, h.arrayOp, h.arrayStep, h.offer, fun b => ?_, fun w x hx => ?_⟩
  · obtain ⟨bytes, left, e⟩ := (s.port p).transmit_eq s.linkRate
    rw [State.port_runDown]
    unfold PortLink.elapse
    rw [e]
    exact (h.links p).of_eq rfl rfl rfl rfl rfl rfl
  · show s.holds.map _ = []
    rw [h.holds]
    rfl
  · show ({ s.seq with resumeGap := s.seq.resumeGap.elapse } : Sequencer) = _
    rw [h.seq]
    rfl
  · rw [State.buffer_runDown]
    dsimp only
    rw [h.buffers b]
    rfl
  · rw [State.window_runDown] at hx
    obtain ⟨y, hy, rfl⟩ := Option.map_eq_some_iff.1 hx
    obtain ⟨shut, stopped⟩ := h.windows w y hy
    exact ⟨shut, by dsimp only; rw [stopped]; rfl⟩

theorem State.Closed.expireAll (l : List Timer) : ∀ s : State, s.Closed → s.phase ≠ .ready →
    (l.foldl State.expireIfDue s).Closed := by
  induction l with
  | nil => exact fun _ h _ => h
  | cons m l ih =>
    intro s h hp
    refine ih _ ?_ ((FlowKept.expireIfDue s m).phase.symm ▸ hp)
    unfold State.expireIfDue
    split
    · exact h.expire hp m
    · exact h

theorem State.Closed.elapse {s : State} (h : s.Closed) (hp : s.phase ≠ .ready) : s.elapse.Closed :=
  State.Closed.expireAll _ _ (h.runDown.of_eq rfl rfl rfl rfl rfl rfl rfl rfl rfl rfl) hp

/-! ### Device reset and start-up -/

theorem PortLink.Closed.deviceReset (l : PortLink) (rate : LinkRate) : (l.deviceReset rate).Closed :=
  ⟨rfl, rfl, rfl, rfl, rfl, rfl⟩

theorem State.Closed.deviceReset (s : State) : s.deviceReset.Closed := by
  refine ⟨fun p => ?_, rfl, rfl, rfl, rfl, rfl, rfl, rfl, fun b => ?_, fun w x hx => ?_⟩
  · cases p <;> exact PortLink.Closed.deviceReset _ _
  · show ((Vector.replicate 4 Buffer.reset).get b).state = _
    rw [vectorGet_replicate]
    rfl
  · have empty : s.deviceReset.window w = none := vectorGet_replicate _ _
    rw [empty] at hx
    cases hx

theorem State.Closed.resetRelease {s : State} (h : s.Closed) (a r : BitVec 2) : (s.resetRelease a r).Closed := by
  unfold State.resetRelease
  split
  · exact h.of_eq rfl rfl rfl rfl rfl rfl rfl rfl rfl rfl
  · exact h

theorem State.Closed.recover {s : State} (h : s.Closed) : s.recover.Closed := by
  unfold State.recover
  split
  · split
    · exact h.of_eq rfl rfl rfl rfl rfl rfl rfl rfl rfl rfl
    · next m _ =>
      obtain ⟨_, _, _, _, _, _, _, e⟩ := StorageShape.recoverAction s m
      rw [e]
      exact h.of_eq rfl rfl rfl rfl rfl rfl rfl rfl rfl rfl
  · exact h

/-- Every slot is loaded with its latch SHUT and its timer STOPPED (R180). -/
theorem State.loadTable_window {s : State} {w : Slot} {x : Window} (h : s.loadTable.window w = some x) :
    x.latchOpen = false ∧ x.idle = .stopped := by
  unfold State.loadTable State.window at h
  split at h
  · rw [vectorGet_map] at h
    obtain ⟨f, _, rfl⟩ := Option.map_eq_some_iff.1 h
    exact ⟨rfl, rfl⟩
  · rw [vectorGet_replicate] at h
    cases h
  · rw [vectorGet_replicate] at h
    cases h

theorem State.Closed.load {s : State} (h : s.Closed) : s.load.Closed := by
  unfold State.load
  split
  · have windows : ∀ w x, s.loadTable.sampleGuards.window w = some x → x.latchOpen = false ∧ x.idle = .stopped :=
      fun w x hx => State.loadTable_window (w := w) hx
    obtain ⟨_, _, _, e⟩ := s.loadTable_shape
    rw [e] at windows ⊢
    exact ⟨h.links, h.jobs, h.holds, h.reservations, h.seq, h.arrayOp, h.arrayStep, h.offer, h.buffers, windows⟩
  · exact h

theorem State.phase_becomeReady (s : State) : s.becomeReady = s ∨ s.becomeReady.phase = .ready := by
  unfold State.becomeReady
  split
  · exact .inr (LinkShape.postEach _ Port.all s.startedNotice).flow.phase
  · exact .inl rfl

/-! ### Commands until READY -/

/-- Until READY a row of a request meets no request. -/
theorem State.Closed.request {s : State} (h : s.Closed) (k : ReqType) (p : Port) (owner : Frame → State → State) :
    (s.onRequest k p owner).Closed :=
  h.unchanged (State.onRequest_of_other (by simp [h.taken p]) owner)

/-- A command other than READY leaves the part closed until READY, and READY ends the phase or changes nothing. -/
theorem State.Closed.exec {s : State} (h : s.Closed) (hp : s.phase ≠ .ready) (c : Instr) :
    ∃ t, exec c s = .next t ∧ (t.phase ≠ .ready → t.Closed) := by
  cases c with
  | deviceReset => exact ⟨_, rfl, fun _ => State.Closed.deviceReset s⟩
  | resetRelease a r => exact ⟨_, rfl, fun _ => h.resetRelease a r⟩
  | recover => exact ⟨_, rfl, fun _ => h.recover⟩
  | load => exact ⟨_, rfl, fun _ => h.load⟩
  | ready => exact ⟨_, rfl, fun ht => h.unchanged (s.phase_becomeReady.resolve_right ht)⟩
  | frameCheck p => exact ⟨_, rfl, fun _ => h.checkFrame p⟩
  | lengthAbandon p => exact ⟨_, rfl, fun _ => h.abandonLength p⟩
  | gapTimerExpiry p => exact ⟨_, rfl, fun _ => h.expireGap p⟩
  | responseSent p => exact ⟨_, rfl, fun _ => h.expire hp (.frame p)⟩
  | unknownType p => exact ⟨_, rfl, fun _ => h.unchanged (State.refuseUnknown_of_known (by simp [h.taken p]))⟩
  | portClear p => exact ⟨_, rfl, fun _ => h.portClearEvent p⟩
  | clrFallingEdge p => exact ⟨_, rfl, fun _ => h.unchanged (if_neg (by simp [(h.links p).starting]))⟩
  | holdLimitExpiry i => exact ⟨_, rfl, fun _ => h.expire hp (.hold i)⟩
  | guardLevelChange g high => exact ⟨_, rfl, fun _ => h.guardLevel hp g high⟩
  | settleTimerExpiry g => exact ⟨_, rfl, fun _ => h.expire hp (.settle g)⟩
  | idleTimerExpiry w => exact ⟨_, rfl, fun _ => h.expire hp (.idle w)⟩
  | leaseExpiry b => exact ⟨_, rfl, fun _ => h.expire hp (.lease b)⟩
  | resumeGapExpiry => exact ⟨_, rfl, fun _ => h.expire hp .resume⟩
  | suspensionTaken => exact ⟨_, rfl, fun _ => h.unchanged h.takeSuspension⟩
  | readServiceCompletion => exact ⟨_, rfl, fun _ => h.unchanged h.completeRead⟩
  | programStepCompletion =>
    exact ⟨_, rfl, fun _ => h.unchanged (by unfold State.completeProgram; rw [h.runningStep])⟩
  | sectorEraseCompletion => exact ⟨_, rfl, fun _ => h.unchanged (by unfold State.completeErase; rw [h.runningStep])⟩
  | tableSaveCompletion => exact ⟨_, rfl, fun _ => h.unchanged (by unfold State.completeSave; rw [h.runningStep])⟩
  | fuseWriteCompletion => exact ⟨_, rfl, fun _ => h.unchanged (by unfold State.completeFuse; rw [h.runningStep])⟩
  | byteReceived p b => exact ⟨_, rfl, fun _ => h.receiveByte p b⟩
  | _ p => exact ⟨_, rfl, fun _ => h.request _ p _⟩

/-- Settles O59: until READY every command and every unit of time leaves the part closed (`State.Closed.exec`,
`State.Closed.elapse`); from READY on only a device reset moves the phase back, and it closes the part. -/
theorem everyStepKeepsStartUpClosed : Obligations.EveryStepKeepsStartUpClosed := by
  intro s t hs h
  rw [State.startupClosed_iff] at hs ⊢
  unfold step at h
  split at h
  · cases h
    intro hp
    rw [(FlowKept.elapse s).phase] at hp
    exact (hs hp).elapse hp
  · next c rest _ =>
    by_cases hp : s.phase = .ready
    · obtain ⟨u, hu, _, phase⟩ := exec_flow c { s with pending := rest }
      obtain rfl : u = t := by simpa [hu] using h
      intro moved
      cases c
      case deviceReset => cases hu; exact State.Closed.deviceReset _
      case recover =>
        cases hu
        simp [State.recover, hp] at moved
      case ready =>
        cases hu
        simp [State.becomeReady, hp] at moved
      all_goals exact absurd ((phase rfl).trans hp) moved
    · have closed : ({ s with pending := rest } : State).Closed :=
        (hs hp).of_eq rfl rfl rfl rfl rfl rfl rfl rfl rfl rfl
      obtain ⟨u, hu, hc⟩ := closed.exec hp c
      obtain rfl : u = t := by simpa [hu] using h
      exact hc

end Sys2Proof.Machine
end

section
/-! PROOF. The port links: bytes (R2, R3), the check of a frame (R4, R5), link error responses and the end of a frame (R6, R7),
the port checks (R8), notices (R10 to R13) and the requests that only report (R14, R53, R136, R165, R172). -/

namespace Sys2Proof.Machine

/-! ### The framer (R2, R3) -/

theorem fromBE_pair (a b : Byte) : fromBE [a, b] = a.toNat * 256 + b.toNat := by simp [fromBE]

@[simp] theorem State.port_setFramer (s : State) (p : Port) (x : Framer) :
    (s.setFramer p x).port p = { s.port p with framer := x } := State.port_modPort_same _ _ _

/-- Setting the framer to what it is changes nothing. -/
theorem State.setFramer_self {s : State} {p : Port} {x : Framer} (h : (s.port p).framer = x) : s.setFramer p x = s := by
  subst h
  exact State.modPort_self rfl

/-- With no frame in CHECK nothing is checked. -/
theorem State.checkFrame_of_other {s : State} {p : Port} (h : ∀ a, (s.port p).framer ≠ .check a) : s.checkFrame p = s := by
  unfold State.checkFrame
  split
  · next a ha => exact absurd ha (h a)
  · rfl

/-- A frame whose LEN lies outside its range is abandoned. -/
theorem State.abandonLength_of_bad {s : State} {p : Port} {a : Assembly} (h : (s.port p).framer = .length a)
    (hb : a.badLength = true) : s.abandonLength p = s.setFramer p .hunt := by
  unfold State.abandonLength
  rw [h]
  exact if_pos hb

/-- No other frame is. -/
theorem State.abandonLength_of_good {s : State} {p : Port} (h : ∀ a, (s.port p).framer = .length a → a.badLength = false) :
    s.abandonLength p = s := by
  unfold State.abandonLength
  split
  · next a ha => simp [h a ha]
  · rfl

theorem State.receiveByte_of_held {s : State} (h : s.resetHeld = true) (p : Port) (b : Byte) : s.receiveByte p b = s := by
  unfold State.receiveByte
  rw [if_pos h]

/-- A byte that finds no check and no abandoning due goes to the framer. -/
theorem State.receiveByte_of_framer {s : State} {p : Port} {x : Framer} (hr : s.resetHeld = false)
    (hx : (s.port p).framer = x) (hc : ∀ a, x ≠ .check a) (hl : ∀ a, x = .length a → a.badLength = false) (b : Byte) :
    s.receiveByte p b = s.setFramer p (x.byte s.linkRate.gapTime b) := by
  subst hx
  unfold State.receiveByte
  rw [if_neg (by simp [hr]), State.checkFrame_of_other hc, State.abandonLength_of_good hl]
  exact State.modPort_congr rfl

/-- A due abandoning ends before the byte is examined (log 14). -/
theorem State.receiveByte_of_bad {s : State} {p : Port} {a : Assembly} (hr : s.resetHeld = false)
    (h : (s.port p).framer = .length a) (hb : a.badLength = true) (b : Byte) :
    s.receiveByte p b = (s.setFramer p .hunt).receiveByte p b := by
  have hunt : ((s.setFramer p .hunt).port p).framer = .hunt := by simp
  rw [State.receiveByte_of_framer (s := s.setFramer p .hunt) hr hunt (by simp) (by simp)]
  unfold State.receiveByte
  rw [if_neg (by simp [hr]), State.checkFrame_of_other (by simp [h]), State.abandonLength_of_bad h hb]
  dsimp only
  rw [State.modPort_congr (g := fun l => { l with framer := Framer.hunt.byte s.linkRate.gapTime b })]
  · rfl
  · rw [hunt]
    rfl

/-- The frame under assembly is abandoned when its gap timer runs out. -/
theorem State.expireGap_of_running {s : State} {p : Port} {a : Assembly}
    (h : (s.port p).framer = .length a ∨ (s.port p).framer = .body a) : s.expireGap p = s.setFramer p .hunt := by
  unfold State.expireGap
  rcases h with h | h <;> rw [h] <;> rfl

/-- LEN is judged when both of its bytes have come. -/
theorem Assembly.badLength_of_short {a : Assembly} (h : a.lenBytes.length ≠ 2) : a.badLength = false := by
  simp [Assembly.badLength, h]

theorem Assembly.lenOk_pair {a : Assembly} {c d : Byte} (h : a.lenBytes = [c, d]) :
    a.lenOk = decide (2 ≤ c.toNat * 256 + d.toNat ∧ c.toNat * 256 + d.toNat ≤ 260) := by
  simp [Assembly.lenOk, Assembly.len, h, fromBE_pair]

theorem Assembly.badLength_pair {a : Assembly} {c d : Byte} (h : a.lenBytes = [c, d]) :
    a.badLength = true ↔ c.toNat * 256 + d.toNat < 2 ∨ 260 < c.toNat * 256 + d.toNat := by
  simp only [Assembly.badLength, Assembly.lenOk_pair h, h]
  simp

/-- The framer after a byte in HUNT. -/
theorem Framer.byte_hunt (gap : Nat) (b : Byte) :
    Framer.hunt.byte gap b = if b = 0xC5 then .length (Assembly.start gap) else .hunt := rfl

/-- The framer after a byte in LENGTH. -/
theorem Framer.byte_length (gap : Nat) (b : Byte) (a : Assembly) : (Framer.length a).byte gap b =
    (let c := { a with lenBytes := a.lenBytes ++ [b], crc := crcByte a.crc b, gapLeft := gap }
     if c.lenBytes.length = 2 ∧ c.lenOk = true then .body c else .length c) := rfl

/-- The framer after a byte in BODY. -/
theorem Framer.byte_body (gap : Nat) (b : Byte) (a : Assembly) : (Framer.body a).byte gap b =
    if a.content.length < fromBE a.lenBytes then
      .body { a with content := a.content ++ [b], crc := crcByte a.crc b, gapLeft := gap }
    else
      (let c := { a with crcBytes := a.crcBytes ++ [b], gapLeft := gap }
       if c.crcBytes.length = 2 then .check c else .body c) := rfl

/-- Settles O11: each state of the framer by what it does with a byte (`Framer.byte`), where no check or abandoning is due. -/
theorem framerTakesBytes : Obligations.FramerTakesBytes := by
  intro s p b
  have answers : ∀ t : State, s.receiveByte p b = t → exec (.byteReceived p b) s = .next t :=
    fun _ e => congrArg Host.Outcome.next e
  refine ⟨fun hr => answers _ (State.receiveByte_of_held hr p b), fun hr hx hb => answers _ ?_,
    fun hr hx hb => answers _ ?_, fun a hr hx hl => answers _ ?_, fun a c hr hx hl h2 h260 => answers _ ?_, fun a c hr hx hl hlen => answers _ ?_,
    fun a c d hx hl hlen => ?_, fun a hr hx hlen => answers _ ?_, fun a hr hx hlen hc => answers _ ?_,
    fun a c hr hx hlen hc => answers _ ?_, fun a hx => congrArg Host.Outcome.next (State.expireGap_of_running hx)⟩
  · rw [State.receiveByte_of_framer hr hx (by simp) (by simp), Framer.byte_hunt, if_pos hb]
    rfl
  · rw [State.receiveByte_of_framer hr hx (by simp) (by simp), Framer.byte_hunt, if_neg hb]
    exact State.setFramer_self hx
  · have short : a.badLength = false := Assembly.badLength_of_short (by simp [hl])
    rw [State.receiveByte_of_framer hr hx (by simp) (by simpa using short), Framer.byte_length]
    simp [hl]
  · have short : a.badLength = false := Assembly.badLength_of_short (by simp [hl])
    rw [State.receiveByte_of_framer hr hx (by simp) (by simpa using short), Framer.byte_length]
    simp only [hl, List.cons_append, List.nil_append]
    rw [if_pos ⟨rfl, by rw [Assembly.lenOk_pair rfl]; simpa using ⟨h2, h260⟩⟩]
  · have short : a.badLength = false := Assembly.badLength_of_short (by simp [hl])
    rw [State.receiveByte_of_framer hr hx (by simp) (by simpa using short), Framer.byte_length]
    have bad : ¬(2 ≤ c.toNat * 256 + b.toNat ∧ c.toNat * 256 + b.toNat ≤ 260) := by omega
    simp only [hl, List.cons_append, List.nil_append]
    rw [if_neg (by rw [Assembly.lenOk_pair rfl]; simpa using bad)]
  · have bad := (Assembly.badLength_pair hl).2 hlen
    exact ⟨congrArg Host.Outcome.next (State.abandonLength_of_bad hx bad), fun hr => answers _ (State.receiveByte_of_bad hr hx bad b)⟩
  · rw [State.receiveByte_of_framer hr hx (by simp) (by simp), Framer.byte_body, if_pos hlen]
  · rw [State.receiveByte_of_framer hr hx (by simp) (by simp), Framer.byte_body, if_neg (by omega)]
    simp [hc]
  · rw [State.receiveByte_of_framer hr hx (by simp) (by simp), Framer.byte_body, if_neg (by omega)]
    simp [hc]

/-! ### Link error responses (R6) -/

/-- A link error response (Table 12.1). -/
def linkErrorFrame (r : Result) : OutFrame := { kind := .linkError, type := 0xFF, tag := 0x00, body := [r.code] }

theorem PortLink.pushLinkError_of_room {l : PortLink} (h : l.waitingLinkErrors < 4) (r : Result) :
    l.pushLinkError r = { l with output := l.output ++ [linkErrorFrame r] } := if_pos h

theorem PortLink.pushLinkError_of_full {l : PortLink} (h : 4 ≤ l.waitingLinkErrors) (r : Result) :
    l.pushLinkError r = l := if_neg (Nat.not_lt.2 h)

/-- A response is discarded, or joins the output list. -/
theorem PortLink.output_pushLinkError (l : PortLink) (r : Result) : (l.pushLinkError r).sending = l.sending ∧
    ((l.pushLinkError r).output = l.output ∨
      l.waitingLinkErrors < 4 ∧ (l.pushLinkError r).output = l.output ++ [linkErrorFrame r]) := by
  by_cases h : l.waitingLinkErrors < 4
  · rw [PortLink.pushLinkError_of_room h]
    exact ⟨rfl, .inr ⟨h, rfl⟩⟩
  · rw [PortLink.pushLinkError_of_full (Nat.not_lt.1 h)]
    exact ⟨rfl, .inl rfl⟩

/-- The free value of log 5 leaves the link as it is, or begins its oldest frame. -/
theorem State.port_askTransmission (s : State) (p : Port) :
    (s.askTransmission p).port p = s.port p ∨ (s.askTransmission p).port p = (s.port p).beginFrame s.linkRate := by
  unfold State.askTransmission
  split
  · exact .inl rfl
  · split
    · exact .inr (State.port_modPort_same _ _ _)
    · exact .inl rfl

theorem State.askTransmission_of_sending {s : State} {p : Port} (h : (s.port p).sending = true) :
    s.askTransmission p = s := by
  unfold State.askTransmission
  rw [if_pos (by simp [h])]

theorem State.linkError_of_room {s : State} {p : Port} (h : (s.port p).waitingLinkErrors < 4) (r : Result) :
    s.linkError p r = s.modPort p (fun l => { l with output := l.output ++ [linkErrorFrame r] }) := by
  unfold State.linkError
  rw [if_pos (show (s.port p).waitingLinkErrors < Config.linkErrorMax from h)]
  exact State.modPort_congr (PortLink.pushLinkError_of_room h r)

theorem State.linkError_of_sending {s : State} {p : Port} (h : 4 ≤ (s.port p).waitingLinkErrors)
    (hs : (s.port p).sending = true) (r : Result) : s.linkError p r = s := by
  unfold State.linkError
  rw [State.askTransmission_of_sending hs, ite_self]
  exact State.modPort_self (PortLink.pushLinkError_of_full h r)

/-- A response that finds 4 waiting and nothing in transmission joins only if the oldest frame has begun. -/
theorem State.linkError_of_full {s : State} {p : Port} (h : 4 ≤ (s.port p).waitingLinkErrors) (r : Result) :
    ((s.linkError p r).port p).output = (s.port p).output ∨
    (((s.linkError p r).port p).sending = true ∧
      ((s.linkError p r).port p).output = (s.port p).output ++ [linkErrorFrame r]) := by
  unfold State.linkError
  rw [if_neg (show ¬(s.port p).waitingLinkErrors < Config.linkErrorMax from Nat.not_lt.2 h), State.port_modPort_same]
  rcases s.port_askTransmission p with e | e
  · rw [e, PortLink.pushLinkError_of_full h]
    exact .inl rfl
  · rw [e]
    obtain ⟨hs, ho | ⟨_, ho⟩⟩ := ((s.port p).beginFrame s.linkRate).output_pushLinkError r
    · exact .inl ho
    · exact .inr ⟨hs, ho⟩

/-! ### The check of a frame (R4, R5) -/

theorem State.checkFrame_of_bad {s : State} {p : Port} {a : Assembly} (h : (s.port p).framer = .check a)
    (hg : a.good = false) : s.checkFrame p = (s.setFramer p .hunt).linkError p .badFrame := by
  unfold State.checkFrame
  rw [h]
  dsimp only
  rw [if_neg (by simp [hg])]
  rfl

theorem State.checkFrame_of_good {s : State} {p : Port} {a : Assembly} (h : (s.port p).framer = .check a)
    (hg : a.good = true) : s.checkFrame p = (s.setFramer p .hunt).disposeFrame p a.frame := by
  unfold State.checkFrame
  rw [h]
  dsimp only
  rw [if_pos hg]
  rfl

/-- The CRCs agree (R4). -/
theorem Assembly.good_iff (a : Assembly) : a.good = true ↔ a.crc.toNat = fromBE a.crcBytes := beq_iff_eq

/-- A PORT-CLEAR frame: TYPE H'12 and an empty body (R5). -/
theorem Frame.isPortClear_iff (f : Frame) : f.isPortClear = true ↔ f.type = 0x12 ∧ f.body = [] := by
  simp [Frame.isPortClear, ReqType.code]

theorem State.disposeFrame_of_starting {s : State} {p : Port} (h : (s.port p).ready = false) (f : Frame) :
    s.disposeFrame p f = s.linkError p .notReady := if_pos h

theorem State.disposeFrame_of_portClear {s : State} {p : Port} {f : Frame} (h : (s.port p).ready = true)
    (hf : f.isPortClear = true) : s.disposeFrame p f = s.portClearFrame p f.tag := by
  unfold State.disposeFrame
  rw [if_neg (by simp [h]), if_pos hf]

/-- Another good frame on a READY port: refused by a full inbound queue, or queued and taken if the engine is WAITING. -/
theorem State.disposeFrame_of_ready {s : State} {p : Port} {f : Frame} (h : (s.port p).ready = true)
    (hf : f.isPortClear = false) : s.disposeFrame p f =
      if 4 ≤ (s.port p).inbound.length then s.linkError p .rxFull
      else s.modPort p (fun l => PortLink.takeRequest { l with inbound := l.inbound ++ [f] }) := by
  unfold State.disposeFrame
  rw [if_neg (by simp [h]), if_neg (by simp [hf])]
  rfl

/-- The row PORT_CLEAR takes a PORT-CLEAR frame in CHECK as FRAME_CHECK does. -/
theorem State.portClearEvent_of_check {s : State} {p : Port} {a : Assembly} (h : (s.port p).framer = .check a)
    (hf : a.frame.isPortClear = true) : s.portClearEvent p = s.checkFrame p := by
  unfold State.portClearEvent
  rw [h]
  exact if_pos hf

/-- Settles O12: the frame in CHECK by its CRC, the port's readiness, its kind and the inbound queue; and the link error
response by the room in the output list. -/
theorem frameCheckDisposesOfTheFrame : Obligations.FrameCheckDisposesOfTheFrame := by
  refine ⟨fun s p a ha => ?_, fun s p r => ⟨fun h => State.linkError_of_room h r,
    fun h hs => State.linkError_of_sending h hs r, fun h _ => State.linkError_of_full h r⟩⟩
  have answers : ∀ t : State, s.checkFrame p = t → exec (.frameCheck p) s = .next t :=
    fun _ e => congrArg Host.Outcome.next e
  have hunt : (s.setFramer p .hunt).port p = { s.port p with framer := .hunt } := s.port_setFramer p .hunt
  have good : a.crc.toNat = fromBE a.crcBytes → s.checkFrame p = (s.setFramer p .hunt).disposeFrame p a.frame :=
    fun h => State.checkFrame_of_good ha (a.good_iff.2 h)
  refine ⟨fun h => answers _ (State.checkFrame_of_bad ha (by simpa [← Bool.not_eq_true, a.good_iff] using h)),
    fun h hr => answers _ ?_, fun h hr hf => ?_, fun h hr ht hb => ?_⟩
  · rw [good h, State.disposeFrame_of_starting (by simpa [hunt] using hr)]
  · have other : a.frame.isPortClear = false := by
      rw [← Bool.not_eq_true, Frame.isPortClear_iff]
      exact fun e => hf.elim (absurd e.1) (absurd e.2)
    have disposed := (good h).trans (State.disposeFrame_of_ready (by simpa [hunt] using hr) other)
    simp only [hunt] at disposed
    refine ⟨fun hi => answers _ (disposed.trans (if_pos hi)), fun hi he => answers _ ?_, fun hi he => answers _ ?_⟩
    · rw [disposed, if_neg (Nat.not_le.2 hi)]
      refine State.modPort_congr ?_
      rw [hunt]
      exact PortLink.takeRequest_of_busy he
    · have room : ¬4 ≤ (s.port p).inbound.length := by simp [hi]
      rw [disposed, if_neg room]
      refine State.modPort_congr ?_
      rw [hunt]
      refine (PortLink.takeRequest_of_waiting (f := a.frame) (rest := []) (by exact he) (by simp [hi])).trans ?_
      simp [hi]
      rfl
  · have clear : a.frame.isPortClear = true := (Frame.isPortClear_iff _).2 ⟨ht, hb⟩
    exact (congrArg Host.Outcome.next (State.portClearEvent_of_check ha clear)).symm

/-! ### The end of a frame (R6, R7) -/

/-- The end of a frame that answers no request in progress. -/
theorem PortLink.sent_of_other {l : PortLink} {f : OutFrame} {rest : List OutFrame} (h : l.output = f :: rest)
    (hk : f.kind ≠ .answer) : l.sent = { l with output := rest, sending := false, txBytes := f.wire, txLeft := 0 } := by
  unfold PortLink.sent
  rw [h]
  exact if_neg hk

/-- The end of a frame that answers the request in progress. -/
theorem PortLink.sent_of_answer {l : PortLink} {f : OutFrame} {rest : List OutFrame} (h : l.output = f :: rest)
    (hk : f.kind = .answer) : l.sent = PortLink.takeRequest
      { l with output := rest, sending := false, txBytes := f.wire, txLeft := 0, engine := .waiting, request := none } := by
  unfold PortLink.sent
  rw [h]
  exact if_pos hk

/-- The bytes of a frame on the line (Table 12.1). -/
theorem OutFrame.wire_eq (f : OutFrame) : f.wire =
    [0xC5] ++ be2 (f.body.length + 2) ++ [f.type, f.tag] ++ f.body ++
      be2 (crcOf (be2 (f.body.length + 2) ++ [f.type, f.tag] ++ f.body)).toNat := by
  simp [OutFrame.wire]

/-- Settles O13: the frame that ends, by whether it answers the request in progress and whether another request waits. -/
theorem responseSentLetsTheNextRequestIn : Obligations.ResponseSentLetsTheNextRequestIn := by
  refine ⟨fun s p f rest ho => ?_, OutFrame.wire_eq⟩
  have answers : ∀ g : PortLink → PortLink, (s.port p).sent = g (s.port p) →
      exec (.responseSent p) s = .next (s.modPort p g) := fun g e => congrArg Host.Outcome.next (State.modPort_congr e)
  refine ⟨fun hk hi => answers _ ?_, fun g q hk hi => answers _ ?_, fun hk => answers _ (PortLink.sent_of_other ho hk)⟩
  · rw [PortLink.sent_of_answer ho hk, PortLink.takeRequest_of_empty (by exact hi)]
  · rw [PortLink.sent_of_answer ho hk, PortLink.takeRequest_of_waiting (by rfl) (by exact hi)]

/-! ### The port checks (R8) -/

theorem ReqType.portCheck_of_size {k : ReqType} {body : List Byte} (h : k.sizeOk body.length = false) :
    k.portCheck body = some .badLength := by simp [ReqType.portCheck, h]

theorem ReqType.portCheck_of_fields {k : ReqType} {body : List Byte} (h : k.sizeOk body.length = true)
    (hf : k.fieldsOk body = false) : k.portCheck body = some .badField := by simp [ReqType.portCheck, h, hf]

/-- A request of no kind is answered UNKNOWN_TYPE. -/
theorem State.refuseUnknown_of_unknown {s : State} {p : Port} {f : Frame} (h : s.taken p = some f)
    (hf : ReqType.ofCode f.type = none) :
    s.refuseUnknown p = (s.judging p).answer p { f with type := 0x00 } .unknownType [] := by
  unfold State.refuseUnknown
  rw [h]
  exact if_pos hf

/-- Settles O14: the three port checks, in the order of R8. -/
theorem portChecksRefuse : Obligations.PortChecksRefuse := by
  refine ⟨fun s p f ht hk => ?_, fun c p k s f hc ht hk hf => ?_⟩
  · have refused := State.refuseUnknown_of_unknown ht (ReqType.ofCode_none hk)
    refine congrArg Host.Outcome.next (refused.trans ?_)
    refine (State.modPort_modPort s p PortLink.markJudged _).trans (State.modPort_congr ?_)
    unfold PortLink.markJudged PortLink.pushOut
    rw [(State.taken_some ht).2]
    rfl
  · obtain ⟨owner, row⟩ := exec_requestRow hc hf
    have refused : ∀ r, k.portCheck f.body = some r → ∃ t, exec c s = .next t ∧ OnlyAnswers s t p f r [] :=
      fun r hr => ⟨_, row, State.onRequest_refused ht hk hr owner ▸ State.answer_judging ht r []⟩
    exact ⟨fun hs => refused _ (ReqType.portCheck_of_size hs),
      fun hs hx => refused _ (ReqType.portCheck_of_fields hs hx)⟩

/-! ### Notices (R10, R12, R13) -/

theorem PortLink.post_of_room {l : PortLink} (h : l.notices.length < 16) (n : Notice) :
    l.post n = { l with notices := l.notices ++ [n], atn := true } := by
  unfold PortLink.post
  rw [if_pos (show l.notices.length < Config.noticeMax from h)]
  simp [PortLink.syncAtn, PortLink.atnLevel]

theorem PortLink.post_of_full {l : PortLink} (h : 16 ≤ l.notices.length) (n : Notice) :
    l.post n = { l with overflow := true, atn := true } := by
  unfold PortLink.post
  rw [if_neg (show ¬l.notices.length < Config.noticeMax from Nat.not_lt.2 h)]
  simp [PortLink.syncAtn, PortLink.atnLevel]

/-- Settles O15: the notice queue with room, and full. -/
theorem postAddsOrDropsTheNotice : Obligations.PostAddsOrDropsTheNotice := fun _ _ n =>
  ⟨fun h => State.modPort_congr (PortLink.post_of_room h n), fun h => State.modPort_congr (PortLink.post_of_full h.ge n)⟩

/-- Fetching leaves what is beyond the count, no overflow, and ATN while a notice is left. -/
theorem PortLink.fetch_eq (l : PortLink) (n : Nat) : l.fetch n =
    { l with notices := l.notices.drop n, overflow := false, atn := decide (n < l.notices.length) } := by
  have left : (!(l.notices.drop n).isEmpty) = decide (n < l.notices.length) := by
    rw [Bool.eq_iff_iff]
    simp [List.drop_eq_nil_iff]
  simp [PortLink.fetch, PortLink.syncAtn, PortLink.atnLevel, left]

/-- Settles O16: the request is judged, its notices fetched and answered, all in one link. -/
theorem fetchNoticesRemovesTheOldest : Obligations.FetchNoticesRemovesTheOldest := by
  intro s p f h
  refine ⟨_, rfl, ?_, ?_⟩
  · rw [State.onRequest_of_asks h]
    refine PerPort.ext_get fun q => ?_
    have judged := State.port_judging h.1 p
    rw [if_pos rfl] at judged
    refine (State.port_answer ((s.judging p).modPort p _) p q f _ _).trans ?_
    rw [PerPort.get_set]
    split
    · rw [State.port_modPort_same, judged, PortLink.fetch_eq]
      simp only [PortLink.fetchFields, List.length_take]
      rfl
    · next hq =>
      rw [State.port_modPort_ne _ _ hq, State.port_judging h.1, if_neg hq]
      rfl
  · rw [State.onRequest_of_asks h]
    rfl

/-! ### Requests that only report (R14, R53, R136, R165, R172) -/

/-- STATUS reports the state as it stands: handing the request over moves none of its values. -/
theorem State.statusFields_judging (s : State) (p : Port) : (s.judging p).statusFields p = s.statusFields p := by
  have notices : ((s.judging p).port p).notices = (s.port p).notices := by
    unfold State.judging
    rw [State.port_modPort_same]
    rfl
  have overflow : ((s.judging p).port p).overflow = (s.port p).overflow := by
    unfold State.judging
    rw [State.port_modPort_same]
    rfl
  unfold State.statusFields
  rw [notices, overflow]
  rfl

theorem State.jobStateOf_eq (s : State) (id : Byte) : s.jobStateOf id = (s.findJob id).elim .queued Job.state := by
  unfold State.jobStateOf
  cases s.findJob id <;> rfl

/-- A job id that no live job has. -/
theorem State.findJob_none {s : State} {id : Byte} (h : ∀ j ∈ s.jobs, j.id ≠ id) : s.findJob id = none :=
  List.find?_eq_none.2 fun j hj => by simpa using h j hj

theorem State.queryJob_of_none {s : State} {p : Port} {f : Frame} (h : s.findJob (byteAt f.body 0) = none) :
    s.queryJob p f = s.answer p f .noSuchJob [] := by
  unfold State.queryJob
  rw [h]

theorem State.queryJob_of_some {s : State} {p : Port} {f : Frame} {j : Job} (h : s.findJob (byteAt f.body 0) = some j) :
    s.queryJob p f = s.answer p f .ok (s.jobFields j) := by
  unfold State.queryJob
  rw [h]

theorem State.describe_of_none {s : State} {p : Port} {f : Frame} (h : s.window (slotAt f.body 0) = none) :
    s.describe p f = s.answer p f .slotEmpty [] := by
  unfold State.describe
  dsimp only
  rw [h]

theorem State.describe_of_some {s : State} {p : Port} {f : Frame} {x : Window}
    (h : s.window (slotAt f.body 0) = some x) :
    s.describe p f = s.answer p f .ok (s.describeFields (slotAt f.body 0) x) := by
  unfold State.describe
  dsimp only
  rw [h]

/-- A request whose owner answers at once is answered, and nothing else changes. -/
theorem State.reports {s : State} {p : Port} {k : ReqType} {f : Frame} (h : s.Asks p k f)
    {owner : Frame → State → State} {c : Instr} (hc : exec c s = .next (s.onRequest k p owner)) {r : Result}
    {l m : List Byte} (ho : owner f (s.judging p) = (s.judging p).answer p f r l) (hl : l = m) :
    ∃ t, exec c s = .next t ∧ OnlyAnswers s t p f r m :=
  ⟨_, hc, hl ▸ State.asks_answers h ho⟩

/-- Settles O17: the owner of each reporting request answers the state as it stands; the layouts are the fields' own. -/
theorem reportingRequestsChangeNothing : Obligations.ReportingRequestsChangeNothing := by
  refine ⟨fun s p f h => State.reports h rfl rfl (s.statusFields_judging p),
    fun s p f h => State.reports h rfl rfl rfl, fun s p f h => State.reports h rfl rfl ?_,
    fun s p f h => ⟨fun hj => ?_, fun j hj => ?_⟩, fun s p f h => ⟨fun hx => ?_, fun x hx => ?_⟩⟩
  · show s.fuseFields = _
    unfold State.fuseFields State.reservationRecords
    simp only [State.jobStateOf_eq]
    rfl
  · exact State.reports h rfl (State.queryJob_of_none (s := s.judging p) (State.findJob_none hj)) rfl
  · refine State.reports h rfl (State.queryJob_of_some (s := s.judging p) hj) ?_
    unfold State.jobFields Job.sectorsTotal
    cases j.work <;> rfl
  · exact State.reports h rfl (State.describe_of_none (s := s.judging p) hx) rfl
  · refine State.reports h rfl (State.describe_of_some (s := s.judging p) hx) ?_
    unfold State.describeFields Window.idleSeconds
    cases x.idle <;> rfl

end Sys2Proof.Machine
end

section
/-! PROOF. Port clear (R15 to R17): its two rows and CLRn, what it does where nothing is to be decided or resolved, and what of
the window table it leaves. -/

namespace Sys2Proof.Machine

/-! ### Window fields and latches -/

/-- Each window keeps its fields and its latch; its idle timer may differ. -/
def WindowsKept (s t : State) : Prop :=
  ∀ w, (t.window w).map (fun x => (x.fields, x.latchOpen)) = (s.window w).map (fun x => (x.fields, x.latchOpen))

theorem WindowsKept.refl (s : State) : WindowsKept s s := fun _ => rfl

theorem WindowsKept.trans {s t u : State} (a : WindowsKept s t) (b : WindowsKept t u) : WindowsKept s u :=
  fun w => (b w).trans (a w)

theorem WindowsKept.of_eq {s t : State} (h : t.windows = s.windows) : WindowsKept s t :=
  fun w => by rw [show t.window w = s.window w by simp [State.window, h]]

theorem LinkShape.windowsKept {s t : State} (a : LinkShape s t) : WindowsKept s t := WindowsKept.of_eq a.windows_eq

theorem WindowsKept.syncIdle (s : State) (w : Slot) (reload : Bool) : WindowsKept s (s.syncIdle w reload) := by
  unfold State.syncIdle
  split
  · exact WindowsKept.refl s
  · next x hx =>
    intro v
    by_cases e : v = w
    · subst e
      rw [State.window_setWindow_same, hx]
      rfl
    · rw [State.window_setWindow_ne _ _ e]

theorem WindowsKept.releaseJobBuffer (s : State) (w : JobWork) : WindowsKept s (s.releaseJobBuffer w) := by
  unfold State.releaseJobBuffer
  split <;> exact WindowsKept.of_eq rfl

theorem WindowsKept.syncJobWindow (s : State) (w : JobWork) : WindowsKept s (s.syncJobWindow w) := by
  unfold State.syncJobWindow
  split
  · exact WindowsKept.syncIdle s _ true
  · exact WindowsKept.refl s

theorem WindowsKept.endJob (s : State) (j : Job) (st : EndStatus) (r : EndReason) (d : Nat) (notify : Bool) :
    WindowsKept s (s.endJob j st r d notify) := by
  have removed : WindowsKept s (s.removeJob j) := WindowsKept.of_eq rfl
  have dropped : ∀ u : State, WindowsKept u (u.dropReservation j) := fun _ => WindowsKept.of_eq rfl
  have offered : ∀ u : State, WindowsKept u u.formOffer := fun _ => WindowsKept.of_eq rfl
  exact ((((removed.trans (WindowsKept.releaseJobBuffer _ j.work)).trans (dropped _)).trans
    (WindowsKept.syncJobWindow _ j.work)).trans (LinkShape.notifyEnd _ j st r d notify).windowsKept).trans (offered _)

theorem WindowsKept.startStep (s : State) (j : Job) : WindowsKept s (s.startStep j) := by
  unfold State.startStep
  split <;> exact WindowsKept.of_eq rfl

theorem WindowsKept.grantOffer (s : State) : WindowsKept s s.grantOffer := by
  unfold State.grantOffer
  split
  · exact WindowsKept.refl s
  · split
    · exact WindowsKept.of_eq rfl
    · split
      · exact WindowsKept.endJob s _ _ _ _ _
      · exact WindowsKept.startStep s _
  · split
    · exact WindowsKept.of_eq rfl
    · split
      · exact WindowsKept.endJob s _ _ _ _ _
      · exact WindowsKept.startStep s _

theorem WindowsKept.grantRead (s : State) (p : Port) : WindowsKept s (s.grantRead p) := by
  unfold State.grantRead
  split
  · exact WindowsKept.refl s
  · split <;> exact WindowsKept.of_eq rfl

theorem WindowsKept.decideN (n : Nat) (s : State) : WindowsKept s (State.decideN n s) := by
  induction n generalizing s with
  | zero => exact WindowsKept.refl s
  | succ n ih =>
    unfold State.decideN
    split
    · split
      · exact (WindowsKept.grantRead s _).trans (ih _)
      · exact WindowsKept.of_eq rfl
      · exact (WindowsKept.grantOffer s).trans (ih _)
      · exact WindowsKept.refl s
    · exact WindowsKept.refl s

theorem WindowsKept.arbitrate (s : State) : WindowsKept s s.arbitrate := WindowsKept.decideN _ s

theorem WindowsKept.considerReads (s : State) : WindowsKept s s.considerReads := by
  unfold State.considerReads
  split
  · exact WindowsKept.arbitrate s
  · unfold State.requestSuspend
    split <;> exact WindowsKept.of_eq rfl

theorem WindowsKept.acceptRead (s : State) (p : Port) (tag : Byte) (a n : Nat) (w : Slot) (x : Window) (note : Bool) :
    WindowsKept s (s.acceptRead p tag a n w x note) := by
  have reloaded : ∀ u : State, WindowsKept u (u.reloadForRead w x) := by
    intro u
    unfold State.reloadForRead
    split
    · exact WindowsKept.syncIdle u w true
    · exact WindowsKept.refl u
  have pending : WindowsKept s (s.addPending p { tag := tag, address := a, length := n, slot := w }) := WindowsKept.of_eq rfl
  exact ((pending.trans (reloaded _)).trans (LinkShape.noteTrap _ note x _).windowsKept).trans (WindowsKept.considerReads _)

theorem WindowsKept.bindBuffer (s : State) (p : Port) (req : WriteReq) (id : Byte) :
    WindowsKept s (s.bindBuffer p req id) := by
  unfold State.bindBuffer
  split <;> exact WindowsKept.of_eq rfl

theorem WindowsKept.acceptWrite (s : State) (p : Port) (f : Frame) (w : Slot) (x : Window) (req : WriteReq)
    (note : Bool) : WindowsKept s (s.acceptWrite p f w x req note) := by
  have added : WindowsKept s (s.addJob p (s.workOf w x req)) := WindowsKept.of_eq rfl
  have answered : ∀ u : State, WindowsKept u (u.answer p f .accepted [s.newJobId]).formOffer := fun _ => WindowsKept.of_eq rfl
  exact ((((added.trans (WindowsKept.bindBuffer _ p req s.newJobId)).trans (WindowsKept.syncIdle _ w true)).trans
    (LinkShape.noteTrap _ note x _).windowsKept).trans (answered _)).trans (WindowsKept.arbitrate _)

theorem WindowsKept.recheck (s : State) (h : Hold) : WindowsKept s (s.recheck h) := by
  unfold State.recheck
  split
  · dsimp only
    split
    · exact WindowsKept.of_eq rfl
    · split
      · exact WindowsKept.of_eq rfl
      · exact WindowsKept.acceptRead s _ _ _ _ _ _ _
  · split
    · exact WindowsKept.of_eq rfl
    · exact WindowsKept.acceptWrite s _ _ _ _ _ _

theorem WindowsKept.resolveHold (s : State) (h : Hold) (v : Verdict) : WindowsKept s (s.resolveHold h v) := by
  unfold State.resolveHold
  dsimp only
  split
  · exact WindowsKept.of_eq rfl
  · exact WindowsKept.trans (WindowsKept.of_eq rfl) (WindowsKept.recheck _ h)

theorem WindowsKept.clearWatched (s : State) (p : Port) : WindowsKept s (s.clearWatched p) := by
  unfold State.clearWatched
  generalize s.holds.filter _ = l
  induction l generalizing s with
  | nil => exact WindowsKept.refl s
  | cons h l ih => exact (WindowsKept.resolveHold s h _).trans (ih _)

/-! ### The rows of a port clear (R15) -/

/-- CLRn on a READY port. -/
theorem exec_clrFallingEdge {s : State} {p : Port} (h : (s.port p).ready = true) :
    exec (.clrFallingEdge p) s = .next ((s.setFramer p .hunt).clearPort p) := congrArg Host.Outcome.next (if_pos h)

/-- A good PORT-CLEAR frame in CHECK on a READY port, by either of its rows: it is answered OK after the clear. -/
theorem exec_portClearFrame {s : State} {p : Port} {a : Assembly} {c : Instr} (hr : (s.port p).ready = true)
    (ha : (s.port p).framer = .check a) (hg : a.good = true) (hf : a.frame.isPortClear = true)
    (hc : c = .portClear p ∨ c = .frameCheck p) :
    exec c s = .next (((s.setFramer p .hunt).clearPort p).modPort p (fun l => { l with
      output := l.output ++ [{ kind := .portClear, type := 0x92, tag := a.content.getD 1 0, body := [0x00] }] })) := by
  have ready : ((s.setFramer p .hunt).port p).ready = true := by rwa [State.port_setFramer]
  have checked := (State.checkFrame_of_good ha hg).trans (State.disposeFrame_of_portClear ready hf)
  rcases hc with rfl | rfl
  · exact congrArg Host.Outcome.next ((State.portClearEvent_of_check ha hf).trans checked)
  · exact congrArg Host.Outcome.next checked

/-! ### What a port clear leaves -/

theorem ClearedToJobs.seq_eq {s v : State} {p : Port} (h : ClearedToJobs s v p) : v.seq = s.seq := by
  obtain ⟨_, _, _, _, _, _, _, _, rest⟩ := h
  exact (congrArg State.seq rest :)

/-- With nothing for the sequencer to decide before the clear, there is nothing after it (R143). -/
theorem ClearedToJobs.settled {s v : State} {p : Port} (h : ClearedToJobs s v p)
    (hn : s.seq.arrayState ≠ .idle ∨ (s.jobs = [] ∧ s.nextReader = none)) : v.Settled := by
  have seq := h.seq_eq
  obtain ⟨_, _, _, _, jobs, _, _, offer, _⟩ := h
  refine ⟨offer, fun idle => ?_⟩
  obtain ⟨none, reader⟩ := hn.resolve_left (not_not_intro (seq ▸ idle))
  have gone : v.jobs = [] := by rw [jobs, none]; rfl
  refine ⟨?_, (State.nextReader_congr (by rw [seq]) (by rw [seq])).trans reader, offer.trans ?_⟩
  · unfold State.jobSuspended
    rw [gone]
    rfl
  · unfold State.offerNow State.activeJob
    rw [gone]
    rfl

theorem State.clearWatched_of_none {s : State} {p : Port} (h : ∀ k ∈ s.holds, k.watch ≠ p) : s.clearWatched p = s := by
  unfold State.clearWatched
  rw [List.filter_eq_nil_iff.2 fun k hk => by simpa using h k hk]
  rfl

/-- Where the sequencer has nothing to decide and the port watches no other port's hold, what follows `ClearedToJobs` is the
removal of the port's own hold and of its reads. -/
theorem State.clearPort_quiet {s : State} {p : Port} (hd : s.JobIdsDistinct) (ht : s.TransmittersLawful)
    (hw : ∀ h ∈ s.holds, h.requester ≠ p → h.watch ≠ p)
    (hn : s.seq.arrayState ≠ .idle ∨ (s.jobs = [] ∧ s.nextReader = none)) :
    ∃ v, ClearedToJobs s v p ∧ (s.setFramer p .hunt).clearPort p =
      State.clearReads { v with holds := s.holds.filter (fun h => h.requester != p) } p := by
  obtain ⟨v, hv, cleared⟩ := s.clearPort_eq p hd (ht p)
  refine ⟨v, hv, cleared.trans ?_⟩
  rw [State.arbitrate_of_settled (hv.settled hn), State.clearWatched_of_none]
  intro k hk
  obtain ⟨hk, other⟩ := List.mem_filter.1 hk
  exact hw k hk (by simpa using other)

/-- Settles O18: the clear is `State.clearPort_quiet`, by CLRn as it stands and by a PORT-CLEAR frame with its answer. -/
theorem portClearEmptiesThePort : Obligations.PortClearEmptiesThePort := by
  intro s p hr hd ht hw hn c hc
  obtain ⟨v, hv, cleared⟩ := State.clearPort_quiet hd ht hw hn
  have seq : (State.clearReads { v with holds := s.holds.filter (fun h => h.requester != p) } p).seq = { s.seq with
      pendingReads := s.seq.pendingReads.set p none
      inService := s.seq.inService.map (fun r => if r.port = p then { r with withdrawn := true } else r) } := by
    rw [← hv.seq_eq]
    rfl
  rcases hc with rfl | ⟨row, a, ha, hg, hf⟩
  · have run := exec_clrFallingEdge hr
    rw [cleared] at run
    exact ⟨_, v, run, hv, fun _ => rfl, fun _ _ h => absurd rfl h, fun _ _ => rfl, rfl, seq, rfl⟩
  · have run := exec_portClearFrame hr ha hg hf row
    rw [cleared] at run
    refine ⟨_, v, run, hv, fun e => ?_, fun b hb _ => ?_, fun q hq => State.port_modPort_ne _ _ hq, rfl, seq, rfl⟩
    · rcases row with rfl | rfl <;> cases e
    · obtain rfl : b = a := Framer.check.inj (hb.symm.trans ha)
      exact State.port_modPort_same _ _ _

/-- The window of `ClearedToJobs` differs in its idle timer at most. -/
theorem ClearedToJobs.windowsKept {s v : State} {p : Port} (h : ClearedToJobs s v p) : WindowsKept s v := by
  obtain ⟨_, _, _, _, _, _, windows, _, _⟩ := h
  intro w
  rw [windows w, Option.map_map]
  congr 1
  funext x
  simp only [Function.comp]
  split <;> rfl

/-- What neither `ClearedToJobs` nor requests and holds reach. -/
theorem ClearedToJobs.frame {s v z : State} {p : Port} (h : ClearedToJobs s v p) (a : RequestShape v z) :
    z.guards = s.guards ∧ z.header = s.header ∧ z.tableState = s.tableState ∧ z.locked = s.locked ∧
      z.adminPort = s.adminPort ∧ z.fuses = s.fuses ∧ z.torn = s.torn ∧ z.imageState = s.imageState ∧
      z.image = s.image ∧ z.mem = s.mem ∧ z.phase = s.phase := by
  obtain ⟨_, _, _, _, _, _, _, _, rest⟩ := h
  obtain ⟨_, _, _, _, _, _, _, _, _, _, _, _, _, _, rfl⟩ := a
  exact ⟨(congrArg State.guards rest :), (congrArg State.header rest :), (congrArg State.tableState rest :),
    (congrArg State.locked rest :), (congrArg State.adminPort rest :), (congrArg State.fuses rest :),
    (congrArg State.torn rest :), (congrArg State.imageState rest :), (congrArg State.image rest :),
    (congrArg State.mem rest :), (congrArg State.phase rest :)⟩

/-- What follows `ClearedToJobs` in a port clear stays within what requests and holds reach. -/
theorem RequestShape.clearHolds (v : State) (hs : List Hold) (p : Port) :
    RequestShape v ((State.clearWatched { v.arbitrate with holds := hs } p).clearReads p) := by
  have decided := (ArrayShape.arbitrate v).request
  have removed : RequestShape v.arbitrate { v.arbitrate with holds := hs } :=
    ⟨_, _, _, _, _, _, _, _, _, _, _, _, _, _, rfl⟩
  have resolved : ∀ u : State, RequestShape u (u.clearWatched p) :=
    fun u => RequestShape.foldl _ (fun y h => RequestShape.resolveHold y h _) _ u
  have withdrawn : ∀ u : State, RequestShape u (u.clearReads p) :=
    fun _ => ⟨_, _, _, _, _, _, _, _, _, _, _, _, _, _, rfl⟩
  exact ((decided.trans removed).trans (resolved _)).trans (withdrawn _)

/-- Settles O19: the order of the clear is `State.clearPort_eq`; what it leaves is what neither `ClearedToJobs` nor requests
and holds reach. -/
theorem portClearResolvesWatchedHoldsAndLeavesTheTable : Obligations.PortClearResolvesWatchedHoldsAndLeavesTheTable := by
  intro s p hr hd ht
  obtain ⟨v, hv, cleared⟩ := s.clearPort_eq p hd (ht p)
  have windows : WindowsKept s
      ((State.clearWatched { v.arbitrate with holds := s.holds.filter (fun h => h.requester != p) } p).clearReads p) := by
    refine (hv.windowsKept.trans (WindowsKept.arbitrate v)).trans ?_
    exact fun w => WindowsKept.clearWatched { v.arbitrate with holds := s.holds.filter (fun h => h.requester != p) } p w
  have shape := RequestShape.clearHolds v (s.holds.filter (fun h => h.requester != p)) p
  refine ⟨v, _, hv, rfl, ?_, fun a ha hg hf c hc => ?_, windows, hv.frame shape⟩
  · exact (exec_clrFallingEdge hr).trans (congrArg Host.Outcome.next cleared)
  · have run := exec_portClearFrame hr ha hg hf hc
    rwa [cleared] at run

end Sys2Proof.Machine
end

section
/-! PROOF. One unit of time (log 3, log 4, log 22), and what a device reset leaves (R175, R176, R178, Table 11.3). -/

namespace Sys2Proof.Machine

/-! ### Running down -/

/-- A byte-time is longer than a unit at every link rate. -/
theorem unit_lt_gapTime (rate : LinkRate) : 20 < rate.gapTime := by cases rate <;> decide

/-- A unit of transmission of a frame: it begins, or goes on, and its byte leaves TXD when its time is up. -/
theorem PortLink.transmit_cons {rate : LinkRate} {l : PortLink} {f : OutFrame} {rest : List OutFrame}
    (h : l.output = f :: rest) : l.transmit rate = { l with
      sending := true
      txBytes := if l.sending = false then [] else if 20 < l.txLeft then l.txBytes else f.wire.take (l.txBytes.length + 1)
      txLeft := if l.sending = false then rate.gapTime - 20 else if 20 < l.txLeft then l.txLeft - 20
        else l.txLeft + rate.gapTime - 20 } := by
  have long : ¬rate.gapTime ≤ 20 := Nat.not_le.2 (unit_lt_gapTime rate)
  cases hs : l.sending with
  | false => simp [PortLink.transmit, PortLink.beginFrame, Config.txParts, h, hs, long]
  | true =>
    by_cases hl : 20 < l.txLeft
    · simp [PortLink.transmit, Config.txParts, h, hs, hl, Nat.not_le.2 hl]
    · simp [PortLink.transmit, Config.txParts, h, hs, hl, Nat.not_lt.1 hl]

/-- A transmitter with no frame stays as it is. -/
theorem PortLink.transmit_nil {rate : LinkRate} {l : PortLink} (h : l.output = []) : l.transmit rate = l := by
  unfold PortLink.transmit
  rw [h]

theorem State.guardPin_runDown (s : State) (g : GuardInput) :
    s.runDown.guardPin g = { s.guardPin g with input := (s.guardPin g).input.elapse } := by cases g <;> rfl

/-! ### What is due -/

/-- With nothing due, a unit of time ends with the running down. -/
theorem State.elapse_of_none {s : State} (h : ∀ m ∈ s.runDown.timers, s.runDown.isDue m = false) :
    s.elapse = s.runDown := by
  unfold State.elapse
  dsimp only
  rw [List.filter_eq_nil_iff.2 fun m hm => by simp [h m hm]]
  rfl

/-- One timer that is due expires. -/
theorem State.elapse_of_one {s : State} {m : Timer} (h : s.runDown.timers.filter s.runDown.isDue = [m]) :
    s.elapse = s.runDown.expire m := by
  have due : s.runDown.isDue m = true := (List.mem_filter.1 (h ▸ List.mem_singleton_self m)).2
  unfold State.elapse
  dsimp only
  rw [h]
  exact if_pos due

theorem Framer.due_iff (x : Framer) : x.due = true ↔ ∃ a, a.gapLeft = 0 ∧ (x = .length a ∨ x = .body a) := by
  cases x <;> simp [Framer.due]

theorem InputState.due_iff (x : InputState) : x.due = true ↔ x = .settlingToActive 0 ∨ x = .settlingToInactive 0 := by
  cases x <;> simp [InputState.due]

theorem PortLink.frameSent_iff (l : PortLink) : l.frameSent = true ↔
    l.sending = true ∧ ∃ f rest, l.output = f :: rest ∧ f.wire.length ≤ l.txBytes.length := by
  unfold PortLink.frameSent
  cases l.output <;> simp

theorem State.isDue_idle (s : State) (w : Slot) :
    s.isDue (.idle w) = true ↔ ∃ x, s.window w = some x ∧ x.idle = .counting 0 := by
  cases h : s.window w <;> simp [State.isDue, h]

theorem State.isDue_lease (s : State) (b : BufferNo) :
    s.isDue (.lease b) = true ↔ ∃ p e, (s.buffer b).state = .filling p e 0 := by
  cases h : (s.buffer b).state <;> simp [State.isDue, h]

theorem State.isDue_hold (s : State) (i : Byte) :
    s.isDue (.hold i) = true ↔ ∃ h, s.findHold i = some h ∧ h.left = 0 := by
  cases h : s.findHold i <;> simp [State.isDue, h]

/-- Settles O2: the running down part by part, the order of the expiries where there is at most one, and what makes each
timer due. -/
theorem emptyQueueLetsOneUnitOfTimePass : Obligations.EmptyQueueLetsOneUnitOfTimePass := by
  intro s
  refine ⟨fun h => ?_, fun p => ?_, fun w => ?_, fun b => ?_, fun g => ?_, rfl, ?_, rfl, State.elapse_of_none,
    fun m => State.elapse_of_one, fun p => ⟨Framer.due_iff _, rfl, PortLink.frameSent_iff _, rfl⟩,
    fun g => ⟨InputState.due_iff _, rfl⟩, fun w => ⟨s.isDue_idle w, rfl⟩, fun b => ⟨s.isDue_lease b, rfl⟩,
    fun i => ⟨s.isDue_hold i, rfl⟩, beq_iff_eq, rfl⟩
  · unfold step
    rw [h]
  · rw [State.port_runDown]
    unfold PortLink.elapse
    generalize hl : s.port p = l
    cases ho : l.output with
    | nil =>
      refine ⟨_, _, _, ?_, fun _ => ⟨rfl, rfl, rfl⟩, fun _ _ h => by simp at h⟩
      rw [PortLink.transmit_nil ho]
      cases l.framer <;> rfl
    | cons f rest =>
      have sent := PortLink.transmit_cons (rate := s.linkRate) ho
      refine ⟨true, (l.transmit s.linkRate).txBytes, (l.transmit s.linkRate).txLeft, ?_, fun h => by simp at h,
        fun g r h => ⟨rfl, fun hs => ?_, fun hs hl => ?_, fun hs hl => ?_⟩⟩
      · rw [sent]
        cases l.framer <;> rfl
      · simp [sent, hs]
      · simp [sent, hs, hl]
      · obtain ⟨rfl, rfl⟩ := List.cons.inj h
        simp [sent, hs, Nat.not_lt.2 hl]
  · rw [State.window_runDown]
    congr 1
    funext x
    cases x.idle <;> rfl
  · rw [State.buffer_runDown]
    cases (s.buffer b).state <;> rfl
  · rw [State.guardPin_runDown]
    cases (s.guardPin g).input <;> rfl
  · show ({ s.seq with resumeGap := s.seq.resumeGap.elapse } : Sequencer) = _
    cases s.seq.resumeGap <;> rfl

/-! ### Device reset -/

/-- The port links, the link rate and what the straps gave are found as they were. -/
theorem StorageShape.kept {s t : State} (a : StorageShape s t) : t.ports = s.ports ∧ t.linkRate = s.linkRate ∧
    t.adminPort = s.adminPort ∧ t.guards = s.guards ∧ t.pending = s.pending ∧ t.arrayStep = s.arrayStep := by
  obtain ⟨_, _, _, _, _, _, _, rfl⟩ := a
  exact ⟨rfl, rfl, rfl, rfl, rfl, rfl⟩

/-- With no step in progress, a device reset finds what RECOVER, if it runs, has left. -/
theorem State.interrupted_of_no_step {s : State} (h : s.arrayStep = none) :
    s.interruptRecover.interruptStep = s.interruptRecover := by
  obtain ⟨_, _, _, _, _, step⟩ := (StorageShape.interruptRecover s).kept
  unfold State.interruptStep
  rw [step, h]

/-- RECOVER that has not begun has left nothing. -/
theorem State.interruptRecover_of_other {s : State} (h : ¬(s.phase = .recover ∧ s.resetHeld = false)) :
    s.interruptRecover = s := by
  unfold State.interruptRecover
  split
  · rfl
  · rw [if_neg h]

/-- RECOVER without a marker writes nothing. -/
theorem State.interruptRecover_of_none {s : State} (h : s.marker = none) : s.interruptRecover = s := by
  unfold State.interruptRecover
  rw [h]

/-- The stored records and the main array of `t` are those of `s`. -/
def SameStorage (s t : State) : Prop :=
  t.mem = s.mem ∧ t.fuses = s.fuses ∧ t.marker = s.marker ∧ t.torn = s.torn ∧ t.imageState = s.imageState ∧
    t.image = s.image

/-- What a device reset keeps of the storage that it finds. -/
theorem SameStorage.deviceReset (s : State) : SameStorage s.interruptRecover.interruptStep s.deviceReset :=
  ⟨rfl, rfl, rfl, rfl, rfl, rfl⟩

/-- A bit of a fuse slot that an interrupted write has brought to the entry's, or left. -/
theorem FuseSlot.partly_bit (f e : FuseSlot) (n : Nat) :
    (∀ i, (f.partly e n).base.getLsbD i = f.base.getLsbD i ∨
      (f.partly e n).base.getLsbD i = (f.base.getLsbD i && e.base.getLsbD i)) ∧
    (∀ i, (f.partly e n).k.getLsbD i = f.k.getLsbD i ∨ (f.partly e n).k.getLsbD i = (f.k.getLsbD i && e.k.getLsbD i)) := by
  simp only [FuseSlot.partly, FuseSlot.program, BitVec.getLsbD_and, BitVec.getLsbD_or]
  constructor
  · intro i
    cases (Config.fuseBaseLeftBlank n).getLsbD i <;> simp
  · intro i
    cases (Config.fuseSizeLeftBlank n).getLsbD i <;> simp

theorem fuses_setIfInBounds (v : Vector FuseSlot 8) (i j : Fin 8) (x : FuseSlot) :
    (v.setIfInBounds i.val x).get j = if i = j then x else v.get j := by
  show (v.setIfInBounds i.val x)[j.val] = _
  rw [Vector.getElem_setIfInBounds j.isLt]
  simp only [Fin.ext_iff]
  rfl

theorem fuses_getD (v : Vector FuseSlot 8) (i : Fin 8) : v.toList.getD i.val .blank = v.get i := by
  show _ = v[i.val]
  simp [List.getD]

/-- An interrupted rewrite of a fuse slot (R32): each bit of the slot is as it was or as the full rewrite leaves it, and the
other slots stay. -/
def FusesPartly (v w : Vector FuseSlot 8) (i : Fin 8) (e : FuseSlot) : Prop :=
  (∀ n, n < 24 → (w.get i).base.getLsbD n = (v.get i).base.getLsbD n ∨
    (w.get i).base.getLsbD n = ((v.get i).base.getLsbD n && e.base.getLsbD n)) ∧
  (∀ n, n < 8 → (w.get i).k.getLsbD n = (v.get i).k.getLsbD n ∨
    (w.get i).k.getLsbD n = ((v.get i).k.getLsbD n && e.k.getLsbD n)) ∧
  (∀ j, j ≠ i → w.get j = v.get j)

theorem FusesPartly.of_partly (v : Vector FuseSlot 8) (i : Fin 8) (e : FuseSlot) (n : Nat) :
    FusesPartly v (v.setIfInBounds i.val ((v.toList.getD i.val .blank).partly e n)) i e := by
  obtain ⟨base, size⟩ := (v.get i).partly_bit e n
  rw [fuses_getD]
  refine ⟨fun m _ => ?_, fun m _ => ?_, fun j hj => ?_⟩
  · rw [fuses_setIfInBounds, if_pos rfl]
    exact base m
  · rw [fuses_setIfInBounds, if_pos rfl]
    exact size m
  · rw [fuses_setIfInBounds, if_neg hj.symm]

/-- RECOVER's action writes no byte of the main array and leaves the marker. -/
theorem State.recoverAction_kept (s : State) (m : Marker) :
    (s.recoverAction m).mem = s.mem ∧ (s.recoverAction m).marker = s.marker := by
  cases m <;> exact ⟨rfl, rfl⟩

/-- What a device reset finds that falls in RECOVER with a marker (Table 11.3): nothing written, part of a fuse slot, or the
action, with the marker or without it. -/
theorem State.interruptRecover_cases {s : State} {m : Marker} (hp : s.phase = .recover) (hr : s.resetHeld = false)
    (hm : s.marker = some m) :
    SameStorage s s.interruptRecover ∨
    (∃ (i : Fin 8) (e : FuseSlot), m = .freeze i.val e ∧ FusesPartly s.fuses s.interruptRecover.fuses i e ∧
      SameStorage s { s.interruptRecover with fuses := s.fuses }) ∨
    ∃ mk, (mk = some m ∨ mk = none) ∧ SameStorage { s.recoverAction m with marker := mk } s.interruptRecover := by
  unfold State.interruptRecover
  rw [hm]
  dsimp only
  rw [if_pos ⟨hp, hr⟩]
  split
  · exact .inl ⟨rfl, rfl, rfl, rfl, rfl, rfl⟩
  · split
    · next i e =>
      by_cases hi : i < 8
      · have part := FusesPartly.of_partly s.fuses ⟨i, hi⟩ e s.freeCount
        exact .inr (.inl ⟨⟨i, hi⟩, e, rfl, part, rfl, rfl, hm.symm, rfl, rfl, rfl⟩)
      · exact .inl ⟨rfl, Vector.setIfInBounds_eq_of_size_le (Nat.not_lt.1 hi), hm.symm, rfl, rfl, rfl⟩
    · exact .inl ⟨rfl, rfl, rfl, rfl, rfl, rfl⟩
  · exact .inr (.inr ⟨some m, .inl rfl, rfl, rfl, (s.recoverAction_kept m).2.trans hm, rfl, rfl, rfl⟩)
  · exact .inr (.inr ⟨none, .inr rfl, rfl, rfl, rfl, rfl, rfl, rfl⟩)

/-- The main array is none of RECOVER's business. -/
theorem State.mem_interruptRecover (s : State) : s.interruptRecover.mem = s.mem := by
  by_cases h : s.phase = .recover ∧ s.resetHeld = false
  · cases hm : s.marker with
    | none => rw [State.interruptRecover_of_none hm]
    | some m =>
      obtain same | ⟨_, _, _, _, same⟩ | ⟨_, _, same⟩ := State.interruptRecover_cases h.1 h.2 hm
      · exact same.1
      · exact same.1
      · exact same.1.trans (s.recoverAction_kept m).1
  · rw [State.interruptRecover_of_other h]

/-- A port link after a device reset (Table 2.2): its reset values, but for the bytes that have left TXD. -/
theorem State.port_deviceReset (s : State) (p : Port) : s.deviceReset.port p = (s.port p).deviceReset s.linkRate := by
  obtain ⟨ports, rate, _⟩ := (StorageShape.interrupted s).kept
  show (s.interruptRecover.interruptStep.ports.map (PortLink.deviceReset s.interruptRecover.interruptStep.linkRate)).get p = _
  rw [ports, rate, PerPort.get_map]
  rfl

/-- The byte that had begun is the last of a frame that is cut off (log 26). -/
theorem PortLink.cutOff_eq (rate : LinkRate) (l : PortLink) : l.cutOff rate = match l.output with
    | [] => l.txBytes
    | f :: _ => if l.sending = true ∧ l.txLeft < rate.gapTime then f.wire.take (l.txBytes.length + 1) else l.txBytes := by
  unfold PortLink.cutOff
  cases l.output <;> simp

theorem State.guardPin_deviceReset (s : State) (g : GuardInput) :
    s.deviceReset.guardPin g = { high := (s.guardPin g).high, input := .inactive } := by
  obtain ⟨_, _, _, guards, _⟩ := (StorageShape.interrupted s).kept
  have pins : s.deviceReset.guards =
      { g0 := { s.interruptRecover.interruptStep.guards.g0 with input := .inactive }
        g1 := { s.interruptRecover.interruptStep.guards.g1 with input := .inactive } } := rfl
  unfold State.guardPin
  rw [pins, guards]
  cases g <;> rfl

/-- Settles O5: the reset values stand in `State.reset`; what is kept is what the interrupted step and RECOVER leave. -/
theorem deviceResetTakesResetValues : Obligations.DeviceResetTakesResetValues := by
  intro s
  obtain ⟨_, rate, admin, _, queue, _⟩ := (StorageShape.interrupted s).kept
  have found : s.arrayStep = none → SameStorage s.interruptRecover s.deviceReset := fun h => by
    have same := SameStorage.deviceReset s
    rwa [State.interrupted_of_no_step h] at same
  refine ⟨s.deviceReset, rfl, fun p => ⟨?_, ?_⟩, fun w => vectorGet_replicate _ _, rfl, rfl, rfl, rfl,
    s.guardPin_deviceReset, rfl, rfl, rfl, fun b => ?_, rfl, rfl, rfl, rfl, rfl, rfl, rfl, rfl, rfl, rfl, admin, rate,
    queue, fun h other => ?_, fun h hp hr => ⟨?_, fun hm => ?_, fun m r hm hx => ?_⟩⟩
  · rw [State.port_deviceReset]
    unfold PortLink.deviceReset
    rw [PortLink.cutOff_eq]
    cases (s.port p).output <;> rfl
  · rw [State.port_deviceReset]
    rfl
  · have fresh : s.deviceReset.buffer b = Buffer.reset := vectorGet_replicate _ _
    rw [fresh]
    exact ⟨rfl, fun _ => rfl⟩
  · have same := found h
    rwa [State.interruptRecover_of_other other] at same
  · exact (found h).1.trans s.mem_interruptRecover
  · obtain ⟨_, fuses, marker, torn, imageState, image⟩ := found h
    rw [State.interruptRecover_of_none hm] at fuses marker torn imageState image
    exact ⟨marker.trans hm, fuses, torn, imageState, image⟩
  · obtain ⟨_, fuses, marker, torn, imageState, image⟩ := found h
    rw [fuses, marker, torn, imageState, image]
    have action : r.fuses = (s.recoverAction m).fuses ∧ r.torn = (s.recoverAction m).torn ∧
        r.imageState = (s.recoverAction m).imageState ∧ r.image = (s.recoverAction m).image := by
      have run : s.recover = r := Host.Outcome.next.inj hx
      unfold State.recover at run
      rw [if_pos ⟨hp, hr⟩, hm] at run
      subst run
      exact ⟨rfl, rfl, rfl, rfl⟩
    obtain ⟨rfuses, rtorn, rstate, rimage⟩ := action
    obtain ⟨_, fuses, marker, torn, imageState, image⟩ |
      ⟨i, e, rfl, ⟨base, size, others⟩, _, _, marker, torn, imageState, image⟩ |
      ⟨mk, hmk, _, fuses, marker, torn, imageState, image⟩ := State.interruptRecover_cases hp hr hm
    · exact .inl ⟨marker.trans hm, fuses, torn, imageState, image⟩
    · exact .inr (.inl ⟨i, e, rfl, marker.trans hm, base, size, others, torn, imageState, image⟩)
    · rw [rfuses, rtorn, rstate, rimage]
      exact .inr (.inr ⟨marker.symm ▸ hmk, fuses, torn, imageState, image⟩)

end Sys2Proof.Machine
end

section
/-! PROOF. The storage array: the start of a step (R29, R56, R146, R162, R166), and what a device reset leaves of the target
of a step that it interrupts (R31, R32). -/

namespace Sys2Proof.Machine

/-! ### The start of a step -/

/-- The step-start event of a step with its marker: the array, the job and the sequencer, and an offer formed anew. -/
theorem State.beginStep_eq (s : State) (j : Job) (step : ArrayStep) (m : Marker) : ∃ o, s.beginStep j step m = { s with
    marker := some m, arrayStep := some step, arrayOp := .running, offer := o
    jobs := s.jobs.map (fun k => if k.id = j.id then { k with state := .active } else k)
    seq := { s.seq with arrayState := .run, lastGrant := .job,
                        resumeGap := if step.suspendable then .running 4320 else .stopped } } :=
  ⟨_, rfl⟩

/-- R56: a slot of the capture holds the saved fields of its window. -/
theorem State.capture_get (s : State) (w : Slot) : s.capture.slots.get w = (s.window w).map Window.fields :=
  vectorGet_map _ _ w

theorem State.startStep_program {j : Job} {w : Slot} {a n : Nat} {b : BufferNo} (h : j.work = .program w a n b)
    (s : State) : s.startStep j = s.beginStep j (.program a n b) (.program (a / 4096)) := by
  unfold State.startStep
  rw [h]
  rfl

theorem State.startStep_eraseSector {j : Job} {w : Slot} {n : Nat} (h : j.work = .eraseSector w n) (s : State) :
    s.startStep j = s.beginStep j (.erase n) (.erase n) := by
  unfold State.startStep
  rw [h]

/-- R129: an ERASE-WINDOW goes on with the sector after those done. -/
theorem State.startStep_eraseWindow {j : Job} {w : Slot} {r : Range} (h : j.work = .eraseWindow w r) (s : State) :
    s.startStep j =
      s.beginStep j (.erase (r.base / 4096 + j.sectorsDone)) (.erase (r.base / 4096 + j.sectorsDone)) := by
  have next : j.nextSector = r.base / 4096 + j.sectorsDone := by
    unfold Job.nextSector
    rw [h]
    rfl
  unfold State.startStep
  rw [h, ← next]

theorem State.startStep_saveTable {j : Job} (h : j.work = .saveTable) (s : State) :
    s.startStep j = State.beginStep { s with captureMark := .clean } j (.save s.capture) .save := by
  unfold State.startStep
  rw [h]

theorem State.startStep_freezeWindow {j : Job} {w : Slot} {r : Range} (h : j.work = .freezeWindow w r) (s : State) :
    s.startStep j = s.beginStep j (.fuse s.fuseCount (fuseEntry r)) (.freeze s.fuseCount (fuseEntry r)) := by
  unfold State.startStep
  rw [h]

/-- Settles O27: each kind of job starts its own step, and `State.beginStep_eq` says what every start does. -/
theorem stepStartWritesTheMarker : Obligations.StepStartWritesTheMarker := by
  intro s j
  cases hw : j.work with
  | program w a n b =>
    obtain ⟨o, begun⟩ := s.beginStep_eq j (.program a n b) (.program (a / 4096))
    refine ⟨_, _, _, o, s.captureMark, (s.startStep_program hw).trans begun, ?_, nofun, nofun, nofun, nofun⟩
    rintro _ _ _ _ ⟨⟩
    exact ⟨rfl, rfl, rfl, rfl⟩
  | eraseSector w n =>
    obtain ⟨o, begun⟩ := s.beginStep_eq j (.erase n) (.erase n)
    refine ⟨_, _, _, o, s.captureMark, (s.startStep_eraseSector hw).trans begun, nofun, ?_, nofun, nofun, nofun⟩
    rintro _ _ ⟨⟩
    exact ⟨rfl, rfl, rfl, rfl⟩
  | eraseWindow w r =>
    obtain ⟨o, begun⟩ :=
      s.beginStep_eq j (.erase (r.base / 4096 + j.sectorsDone)) (.erase (r.base / 4096 + j.sectorsDone))
    refine ⟨_, _, _, o, s.captureMark, (s.startStep_eraseWindow hw).trans begun, nofun, nofun, ?_, nofun, nofun⟩
    rintro _ _ ⟨⟩
    exact ⟨rfl, rfl, rfl, rfl⟩
  | saveTable =>
    obtain ⟨o, begun⟩ := State.beginStep_eq { s with captureMark := .clean } j (.save s.capture) .save
    refine ⟨_, _, _, o, .clean, (s.startStep_saveTable hw).trans begun, nofun, nofun, nofun, fun _ => ?_, nofun⟩
    exact ⟨⟨s.capture, rfl, rfl, s.capture_get⟩, rfl, rfl, rfl⟩
  | freezeWindow w r =>
    obtain ⟨o, begun⟩ := s.beginStep_eq j (.fuse s.fuseCount (fuseEntry r)) (.freeze s.fuseCount (fuseEntry r))
    refine ⟨_, _, _, o, s.captureMark, (s.startStep_freezeWindow hw).trans begun, nofun, nofun, nofun, nofun, ?_⟩
    rintro _ _ ⟨⟩
    exact ⟨rfl, rfl, rfl, rfl⟩

/-! ### Targets cut short -/

/-- R31: a byte of the target holds its old value or its old value ANDed with its buffer byte. -/
theorem Memory.read_tearProgram_target {m : Memory} (w : m.wf = true) (taken : Nat → Bool) (a i : Nat) (bs : List Byte) :
    Memory.read (Memory.tearProgram m taken a bs) (a + i) = Memory.read m (a + i) ∨
    Memory.read (Memory.tearProgram m taken a bs) (a + i) = Memory.read m (a + i) &&& bs.getD i 0 := by
  rw [Memory.read_tearProgram w]
  split
  · exact .inr (by rw [Nat.add_sub_cancel_left])
  · exact .inl rfl

theorem Memory.read_tearProgram_outside {m : Memory} (w : m.wf = true) (taken : Nat → Bool) {a x : Nat} {bs : List Byte}
    (h : x < a ∨ a + bs.length ≤ x) : Memory.read (Memory.tearProgram m taken a bs) x = Memory.read m x := by
  rw [Memory.read_tearProgram w, if_neg (by omega)]

/-- R32: a bit that was 1 is still 1, wherever it lies. -/
theorem Memory.read_and_read_tearErase {m : Memory} (w : m.wf = true) (bits : Nat → Byte) (a n x : Nat) :
    Memory.read m x &&& Memory.read (Memory.tearErase m bits a n) x = Memory.read m x := by
  rw [Memory.read_tearErase w]
  split
  · ext i
    rw [BitVec.getElem_and, BitVec.getElem_or]
    exact inf_sup_self
  · exact BitVec.and_self

theorem Memory.read_tearErase_outside {m : Memory} (w : m.wf = true) (bits : Nat → Byte) {a n x : Nat}
    (h : x < a ∨ a + n ≤ x) : Memory.read (Memory.tearErase m bits a n) x = Memory.read m x := by
  rw [Memory.read_tearErase w, if_neg (by omega)]

/-- Programming a value over bits each of which is 1 or the value's gives the value. -/
theorem and_eq_of_bits {w : Nat} {x e : BitVec w}
    (h : ∀ m, m < w → x.getLsbD m = true ∨ x.getLsbD m = e.getLsbD m) : x &&& e = e := by
  refine BitVec.eq_of_getLsbD_eq fun m hm => ?_
  rw [BitVec.getLsbD_and]
  obtain one | same := h m hm
  · rw [one, Bool.true_and]
  · rw [same, Bool.and_self]

/-- A bit that was 1, or has been ANDed with the entry's, is 1 or the entry's. -/
theorem bits_of_allOnes {w : Nat} {x e : BitVec w}
    (h : ∀ m, m < w → x.getLsbD m = (BitVec.allOnes w).getLsbD m ∨
      x.getLsbD m = ((BitVec.allOnes w).getLsbD m && e.getLsbD m)) :
    ∀ m, m < w → x.getLsbD m = true ∨ x.getLsbD m = e.getLsbD m := by
  intro m hm
  have one : (BitVec.allOnes w).getLsbD m = true := by rw [BitVec.getLsbD_allOnes, decide_eq_true hm]
  have bit := h m hm
  rwa [one, Bool.true_and] at bit

/-- R32: an interrupted write into a blank slot leaves each bit 1 or the entry's. -/
theorem FusesPartly.of_blank {v w : Vector FuseSlot 8} {i : Fin 8} {e : FuseSlot} (h : FusesPartly v w i e)
    (blank : v.get i = .blank) :
    (∀ m, m < 24 → (w.get i).base.getLsbD m = true ∨ (w.get i).base.getLsbD m = e.base.getLsbD m) ∧
    (∀ m, m < 8 → (w.get i).k.getLsbD m = true ∨ (w.get i).k.getLsbD m = e.k.getLsbD m) := by
  obtain ⟨base, size, _⟩ := h
  have ones : FuseSlot.blank = { base := BitVec.allOnes 24, k := BitVec.allOnes 8 } := by decide
  rw [blank, ones] at base size
  exact ⟨bits_of_allOnes base, bits_of_allOnes size⟩

/-! ### The step that a device reset interrupts -/

theorem State.interruptStep_program {s : State} {a n : Nat} {b : BufferNo} (h : s.arrayStep = some (.program a n b)) :
    s.interruptStep = State.drawn
      { s with mem := Memory.tearProgram s.mem (Config.tornProgramTaken s.freeCount) a (s.stepData b n) } := by
  unfold State.interruptStep
  rw [h]

theorem State.interruptStep_erase {s : State} {n : Nat} (h : s.arrayStep = some (.erase n)) :
    s.interruptStep = State.drawn
      { s with mem := Memory.tearErase s.mem (Config.tornEraseBits s.freeCount) (n * 4096) 4096 } := by
  unfold State.interruptStep
  rw [h]
  rfl

theorem State.interruptStep_save {s : State} {c : TableImage} (h : s.arrayStep = some (.save c)) :
    s.interruptStep = State.drawn { s with image := Config.indeterminateImage s.freeCount } := by
  unfold State.interruptStep
  rw [h]

theorem State.interruptStep_fuse {s : State} {i : Nat} {e : FuseSlot} (h : s.arrayStep = some (.fuse i e)) :
    s.interruptStep = State.drawn
      { s with fuses := s.fuses.setIfInBounds i ((s.fuses.toList.getD i .blank).partly e s.freeCount) } := by
  unfold State.interruptStep
  rw [h]

/-- The marker is not the target of any step. -/
theorem State.marker_interruptStep (s : State) : s.interruptStep.marker = s.marker := by
  unfold State.interruptStep
  split <;> rfl

/-- The bytes of a page program step are those of its buffer. -/
theorem State.stepData_getD (s : State) (b : BufferNo) {i n : Nat} (h : i < n) :
    (s.stepData b n).getD i 0 = Memory.read (s.buffer b).data i := by
  have byte := Memory.readRange_getD (s.buffer b).data 0 n i h
  rwa [Nat.zero_add] at byte

theorem State.stepData_length (s : State) (b : BufferNo) (n : Nat) : (s.stepData b n).length = n :=
  Memory.readRange_length _ _ _

/-- After start-up, a device reset leaves of the storage what the interrupted step leaves. -/
theorem SameStorage.deviceReset_of_ready {s : State} (h : s.phase = .ready) :
    SameStorage s.interruptStep s.deviceReset := by
  have same := SameStorage.deviceReset s
  rwa [State.interruptRecover_of_other (by simp [h])] at same

/-- Settles O6: one clause for each kind of step, from what `State.interruptStep` leaves of its target. -/
theorem deviceResetInterruptsTheStep : Obligations.DeviceResetInterruptsTheStep := by
  intro s wf hp
  have same := SameStorage.deviceReset_of_ready hp
  refine ⟨s.deviceReset, rfl, ?_, fun a n b h => ?_, fun n h => ?_, fun c h => ?_, fun i e h blank => ?_⟩
  · obtain ⟨_, _, marker, _⟩ := same
    exact marker.trans s.marker_interruptStep
  · rw [State.interruptStep_program h] at same
    obtain ⟨mem, fuses, _, _, imageState, image⟩ := same
    refine ⟨fun i hi => ?_, fun x hx => ?_, fuses, imageState, image⟩
    · rw [mem, ← s.stepData_getD b hi]
      exact Memory.read_tearProgram_target wf _ a i _
    · rw [mem]
      exact Memory.read_tearProgram_outside wf _ ((s.stepData_length b n).symm ▸ hx)
  · rw [State.interruptStep_erase h] at same
    obtain ⟨mem, fuses, _, _, imageState, image⟩ := same
    refine ⟨fun x _ _ => ?_, fun x hx => ?_, fuses, imageState, image⟩
    · rw [mem]
      exact Memory.read_and_read_tearErase wf _ _ _ x
    · rw [mem]
      exact Memory.read_tearErase_outside wf _ hx
  · rw [State.interruptStep_save h] at same
    obtain ⟨mem, fuses, _, _, imageState, _⟩ := same
    exact ⟨imageState, mem, fuses⟩
  · rw [State.interruptStep_fuse h] at same
    obtain ⟨mem, fuses, _, _, imageState, image⟩ := same
    have partly : FusesPartly s.fuses s.deviceReset.fuses i e :=
      fuses ▸ FusesPartly.of_partly s.fuses i e s.freeCount
    obtain ⟨base, size⟩ := partly.of_blank blank
    obtain ⟨_, _, others⟩ := partly
    exact ⟨base, size, and_eq_of_bits base, and_eq_of_bits size, others, mem, imageState, image⟩

end Sys2Proof.Machine
end

section
/-! PROOF. The access decode of a READ and the acceptance checks of a write-side request: each is answered by its first check
that fails (R42, R43, R108, R117, R118). -/

namespace Sys2Proof.Machine

/-! ### The access decode (R42) -/

theorem Range.contains_iff (r : Range) (a : Nat) : r.contains a = true ↔ r.base ≤ a ∧ a < r.base + 2 ^ r.k := by
  rw [Range.contains, Bool.and_eq_true, decide_eq_true_iff, decide_eq_true_iff]
  rfl

/-- No window holds the address. -/
theorem State.windowAt_none {s : State} {a : Nat}
    (h : ∀ w x, s.window w = some x → a < x.fields.range.base ∨ x.fields.range.base + 2 ^ x.fields.range.k ≤ a) :
    s.windowAt a = none := by
  refine List.find?_eq_none.2 fun w _ => ?_
  cases hw : s.window w with
  | none => simp
  | some x =>
    have out := h w x hw
    rw [Range.contains_iff]
    omega

/-- R42, checks 2 and 3: the right, then the end of the range. -/
theorem decodeIn_eq (x : Window) (w : Slot) (mayUse : Bool) (refusal : Result) (a n : Nat) :
    decodeIn x w mayUse refusal a n =
      if mayUse = false then .error refusal
      else if x.fields.range.base + 2 ^ x.fields.range.k < a + n then .error .range else .ok w := by
  cases mayUse with
  | false => rfl
  | true =>
    show (if a + n ≤ x.fields.range.base + 2 ^ x.fields.range.k then Except.ok w else .error Result.range) = _
    by_cases inside : a + n ≤ x.fields.range.base + 2 ^ x.fields.range.k
    · rw [if_pos inside, if_neg nofun, if_neg (Nat.not_lt.2 inside)]
    · rw [if_neg inside, if_neg nofun, if_pos (Nat.lt_of_not_le inside)]

theorem State.decodeRead_of_none {s : State} {a : Nat} (h : s.windowAt a = none) (p : Port) (n : Nat) :
    s.decodeRead p a n = .error .noWindow := by
  unfold State.decodeRead
  rw [h]

theorem State.decodeRead_of_window {s : State} {a : Nat} {w : Slot} {x : Window} (h : s.windowAt a = some w)
    (hw : s.window w = some x) (p : Port) (n : Nat) :
    s.decodeRead p a n =
      if x.fields.settings.readers.getLsbD p.idx = false then .error .notReader
      else if x.fields.range.base + 2 ^ x.fields.range.k < a + n then .error .range else .ok w := by
  unfold State.decodeRead
  simp only [h, hw]
  exact decodeIn_eq x w _ _ a n

theorem State.decodeWriteAt_of_none {s : State} {a : Nat} (h : s.windowAt a = none) (p : Port) (n : Nat) :
    s.decodeWriteAt p a n = .error .noWindow := by
  unfold State.decodeWriteAt
  rw [h]

theorem State.decodeWriteAt_of_window {s : State} {a : Nat} {w : Slot} {x : Window} (h : s.windowAt a = some w)
    (hw : s.window w = some x) (p : Port) (n : Nat) :
    s.decodeWriteAt p a n =
      if x.fields.settings.writers.getLsbD p.idx = false then .error .notWriter
      else if x.fields.range.base + 2 ^ x.fields.range.k < a + n then .error .range else .ok w := by
  unfold State.decodeWriteAt
  simp only [h, hw]
  exact decodeIn_eq x w _ _ a n

theorem State.judgeRead_of_error {s : State} {p : Port} {f : Frame} {r : Result}
    (h : s.decodeRead p (fieldAt f.body 0 3) (fieldAt f.body 3 2) = .error r) : s.judgeRead p f = s.answer p f r [] := by
  unfold State.judgeRead
  simp only [h]

/-- A READ that the decode refuses is answered with the refusal, and nothing else changes. -/
theorem exec_read_refused {s : State} {p : Port} {f : Frame} {r : Result} (h : s.Asks p .read f)
    (hd : s.decodeRead p (fieldAt f.body 0 3) (fieldAt f.body 3 2) = .error r) :
    ∃ t, exec (.read p) s = .next t ∧ OnlyAnswers s t p f r [] :=
  State.reports h rfl (State.judgeRead_of_error (s := s.judging p) hd) rfl

/-- Settles O20: the decode names the first check that fails, and the READ is answered with it. -/
theorem readIsRefusedByTheDecode : Obligations.ReadIsRefusedByTheDecode := by
  intro s p f h
  refine ⟨fun outside => ?_, fun w x ha hw => ⟨fun right => ?_, fun right past => ?_⟩⟩
  · exact exec_read_refused h (State.decodeRead_of_none (State.windowAt_none outside) p _)
  · refine exec_read_refused h ?_
    rw [State.decodeRead_of_window ha hw, if_pos right]
  · refine exec_read_refused h ?_
    rw [State.decodeRead_of_window ha hw, if_neg (ne_false_of_eq_true right), if_pos past]

/-! ### The decode of a write-side request (R43) -/

/-- R43: the length that a PROGRAM is decoded with is the extent of the buffer that the port fills, and at least 1. -/
theorem State.programLength_eq (s : State) (p : Port) (b : BufferNo) :
    s.programLength p b = match (s.buffer b).state with
      | .filling o e _ => if o = p then max 1 e else 1
      | _ => 1 := by
  unfold State.programLength State.fillingFor
  cases (s.buffer b).state with
  | filling o e l => simp [BufferState.extent]
  | free => rfl
  | bound o e i => rfl

theorem State.decodeWrite_eraseWindow_of_none {s : State} {w : Slot} (h : s.window w = none) (p : Port) :
    s.decodeWrite p (.eraseWindow w) = .error .noWindow := by
  unfold State.decodeWrite
  simp only [h]

/-- An ERASE-WINDOW names its window and its whole range, so that only the right is left to check. -/
theorem State.decodeWrite_eraseWindow_of_some {s : State} {w : Slot} {x : Window} (h : s.window w = some x) (p : Port) :
    s.decodeWrite p (.eraseWindow w) =
      if x.fields.settings.writers.getLsbD p.idx = false then .error .notWriter else .ok w := by
  unfold State.decodeWrite
  simp only [h]
  have whole := decodeIn_eq x w (PortSet.has x.fields.settings.writers p) .notWriter x.fields.range.base
    (2 ^ x.fields.range.k)
  rw [if_neg (Nat.lt_irrefl _)] at whole
  exact whole

/-! ### The acceptance checks (R117, R118) -/

theorem State.acceptCheck_of_error {s : State} {p : Port} {req : WriteReq} {r : Result}
    (h : s.decodeWrite p req = .error r) : s.acceptCheck p req = .error r := by
  unfold State.acceptCheck
  rw [h]

/-- Past the decode, the other checks decide. -/
theorem State.acceptCheck_of_decode {s : State} {p : Port} {req : WriteReq} {w : Slot} {x : Window}
    (h : s.decodeWrite p req = .ok w) (hw : s.window w = some x) :
    s.acceptCheck p req = (s.writeChecks p x req).elim (.ok (w, x)) .error := by
  unfold State.acceptCheck
  simp only [h, hw]
  cases s.writeChecks p x req <;> rfl

/-- R117, check 6: a full torn list lets only the ERASE-SECTOR of a listed sector through. -/
theorem State.tornFullFor_iff (s : State) (req : WriteReq) :
    s.tornFullFor req = true ↔ 8 ≤ s.torn.length ∧ (match req with
      | .eraseSector n => s.sectorTorn n
      | _ => false) = false := by
  unfold State.tornFullFor
  rw [Bool.and_eq_true, decide_eq_true_eq]
  cases req <;> simp [Config.tornMax]

/-- R108: the buffer checks of a PROGRAM. -/
theorem State.bufferCheck_program (s : State) (p : Port) (a : Nat) (b : BufferNo) :
    s.bufferCheck p (.program a b) =
      if s.fillingFor b p = false then some .notOwner
      else if (s.buffer b).state.extent = 0 then some .emptyBuffer
      else if 256 < a % 256 + (s.buffer b).state.extent then some .pageCross else none := by
  unfold State.bufferCheck
  simp only [Bool.not_eq_true']
  rfl

/-- Handing the request over moves nothing that the acceptance checks read. -/
theorem State.acceptCheck_judging (s : State) (p : Port) (req : WriteReq) :
    (s.judging p).acceptCheck p req = s.acceptCheck p req := rfl

theorem State.judgeWrite_of_error {s : State} {p : Port} {req : WriteReq} {r : Result} (h : s.acceptCheck p req = .error r)
    (f : Frame) : s.judgeWrite p f req = s.answer p f r [] := by
  unfold State.judgeWrite
  rw [h]

/-- The row of a write-side request hands the request to `judgeWrite`. -/
theorem AsksWrite.row {s : State} {c : Instr} {p : Port} {f : Frame} {req : WriteReq} (h : AsksWrite s c p f req) :
    ∃ k owner, s.Asks p k f ∧ exec c s = .next (s.onRequest k p owner) ∧ ∀ t : State, owner f t = t.judgeWrite p f req := by
  obtain ⟨rfl, asks, rfl⟩ | ⟨rfl, asks, rfl⟩ | ⟨rfl, asks, rfl⟩ := h
  · exact ⟨_, _, asks, rfl, fun _ => rfl⟩
  · exact ⟨_, _, asks, rfl, fun _ => rfl⟩
  · exact ⟨_, _, asks, rfl, fun _ => rfl⟩

theorem elim_ite {α β : Type} (c : Prop) [Decidable c] (a b : Option α) (y : β) (g : α → β) :
    (if c then a else b).elim y g = if c then a.elim y g else b.elim y g := apply_ite (fun o : Option α => o.elim y g) c a b

/-- R117: the checks after the decode, in the order of Table 4.5. -/
theorem State.acceptCheck_checks {s : State} {p : Port} {req : WriteReq} {w : Slot} {x : Window}
    (hd : s.decodeWrite p req = .ok w) (hw : s.window w = some x) : s.acceptCheck p req =
      if s.targetFrozen x req = true then .error .frozen
      else if s.guardReads x.fields.settings.guard = true then .error .guarded
      else if x.latchOpen = false then .error .latchShut
      else if s.programTorn req = true then .error .torn
      else if s.tornFullFor req = true then .error .tornFull
      else match s.bufferCheck p req with
        | some r => .error r
        | none => if 16 ≤ s.jobs.length then .error .queueFull else .ok (w, x) := by
  rw [State.acceptCheck_of_decode hd hw]
  unfold State.writeChecks
  simp only [Bool.not_eq_true', elim_ite, Option.elim_some]
  cases s.bufferCheck p req with
  | some r => rfl
  | none =>
    simp only [elim_ite, Option.elim_some, Option.elim_none]
    rfl

/-- Settles O33: the answer is the check's, and each check is spelled out by its own lemma. -/
theorem writeRequestIsAnsweredByTheFirstFailure : Obligations.WriteRequestIsAnsweredByTheFirstFailure := by
  refine ⟨fun s c p f req r asks hr => ?_, fun s p a n => ⟨fun ha => ?_, fun w x ha hw => ?_⟩, fun s p a b => ?_,
    fun s p n => rfl, fun s p w => ⟨fun hw => ?_, fun x hw => ?_⟩, fun s p req => ⟨fun r hd => ?_, fun w x hd hw => ?_⟩,
    fun s p a b => ?_, fun s p => ⟨fun n => rfl, fun w => rfl⟩⟩
  · obtain ⟨k, owner, hk, row, judge⟩ := asks.row
    have refused := State.judgeWrite_of_error (s := s.judging p) (s.acceptCheck_judging p req ▸ hr) f
    exact State.reports hk row ((judge _).trans refused) rfl
  · exact State.decodeWriteAt_of_none ha p n
  · exact State.decodeWriteAt_of_window ha hw p n
  · exact congrArg (s.decodeWriteAt p a) (s.programLength_eq p b)
  · exact State.decodeWrite_eraseWindow_of_none hw p
  · exact State.decodeWrite_eraseWindow_of_some hw p
  · exact State.acceptCheck_of_error hd
  · refine (State.acceptCheck_checks hd hw).trans ?_
    exact if_congr .rfl rfl (if_congr .rfl rfl (if_congr .rfl rfl (if_congr .rfl rfl
      (if_congr (s.tornFullFor_iff req) rfl rfl))))
  · exact s.bufferCheck_program p a b

end Sys2Proof.Machine
end

section
/-! PROOF. Administrative requests: the right that their owners ask for first (R39, R41), and the two that touch the lock and
the header alone, LOCK-TABLE (R40) and SET-TIMING (R51, R52). -/

namespace Sys2Proof.Machine

/-! ### The right to ask (R39, R41) -/

theorem State.adminCheck_none {s : State} {p : Port} (h : p = s.adminPort) : s.adminCheck p = none := if_pos h

theorem State.adminCheck_of_other {s : State} {p : Port} (h : p ≠ s.adminPort) : s.adminCheck p = some .notAdmin := if_neg h

theorem State.editCheck_none {s : State} {p : Port} (h : p = s.adminPort) (hl : s.locked = false) :
    s.editCheck p = none := by
  simp [State.editCheck, h, hl]

theorem State.editCheck_of_other {s : State} {p : Port} (h : p ≠ s.adminPort) : s.editCheck p = some .notAdmin := if_pos h

theorem State.editCheck_of_locked {s : State} {p : Port} (h : p = s.adminPort) (hl : s.locked = true) :
    s.editCheck p = some .locked := by
  simp [State.editCheck, h, hl]

/-- The check that the owner of an administrative request makes first: the admin port, and for the requests that the lock
refuses also the lock. -/
def State.rightCheck (s : State) (p : Port) : ReqType → Option Result
  | .shutAll | .lockTable | .freezeWindow => s.adminCheck p
  | _ => s.editCheck p

theorem State.rightCheck_of_other {s : State} {p : Port} (h : p ≠ s.adminPort) (k : ReqType) :
    s.rightCheck p k = some .notAdmin := by
  unfold State.rightCheck
  split
  · exact State.adminCheck_of_other h
  · exact State.adminCheck_of_other h
  · exact State.adminCheck_of_other h
  · exact State.editCheck_of_other h

theorem State.rightCheck_of_locked {s : State} {p : Port} {k : ReqType} (hk : k ∈ lockedRequests) (h : p = s.adminPort)
    (hl : s.locked = true) : s.rightCheck p k = some .locked := by
  unfold State.rightCheck
  split
  · exact absurd hk (by decide)
  · exact absurd hk (by decide)
  · exact absurd hk (by decide)
  · exact State.editCheck_of_locked h hl

/-! ### Owners that refuse -/

section
variable {s : State} {p : Port} {f : Frame} {r : Result}

theorem State.define_of_error (h : s.defineCheck p f.body = .error r) : s.define p f = s.answer p f r [] := by
  unfold State.define
  rw [h]

theorem State.modify_of_error (h : s.modifyCheck p f.body = .error r) : s.modify p f = s.answer p f r [] := by
  unfold State.modify
  rw [h]

theorem State.undefine_of_some (h : s.undefineCheck p (slotAt f.body 0) = some r) :
    s.undefine p f = s.answer p f r [] := by
  unfold State.undefine
  simp only [h]

theorem State.saveTable_of_some (h : s.saveCheck p = some r) : s.saveTable p f = s.answer p f r [] := by
  unfold State.saveTable
  rw [h]

theorem State.defineCheck_of_right (h : s.editCheck p = some r) (body : List Byte) : s.defineCheck p body = .error r := by
  unfold State.defineCheck
  rw [h]

theorem State.modifyCheck_of_right (h : s.editCheck p = some r) (body : List Byte) : s.modifyCheck p body = .error r := by
  unfold State.modifyCheck
  rw [h]

theorem State.undefineCheck_of_right (h : s.editCheck p = some r) (w : Slot) : s.undefineCheck p w = some r := by
  unfold State.undefineCheck
  rw [h]

theorem State.saveCheck_of_right (h : s.editCheck p = some r) : s.saveCheck p = some r := by
  unfold State.saveCheck
  rw [h]

theorem State.setGuard_of_right (h : s.editCheck p = some r) : s.setGuard p f = s.answer p f r [] := by
  unfold State.setGuard
  rw [h]

theorem State.setTiming_of_right (h : s.editCheck p = some r) : s.setTiming p f = s.answer p f r [] := by
  unfold State.setTiming
  rw [h]

theorem State.shutAll_of_right (h : s.adminCheck p = some r) : s.shutAll p f = s.answer p f r [] := by
  unfold State.shutAll
  rw [h]

theorem State.lockTable_of_right (h : s.adminCheck p = some r) : s.lockTable p f = s.answer p f r [] := by
  unfold State.lockTable
  rw [h]

theorem State.freeze_of_right (h : s.adminCheck p = some r) : s.freeze p f = s.answer p f r [] := by
  unfold State.freeze
  rw [h]

end

/-- The row of an administrative request hands it to an owner that answers at once when the right to ask is missing. -/
theorem exec_adminRow {c : Instr} {p : Port} {k : ReqType} (h : requestOf c = some (p, k)) (hk : k ∈ adminRequests)
    (s : State) : ∃ owner, exec c s = .next (s.onRequest k p owner) ∧
      ∀ (f : Frame) (t : State) (r : Result), t.rightCheck p k = some r → owner f t = t.answer p f r [] := by
  cases c <;> cases h
  case defineWindow =>
    exact ⟨_, rfl, fun _ _ _ right => State.define_of_error (State.defineCheck_of_right right _)⟩
  case modifyWindow =>
    exact ⟨_, rfl, fun _ _ _ right => State.modify_of_error (State.modifyCheck_of_right right _)⟩
  case undefineWindow =>
    exact ⟨_, rfl, fun _ _ _ right => State.undefine_of_some (State.undefineCheck_of_right right _)⟩
  case saveTable => exact ⟨_, rfl, fun _ _ _ right => State.saveTable_of_some (State.saveCheck_of_right right)⟩
  case setGuard => exact ⟨_, rfl, fun _ _ _ right => State.setGuard_of_right right⟩
  case setTiming => exact ⟨_, rfl, fun _ _ _ right => State.setTiming_of_right right⟩
  case shutAll => exact ⟨_, rfl, fun _ _ _ right => State.shutAll_of_right right⟩
  case lockTable => exact ⟨_, rfl, fun _ _ _ right => State.lockTable_of_right right⟩
  case freezeWindow => exact ⟨_, rfl, fun _ _ _ right => State.freeze_of_right right⟩
  all_goals exact absurd hk (by decide)

/-- Settles O38: every administrative owner asks for the right first (`exec_adminRow`). -/
theorem administrativeRequestsAreRefused : Obligations.AdministrativeRequestsAreRefused := by
  intro s c p k f hc h
  refine ⟨fun hk other => ?_, fun hk admin locked => ?_⟩
  · obtain ⟨owner, row, refuse⟩ := exec_adminRow hc hk s
    exact State.reports h row (refuse f (s.judging p) _ (State.rightCheck_of_other (s := s.judging p) other k)) rfl
  · obtain ⟨owner, row, refuse⟩ := exec_adminRow hc (List.mem_append_left _ hk) s
    exact State.reports h row (refuse f (s.judging p) _ (State.rightCheck_of_locked (s := s.judging p) hk admin locked)) rfl

/-! ### LOCK-TABLE and SET-TIMING -/

/-- The answer to a request that is being judged, after a change that leaves the port links alone. -/
theorem State.linksAnswer_of_ports {s u : State} {p : Port} {f : Frame} (h : s.taken p = some f)
    (hu : u.ports = (s.judging p).ports) (r : Result) (l : List Byte) : LinksAnswer s (u.answer p f r l) p f r l := by
  have answered := (State.answer_judging h r l).1
  unfold State.answer State.modPort at answered ⊢
  rw [hu]
  exact answered

/-- A request that its owner carries out. -/
theorem exec_of_asks {s t : State} {c : Instr} {p : Port} {k : ReqType} {f : Frame} (h : s.Asks p k f)
    {owner : Frame → State → State} (hc : exec c s = .next (s.onRequest k p owner)) (ho : owner f (s.judging p) = t) :
    exec c s = .next t := by
  rw [hc, State.onRequest_of_asks h, ho]

theorem State.lockTable_of_admin {s : State} {p : Port} (h : s.adminCheck p = none) (f : Frame) :
    s.lockTable p f = State.answer { s with locked := true } p f .ok [] := by
  unfold State.lockTable
  rw [h]

theorem timingLegal_iff (lease limit : Nat) :
    timingLegal lease limit = true ↔ 1 ≤ lease ∧ lease ≤ 60 ∧ 1 ≤ limit ∧ limit ≤ 250 := by
  simp [timingLegal, and_assoc]

theorem State.setTiming_of_illegal {s : State} {p : Port} {f : Frame} (he : s.editCheck p = none)
    (h : timingLegal (byteAt f.body 0).toNat (byteAt f.body 1).toNat = false) :
    s.setTiming p f = s.answer p f .badField [] := by
  unfold State.setTiming
  simp only [he]
  exact if_neg (ne_true_of_eq_false h)

theorem State.setTiming_of_legal {s : State} {p : Port} {f : Frame} (he : s.editCheck p = none)
    (h : timingLegal (byteAt f.body 0).toNat (byteAt f.body 1).toNat = true) :
    s.setTiming p f = (State.edited { s with header := { s.header with
      leasePeriod := (byteAt f.body 0).toNat, holdLimit := (byteAt f.body 1).toNat } }).answer p f .ok [] := by
  unfold State.setTiming
  simp only [he]
  exact if_pos h

/-- Settles O51: what each of the two owners does once the right to ask is there. -/
theorem lockTableAndSetTiming : Obligations.LockTableAndSetTiming := by
  refine ⟨fun s p f h admin => ?_, fun s p f h admin unlocked => ?_⟩
  · have right : (s.judging p).adminCheck p = none := State.adminCheck_none admin
    exact ⟨_, exec_of_asks h rfl (State.lockTable_of_admin right f), State.linksAnswer_of_ports h.1 rfl _ _, rfl, rfl⟩
  · have right : (s.judging p).editCheck p = none := State.editCheck_none admin unlocked
    refine ⟨fun illegal => ?_, fun lease lease' limit limit' => ?_⟩
    · have check : timingLegal (byteAt f.body 0).toNat (byteAt f.body 1).toNat = false := by
        rw [← Bool.not_eq_true, timingLegal_iff]
        omega
      exact State.reports h rfl (State.setTiming_of_illegal right check) rfl
    · have check := (timingLegal_iff _ _).2 ⟨lease, lease', limit, limit'⟩
      exact ⟨_, exec_of_asks h rfl (State.setTiming_of_legal right check), State.linksAnswer_of_ports h.1 rfl _ _, rfl, rfl,
        rfl, rfl⟩

end Sys2Proof.Machine
end

section
/-! PROOF. Table saves and fuse writes at their completions (R57, R131, R162, R167), and the acceptance of SAVE-TABLE (R59,
R115, R120). -/

namespace Sys2Proof.Machine

/-! ### Completions -/

/-- A RUNNING step may complete (R29, R30). -/
theorem State.runningStep_of_running {s : State} {x : ArrayStep} (h : s.arrayOp = .running) (hx : s.arrayStep = some x) :
    s.runningStep = some x := by
  unfold State.runningStep
  rw [if_pos h, hx]

/-- A step's completion ends the job that runs, whatever else of the state it has changed. -/
theorem State.endActive_of_active {s t : State} {j : Job} (h : s.activeJob = some j) (hj : t.jobs = s.jobs) (st : EndStatus)
    (d : Nat) : t.endActive st d = t.endJob j st .none d true := by
  have active : t.activeJob = some j := by
    rw [← h, State.activeJob, hj]
    rfl
  unfold State.endActive
  rw [active]

theorem State.completeSave_of_save {s : State} {c : TableImage} {j : Job} (h : s.runningStep = some (.save c))
    (hj : s.activeJob = some j) : s.completeSave =
    (State.endJob (State.stepDone { s with
      image := c, imageState := .valid
      tableState := if s.captureMark = CaptureMark.clean then .saved else s.tableState
      captureMark := .none }) j .done .none 0 true).arbitrate := by
  unfold State.completeSave
  rw [h]
  dsimp only
  rw [State.endActive_of_active hj]
  rfl

theorem State.completeFuse_of_fuse {s : State} {i : Nat} {e : FuseSlot} {j : Job} (h : s.runningStep = some (.fuse i e))
    (hj : s.activeJob = some j) :
    s.completeFuse = (((s.programFuse i e).stepDone).endJob j .done .none i true).arbitrate := by
  unfold State.completeFuse
  rw [h]
  dsimp only
  rw [State.endActive_of_active hj]
  rfl

/-- Programming an entry into its slot ANDs the slot with it and leaves the other slots. -/
theorem State.fuses_programFuse (s : State) (i m : Fin 8) (e : FuseSlot) :
    (s.programFuse i.val e).fuses.get m = if i = m then (s.fuses.get i).program e else s.fuses.get m := by
  unfold State.programFuse
  rw [fuses_getD]
  exact fuses_setIfInBounds s.fuses i m _

/-- Settles O31: a completion acts on its own step, and then the job that runs ends. -/
theorem saveAndFuseCompletions : Obligations.SaveAndFuseCompletions := by
  intro s j running active
  refine ⟨fun c save => ?_, fun i e fuse => ⟨(s.programFuse i.val e).stepDone, ?_, ?_, fun m other => ?_, rfl, rfl, rfl, rfl, rfl⟩⟩
  · exact congrArg Host.Outcome.next (State.completeSave_of_save (State.runningStep_of_running running save) active)
  · exact congrArg Host.Outcome.next (State.completeFuse_of_fuse (State.runningStep_of_running running fuse) active)
  · exact (s.fuses_programFuse i i e).trans (if_pos rfl)
  · exact (s.fuses_programFuse i m e).trans (if_neg (Ne.symm other))

/-! ### The offer when a job joins the job list (R123) -/

/-- A new job is QUEUED, so the job that runs stays the one that runs. -/
theorem State.activeJob_addJob (s : State) (p : Port) (w : JobWork) : (s.addJob p w).activeJob = s.activeJob := by
  simp [State.activeJob, State.addJob, Job.fresh]

theorem State.offerNow_addJob_of_empty {s : State} (h : s.jobs = []) (p : Port) (w : JobWork) :
    (s.addJob p w).offerNow = .queued s.newJobId := by
  have idle : (s.addJob p w).activeJob = none := by
    rw [State.activeJob_addJob, State.activeJob, h, List.find?_nil]
  unfold State.offerNow
  rw [idle]
  simp only [State.addJob, h, List.nil_append, Job.fresh]

theorem State.offerNow_addJob_of_jobs {s : State} (h : s.jobs ≠ []) (p : Port) (w : JobWork) :
    (s.addJob p w).offerNow = s.offerNow := by
  obtain ⟨k, rest, hk⟩ := List.exists_cons_of_ne_nil h
  unfold State.offerNow
  rw [State.activeJob_addJob]
  cases s.activeJob with
  | some j => rfl
  | none => simp only [State.addJob, hk, List.cons_append]

/-! ### SAVE-TABLE -/

theorem State.saveCheck_of_busy {s : State} {p : Port} (he : s.editCheck p = none) (h : ∃ j ∈ s.jobs, j.work = .saveTable) :
    s.saveCheck p = some .busy := by
  unfold State.saveCheck
  simp only [he]
  exact if_pos (by simpa using h)

/-- With no save live, the room in the job list decides. -/
theorem State.saveCheck_of_free {s : State} {p : Port} (he : s.editCheck p = none) (h : ∀ j ∈ s.jobs, j.work ≠ .saveTable) :
    s.saveCheck p = if 16 ≤ s.jobs.length then some .queueFull else none := by
  unfold State.saveCheck
  simp only [he]
  exact if_neg (by simpa using h)

theorem State.saveTable_of_none {s : State} {p : Port} (h : s.saveCheck p = none) (f : Frame) :
    s.saveTable p f = (((s.addJob p .saveTable).answer p f .accepted [s.newJobId]).formOffer).arbitrate := by
  unfold State.saveTable
  rw [h]

/-- Settles O36: SAVE-TABLE by its first failing check, or as a job at the tail of the list. -/
theorem saveTableIsAcceptedAsAJob : Obligations.SaveTableIsAcceptedAsAJob := by
  intro s p f h admin unlocked
  have right : (s.judging p).editCheck p = none := State.editCheck_none admin unlocked
  refine ⟨fun busy => ?_, fun free full => ?_, fun free room => ?_⟩
  · exact State.reports h rfl (State.saveTable_of_some (State.saveCheck_of_busy right busy)) rfl
  · have check := (State.saveCheck_of_free right free).trans (if_pos full)
    exact State.reports h rfl (State.saveTable_of_some check) rfl
  · have check := (State.saveCheck_of_free right free).trans (if_neg (Nat.not_le.2 room))
    refine ⟨(((s.judging p).addJob p .saveTable).answer p f .accepted [s.newJobId]).formOffer, s.newJobId,
      exec_of_asks h rfl (State.saveTable_of_none check f), State.newJobId_firstFree (by omega), rfl, rfl,
      State.linksAnswer_of_ports h.1 rfl _ _, fun empty => ?_, fun jobs offer => ?_, rfl⟩
    · exact State.offerNow_addJob_of_empty (s := s.judging p) empty p .saveTable
    · exact (State.offerNow_addJob_of_jobs (s := s.judging p) jobs p .saveTable).trans offer.symm

end Sys2Proof.Machine
end

section
/-! PROOF. The setting bytes of DEFINE-WINDOW and MODIFY-WINDOW (R45, check 4; R184, Table 12.3). -/

namespace Sys2Proof.Machine

/-! ### Codes of the setting bytes (Table 12.3)

For each field two lemmas: a byte gives a value exactly when it is that value's code, and no value exactly when it lies
outside the codes. -/

theorem portSetOfCode_some {b : Byte} {y : PortSet} (h : portSetOfCode b = some y) : b.toNat = y.toNat := by
  unfold portSetOfCode at h
  split at h
  · next small =>
    obtain rfl := Option.some.inj h
    rw [BitVec.toNat_ofNat, Nat.mod_eq_of_lt small]
  · cases h

theorem portSetOfCode_none {b : Byte} : portSetOfCode b = none ↔ 16 ≤ b.toNat := by
  simp [portSetOfCode]

theorem portCode_portOfNat {b : Byte} (h : b.toNat < 4) : portCode (portOfNat b.toNat) = b := by
  rw [← BitVec.toNat_inj]
  generalize b.toNat = n at h
  match n, h with
  | 0, _ => rfl
  | 1, _ => rfl
  | 2, _ => rfl
  | 3, _ => rfl

theorem watchOfCode_some {b : Byte} {y : Option Port} (h : watchOfCode b = some y) : b = watchCode y := by
  unfold watchOfCode at h
  split at h
  · next bare =>
    obtain rfl := Option.some.inj h
    exact bare
  · split at h
    · next small =>
      obtain rfl := Option.some.inj h
      exact (portCode_portOfNat small).symm
    · cases h

theorem watchOfCode_none {b : Byte} : watchOfCode b = none ↔ 4 ≤ b.toNat ∧ b ≠ 0xFF := by
  unfold watchOfCode
  split_ifs with bare small
  · exact iff_of_false nofun fun h => h.2 bare
  · exact iff_of_false nofun fun h => Nat.not_lt.2 h.1 small
  · exact iff_of_true rfl ⟨Nat.not_lt.1 small, bare⟩

/-- H'FF alone says that there is no watch port. -/
theorem watchOfCode_noPort {b : Byte} : watchOfCode b = some none ↔ b = 0xFF := ⟨watchOfCode_some, fun e => e ▸ rfl⟩

theorem trapOfCode_some {b : Byte} {y : Trap} (h : trapOfCode b = some y) : b = trapCode y := by
  unfold trapOfCode at h
  split_ifs at h with off note hold
  · obtain rfl := Option.some.inj h
    exact off
  · obtain rfl := Option.some.inj h
    exact note
  · obtain rfl := Option.some.inj h
    exact hold

theorem trapOfCode_none {b : Byte} : trapOfCode b = none ↔ 3 ≤ b.toNat := by
  unfold trapOfCode
  split_ifs with off note hold
  · exact iff_of_false nofun (by simp [off])
  · exact iff_of_false nofun (by simp [note])
  · exact iff_of_false nofun (by simp [hold])
  · exact iff_of_true rfl (by bv_omega)

theorem trapOfCode_hold {b : Byte} : trapOfCode b = some .hold ↔ b = 0x02 := ⟨trapOfCode_some, fun e => e ▸ rfl⟩

theorem verdictOfCode_some {b : Byte} {y : Verdict} (h : verdictOfCode b = some y) : b = verdictCode y := by
  unfold verdictOfCode at h
  split_ifs at h with allow deny
  · obtain rfl := Option.some.inj h
    exact allow
  · obtain rfl := Option.some.inj h
    exact deny

theorem verdictOfCode_none {b : Byte} : verdictOfCode b = none ↔ b ≠ 0x01 ∧ b ≠ 0x02 := by
  unfold verdictOfCode
  split_ifs with allow deny
  · exact iff_of_false nofun fun h => h.1 allow
  · exact iff_of_false nofun fun h => h.2 deny
  · exact iff_of_true rfl ⟨allow, deny⟩

theorem flagOfCode_some {b : Byte} {y : Bool} (h : flagOfCode b = some y) : b = flagByte y := by
  unfold flagOfCode at h
  split_ifs at h with no yes
  · obtain rfl := Option.some.inj h
    exact no
  · obtain rfl := Option.some.inj h
    exact yes

theorem flagOfCode_none {b : Byte} : flagOfCode b = none ↔ 2 ≤ b.toNat := by
  unfold flagOfCode
  split_ifs with no yes
  · exact iff_of_false nofun (by simp [no])
  · exact iff_of_false nofun (by simp [yes])
  · exact iff_of_true rfl (by bv_omega)

theorem guardOfCode_some {b : Byte} {y : Option GuardInput} (h : guardOfCode b = some y) : b = guardCode y := by
  unfold guardOfCode at h
  split_ifs at h with bare g0 g1
  · obtain rfl := Option.some.inj h
    exact bare
  · obtain rfl := Option.some.inj h
    exact g0
  · obtain rfl := Option.some.inj h
    exact g1

theorem guardOfCode_none {b : Byte} : guardOfCode b = none ↔ 3 ≤ b.toNat := by
  unfold guardOfCode
  split_ifs with bare g0 g1
  · exact iff_of_false nofun (by simp [bare])
  · exact iff_of_false nofun (by simp [g0])
  · exact iff_of_false nofun (by simp [g1])
  · exact iff_of_true rfl (by bv_omega)

/-! ### The setting bytes -/

/-- The bytes of a window's settings as they stand in a body from offset `i`. -/
structure SettingsSpelled (b : List Byte) (i : Nat) (y : Settings) : Prop where
  readers : portSetOfCode (byteAt b i) = some y.readers
  writers : portSetOfCode (byteAt b (i + 1)) = some y.writers
  watch : watchOfCode (byteAt b (i + 2)) = some y.watch
  readTrap : trapOfCode (byteAt b (i + 3)) = some y.readTrap
  writeTrap : trapOfCode (byteAt b (i + 4)) = some y.writeTrap
  holdDefault : verdictOfCode (byteAt b (i + 5)) = some y.holdDefault
  idlePeriod : byteAt b (i + 6) = y.idlePeriod
  idleCountsReads : flagOfCode (byteAt b (i + 7)) = some y.idleCountsReads
  guard : guardOfCode (byteAt b (i + 8)) = some y.guard
  watched : ¬(y.watch = none ∧ (y.readTrap = .hold ∨ y.writeTrap = .hold))

theorem settingsAt_some {b : List Byte} {i : Nat} {y : Settings} (h : settingsAt b i = some y) : SettingsSpelled b i y := by
  simp only [settingsAt, Option.bind_eq_bind, Option.bind_eq_some_iff] at h
  obtain ⟨readers, hreaders, writers, hwriters, watch, hwatch, readTrap, hread, writeTrap, hwrite, holdDefault, hdefault,
    counts, hcounts, guard, hguard, h⟩ := h
  split at h
  · cases h
  · next watched =>
    obtain rfl := Option.some.inj h
    exact ⟨hreaders, hwriters, hwatch, hread, hwrite, hdefault, rfl, hcounts, hguard, watched⟩

/-- The setting bytes are refused exactly when some byte is no code, or a HOLD trap has no watch port. -/
theorem settingsAt_none {b : List Byte} {i : Nat} : settingsAt b i = none ↔
    portSetOfCode (byteAt b i) = none ∨ portSetOfCode (byteAt b (i + 1)) = none ∨ watchOfCode (byteAt b (i + 2)) = none ∨
    trapOfCode (byteAt b (i + 3)) = none ∨ trapOfCode (byteAt b (i + 4)) = none ∨ verdictOfCode (byteAt b (i + 5)) = none ∨
    flagOfCode (byteAt b (i + 7)) = none ∨ guardOfCode (byteAt b (i + 8)) = none ∨
    (watchOfCode (byteAt b (i + 2)) = some none ∧
      (trapOfCode (byteAt b (i + 3)) = some .hold ∨ trapOfCode (byteAt b (i + 4)) = some .hold)) := by
  unfold settingsAt
  cases portSetOfCode (byteAt b i) with
  | none => simp
  | some readers =>
  cases portSetOfCode (byteAt b (i + 1)) with
  | none => simp
  | some writers =>
  cases watchOfCode (byteAt b (i + 2)) with
  | none => simp
  | some watch =>
  cases trapOfCode (byteAt b (i + 3)) with
  | none => simp
  | some readTrap =>
  cases trapOfCode (byteAt b (i + 4)) with
  | none => simp
  | some writeTrap =>
  cases verdictOfCode (byteAt b (i + 5)) with
  | none => simp
  | some holdDefault =>
  cases flagOfCode (byteAt b (i + 7)) with
  | none => simp
  | some counts =>
  cases guardOfCode (byteAt b (i + 8)) with
  | none => simp
  | some guard => simp [or_iff_not_imp_left]

/-- Settles O48: the codes of each field, byte by byte. -/
theorem windowSettingsAreLegalOrBadField : Obligations.WindowSettingsAreLegalOrBadField := by
  intro b i
  refine ⟨fun y h => ?_, ?_⟩
  · have spelled := settingsAt_some h
    refine ⟨portSetOfCode_some spelled.readers, portSetOfCode_some spelled.writers, watchOfCode_some spelled.watch,
      trapOfCode_some spelled.readTrap, trapOfCode_some spelled.writeTrap, verdictOfCode_some spelled.holdDefault,
      spelled.idlePeriod, flagOfCode_some spelled.idleCountsReads, guardOfCode_some spelled.guard, fun bare => ⟨?_, ?_⟩⟩
    · exact fun hold => spelled.watched ⟨bare, .inl hold⟩
    · exact fun hold => spelled.watched ⟨bare, .inr hold⟩
  · simp only [settingsAt_none, portSetOfCode_none, watchOfCode_none, trapOfCode_none, verdictOfCode_none, flagOfCode_none,
      guardOfCode_none, watchOfCode_noPort, trapOfCode_hold]

end Sys2Proof.Machine
end

section
/-! PROOF. Edits of the window table: DEFINE-WINDOW (R45, R46), MODIFY-WINDOW (R47, R48) and UNDEFINE-WINDOW (R49, R50), each
by its first failing check or carried out (R55). -/

namespace Sys2Proof.Machine

/-! ### DEFINE-WINDOW -/

/-- Two ranges share a byte exactly when each begins before the other ends. -/
theorem Range.overlaps_iff (r q : Range) :
    r.overlaps q = true ↔ r.base < q.base + 2 ^ q.k ∧ q.base < r.base + 2 ^ r.k := by
  rw [Range.overlaps, Bool.and_eq_true, decide_eq_true_iff, decide_eq_true_iff]
  rfl

theorem State.overlapsWindow_iff (s : State) (r : Range) : s.overlapsWindow r = true ↔
    ∃ w x, s.window w = some x ∧ r.base < x.fields.range.base + 2 ^ x.fields.range.k ∧
      x.fields.range.base < r.base + 2 ^ r.k := by
  unfold State.overlapsWindow
  rw [List.any_eq_true]
  constructor
  · rintro ⟨w, _, shared⟩
    cases hw : s.window w with
    | none => simp [hw] at shared
    | some x =>
      simp only [hw] at shared
      exact ⟨w, x, hw, (Range.overlaps_iff r x.fields.range).1 shared⟩
  · rintro ⟨w, x, hw, shared⟩
    refine ⟨w, mem_allSlots w, ?_⟩
    simp only [hw]
    exact (Range.overlaps_iff r x.fields.range).2 shared

section
variable {body : List Byte}

theorem definedFields_none (h : (byteAt body 4).toNat < 12 ∨ 23 < (byteAt body 4).toNat ∨ settingsAt body 5 = none) :
    definedFields body = none := by
  unfold definedFields
  dsimp only
  split
  · next size =>
    obtain small | large | illegal := h
    · omega
    · omega
    · rw [illegal]
      rfl
  · rfl

theorem definedFields_some {y : Settings} (low : 12 ≤ (byteAt body 4).toNat) (high : (byteAt body 4).toNat ≤ 23)
    (h : settingsAt body 5 = some y) : definedFields body =
      some { range := { base := fieldAt body 1 3, k := (byteAt body 4).toNat }, settings := y } := by
  unfold definedFields
  rw [h]
  exact if_pos ⟨low, high⟩

variable {s : State} {p : Port}

theorem State.defineCheck_of_used (he : s.editCheck p = none) (h : s.window (slotAt body 0) ≠ none) :
    s.defineCheck p body = .error .slotUsed := by
  unfold State.defineCheck
  simp only [he]
  exact if_pos (Option.isSome_iff_ne_none.2 h)

theorem State.defineCheck_of_bad (he : s.editCheck p = none) (hw : s.window (slotAt body 0) = none)
    (h : definedFields body = none) : s.defineCheck p body = .error .badField := by
  unfold State.defineCheck
  simp [he, hw, h]

/-- For an EMPTY slot and legal fields, the range decides. -/
theorem State.defineCheck_of_fields {x : WindowFields} (he : s.editCheck p = none)
    (hw : s.window (slotAt body 0) = none) (h : definedFields body = some x) : s.defineCheck p body =
      if x.range.base % 2 ^ x.range.k ≠ 0 then .error .misaligned
      else if s.overlapsWindow x.range = true then .error .overlap else .ok x := by
  unfold State.defineCheck
  simp only [he, hw, h, Option.isSome_none, Bool.false_eq_true, if_false]
  rfl

theorem State.define_of_ok {f : Frame} {x : WindowFields} (h : s.defineCheck p f.body = .ok x) : s.define p f =
    ((s.setWindow (slotAt f.body 0) (some (Window.loaded x))).edited).answer p f .ok [] := by
  unfold State.define
  rw [h]

end

/-- Settles O47: `defineCheck` by its first failure, and the slot as the fields define it. -/
theorem defineWindowDefinesTheSlot : Obligations.DefineWindowDefinesTheSlot := by
  intro s p f h admin unlocked
  have right : (s.judging p).editCheck p = none := State.editCheck_none admin unlocked
  refine ⟨fun used => ?_, fun empty => ⟨fun bad => ?_, fun y low high legal => ?_⟩⟩
  · exact State.reports h rfl (State.define_of_error (State.defineCheck_of_used right used)) rfl
  · exact State.reports h rfl (State.define_of_error (State.defineCheck_of_bad right empty (definedFields_none bad))) rfl
  have check := State.defineCheck_of_fields right empty (definedFields_some low high legal)
  refine ⟨fun misaligned => ?_, fun aligned => ⟨fun shared => ?_, fun apart => ?_⟩⟩
  · exact State.reports h rfl (State.define_of_error (check.trans (if_pos misaligned))) rfl
  · have overlap := (State.overlapsWindow_iff (s.judging p) { base := fieldAt f.body 1 3, k := (byteAt f.body 4).toNat }).2
      shared
    rw [if_neg (not_not_intro aligned), if_pos overlap] at check
    exact State.reports h rfl (State.define_of_error check) rfl
  · have free : ¬(s.judging p).overlapsWindow { base := fieldAt f.body 1 3, k := (byteAt f.body 4).toNat } = true := by
      rw [State.overlapsWindow_iff]
      rintro ⟨w, x, hw, below, above⟩
      have := apart w x hw
      simp only at below above
      omega
    rw [if_neg (not_not_intro aligned), if_neg free] at check
    refine ⟨_, exec_of_asks h rfl (State.define_of_ok check), State.linksAnswer_of_ports h.1 rfl _ _, ?_, fun w other => ?_,
      rfl, rfl, rfl⟩
    · exact State.window_setWindow_same (s.judging p) _ _
    · exact State.window_setWindow_ne (s.judging p) _ other

/-! ### Notices of a latch that is shut (R11, R64) -/

theorem PortLink.noted_congr {a b : Prop} [Decidable a] [Decidable b] (h : a ↔ b) (l : PortLink) (n : Notice) :
    l.noted a n = l.noted b n := if_congr h rfl rfl

/-- A notice posted to each port of a list. -/
theorem State.port_postEach (s : State) {ps : List Port} (h : ps.Nodup) (n : Notice) (q : Port) :
    (s.postEach ps n).port q = (s.port q).noted (q ∈ ps) n := by
  induction ps generalizing s with
  | nil => rfl
  | cons p ps ih =>
    obtain ⟨fresh, rest⟩ := List.nodup_cons.1 h
    have tail : ((s.post p n).postEach ps n).port q = ((s.post p n).port q).noted (q ∈ ps) n := ih _ rest
    refine tail.trans ?_
    rw [State.port_post]
    by_cases first : q = p
    · subst first
      simp [PortLink.noted, fresh]
    · simp [PortLink.noted, first]

theorem Settings.mem_latchPorts (x : Settings) (q : Port) :
    q ∈ x.latchPorts ↔ x.writers.getLsbD q.idx = true ∨ x.watch = some q := by
  simp [Settings.latchPorts, mem_portAll, PortSet.has]

theorem Settings.nodup_latchPorts (x : Settings) : x.latchPorts.Nodup := List.Nodup.filter _ (by decide)

theorem State.port_shutLatch {s : State} {w : Slot} {x : Window} (h : s.window w = some x) (c : LatchCause) (q : Port) :
    (s.shutLatch w c).port q = (s.port q).noted (x.latchOpen = true ∧
      (x.fields.settings.writers.getLsbD q.idx = true ∨ x.fields.settings.watch = some q)) (.latchShut w c) := by
  unfold State.shutLatch
  simp only [h]
  split
  · next opened =>
    rw [State.port_postEach _ (Settings.nodup_latchPorts x.fields.settings)]
    exact PortLink.noted_congr (by simp [opened, Settings.mem_latchPorts]) _ _
  · next shut => simp [PortLink.noted, shut]

/-- Shutting a latch writes port links and windows only. -/
theorem State.shutLatch_shape (s : State) (w : Slot) (c : LatchCause) :
    ∃ ps ws, s.shutLatch w c = { s with ports := ps, windows := ws } := by
  obtain ⟨ps, ws, gs, e⟩ := WindowShape.shutLatch s w c
  have guards := s.guards_shutLatch w c
  rw [e] at guards ⊢
  exact ⟨ps, ws, by rw [← guards]⟩

/-- A notice and a response join a link in either order. -/
theorem PortLink.answered_noted (l : PortLink) (f : Frame) (r : Result) (fields : List Byte) (yes : Prop) [Decidable yes]
    (n : Notice) : { (l.handed f).noted yes n with output := ((l.handed f).noted yes n).output ++ [f.response r fields] } =
      (l.answered f r fields).noted yes n := by
  by_cases hy : yes
  · simp only [PortLink.noted, if_pos hy]
    by_cases room : l.notices.length < 16
    · rw [PortLink.post_of_room (l := l.handed f) room, PortLink.post_of_room (l := l.answered f r fields) room]
      rfl
    · have full := Nat.le_of_not_lt room
      rw [PortLink.post_of_full (l := l.handed f) full, PortLink.post_of_full (l := l.answered f r fields) full]
      rfl
  · simp only [PortLink.noted, if_neg hy]
    rfl

/-! ### MODIFY-WINDOW and UNDEFINE-WINDOW -/

/-- The window of a request is shut and then replaced, and the request is answered OK: what R48 and R50 have in common. -/
def State.replaced (s : State) (p : Port) (f : Frame) (w : Slot) (c : LatchCause) (y : Option Window) : State :=
  (((s.shutLatch w c).setWindow w y).edited).answer p f .ok []

section
variable {s : State} {p : Port} {f : Frame} {w : Slot} {x : Window}

theorem State.port_replaced (h : s.taken p = some f) (hw : s.window w = some x) (c : LatchCause) (y : Option Window)
    (q : Port) : ((s.judging p).replaced p f w c y).port q =
      PortLink.noted (if q = p then (s.port p).answered f .ok [] else s.port q)
        (x.latchOpen = true ∧ (x.fields.settings.writers.getLsbD q.idx = true ∨ x.fields.settings.watch = some q))
        (.latchShut w c) := by
  have shut : ∀ q, ((((s.judging p).shutLatch w c).setWindow w y).edited).port q = _ :=
    State.port_shutLatch (s := s.judging p) hw c
  unfold State.replaced
  rw [State.port_answer, shut, shut, State.port_judging h, State.port_judging h]
  by_cases own : q = p
  · subst own
    simp only [if_true]
    exact PortLink.answered_noted _ _ _ _ _ _
  · simp only [if_neg own]

theorem State.window_replaced (s : State) (p : Port) (f : Frame) (w : Slot) (c : LatchCause) (y : Option Window) :
    (s.replaced p f w c y).window w = y := State.window_setWindow_same (s.shutLatch w c) w y

theorem State.window_replaced_ne (s : State) (p : Port) (f : Frame) {w v : Slot} (h : v ≠ w) (c : LatchCause)
    (y : Option Window) : (s.replaced p f w c y).window v = s.window v := by
  have kept : (s.replaced p f w c y).window v = (s.shutLatch w c).window v := State.window_setWindow_ne _ y h
  rw [kept, State.window_shutLatch, if_neg h]

/-- Besides port links and windows, a replacement is an edit (R55) and no more. -/
theorem State.replaced_frame (s : State) (p : Port) (f : Frame) (w : Slot) (c : LatchCause) (y : Option Window) :
    ((s.judging p).replaced p f w c y).tableState = .unsaved ∧
    ((s.judging p).replaced p f w c y).captureMark = (if s.captureMark = .clean then .edited else s.captureMark) ∧
    { (s.judging p).replaced p f w c y with
      ports := s.ports, windows := s.windows, tableState := s.tableState, captureMark := s.captureMark } = s := by
  obtain ⟨ps, ws, e⟩ := (s.judging p).shutLatch_shape w c
  unfold State.replaced
  rw [e]
  exact ⟨rfl, rfl, rfl⟩

/-- R36: a window is busy while a live job or a hold names it. -/
theorem State.windowBusy_iff (s : State) (w : Slot) :
    s.windowBusy w = true ↔ (∃ j ∈ s.jobs, j.work.slot? = some w) ∨ ∃ h ∈ s.holds, h.slot = w := by
  simp [State.windowBusy, State.liveJobs, State.holdCount, List.length_pos_iff_exists_mem]

theorem State.windowBusy_free (hj : ∀ j ∈ s.jobs, j.work.slot? ≠ some w) (hh : ∀ h ∈ s.holds, h.slot ≠ w) :
    ¬s.windowBusy w = true := by
  rw [State.windowBusy_iff]
  rintro (⟨j, live, named⟩ | ⟨h, live, named⟩)
  · exact hj j live named
  · exact hh h live named

theorem State.modifyCheck_of_empty {body : List Byte} (he : s.editCheck p = none) (h : s.window (slotAt body 0) = none) :
    s.modifyCheck p body = .error .slotEmpty := by
  unfold State.modifyCheck
  simp only [he, h]

theorem State.modifyCheck_of_bad {body : List Byte} (he : s.editCheck p = none) (hw : s.window (slotAt body 0) = some x)
    (h : settingsAt body 1 = none) : s.modifyCheck p body = .error .badField := by
  unfold State.modifyCheck
  simp only [he, hw, h]

/-- For a DEFINED slot and legal settings, the jobs and holds decide. -/
theorem State.modifyCheck_of_settings {body : List Byte} {y : Settings} (he : s.editCheck p = none)
    (hw : s.window (slotAt body 0) = some x) (h : settingsAt body 1 = some y) :
    s.modifyCheck p body = if s.windowBusy (slotAt body 0) = true then .error .busy else .ok (x, y) := by
  unfold State.modifyCheck
  simp only [he, hw, h]

theorem State.modify_of_ok {y : Settings} (h : s.modifyCheck p f.body = .ok (x, y)) :
    s.modify p f = s.replaced p f (slotAt f.body 0) .modify (some (x.modified y)) := by
  unfold State.modify
  rw [h]
  rfl

theorem State.undefineCheck_of_empty (he : s.editCheck p = none) (h : s.window w = none) :
    s.undefineCheck p w = some .slotEmpty := by
  unfold State.undefineCheck
  simp only [he]
  exact if_pos (Option.isNone_iff_eq_none.2 h)

/-- For a DEFINED slot, the jobs and holds decide. -/
theorem State.undefineCheck_of_some (he : s.editCheck p = none) (hw : s.window w = some x) :
    s.undefineCheck p w = if s.windowBusy w = true then some .busy else none := by
  unfold State.undefineCheck
  simp only [he, hw, Option.isNone_some, Bool.false_eq_true, if_false]

theorem State.undefine_of_none (h : s.undefineCheck p (slotAt f.body 0) = none) :
    s.undefine p f = s.replaced p f (slotAt f.body 0) .admin none := by
  unfold State.undefine
  simp only [h]
  rfl

end

/-- Settles O49: `modifyCheck` by its first failure, and the window shut and then replaced. -/
theorem modifyWindowShutsAndReplaces : Obligations.ModifyWindowShutsAndReplaces := by
  intro s p f h admin unlocked
  have right : (s.judging p).editCheck p = none := State.editCheck_none admin unlocked
  refine ⟨fun empty => ?_, fun x hw => ⟨fun bad => ?_, fun y legal => ⟨fun busy => ?_, fun jobs holds => ?_⟩⟩⟩
  · exact State.reports h rfl (State.modify_of_error (State.modifyCheck_of_empty right empty)) rfl
  · exact State.reports h rfl (State.modify_of_error (State.modifyCheck_of_bad right hw bad)) rfl
  · have check := State.modifyCheck_of_settings right hw legal
    rw [if_pos ((State.windowBusy_iff (s.judging p) _).2 busy)] at check
    exact State.reports h rfl (State.modify_of_error check) rfl
  · have check := State.modifyCheck_of_settings right hw legal
    rw [if_neg (State.windowBusy_free (s := s.judging p) jobs holds)] at check
    exact ⟨_, exec_of_asks h rfl (State.modify_of_ok check), State.window_replaced _ _ _ _ _ _,
      fun v other => State.window_replaced_ne _ _ _ other _ _, State.port_replaced h.1 hw _ _,
      State.replaced_frame s p f _ .modify _⟩

/-- Settles O50: `undefineCheck` by its first failure, and the window shut and then taken away. -/
theorem undefineWindowEmptiesTheSlot : Obligations.UndefineWindowEmptiesTheSlot := by
  intro s p f h admin unlocked
  have right : (s.judging p).editCheck p = none := State.editCheck_none admin unlocked
  refine ⟨fun empty => ?_, fun x hw => ⟨fun busy => ?_, fun jobs holds => ?_⟩⟩
  · exact State.reports h rfl (State.undefine_of_some (State.undefineCheck_of_empty right empty)) rfl
  · have check := State.undefineCheck_of_some right hw
    rw [if_pos ((State.windowBusy_iff (s.judging p) _).2 busy)] at check
    exact State.reports h rfl (State.undefine_of_some check) rfl
  · have check := State.undefineCheck_of_some right hw
    rw [if_neg (State.windowBusy_free (s := s.judging p) jobs holds)] at check
    exact ⟨_, exec_of_asks h rfl (State.undefine_of_none check), State.window_replaced _ _ _ _ _ _,
      fun v other => State.window_replaced_ne _ _ _ other _ _, State.port_replaced h.1 hw _ _,
      State.replaced_frame s p f _ .admin _⟩

end Sys2Proof.Machine
end

section
/-! PROOF. Write latches: what shutting latches one after the other does to windows and port links (R64), and the requests
and events of latches and idle timers (R65 to R67, R69, R71, R77). -/

namespace Sys2Proof.Machine

/-- Settles O55: the law of latches and guard inputs is a law of `Keeps`, which every step keeps. -/
theorem everyStepKeepsOpenLatchesUnguarded : Obligations.EveryStepKeepsOpenLatchesUnguarded :=
  fun _ _ lawful h => (Keeps.step h).latches lawful

/-! ### Notices and answers -/

theorem PortLink.post_pushOut (l : PortLink) (x : OutFrame) (n : Notice) : (l.pushOut x).post n = (l.post n).pushOut x := by
  obtain room | full := Nat.lt_or_ge l.notices.length 16
  · rw [PortLink.post_of_room room, PortLink.post_of_room (l := l.pushOut x) room]
    rfl
  · rw [PortLink.post_of_full full, PortLink.post_of_full (l := l.pushOut x) full]
    rfl

theorem PortLink.noted_pushOut (l : PortLink) (x : OutFrame) (yes : Prop) [Decidable yes] (n : Notice) :
    (l.pushOut x).noted yes n = (l.noted yes n).pushOut x := by
  unfold PortLink.noted
  split
  · exact PortLink.post_pushOut l x n
  · rfl

theorem PortLink.foldl_post_pushOut (ns : List Notice) (l : PortLink) (x : OutFrame) :
    ns.foldl PortLink.post (l.pushOut x) = (ns.foldl PortLink.post l).pushOut x :=
  List.foldl_hom (·.pushOut x) (fun m n => (PortLink.post_pushOut m x n))

/-- The port links after a request is answered whose owner has first changed each link `q` by `g q`, where `g` leaves the end
of the output list alone. -/
theorem State.port_answer_after {s u : State} {p : Port} {f : Frame} (h : s.taken p = some f)
    {g : Port → PortLink → PortLink} (comm : ∀ q l x, g q (l.pushOut x) = (g q l).pushOut x)
    (hu : ∀ q, u.port q = g q ((s.judging p).port q)) (r : Result) (fields : List Byte) (q : Port) :
    (u.answer p f r fields).port q = g q (if q = p then (s.port p).answered f r fields else s.port q) := by
  unfold State.answer
  rw [State.port_modPort, hu, hu, State.port_judging h, State.port_judging h]
  by_cases own : q = p
  · subst own
    simp only [if_true]
    exact (comm q _ _).symm
  · simp only [if_neg own]

/-! ### Latches shut one after the other (R64, R67, R77) -/

/-- Whether the shutting of the window's latch posts a notice to the port (R64): an OPEN latch, and a writer or the watch
port. -/
def Window.shutTells (x : Window) (q : Port) : Bool :=
  x.latchOpen && (x.fields.settings.writers.getLsbD q.idx || x.fields.settings.watch == some q)

theorem Window.shutTells_iff (x : Window) (q : Port) : x.shutTells q = true ↔ x.latchOpen = true ∧
    (x.fields.settings.writers.getLsbD q.idx = true ∨ x.fields.settings.watch = some q) := by
  simp [Window.shutTells]

/-- An operation on slots, carried out on one slot of a list after the other, that looks at its own slot's window and may post
one notice: a port gets the notices of the slots that are due in the state at the start, in the order of the list. -/
theorem State.port_foldl {g : State → Slot → State} {due : Window → Port → Bool} {n : Slot → Notice}
    (hp : ∀ u w q, (g u w).port q = (u.port q).noted ((u.window w).elim false (due · q) = true) (n w))
    (hw : ∀ u w v, v ≠ w → (g u w).window v = u.window v) {l : List Slot} (distinct : l.Nodup) (s : State) (q : Port) :
    (l.foldl g s).port q =
      ((l.filter (fun w => (s.window w).elim false (due · q))).map n).foldl PortLink.post (s.port q) := by
  induction l generalizing s with
  | nil => rfl
  | cons w l ih =>
    obtain ⟨fresh, rest⟩ := List.nodup_cons.1 distinct
    have later : l.filter (fun v => ((g s w).window v).elim false (due · q)) =
        l.filter (fun v => (s.window v).elim false (due · q)) :=
      List.filter_congr (fun v hv => by rw [hw s w v (fun e => fresh (e ▸ hv))])
    rw [List.foldl_cons, ih rest, later, hp, List.filter_cons, PortLink.noted]
    split <;> rfl

theorem allSlots_nodup : allSlots.Nodup := by decide

theorem State.shutLatch_frame (s : State) (w : Slot) (c : LatchCause) :
    { s.shutLatch w c with ports := s.ports, windows := s.windows } = s := by
  obtain ⟨ps, ws, e⟩ := s.shutLatch_shape w c
  rw [e]

/-- The notice that the shutting of one latch posts, for every content of the slot. -/
theorem State.port_shutLatch_elim (s : State) (w : Slot) (c : LatchCause) (q : Port) :
    (s.shutLatch w c).port q =
      (s.port q).noted ((s.window w).elim false (Window.shutTells · q) = true) (.latchShut w c) := by
  cases hw : s.window w with
  | none =>
    have unchanged : s.shutLatch w c = s := by simp only [State.shutLatch, hw]
    rw [unchanged]
    rfl
  | some x =>
    rw [State.port_shutLatch hw]
    exact PortLink.noted_congr (x.shutTells_iff q).symm _ _

theorem State.window_shutLatch_ne (s : State) {w v : Slot} (h : v ≠ w) (c : LatchCause) :
    (s.shutLatch w c).window v = s.window v := by rw [State.window_shutLatch, if_neg h]

/-- The LATCH_SHUT notices of the slots whose window is due for a port, in ascending order of slot number. -/
def State.shutNotices (s : State) (due : Window → Port → Bool) (c : LatchCause) (q : Port) : List Notice :=
  (allSlots.filter (fun w => (s.window w).elim false (due · q))).map (Notice.latchShut · c)

/-- The notices are those of the windows, whatever else two states differ in. -/
theorem State.shutNotices_congr {s t : State} (h : ∀ w, t.window w = s.window w) (due : Window → Port → Bool)
    (c : LatchCause) (q : Port) : t.shutNotices due c q = s.shutNotices due c q := by
  simp only [State.shutNotices, h]

theorem State.port_shutEvery (s : State) (c : LatchCause) (q : Port) :
    (s.shutEvery c).port q = (s.shutNotices Window.shutTells c q).foldl PortLink.post (s.port q) :=
  State.port_foldl (fun u w q => u.port_shutLatch_elim w c q) (fun u _ _ h => u.window_shutLatch_ne h c) allSlots_nodup s q

theorem State.window_shutEvery (s : State) (c : LatchCause) (w : Slot) :
    (s.shutEvery c).window w = (s.window w).map Window.shut := State.window_shutAll s c w

/-- Shutting every latch writes port links and windows only. -/
theorem State.shutEvery_shape (s : State) (c : LatchCause) :
    ∃ ps ws, s.shutEvery c = { s with ports := ps, windows := ws } := by
  unfold State.shutEvery
  generalize allSlots = l
  induction l generalizing s with
  | nil => exact ⟨_, _, rfl⟩
  | cons w l ih =>
    obtain ⟨ps, ws, e⟩ := s.shutLatch_shape w c
    obtain ⟨qs, vs, e'⟩ := ih (s.shutLatch w c)
    rw [List.foldl_cons, e', e]
    exact ⟨qs, vs, rfl⟩

/-! ### SHUT-LATCH and SHUT-ALL -/

section
variable {s : State} {p : Port} {f : Frame} {x : Window}

theorem State.shutOnRequest_of_empty (h : s.window (slotAt f.body 0) = none) :
    s.shutOnRequest p f = s.answer p f .noWindow [] := by
  unfold State.shutOnRequest
  simp only [h]

/-- For a DEFINED slot, the ports of R64 decide who may shut its latch (R66). -/
theorem State.shutOnRequest_of_some (h : s.window (slotAt f.body 0) = some x) : s.shutOnRequest p f =
    if x.fields.settings.writers.getLsbD p.idx = true ∨ x.fields.settings.watch = some p
    then (s.shutLatch (slotAt f.body 0) .request).answer p f .ok [] else s.answer p f .notWriter [] := by
  unfold State.shutOnRequest
  simp only [h]
  exact if_congr (by rw [List.contains_iff_mem, Settings.mem_latchPorts]) rfl rfl

theorem State.shutLatch_of_shut {w : Slot} (h : s.window w = some x) (shut : x.latchOpen = false) (c : LatchCause) :
    s.shutLatch w c = s := by
  unfold State.shutLatch
  simp only [h, shut, Bool.false_eq_true, if_false]

theorem State.window_shutLatch_of_open {w : Slot} (h : s.window w = some x) (opened : x.latchOpen = true) (c : LatchCause) :
    (s.shutLatch w c).window w = some { x with latchOpen := false, idle := .stopped } := by
  rw [State.window_shutLatch, if_pos rfl, h]
  exact congrArg some (if_pos opened)

/-- The ports that an OPEN latch's shutting tells. -/
theorem State.port_shutLatch_of_open {w : Slot} (h : s.window w = some x) (opened : x.latchOpen = true) (c : LatchCause)
    (q : Port) : (s.shutLatch w c).port q = (s.port q).noted
      (x.fields.settings.writers.getLsbD q.idx = true ∨ x.fields.settings.watch = some q) (.latchShut w c) := by
  rw [State.port_shutLatch h]
  exact PortLink.noted_congr (and_iff_right opened) _ _

/-- R71: the idle timer of an OPEN latch expires from COUNTING only. -/
theorem State.expireIdle_of_counting {w : Slot} {left : Nat} (h : s.window w = some x) (counts : x.idle = .counting left) :
    s.expireIdle w = s.shutLatch w .idle := by
  unfold State.expireIdle
  simp only [h, counts]

theorem State.expireIdle_of_other {w : Slot} (h : s.window w = some x) (other : ∀ left, x.idle ≠ .counting left) :
    s.expireIdle w = s := by
  unfold State.expireIdle
  cases idle : x.idle with
  | counting left => exact absurd idle (other left)
  | stopped => simp only [h, idle]
  | held => simp only [h, idle]

end

/-- Settles O40: what shutting one latch does, under the checks of R66 and the condition of R71. -/
theorem latchIsShutOnRequestAndOnIdle : Obligations.LatchIsShutOnRequestAndOnIdle := by
  refine ⟨fun s p f h => ⟨fun empty => ?_, fun x hw => ?_⟩, fun s w x hw => ⟨fun left counts opened => ?_, fun other => ?_⟩⟩
  · exact State.reports h rfl (State.shutOnRequest_of_empty (s := s.judging p) empty) rfl
  · have decided := State.shutOnRequest_of_some (s := s.judging p) (p := p) hw
    refine ⟨fun noWriter noWatch => ?_, fun allowed => ⟨fun shut => ?_, fun opened => ?_⟩⟩
    · rw [if_neg (by simp [noWriter, noWatch])] at decided
      exact State.reports h rfl decided rfl
    · rw [if_pos allowed, State.shutLatch_of_shut (s := s.judging p) hw shut] at decided
      exact State.reports h rfl decided rfl
    · rw [if_pos allowed] at decided
      refine ⟨_, exec_of_asks h rfl decided, ?_, fun w other => ?_, fun q => ?_, ?_⟩
      · exact State.window_shutLatch_of_open (s := s.judging p) hw opened .request
      · exact (s.judging p).window_shutLatch_ne other .request
      · exact State.port_answer_after h.1 (g := fun q l => l.noted
            (x.fields.settings.writers.getLsbD q.idx = true ∨ x.fields.settings.watch = some q) _)
          (fun q l y => l.noted_pushOut y _ _) (State.port_shutLatch_of_open (s := s.judging p) hw opened .request) .ok [] q
      · obtain ⟨ps, ws, e⟩ := (s.judging p).shutLatch_shape (slotAt f.body 0) .request
        rw [e]
        rfl
  · exact ⟨_, congrArg Host.Outcome.next (State.expireIdle_of_counting hw counts),
      State.window_shutLatch_of_open hw opened .idle,
      fun v other => s.window_shutLatch_ne other .idle, State.port_shutLatch_of_open hw opened .idle,
      s.shutLatch_frame w .idle⟩
  · exact congrArg Host.Outcome.next (State.expireIdle_of_other hw other)

theorem State.latchIsOpen_eq (s : State) (w : Slot) : s.latchIsOpen (some w) = (s.window w).elim false Window.latchOpen := by
  unfold State.latchIsOpen
  cases hw : s.window w <;> simp only [hw] <;> rfl

theorem State.openCount_eq (s : State) :
    s.openCount = (allSlots.filter (fun w => (s.window w).elim false Window.latchOpen)).length := by
  simp only [State.openCount, State.latchIsOpen_eq]

theorem State.shutAll_of_admin {s : State} {p : Port} (h : s.adminCheck p = none) (f : Frame) :
    s.shutAll p f = (s.shutEvery .admin).answer p f .ok [byteOf s.openCount] := by
  unfold State.shutAll
  rw [h]

/-- Settles O41: every latch shut in turn, and then the answer with the number that were OPEN. -/
theorem shutAllShutsEveryLatch : Obligations.ShutAllShutsEveryLatch := by
  intro s p f h admin
  have right : (s.judging p).adminCheck p = none := State.adminCheck_none admin
  have answer := State.shutAll_of_admin right f
  rw [State.openCount_eq] at answer
  refine ⟨_, exec_of_asks h rfl answer, fun w => ?_, fun q => ?_, ?_⟩
  · exact (State.window_answer _ _ _ _ _ _).trans ((s.judging p).window_shutEvery .admin w)
  · exact State.port_answer_after h.1
      (g := fun q => ((s.judging p).shutNotices Window.shutTells .admin q).foldl PortLink.post)
      (fun q l y => PortLink.foldl_post_pushOut _ l y) ((s.judging p).port_shutEvery .admin) .ok _ q
  · obtain ⟨ps, ws, e⟩ := (s.judging p).shutEvery_shape .admin
    rw [e]
    rfl

/-! ### OPEN-LATCH -/

section
variable {s : State} {p : Port} {f : Frame} {x : Window}

theorem State.openLatch_of_empty (h : s.window (slotAt f.body 0) = none) :
    s.openLatch p f = s.answer p f .noWindow [] := by
  unfold State.openLatch
  simp only [h]

/-- For a DEFINED slot: the writer check and then the guard check of R65. -/
theorem State.openLatch_of_some (h : s.window (slotAt f.body 0) = some x) : s.openLatch p f =
    if x.fields.settings.writers.getLsbD p.idx = false then s.answer p f .notWriter []
    else if s.guardReads x.fields.settings.guard = true then s.answer p f .guarded []
    else (s.setOpen (slotAt f.body 0) x).answer p f .ok [] := by
  unfold State.openLatch
  simp only [h, Bool.not_eq_true', PortSet.has]

end

theorem State.liveJobs_pos_iff (s : State) (w : Slot) : 0 < s.liveJobs w ↔ ∃ j ∈ s.jobs, j.work.slot? = some w := by
  simp [State.liveJobs, List.length_pos_iff_exists_mem]

/-- R65 and R69: the window of a latch that is set OPEN. -/
theorem State.window_setOpen (s : State) (w : Slot) (x : Window) : (s.setOpen w x).window w = some { x with
    latchOpen := true
    idle := if x.fields.settings.idlePeriod = 0 then .stopped
      else if ∃ j ∈ s.jobs, j.work.slot? = some w then .held
      else .counting (x.fields.settings.idlePeriod.toNat * 2880000) } := by
  unfold State.setOpen State.syncIdle
  simp only [State.window_setWindow_same, Window.timer_reload]
  refine congrArg some (congrArg (Window.mk x.fields true) ?_)
  exact if_congr (by simp) rfl (if_congr (State.liveJobs_pos_iff s w) rfl rfl)

theorem State.window_setOpen_ne (s : State) {w v : Slot} (h : v ≠ w) (x : Window) : (s.setOpen w x).window v = s.window v := by
  unfold State.setOpen State.syncIdle
  simp only [State.window_setWindow_same]
  rw [State.window_setWindow_ne _ _ h, State.window_setWindow_ne _ _ h]

theorem State.setOpen_shape (s : State) (w : Slot) (x : Window) : ∃ ws, s.setOpen w x = { s with windows := ws } := by
  obtain ⟨ws, e⟩ := (s.setWindow w (some { x with latchOpen := true })).syncIdle_shape w true
  exact ⟨ws, e⟩

/-- Settles O39: the checks of R65 in their order, and the window of an opened latch. -/
theorem openLatchOpensAndReloads : Obligations.OpenLatchOpensAndReloads := by
  intro s p f h
  refine ⟨fun empty => ?_, fun x hw => ?_⟩
  · exact State.reports h rfl (State.openLatch_of_empty (s := s.judging p) empty) rfl
  have decided := State.openLatch_of_some (s := s.judging p) (p := p) hw
  refine ⟨fun noWriter => ?_, fun writer active => ?_, fun writer inactive => ?_⟩
  · rw [if_pos noWriter] at decided
    exact State.reports h rfl decided rfl
  · have guarded : (s.judging p).guardReads x.fields.settings.guard = true := active
    rw [if_neg (by simp [writer]), if_pos guarded] at decided
    exact State.reports h rfl decided rfl
  · have unguarded : ¬(s.judging p).guardReads x.fields.settings.guard = true := ne_true_of_eq_false inactive
    rw [if_neg (by simp [writer]), if_neg unguarded] at decided
    obtain ⟨ws, e⟩ := (s.judging p).setOpen_shape (slotAt f.body 0) x
    refine ⟨_, exec_of_asks h rfl decided, State.linksAnswer_of_ports h.1 (by rw [e]) _ _, ?_, fun w other => ?_, ?_⟩
    · exact (s.judging p).window_setOpen _ x
    · exact (s.judging p).window_setOpen_ne other x
    · rw [e]
      rfl

end Sys2Proof.Machine
end

section
/-! PROOF. Guard inputs: an input that takes a state (R76, R77, R79), SET-GUARD (R78), and the events of the pin and of the
settle timer (R73 to R75). -/

namespace Sys2Proof.Machine

/-! ### An input takes a state -/

/-- GUARD_CHANGE to the admin port, not before READY (R76, R79). -/
def State.reportGuard (s : State) (g : GuardInput) (active : Bool) : State :=
  if s.phase = .ready then s.post s.adminPort (.guardChange g active) else s

theorem State.port_reportGuard (s : State) (g : GuardInput) (active : Bool) (q : Port) :
    (s.reportGuard g active).port q =
      (s.port q).noted (s.phase = .ready ∧ q = s.adminPort) (.guardChange g active) := by
  unfold State.reportGuard
  by_cases ready : s.phase = .ready
  · rw [if_pos ready, State.port_post]
    by_cases admin : q = s.adminPort
    · simp [PortLink.noted, ready, admin]
    · simp [PortLink.noted, admin]
  · simp [PortLink.noted, ready]

theorem LinkShape.reportGuard (s : State) (g : GuardInput) (active : Bool) : LinkShape s (s.reportGuard g active) := by
  unfold State.reportGuard
  split
  · exact LinkShape.post s _ _
  · exact LinkShape.refl s

section
variable {s : State} {g : GuardInput} {y : InputState}

theorem State.setInput_of_same (same : y.reads = (s.guardPin g).input.reads) :
    s.setInput g y = s.setGuardPin g { s.guardPin g with input := y } := if_pos same

theorem State.setInput_of_fall (now : y.reads = false) (before : (s.guardPin g).input.reads = true) :
    s.setInput g y = (s.setGuardPin g { s.guardPin g with input := y }).reportGuard g false := by
  unfold State.setInput State.reportGuard
  simp only [now, before, Bool.false_eq_true, if_false]

theorem State.setInput_of_rise (now : y.reads = true) (before : (s.guardPin g).input.reads = false) :
    s.setInput g y = ((s.setGuardPin g { s.guardPin g with input := y }).reportGuard g true).shutGuarded g := by
  unfold State.setInput State.reportGuard
  simp only [now, before, Bool.true_eq_false, if_false, if_true]

end

/-- Of the guard inputs, only the one that takes a state changes, whatever that change brings. -/
theorem State.guards_setInput (s : State) (g : GuardInput) (y : InputState) :
    (s.setInput g y).guards = (s.setGuardPin g { s.guardPin g with input := y }).guards := by
  cases now : y.reads <;> cases before : (s.guardPin g).input.reads
  case false.false => rw [State.setInput_of_same (now.trans before.symm)]
  case false.true => rw [State.setInput_of_fall now before, (LinkShape.reportGuard _ _ _).guards_eq]
  case true.false =>
    rw [State.setInput_of_rise now before, State.guards_shutGuarded, (LinkShape.reportGuard _ _ _).guards_eq]
  case true.true => rw [State.setInput_of_same (now.trans before.symm)]

theorem State.setInput_frame (s : State) (g : GuardInput) (y : InputState) :
    { s.setInput g y with ports := s.ports, windows := s.windows, guards := s.guards } = s := by
  obtain ⟨ps, ws, gs, e⟩ := WindowShape.setInput s g y
  rw [e]

/-- Whether the activation of an input posts LATCH_SHUT for the window to the port (R64, R77). -/
def Window.guardTells (g : GuardInput) (x : Window) (q : Port) : Bool :=
  x.latchOpen && x.fields.settings.guard == some g &&
    (x.fields.settings.writers.getLsbD q.idx || x.fields.settings.watch == some q)

theorem State.port_shutGuarded (s : State) (g : GuardInput) (q : Port) : (s.shutGuarded g).port q =
    (s.shutNotices (Window.guardTells g) .guard q).foldl PortLink.post (s.port q) := by
  refine State.port_foldl (due := Window.guardTells g) (fun u w q => ?_) (fun u w v other => ?_) allSlots_nodup s q
  · cases hw : u.window w with
    | none => rfl
    | some x =>
      by_cases named : x.fields.settings.guard = some g
      · simp only [named, if_true]
        rw [State.port_shutLatch_elim, hw]
        exact PortLink.noted_congr (by simp [Window.shutTells, Window.guardTells, named]) _ _
      · simp [named, PortLink.noted, Window.guardTells]
  · split
    · split
      · exact u.window_shutLatch_ne other .guard
      · rfl
    · rfl

/-- A window after the activation of an input that it names or does not name. -/
theorem Window.guarded_eq (g : GuardInput) (x : Window) : x.guarded g =
    if x.fields.settings.guard = some g ∧ x.latchOpen = true then { x with latchOpen := false, idle := .stopped } else x := by
  unfold Window.guarded Window.shut
  rw [ite_and]

/-- Settles O44: the three changes of what is read of an input, each by its own equation of `setInput`. -/
theorem guardActivationShutsItsLatches : Obligations.GuardActivationShutsItsLatches := by
  intro s g y
  have guards := s.guards_setInput g y
  refine ⟨_, rfl, ?_, fun k other => ?_, s.setInput_frame g y, fun same => ?_, fun now before => ?_, fun now before => ?_⟩
  · exact (congrArg (·.get g) guards).trans (State.guardPin_setGuardPin_same s g _)
  · exact (congrArg (·.get k) guards).trans (State.guardPin_setGuardPin_ne s _ other)
  · rw [State.setInput_of_same same]
    exact ⟨rfl, rfl⟩
  · rw [State.setInput_of_fall now before]
    exact ⟨(LinkShape.reportGuard _ g false).windows_eq, State.port_reportGuard _ g false⟩
  · rw [State.setInput_of_rise now before]
    have windows := fun w => (LinkShape.reportGuard (s.setGuardPin g { s.guardPin g with input := y }) g true).window_eq w
    refine ⟨fun w => ?_, fun q => ?_⟩
    · rw [State.window_shutGuarded, windows, funext (Window.guarded_eq g)]
      rfl
    · rw [State.port_shutGuarded, State.port_reportGuard]
      rw [State.shutNotices_congr windows]
      rfl

/-! ### SET-GUARD -/

theorem guardInputAt_of_code {body : List Byte} {i : Nat} {g : GuardInput} (h : byteAt body i = guardInputCode g) :
    guardInputAt body i = g := by
  unfold guardInputAt
  rw [h]
  cases g <;> rfl

theorem Header.guard_setGuard_same (h : Header) (g : GuardInput) (x : GuardSetting) : (h.setGuard g x).guard g = x := by
  cases g <;> rfl

theorem Header.guard_setGuard_ne (h : Header) {g k : GuardInput} (x : GuardSetting) (other : k ≠ g) :
    (h.setGuard g x).guard k = h.guard k := by
  cases g with
  | g0 => cases k with
    | g0 => exact absurd rfl other
    | g1 => rfl
  | g1 => cases k with
    | g0 => rfl
    | g1 => exact absurd rfl other

/-- A setting of a guard input leaves the header's two times alone. -/
theorem Header.times_setGuard (h : Header) (g : GuardInput) (x : GuardSetting) :
    (h.setGuard g x).leasePeriod = h.leasePeriod ∧ (h.setGuard g x).holdLimit = h.holdLimit := by
  cases g <;> exact ⟨rfl, rfl⟩

/-- R73: a level is asserted when it is the active one. -/
theorem assertedLevel_eq (x : GuardSetting) (high : Bool) : assertedLevel x high = (x.activeHigh == high) := by
  unfold assertedLevel
  cases x.activeHigh <;> cases high <;> rfl

theorem State.setGuard_of_edit {s : State} {p : Port} {f : Frame} (h : s.editCheck p = none) :
    s.setGuard p f = ((s.applyGuard (guardInputAt f.body 0) (guardSettingAt f.body)).edited).answer p f .ok [] := by
  unfold State.setGuard
  rw [h]

/-- R78: the input takes the state of its level under the new setting. -/
theorem State.applyGuard_eq (s : State) (g : GuardInput) (x : GuardSetting) : s.applyGuard g x =
    State.setInput { s with header := s.header.setGuard g x } g
      (if x.activeHigh = (s.guardPin g).high then .active else .inactive) := by
  unfold State.applyGuard InputState.ofAsserted
  simp only [assertedLevel_eq, beq_iff_eq]

/-- Settles O45: the header with the new setting, and the input that takes its state at once. -/
theorem setGuardAppliesAtOnce : Obligations.SetGuardAppliesAtOnce := by
  intro s p f g h admin unlocked code
  have right : (s.judging p).editCheck p = none := State.editCheck_none admin unlocked
  have carried := State.setGuard_of_edit (f := f) right
  rw [guardInputAt_of_code code, State.applyGuard_eq] at carried
  obtain ⟨lease, limit⟩ := Header.times_setGuard s.header g (guardSettingAt f.body)
  exact ⟨{ s with header := s.header.setGuard g (guardSettingAt f.body) }, Header.guard_setGuard_same _ _ _,
    fun k other => Header.guard_setGuard_ne _ _ other, lease, limit, rfl, exec_of_asks h rfl carried, fun _ => rfl⟩

/-! ### Pins and settle timers -/

section
variable {s : State} {g : GuardInput} {high : Bool}

/-- No change of the input state: the unit does not follow its pins yet, or the pin has this level already (log 2). -/
theorem State.guardLevel_of_raw (h : s.guardsFollow = false ∨ high = (s.guardPin g).high) :
    s.guardLevel g high = s.setGuardPin g { s.guardPin g with high := high } := by
  refine if_neg fun ⟨follows, changed⟩ => ?_
  obtain apart | same := h
  · exact absurd follows (ne_true_of_eq_false apart)
  · exact changed same

theorem State.guardLevel_of_change (follows : s.guardsFollow = true) (changed : high ≠ (s.guardPin g).high) :
    s.guardLevel g high = (s.setGuardPin g { s.guardPin g with high := high }).setInput g
      (InputState.afterLevel (s.header.guard g).debounce ((s.header.guard g).activeHigh == high) (s.guardPin g).input) := by
  rw [← assertedLevel_eq]
  exact if_pos ⟨follows, changed⟩

end

/-- Settles O46: `afterLevel` at each input state and level, and the two expiries of the settle timer. -/
theorem guardInputFollowsItsPin : Obligations.GuardInputFollowsItsPin := by
  intro s g high
  refine ⟨fun raw => congrArg Host.Outcome.next (State.guardLevel_of_raw raw), fun follows changed => ?_, fun n settling => ?_,
    fun n settling => ?_⟩
  · have level : exec (.guardLevelChange g high) s = _ :=
      congrArg Host.Outcome.next (State.guardLevel_of_change follows changed)
    refine ⟨fun off => ?_, fun on => ⟨fun input asserted => ?_, fun n input asserted => ?_, fun input asserted => ?_,
      fun n input asserted => ?_⟩⟩
    · rw [level, off]
      rfl
    all_goals
      rw [level, on, input, asserted]
      rfl
  · have expired : s.expireSettle g = s.setInput g .active := by simp only [State.expireSettle, settling]
    exact congrArg Host.Outcome.next expired
  · have expired : s.expireSettle g = s.setInput g .inactive := by simp only [State.expireSettle, settling]
    exact congrArg Host.Outcome.next expired

end Sys2Proof.Machine
end

section
/-! PROOF. Holds: what a HOLD trap parks (R86, R87), and what a verdict or the hold limit makes of a parked request (R90 to
R93, R95, R96). -/

namespace Sys2Proof.Machine

/-! ### Parking (R86) -/

/-- R86: under HOLD, a port other than the watch port has its request parked. -/
theorem trapAction_hold {p q : Port} (other : q ≠ p) : trapAction .hold (some q) p = .park q := if_neg other

/-- R42: an address in a window that the port may read, up to the window's end. -/
theorem State.decodeRead_of_reader {s : State} {p : Port} {a n : Nat} {w : Slot} {x : Window} (h : s.windowAt a = some w)
    (hw : s.window w = some x) (reader : x.fields.settings.readers.getLsbD p.idx = true)
    (inside : a + n ≤ x.fields.range.base + 2 ^ x.fields.range.k) : s.decodeRead p a n = .ok w := by
  rw [State.decodeRead_of_window h hw, if_neg (ne_false_of_eq_true reader), if_neg (Nat.not_lt.2 inside)]

section
variable {s : State} {p q : Port} {f : Frame} {w : Slot} {x : Window}

theorem State.judgeRead_of_hold (hd : s.decodeRead p (fieldAt f.body 0 3) (fieldAt f.body 3 2) = .ok w)
    (hw : s.window w = some x) (trap : x.fields.settings.readTrap = .hold) (watch : x.fields.settings.watch = some q)
    (other : q ≠ p) : s.judgeRead p f = s.park p f w q .read (fieldAt f.body 0 3) (fieldAt f.body 3 2) := by
  unfold State.judgeRead
  simp only [hd, hw, trap, watch, trapAction_hold other]

theorem State.judgeWrite_of_hold {req : WriteReq} (ha : s.acceptCheck p req = .ok (w, x))
    (trap : x.fields.settings.writeTrap = .hold) (watch : x.fields.settings.watch = some q) (other : q ≠ p) :
    s.judgeWrite p f req = s.park p f w q req.access (req.address x) (s.writeLength req x) := by
  unfold State.judgeWrite
  simp only [ha, trap, watch, trapAction_hold other]

/-- The port links after a request is parked: the requester's engine is HELD, and the watch port has the TRAP notice. -/
theorem State.port_park (other : q ≠ p) (kind : AccessKind) (a n : Nat) (r : Port) :
    (s.park p f w q kind a n).port r =
      if r = p then { s.port p with engine := .held }
      else if r = q then (s.port q).post (.trap w p kind a n s.newHoldId) else s.port r := by
  unfold State.park
  rw [State.port_modPort, State.port_post, State.port_post, if_neg other.symm]
  rfl

end

/-- Settles O22: both kinds of request end in `park`, whose fields are read off. -/
theorem holdTrapParksTheRequest : Obligations.HoldTrapParksTheRequest := by
  intro s c p q f w x kind a n hw watch other request
  have parked : s.taken p = some f ∧ exec c s = .next ((s.judging p).park p f w q kind a n) := by
    obtain ⟨rfl, asks, rfl, rfl, rfl, ha, reader, inside, trap⟩ | ⟨req, asks, accepted, rfl, rfl, rfl, trap⟩ := request
    · have decoded := State.decodeRead_of_reader (s := s.judging p) ha hw reader inside
      exact ⟨asks.1, exec_of_asks asks rfl (State.judgeRead_of_hold decoded hw trap watch other)⟩
    · obtain ⟨k, owner, asks, row, judge⟩ := asks.row
      have accepted : (s.judging p).acceptCheck p req = .ok (w, x) := s.acceptCheck_judging p req ▸ accepted
      exact ⟨asks.1, exec_of_asks asks row ((judge _).trans (State.judgeWrite_of_hold accepted trap watch other))⟩
  obtain ⟨taken, row⟩ := parked
  have links := State.port_park (s := s.judging p) (f := f) (w := w) other kind a n
  refine ⟨_, s.newHoldId, row, State.newHoldId_firstFree, rfl, rfl, ?_, ?_, fun r hp hq => ?_, rfl⟩
  · rw [links, if_pos rfl, State.port_judging taken, if_pos rfl]
  · rw [links, if_neg other, if_pos rfl, State.port_judging taken, if_neg other]
    rfl
  · rw [links, if_neg hp, if_neg hq, State.port_judging taken, if_neg hp]

/-! ### The hold leaves the table (R91) -/

/-- R91: the hold leaves the table, and its request is in progress again, before it is answered or checked again. -/
def State.unhold (s : State) (h : Hold) : State := (s.removeHold h).modPort h.requester (PortLink.unhold h.request)

theorem State.port_unhold (s : State) (h : Hold) (q : Port) : (s.unhold h).port q =
    if q = h.requester then { (s.port h.requester).handed h.request with engine := .working } else s.port q :=
  State.port_modPort (s.removeHold h) h.requester q _

theorem State.resolveHold_deny (s : State) (h : Hold) :
    s.resolveHold h .deny = (s.unhold h).answer h.requester h.request .denied [] := rfl

theorem State.resolveHold_allow (s : State) (h : Hold) : s.resolveHold h .allow = (s.unhold h).recheck h := rfl

/-- R91: under DENY only the requester's link changes: its request is answered DENIED. -/
theorem State.port_resolveHold_deny (s : State) (h : Hold) (q : Port) : (s.resolveHold h .deny).port q =
    if q = h.requester then { (s.port h.requester).answered h.request .denied [] with engine := .working }
    else s.port q := by
  rw [State.resolveHold_deny, State.port_answer, State.port_unhold, if_pos rfl, State.port_unhold]
  split <;> rfl

/-! ### Verdicts and hold limits (R90, R93) -/

theorem State.findHold_none {s : State} {id : Byte} (h : ∀ k ∈ s.holds, k.id ≠ id) : s.findHold id = none :=
  List.find?_eq_none.2 fun k hk => by simpa using h k hk

section
variable {s : State} {p : Port} {f : Frame} {h : Hold}

theorem State.giveVerdict_of_none (unknown : s.findHold (byteAt f.body 0) = none) :
    s.giveVerdict p f = s.answer p f .noSuchHold [] := by
  unfold State.giveVerdict
  rw [unknown]

theorem State.giveVerdict_of_other (found : s.findHold (byteAt f.body 0) = some h) (other : h.watch ≠ p) :
    s.giveVerdict p f = s.answer p f .notWatcher [] := by
  unfold State.giveVerdict
  simp only [found, if_neg other]

theorem State.giveVerdict_of_watcher (found : s.findHold (byteAt f.body 0) = some h) (watcher : h.watch = p) :
    s.giveVerdict p f = (s.resolveHold h (verdictAt f.body 1)).answer p f .ok [] := by
  unfold State.giveVerdict
  simp only [found, if_pos watcher]

theorem verdictAt_allow {body : List Byte} {i : Nat} (code : byteAt body i = 0x01) : verdictAt body i = .allow := if_pos code

theorem verdictAt_deny {body : List Byte} {i : Nat} (code : byteAt body i = 0x02) : verdictAt body i = .deny := by
  unfold verdictAt
  rw [code]
  rfl

theorem State.expireHold_of_none {id : Byte} (unknown : s.findHold id = none) : s.expireHold id = s := by
  unfold State.expireHold
  rw [unknown]

/-- R93: the default is that of the hold's window as it stands. -/
theorem State.expireHold_of_some {id : Byte} {x : Window} (found : s.findHold id = some h) (hw : s.window h.slot = some x) :
    s.expireHold id = (s.post h.watch (.holdTimeout h.id h.slot h.requester x.fields.settings.holdDefault)).resolveHold h
      x.fields.settings.holdDefault := by
  unfold State.expireHold State.holdDefault
  simp only [found, hw]

end

/-- Settles O42: each check of VERDICT and the timeout by its own equation of `giveVerdict` or `expireHold`, and the links
after a denial by `port_resolveHold_deny`. -/
theorem verdictOrTimeoutResolvesTheHold : Obligations.VerdictOrTimeoutResolvesTheHold := by
  refine ⟨fun s p f asks => ⟨fun unknown => ?_, fun h found => ⟨fun other => ?_, fun watcher deny apart => ?_,
    fun watcher allow => ?_⟩⟩, fun s id => ⟨fun unknown => ?_, fun h x found hw => ⟨fun deny apart => ?_, fun allow => ?_⟩⟩⟩
  · exact State.reports asks rfl (State.giveVerdict_of_none (s := s.judging p) (State.findHold_none unknown)) rfl
  · exact State.reports asks rfl (State.giveVerdict_of_other (s := s.judging p) found other) rfl
  · have given := State.giveVerdict_of_watcher (s := s.judging p) found watcher
    rw [verdictAt_deny deny] at given
    refine ⟨_, exec_of_asks asks rfl given, rfl, ?_, ?_, fun q own requester => ?_, rfl⟩
    · rw [State.port_answer, if_pos rfl, State.port_resolveHold_deny, if_neg apart.symm, State.port_judging asks.1, if_pos rfl]
      rfl
    · rw [State.port_answer, if_neg apart, State.port_resolveHold_deny, if_pos rfl, State.port_judging asks.1, if_neg apart]
    · rw [State.port_answer, if_neg own, State.port_resolveHold_deny, if_neg requester, State.port_judging asks.1, if_neg own]
  · have given := State.giveVerdict_of_watcher (s := s.judging p) found watcher
    rw [verdictAt_allow allow] at given
    exact exec_of_asks asks rfl given
  · exact congrArg Host.Outcome.next (State.expireHold_of_none (State.findHold_none unknown))
  · have expired := State.expireHold_of_some found hw
    rw [deny] at expired
    refine ⟨_, congrArg Host.Outcome.next expired, rfl, ?_, ?_, fun q watch requester => ?_, rfl⟩
    · rw [State.port_resolveHold_deny, if_neg apart.symm, State.port_post, if_pos rfl]
    · rw [State.port_resolveHold_deny, if_pos rfl, State.port_post, if_neg apart]
    · rw [State.port_resolveHold_deny, if_neg requester, State.port_post, if_neg watch]
  · have expired := State.expireHold_of_some found hw
    rw [allow] at expired
    exact congrArg Host.Outcome.next expired

/-! ### The recheck of an allowed request (R95, R96) -/

section
variable {s : State} {h : Hold} {w : Slot} {x : Window} {r : Result} {req : WriteReq}

theorem State.recheck_of_decoded (kind : h.kind = .read)
    (hd : s.decodeRead h.requester (fieldAt h.request.body 0 3) (fieldAt h.request.body 3 2) = .ok w)
    (hw : s.window w = some x) : s.recheck h = s.acceptRead h.requester h.request.tag (fieldAt h.request.body 0 3)
      (fieldAt h.request.body 3 2) w x false := by
  unfold State.recheck
  simp only [kind, writeReqOf, hd, hw]

theorem State.recheck_of_undecoded (kind : h.kind = .read)
    (hd : s.decodeRead h.requester (fieldAt h.request.body 0 3) (fieldAt h.request.body 3 2) = .error r) :
    s.recheck h = s.answer h.requester h.request r [] := by
  unfold State.recheck
  simp only [kind, writeReqOf, hd]

theorem State.recheck_of_refused (write : writeReqOf h.kind h.request.body = some req)
    (ha : s.acceptCheck h.requester req = .error r) : s.recheck h = s.answer h.requester h.request r [] := by
  unfold State.recheck
  simp only [write, ha]

theorem State.recheck_of_accepted (write : writeReqOf h.kind h.request.body = some req)
    (ha : s.acceptCheck h.requester req = .ok (w, x)) :
    s.recheck h = s.acceptWrite h.requester h.request w x req false := by
  unfold State.recheck
  simp only [write, ha]

end

/-- Settles O43: an allowed request is rechecked in the state that `unhold` leaves, READ and write-side requests each by the
outcome of their checks. -/
theorem allowedRequestIsCheckedAgain : Obligations.AllowedRequestIsCheckedAgain := by
  intro s h
  refine ⟨s.unhold h, rfl, ?_, fun q other => ?_, rfl, fun w x kind hd hw => ?_, fun r kind hd => ?_, fun req fields => ?_⟩
  · rw [State.port_unhold, if_pos rfl]
  · rw [State.port_unhold, if_neg other]
  · rw [State.resolveHold_allow, State.recheck_of_decoded kind hd hw]
  · rw [State.resolveHold_allow, State.recheck_of_undecoded kind hd]
  · have write : writeReqOf h.kind h.request.body = some req := by
      obtain ⟨kind, rfl⟩ | ⟨kind, rfl⟩ | ⟨kind, rfl⟩ := fields <;> simp only [kind, writeReqOf]
    refine ⟨fun r refused => ?_, fun w x accepted => ?_⟩
    · rw [State.resolveHold_allow, State.recheck_of_refused write refused]
    · rw [State.resolveHold_allow, State.recheck_of_accepted write accepted]

end Sys2Proof.Machine
end

section
/-! PROOF. The staging buffers: CLAIM-BUFFER, FILL, RELEASE-BUFFER and the end of a lease (R102 to R106). -/

namespace Sys2Proof.Machine

/-! ### CLAIM-BUFFER (R102) -/

section
variable {s : State} {p : Port} {f : Frame}

theorem State.claim_of_limit (full : 2 ≤ s.buffersOwned p) : s.claim p f = s.answer p f .bufferLimit [] := if_pos full

theorem State.claim_of_none (room : s.buffersOwned p < 2) (taken : s.lowestFree = none) :
    s.claim p f = s.answer p f .noBuffer [] := by
  unfold State.claim
  exact (if_neg (Nat.not_le.2 room)).trans (by rw [taken])

theorem State.claim_of_some {b : BufferNo} (room : s.buffersOwned p < 2) (lowest : s.lowestFree = some b) :
    s.claim p f = (s.setBuffer b { state := .filling p 0 s.leaseTime, data := [] }).answer p f .ok [byteOf b.val] := by
  unfold State.claim
  exact (if_neg (Nat.not_le.2 room)).trans (by rw [lowest])

end

theorem State.lowestFree_none {s : State} (h : ∀ b, (s.buffer b).state ≠ .free) : s.lowestFree = none :=
  List.find?_eq_none.2 fun b _ e => h b (beq_iff_eq.1 e)

/-- The buffers stand in `allBuffers` in the order of their numbers, so that the first FREE one has the lowest number. -/
theorem State.lowestFree_some {s : State} {b : BufferNo} (free : (s.buffer b).state = .free)
    (lower : ∀ c, c < b → (s.buffer c).state ≠ .free) : s.lowestFree = some b := by
  have place : ∀ c : BufferNo, allBuffers[c.val]'c.isLt = c := by decide
  refine List.find?_eq_some_iff_getElem.2 ⟨beq_iff_eq.2 free, b.val, b.isLt, place b, fun i before => ?_⟩
  have : (s.buffer ⟨i, before.trans b.isLt⟩).state ≠ .free := lower _ before
  rw [← place ⟨i, before.trans b.isLt⟩] at this
  simp only [Bool.not_eq_true', beq_eq_false_iff_ne]
  exact this

/-- Settles O52: the three outcomes of `claim`, and the first FREE buffer of the list as the one with the lowest number. -/
theorem claimTakesTheLowestFreeBuffer : Obligations.ClaimTakesTheLowestFreeBuffer := by
  intro s p f asks
  refine ⟨fun full => ?_, fun room taken => ?_, fun b room free lower => ?_⟩
  · exact State.reports asks rfl (State.claim_of_limit (s := s.judging p) full) rfl
  · exact State.reports asks rfl (State.claim_of_none (s := s.judging p) room (State.lowestFree_none taken)) rfl
  · have claimed := State.claim_of_some (s := s.judging p) (f := f) room (State.lowestFree_some free lower)
    refine ⟨_, exec_of_asks asks rfl claimed, State.linksAnswer_of_ports asks.1 rfl _ _, ?_, fun i => ?_,
      fun c other => ?_, rfl⟩
    · exact congrArg Buffer.state (State.buffer_setBuffer_same (s.judging p) b _)
    · exact congrArg (fun x : Buffer => Memory.read x.data i) (State.buffer_setBuffer_same (s.judging p) b _)
    · exact State.buffer_setBuffer_ne (s.judging p) _ other

/-! ### FILL (R103) -/

theorem State.fillingFor_false {s : State} {b : BufferNo} {p : Port} (h : ∀ e l, (s.buffer b).state ≠ .filling p e l) :
    s.fillingFor b p = false := by
  unfold State.fillingFor
  split
  · next o e l filling => exact beq_eq_false_iff_ne.2 fun own => h e l (own ▸ filling)
  · rfl

theorem State.fillingFor_true {s : State} {b : BufferNo} {p : Port} {e l : Nat} (h : (s.buffer b).state = .filling p e l) :
    s.fillingFor b p = true := by
  unfold State.fillingFor
  rw [h]
  exact beq_self_eq_true p

section
variable {s : State} {p : Port} {f : Frame} {e l : Nat}

theorem State.fill_of_other (other : s.fillingFor (bufferAt f.body 0) p = false) :
    s.fill p f = s.answer p f .notOwner [] := by
  unfold State.fill
  simp only [other]
  rfl

theorem State.fill_of_over (own : s.fillingFor (bufferAt f.body 0) p = true)
    (long : 256 < (byteAt f.body 1).toNat + (f.body.drop 2).length) : s.fill p f = s.answer p f .range [] := by
  unfold State.fill
  simp only [own]
  exact if_pos long

theorem State.fill_of_filling (filling : (s.buffer (bufferAt f.body 0)).state = .filling p e l)
    (fits : (byteAt f.body 1).toNat + (f.body.drop 2).length ≤ 256) :
    s.fill p f = (s.setBuffer (bufferAt f.body 0)
      { state := .filling p (max e ((byteAt f.body 1).toNat + (f.body.drop 2).length)) s.leaseTime
        data := Memory.writeRange (s.buffer (bufferAt f.body 0)).data (byteAt f.body 1).toNat (f.body.drop 2) }).answer p f
          .ok (be2 (max e ((byteAt f.body 1).toNat + (f.body.drop 2).length))) := by
  unfold State.fill
  simp only [State.fillingFor_true filling, filling]
  exact if_neg (Nat.not_lt.2 fits)

end

/-- Settles O53: the three outcomes of `fill`, and what each byte of the buffer reads after the bytes are written. -/
theorem fillWritesAndReloadsTheLease : Obligations.FillWritesAndReloadsTheLease := by
  intro s p f asks
  refine ⟨fun other => ?_, fun e l filling => ⟨fun long => ?_, fun fits wf => ?_⟩⟩
  · exact State.reports asks rfl (State.fill_of_other (s := s.judging p) (State.fillingFor_false other)) rfl
  · exact State.reports asks rfl (State.fill_of_over (s := s.judging p) (State.fillingFor_true filling) long) rfl
  · have filled := State.fill_of_filling (s := s.judging p) filling fits
    have same := State.buffer_setBuffer_same (s.judging p) (bufferAt f.body 0)
    refine ⟨_, exec_of_asks asks rfl filled, State.linksAnswer_of_ports asks.1 rfl _ _, congrArg Buffer.state (same _),
      fun j inside => ?_, fun i outside => ?_, fun c other => State.buffer_setBuffer_ne (s.judging p) _ other, rfl⟩
    · refine (congrArg (fun x : Buffer => Memory.read x.data _) (same _)).trans ?_
      refine (Memory.read_writeRange wf _ _ _).trans ?_
      rw [if_pos ⟨Nat.le_add_right _ _, Nat.add_lt_add_left inside _⟩, Nat.add_sub_cancel_left]
    · refine (congrArg (fun x : Buffer => Memory.read x.data _) (same _)).trans ?_
      refine (Memory.read_writeRange wf _ _ _).trans (if_neg ?_)
      omega

/-! ### RELEASE-BUFFER and the end of a lease (R104, R106) -/

section
variable {s : State} {p o : Port} {f : Frame} {b : BufferNo} {e l : Nat}

theorem State.releaseBuffer_of_bound {i : Byte} (bound : (s.buffer (bufferAt f.body 0)).state = .bound o e i) :
    s.releaseBuffer p f = s.answer p f .bound [] := by
  unfold State.releaseBuffer
  simp only [bound]

theorem State.releaseBuffer_of_free (free : (s.buffer (bufferAt f.body 0)).state = .free) :
    s.releaseBuffer p f = s.answer p f .notOwner [] := by
  unfold State.releaseBuffer
  simp only [free]

theorem State.releaseBuffer_of_filling (filling : (s.buffer (bufferAt f.body 0)).state = .filling o e l) :
    s.releaseBuffer p f =
      if o = p then (s.freeBuffer (bufferAt f.body 0)).answer p f .ok [] else s.answer p f .notOwner [] := by
  unfold State.releaseBuffer
  simp only [filling]

theorem State.expireLease_of_filling (filling : (s.buffer b).state = .filling p e l) :
    s.expireLease b = (s.freeBuffer b).post p (.bufferExpired b) := by
  unfold State.expireLease
  rw [filling]

theorem State.expireLease_of_other (other : ∀ p e l, (s.buffer b).state ≠ .filling p e l) : s.expireLease b = s := by
  unfold State.expireLease
  split
  · next p e l filling => exact absurd filling (other p e l)
  · rfl

end

/-- Settles O54: `releaseBuffer` by the state of the buffer, and the two outcomes of `expireLease`. -/
theorem releaseAndLeaseExpiryFreeTheBuffer : Obligations.ReleaseAndLeaseExpiryFreeTheBuffer := by
  refine ⟨fun s p f asks => ⟨?_, ?_, ?_⟩, fun s b => ⟨fun p e l filling => ?_, fun other => ?_⟩⟩
  · rintro ⟨o, e, i, bound⟩
    exact State.reports asks rfl (State.releaseBuffer_of_bound (s := s.judging p) bound) rfl
  · rintro ⟨e, l, filling⟩
    have released := (State.releaseBuffer_of_filling (s := s.judging p) (p := p) filling).trans (if_pos rfl)
    exact ⟨_, exec_of_asks asks rfl released, State.linksAnswer_of_ports asks.1 rfl _ _,
      State.buffer_setBuffer_same (s.judging p) _ _, fun c other => State.buffer_setBuffer_ne (s.judging p) _ other, rfl⟩
  · rintro (free | ⟨o, e, l, other, filling⟩)
    · exact State.reports asks rfl (State.releaseBuffer_of_free (s := s.judging p) free) rfl
    · have refused := (State.releaseBuffer_of_filling (s := s.judging p) (p := p) filling).trans (if_neg other)
      exact State.reports asks rfl refused rfl
  · exact ⟨_, congrArg Host.Outcome.next (State.expireLease_of_filling filling), State.buffer_setBuffer_same s b _,
      fun c other => State.buffer_setBuffer_ne s _ other, rfl, rfl⟩
  · exact congrArg Host.Outcome.next (State.expireLease_of_other other)

end Sys2Proof.Machine
end

section
/-! PROOF. Memory, staging buffers and the job list: what every step keeps of them (R102, R114, R115). Memory, buffers and the
number of jobs are laws of `Keeps`; what stands here is the law of job ids. -/

namespace Sys2Proof.Machine

/-! ### The ids of the live jobs (R115) -/

/-- `t` has no two live jobs with one id if `s` has none. It rests on the two job lists alone, so that a change of anything else,
before or after, is the same statement. -/
def IdsKept (s t : State) : Prop := s.JobIdsDistinct → t.JobIdsDistinct

theorem IdsKept.refl (s : State) : IdsKept s s := id

theorem IdsKept.trans {s t u : State} (a : IdsKept s t) (b : IdsKept t u) : IdsKept s u := b ∘ a

theorem IdsKept.of_jobs {s t : State} (h : t.jobs = s.jobs) : IdsKept s t := fun d => by
  unfold State.JobIdsDistinct
  rw [h]
  exact d

/-- What follows leaves the job list alone. -/
theorem IdsKept.sameJobs {s t u : State} (a : IdsKept s t) (h : u.jobs = t.jobs) : IdsKept s u := a.trans (IdsKept.of_jobs h)

/-- Job records change, and their ids do not. -/
theorem IdsKept.of_map {s t : State} {g : Job → Job} (h : t.jobs = s.jobs.map g) (hg : ∀ j, (g j).id = j.id) :
    IdsKept s t := fun d => by
  have ids : t.jobs.map Job.id = s.jobs.map Job.id := by
    rw [h, List.map_map]
    exact List.map_congr_left fun j _ => hg j
  unfold State.JobIdsDistinct
  rw [ids]
  exact d

/-- Jobs leave the job list. -/
theorem IdsKept.of_filter {s t : State} {g : Job → Bool} (h : t.jobs = s.jobs.filter g) : IdsKept s t := fun d => by
  unfold State.JobIdsDistinct
  rw [h]
  exact d.sublist (List.filter_sublist.map Job.id)

/-- R115: a job joins the list under the first id that no live job has, and there is one while fewer than 16 are live. -/
theorem IdsKept.addJob {s : State} (room : s.jobs.length < 16) (p : Port) (w : JobWork) : IdsKept s (s.addJob p w) := by
  intro d
  have fresh : s.newJobId ∉ s.jobs.map Job.id := (State.newJobId_firstFree (by omega)).1
  show ((s.jobs ++ [Job.fresh s.newJobId p w]).map Job.id).Nodup
  rw [List.map_append]
  exact List.nodup_append_comm.1 (List.nodup_cons.2 ⟨fresh, d⟩)

theorem WindowShape.ids {s t : State} (a : WindowShape s t) : IdsKept s t := IdsKept.of_jobs a.ports_only.2.2.1

theorem LinkShape.ids {s t : State} (a : LinkShape s t) : IdsKept s t := a.window.ids

/-- A link is changed, whatever went before. -/
theorem IdsKept.modPort {s t : State} (a : IdsKept s t) (p : Port) (g : PortLink → PortLink) : IdsKept s (t.modPort p g) :=
  a.sameJobs rfl

/-- A request is answered, whatever went before. -/
theorem IdsKept.answer {s t : State} (a : IdsKept s t) (p : Port) (f : Frame) (r : Result) (l : List Byte) :
    IdsKept s (t.answer p f r l) := a.sameJobs rfl

/-- An offer is formed anew, whatever went before. -/
theorem IdsKept.formOffer {s t : State} (a : IdsKept s t) : IdsKept s t.formOffer := a.sameJobs rfl

/-- A window is set, whatever went before. -/
theorem IdsKept.setWindow {s t : State} (a : IdsKept s t) (w : Slot) (x : Option Window) : IdsKept s (t.setWindow w x) :=
  a.sameJobs rfl

/-- The table is edited, whatever went before. -/
theorem IdsKept.edited {s t : State} (a : IdsKept s t) : IdsKept s t.edited := a.sameJobs rfl

theorem IdsKept.foldl {α : Type} {g : State → α → State} (h : ∀ u a, IdsKept u (g u a)) (l : List α) (s : State) :
    IdsKept s (l.foldl g s) := by
  induction l generalizing s with
  | nil => exact IdsKept.refl s
  | cons a l ih => exact (h s a).trans (ih _)

theorem IdsKept.onRequest (s : State) (k : ReqType) (p : Port) {owner : Frame → State → State}
    (h : ∀ f u, IdsKept u (owner f u)) : IdsKept s (s.onRequest k p owner) := by
  unfold State.onRequest
  split
  · exact IdsKept.refl s
  · split
    · split
      · exact IdsKept.of_jobs rfl
      · exact (LinkShape.modPort s p _).ids.trans (h _ _)
    · exact IdsKept.refl s

/-! #### Jobs and the sequencer -/

theorem IdsKept.syncIdle (s : State) (w : Slot) (reload : Bool) : IdsKept s (s.syncIdle w reload) := by
  obtain ⟨_, e⟩ := s.syncIdle_shape w reload
  rw [e]
  exact IdsKept.of_jobs rfl

theorem IdsKept.endJob (s : State) (j : Job) (st : EndStatus) (r : EndReason) (d : Nat) (notify : Bool) :
    IdsKept s (s.endJob j st r d notify) := IdsKept.of_filter (s.endJob_spec j st r d notify).1

theorem IdsKept.modJob (s : State) (i : Byte) {g : Job → Job} (hg : ∀ j, (g j).id = j.id) :
    IdsKept s (s.modJob i g) := by
  refine IdsKept.of_map rfl fun j => ?_
  split
  · exact hg j
  · rfl

theorem IdsKept.beginStep (s : State) (j : Job) (st : ArrayStep) (m : Marker) : IdsKept s (s.beginStep j st m) :=
  (IdsKept.modJob s j.id (g := fun k => { k with state := .active }) fun _ => rfl).sameJobs rfl

theorem IdsKept.startStep (s : State) (j : Job) : IdsKept s (s.startStep j) := by
  unfold State.startStep
  split
  case h_4 => exact IdsKept.beginStep { s with captureMark := .clean } j _ _
  all_goals exact IdsKept.beginStep s j _ _

theorem IdsKept.grantOffer (s : State) : IdsKept s s.grantOffer := by
  unfold State.grantOffer
  split
  · exact IdsKept.refl s
  · split
    · exact IdsKept.of_jobs rfl
    · split
      · exact IdsKept.endJob _ _ _ _ _ _
      · exact IdsKept.startStep s _
  · split
    · exact IdsKept.of_jobs rfl
    · split
      · exact IdsKept.endJob _ _ _ _ _ _
      · exact IdsKept.startStep s _

theorem IdsKept.grantRead (s : State) (p : Port) : IdsKept s (s.grantRead p) := by
  unfold State.grantRead
  split
  · exact IdsKept.refl s
  · split <;> exact IdsKept.of_jobs rfl

theorem IdsKept.resumeStep (s : State) : IdsKept s s.resumeStep := by
  refine IdsKept.of_map rfl fun j => ?_
  split <;> rfl

theorem IdsKept.decideN (n : Nat) (s : State) : IdsKept s (State.decideN n s) := by
  induction n generalizing s with
  | zero => exact IdsKept.refl s
  | succ n ih =>
    unfold State.decideN
    split
    · split
      · exact (IdsKept.grantRead s _).trans (ih _)
      · exact IdsKept.resumeStep s
      · exact (IdsKept.grantOffer s).trans (ih _)
      · exact IdsKept.refl s
    · exact IdsKept.refl s

theorem IdsKept.arbitrate {s t : State} (a : IdsKept s t) : IdsKept s t.arbitrate := a.trans (IdsKept.decideN _ t)

theorem IdsKept.requestSuspend (s : State) : IdsKept s s.requestSuspend := by
  unfold State.requestSuspend
  split <;> exact IdsKept.of_jobs rfl

/-! #### Requests and holds -/

theorem IdsKept.acceptRead (s : State) (p : Port) (tag : Byte) (a n : Nat) (w : Slot) (x : Window) (note : Bool) :
    IdsKept s (s.acceptRead p tag a n w x note) := by
  have reload : ∀ u : State, IdsKept u (u.reloadForRead w x) := fun u => by
    unfold State.reloadForRead
    split
    · exact IdsKept.syncIdle u w true
    · exact IdsKept.refl u
  have consider : ∀ u : State, IdsKept u u.considerReads := fun u => by
    unfold State.considerReads
    split
    · exact (IdsKept.refl u).arbitrate
    · exact IdsKept.requestSuspend u
  have pending : IdsKept s (s.addPending p { tag := tag, address := a, length := n, slot := w }) := IdsKept.of_jobs rfl
  exact ((pending.trans (reload _)).trans (LinkShape.noteTrap _ _ _ _).ids).trans (consider _)

theorem IdsKept.park (s : State) (p : Port) (f : Frame) (w : Slot) (q : Port) (k : AccessKind) (a n : Nat) :
    IdsKept s (s.park p f w q k a n) := IdsKept.of_jobs rfl

theorem IdsKept.judgeRead (s : State) (p : Port) (f : Frame) : IdsKept s (s.judgeRead p f) := by
  unfold State.judgeRead
  dsimp only
  split
  · exact IdsKept.of_jobs rfl
  · split
    · exact IdsKept.of_jobs rfl
    · split
      · exact IdsKept.acceptRead _ _ _ _ _ _ _ _
      · exact IdsKept.acceptRead _ _ _ _ _ _ _ _
      · exact IdsKept.park _ _ _ _ _ _ _ _

theorem IdsKept.bindBuffer (s : State) (p : Port) (req : WriteReq) (i : Byte) : IdsKept s (s.bindBuffer p req i) := by
  unfold State.bindBuffer
  split <;> exact IdsKept.of_jobs rfl

theorem IdsKept.acceptWrite {s : State} {p : Port} {req : WriteReq} {w : Slot} {x : Window}
    (accepted : s.acceptCheck p req = .ok (w, x)) (f : Frame) (note : Bool) :
    IdsKept s (s.acceptWrite p f w x req note) := by
  obtain ⟨_, _, _, _, room⟩ := State.writeChecks_none (State.acceptCheck_ok accepted).2
  have noted := (((IdsKept.addJob room p (s.workOf w x req)).trans (IdsKept.bindBuffer _ p req s.newJobId)).trans
    (IdsKept.syncIdle _ w true)).trans (LinkShape.noteTrap _ note x
      (.trap w p req.access (req.address x) (s.writeLength req x) 0)).ids
  exact (noted.answer p f .accepted [s.newJobId]).formOffer.arbitrate

theorem IdsKept.judgeWrite (s : State) (p : Port) (f : Frame) (req : WriteReq) : IdsKept s (s.judgeWrite p f req) := by
  unfold State.judgeWrite
  split
  · exact IdsKept.of_jobs rfl
  · next accepted =>
    split
    · exact IdsKept.acceptWrite accepted f false
    · exact IdsKept.acceptWrite accepted f true
    · exact IdsKept.park _ _ _ _ _ _ _ _

theorem IdsKept.recheck (s : State) (h : Hold) : IdsKept s (s.recheck h) := by
  unfold State.recheck
  split
  · dsimp only
    split
    · exact IdsKept.of_jobs rfl
    · split
      · exact IdsKept.of_jobs rfl
      · exact IdsKept.acceptRead _ _ _ _ _ _ _ _
  · split
    · exact IdsKept.of_jobs rfl
    · next accepted => exact IdsKept.acceptWrite accepted h.request false

theorem IdsKept.resolveHold (s : State) (h : Hold) (v : Verdict) : IdsKept s (s.resolveHold h v) := by
  cases v with
  | deny => exact IdsKept.of_jobs rfl
  | allow => exact IdsKept.recheck (s.unhold h) h

/-! #### The owners of requests -/

theorem IdsKept.claim (s : State) (p : Port) (f : Frame) : IdsKept s (s.claim p f) := by
  unfold State.claim
  split
  · exact IdsKept.of_jobs rfl
  · split <;> exact IdsKept.of_jobs rfl

theorem IdsKept.fill (s : State) (p : Port) (f : Frame) : IdsKept s (s.fill p f) := by
  unfold State.fill
  dsimp only
  split
  · exact IdsKept.of_jobs rfl
  · split <;> exact IdsKept.of_jobs rfl

theorem IdsKept.releaseBuffer (s : State) (p : Port) (f : Frame) : IdsKept s (s.releaseBuffer p f) := by
  unfold State.releaseBuffer
  dsimp only
  split
  · exact IdsKept.of_jobs rfl
  · split <;> exact IdsKept.of_jobs rfl
  · exact IdsKept.of_jobs rfl

theorem IdsKept.cancel (s : State) (p : Port) (f : Frame) : IdsKept s (s.cancel p f) := by
  unfold State.cancel
  split
  · exact IdsKept.of_jobs rfl
  · split
    · exact IdsKept.of_jobs rfl
    · split
      · exact ((IdsKept.endJob s _ .cancelled .none 0 true).answer _ _ _ _).arbitrate
      · split
        · refine IdsKept.answer (IdsKept.modJob s _ fun _ => ?_) _ _ _ _
          rfl
        · exact IdsKept.of_jobs rfl

theorem IdsKept.queryJob (s : State) (p : Port) (f : Frame) : IdsKept s (s.queryJob p f) := by
  unfold State.queryJob
  split <;> exact IdsKept.of_jobs rfl

theorem IdsKept.saveTable (s : State) (p : Port) (f : Frame) : IdsKept s (s.saveTable p f) := by
  unfold State.saveTable
  split
  · exact IdsKept.of_jobs rfl
  · next passed => exact ((IdsKept.addJob (State.saveCheck_none passed) p .saveTable).answer _ _ _ _).formOffer.arbitrate

theorem IdsKept.acceptFreeze {s : State} (room : s.jobs.length < 16) (p : Port) (w : Slot) {r : Range} :
    IdsKept s (s.acceptFreeze p w r) := by
  unfold State.acceptFreeze
  refine (IdsKept.addJob room p (.freezeWindow w r)).trans (IdsKept.trans ?_ (IdsKept.syncIdle _ w true))
  exact IdsKept.of_jobs rfl

theorem IdsKept.freeze (s : State) (p : Port) (f : Frame) : IdsKept s (s.freeze p f) := by
  unfold State.freeze
  dsimp only
  split
  · exact IdsKept.of_jobs rfl
  · split
    · exact IdsKept.of_jobs rfl
    · split
      · exact IdsKept.of_jobs rfl
      · next passed => exact ((IdsKept.acceptFreeze (State.freezeCheck_none passed) p _).answer _ _ _ _).formOffer.arbitrate

theorem IdsKept.setOpen (s : State) (w : Slot) (x : Window) : IdsKept s (s.setOpen w x) :=
  IdsKept.syncIdle (s.setWindow w (some { x with latchOpen := true })) w true

theorem IdsKept.openLatch (s : State) (p : Port) (f : Frame) : IdsKept s (s.openLatch p f) := by
  unfold State.openLatch
  dsimp only
  split
  · exact IdsKept.of_jobs rfl
  · split
    · exact IdsKept.of_jobs rfl
    · split
      · exact IdsKept.of_jobs rfl
      · exact (IdsKept.setOpen s _ _).answer _ _ _ _

theorem IdsKept.shutOnRequest (s : State) (p : Port) (f : Frame) : IdsKept s (s.shutOnRequest p f) := by
  unfold State.shutOnRequest
  dsimp only
  split
  · exact IdsKept.of_jobs rfl
  · split
    · exact (WindowShape.shutLatch s _ .request).ids.answer _ _ _ _
    · exact IdsKept.of_jobs rfl

theorem IdsKept.shutAll (s : State) (p : Port) (f : Frame) : IdsKept s (s.shutAll p f) := by
  unfold State.shutAll
  split
  · exact IdsKept.of_jobs rfl
  · exact (WindowShape.shutEvery s .admin).ids.answer _ _ _ _

theorem IdsKept.giveVerdict (s : State) (p : Port) (f : Frame) : IdsKept s (s.giveVerdict p f) := by
  unfold State.giveVerdict
  split
  · exact IdsKept.of_jobs rfl
  · split
    · exact (IdsKept.resolveHold s _ _).answer _ _ _ _
    · exact IdsKept.of_jobs rfl

theorem IdsKept.describe (s : State) (p : Port) (f : Frame) : IdsKept s (s.describe p f) := by
  unfold State.describe
  dsimp only
  split <;> exact IdsKept.of_jobs rfl

theorem IdsKept.define (s : State) (p : Port) (f : Frame) : IdsKept s (s.define p f) := by
  unfold State.define
  split <;> exact IdsKept.of_jobs rfl

theorem IdsKept.modify (s : State) (p : Port) (f : Frame) : IdsKept s (s.modify p f) := by
  unfold State.modify
  split
  · exact IdsKept.of_jobs rfl
  · exact (IdsKept.setWindow (WindowShape.shutLatch s _ .modify).ids _ _).edited.answer _ _ _ _

theorem IdsKept.undefine (s : State) (p : Port) (f : Frame) : IdsKept s (s.undefine p f) := by
  unfold State.undefine
  dsimp only
  split
  · exact IdsKept.of_jobs rfl
  · exact (IdsKept.setWindow (WindowShape.shutLatch s _ .admin).ids _ _).edited.answer _ _ _ _

theorem IdsKept.lockTable (s : State) (p : Port) (f : Frame) : IdsKept s (s.lockTable p f) := by
  unfold State.lockTable
  split <;> exact IdsKept.of_jobs rfl

theorem IdsKept.applyGuard (s : State) (g : GuardInput) (x : GuardSetting) : IdsKept s (s.applyGuard g x) := by
  unfold State.applyGuard
  refine IdsKept.trans ?_ (WindowShape.setInput _ g _).ids
  exact IdsKept.of_jobs rfl

theorem IdsKept.setGuard (s : State) (p : Port) (f : Frame) : IdsKept s (s.setGuard p f) := by
  unfold State.setGuard
  split
  · exact IdsKept.of_jobs rfl
  · exact (IdsKept.applyGuard s _ _).edited.answer _ _ _ _

theorem IdsKept.setTiming (s : State) (p : Port) (f : Frame) : IdsKept s (s.setTiming p f) := by
  unfold State.setTiming
  dsimp only
  split
  · exact IdsKept.of_jobs rfl
  · split <;> exact IdsKept.of_jobs rfl

/-! #### Port links -/

theorem IdsKept.askTransmission (s : State) (p : Port) : IdsKept s (s.askTransmission p) := by
  unfold State.askTransmission
  split
  · exact IdsKept.refl s
  · split <;> exact IdsKept.of_jobs rfl

theorem IdsKept.linkError (s : State) (p : Port) (r : Result) : IdsKept s (s.linkError p r) := by
  unfold State.linkError
  split
  · exact IdsKept.of_jobs rfl
  · exact (IdsKept.askTransmission s p).modPort p _

theorem IdsKept.clearBuffers (s : State) (p : Port) : IdsKept s (s.clearBuffers p) := by
  obtain ⟨⟨_, e⟩, _⟩ := State.clearBuffers_eq s p
  rw [e]
  exact IdsKept.of_jobs rfl

theorem IdsKept.clearJobs (s : State) (p : Port) : IdsKept s (s.clearJobs p) :=
  (IdsKept.foldl (fun u j => IdsKept.endJob u j .cancelled .none 0 false) _ s).formOffer.arbitrate

theorem IdsKept.clearWatched (s : State) (p : Port) : IdsKept s (s.clearWatched p) :=
  IdsKept.foldl (fun u h => IdsKept.resolveHold u h (u.holdDefault h)) _ s

theorem IdsKept.clearOwnHold (s : State) (p : Port) : IdsKept s (s.clearOwnHold p) := IdsKept.of_jobs rfl

theorem IdsKept.clearReads (s : State) (p : Port) : IdsKept s (s.clearReads p) := IdsKept.of_jobs rfl

theorem IdsKept.clearPort (s : State) (p : Port) : IdsKept s (s.clearPort p) := by
  have link := (IdsKept.askTransmission s p).modPort p PortLink.clear
  have jobs := (link.trans (IdsKept.clearBuffers _ p)).trans (IdsKept.clearJobs _ p)
  exact ((jobs.trans (IdsKept.clearOwnHold _ p)).trans (IdsKept.clearWatched _ p)).trans (IdsKept.clearReads _ p)

theorem IdsKept.disposeFrame (s : State) (p : Port) (f : Frame) : IdsKept s (s.disposeFrame p f) := by
  unfold State.disposeFrame
  split
  · exact IdsKept.linkError s p _
  · split
    · exact (IdsKept.clearPort s p).modPort p _
    · split
      · exact IdsKept.linkError s p _
      · exact IdsKept.of_jobs rfl

theorem IdsKept.checkFrame (s : State) (p : Port) : IdsKept s (s.checkFrame p) := by
  have hunts := (LinkShape.modPort s p fun l => { l with framer := .hunt }).ids
  unfold State.checkFrame
  split
  · dsimp only
    split
    · exact hunts.trans (IdsKept.disposeFrame _ p _)
    · exact hunts.trans (IdsKept.linkError _ p _)
  · exact IdsKept.refl s

theorem IdsKept.abandonLength (s : State) (p : Port) : IdsKept s (s.abandonLength p) := by
  unfold State.abandonLength
  split
  · split <;> exact IdsKept.of_jobs rfl
  · exact IdsKept.refl s

theorem IdsKept.receiveByte (s : State) (p : Port) (b : Byte) : IdsKept s (s.receiveByte p b) := by
  unfold State.receiveByte
  split
  · exact IdsKept.refl s
  · exact ((IdsKept.checkFrame s p).trans (IdsKept.abandonLength _ p)).modPort p _

theorem IdsKept.expireGap (s : State) (p : Port) : IdsKept s (s.expireGap p) := by
  unfold State.expireGap
  split <;> exact IdsKept.of_jobs rfl

theorem IdsKept.portClearEvent (s : State) (p : Port) : IdsKept s (s.portClearEvent p) := by
  have asked : IdsKept s (s.onRequest .portClear p fun _ t => t) := IdsKept.onRequest s _ p fun _ u => IdsKept.refl u
  unfold State.portClearEvent
  split
  · split
    · exact IdsKept.checkFrame s p
    · exact asked
  · exact asked

theorem IdsKept.clrEdge (s : State) (p : Port) : IdsKept s (s.clrEdge p) := by
  unfold State.clrEdge
  split
  · exact (LinkShape.modPort s p fun l => { l with framer := .hunt }).ids.trans (IdsKept.clearPort _ p)
  · exact IdsKept.refl s

theorem IdsKept.refuseUnknown (s : State) (p : Port) : IdsKept s (s.refuseUnknown p) := by
  unfold State.refuseUnknown
  split
  · exact IdsKept.refl s
  · split <;> exact IdsKept.of_jobs rfl

/-! #### Timers and guard inputs -/

theorem IdsKept.expireIdle (s : State) (w : Slot) : IdsKept s (s.expireIdle w) := by
  unfold State.expireIdle
  split
  · exact IdsKept.refl s
  · split
    · exact (WindowShape.shutLatch s w .idle).ids
    · exact IdsKept.refl s

theorem IdsKept.expireHold (s : State) (i : Byte) : IdsKept s (s.expireHold i) := by
  unfold State.expireHold
  split
  · exact IdsKept.refl s
  · exact (LinkShape.post _ _ _).ids.trans (IdsKept.resolveHold _ _ _)

theorem IdsKept.expireLease (s : State) (b : BufferNo) : IdsKept s (s.expireLease b) := by
  unfold State.expireLease
  split <;> exact IdsKept.of_jobs rfl

theorem IdsKept.expireSettle (s : State) (g : GuardInput) : IdsKept s (s.expireSettle g) := by
  unfold State.expireSettle
  split
  · exact (WindowShape.setInput s g _).ids
  · exact (WindowShape.setInput s g _).ids
  · exact IdsKept.refl s

theorem IdsKept.guardLevel (s : State) (g : GuardInput) (high : Bool) : IdsKept s (s.guardLevel g high) := by
  unfold State.guardLevel
  dsimp only
  split
  · exact (WindowShape.setInput (s.setGuardPin g _) g _).ids
  · exact IdsKept.of_jobs rfl

theorem IdsKept.expireResumeGap (s : State) : IdsKept s s.expireResumeGap := by
  unfold State.expireResumeGap
  split
  · exact IdsKept.requestSuspend { s with seq := { s.seq with resumeGap := .elapsed } }
  · exact IdsKept.refl s

theorem IdsKept.expire (s : State) (m : Timer) : IdsKept s (s.expire m) := by
  cases m with
  | gap p => exact IdsKept.expireGap s p
  | settle g => exact IdsKept.expireSettle s g
  | idle w => exact IdsKept.expireIdle s w
  | lease b => exact IdsKept.expireLease s b
  | hold i => exact IdsKept.expireHold s i
  | resume => exact IdsKept.expireResumeGap s
  | frame p => exact IdsKept.of_jobs rfl

/-! #### The array -/

theorem IdsKept.takeSuspension (s : State) : IdsKept s s.takeSuspension := by
  unfold State.takeSuspension
  split
  · refine IdsKept.arbitrate (IdsKept.of_map (g := Job.suspend) rfl fun j => ?_)
    unfold Job.suspend
    split <;> rfl
  · exact IdsKept.refl s

theorem IdsKept.completeRead (s : State) : IdsKept s s.completeRead := by
  unfold State.completeRead
  split
  · exact IdsKept.refl s
  · split <;> exact IdsKept.arbitrate (IdsKept.of_jobs rfl)

theorem IdsKept.endActive (s : State) (st : EndStatus) (d : Nat) : IdsKept s (s.endActive st d) := by
  unfold State.endActive
  split
  · exact IdsKept.endJob _ _ _ _ _ _
  · exact IdsKept.of_jobs rfl

theorem IdsKept.eraseStepEnds (s : State) : IdsKept s s.eraseStepEnds := by
  unfold State.eraseStepEnds
  split
  · exact IdsKept.of_jobs rfl
  · split
    · split
      · exact IdsKept.endJob _ _ _ _ _ _
      · exact IdsKept.formOffer (IdsKept.modJob s _ fun _ => rfl)
    · exact IdsKept.endJob _ _ _ _ _ _

theorem IdsKept.completeProgram (s : State) : IdsKept s s.completeProgram := by
  unfold State.completeProgram
  split
  · refine IdsKept.arbitrate (IdsKept.trans ?_ (IdsKept.endActive _ _ _))
    exact IdsKept.of_jobs rfl
  · exact IdsKept.refl s

theorem IdsKept.completeErase (s : State) : IdsKept s s.completeErase := by
  unfold State.completeErase
  split
  · refine IdsKept.arbitrate (IdsKept.trans ?_ (IdsKept.eraseStepEnds _))
    exact IdsKept.of_jobs rfl
  · exact IdsKept.refl s

theorem IdsKept.completeSave (s : State) : IdsKept s s.completeSave := by
  unfold State.completeSave
  split
  · refine IdsKept.arbitrate (IdsKept.trans ?_ (IdsKept.endActive _ _ _))
    exact IdsKept.of_jobs rfl
  · exact IdsKept.refl s

theorem IdsKept.completeFuse (s : State) : IdsKept s s.completeFuse := by
  unfold State.completeFuse
  split
  · refine IdsKept.arbitrate (IdsKept.trans ?_ (IdsKept.endActive _ _ _))
    exact IdsKept.of_jobs rfl
  · exact IdsKept.refl s

/-! #### Device reset and start-up -/

theorem IdsKept.deviceReset (s : State) : IdsKept s s.deviceReset := fun _ => List.nodup_nil

theorem IdsKept.resetRelease (s : State) (a r : BitVec 2) : IdsKept s (s.resetRelease a r) := by
  unfold State.resetRelease
  split <;> exact IdsKept.of_jobs rfl

theorem IdsKept.recover (s : State) : IdsKept s s.recover := by
  unfold State.recover
  split
  · split
    · exact IdsKept.of_jobs rfl
    · next m _ =>
      obtain ⟨_, _, _, _, _, _, _, e⟩ := StorageShape.recoverAction s m
      rw [e]
      exact IdsKept.of_jobs rfl
  · exact IdsKept.refl s

theorem IdsKept.load (s : State) : IdsKept s s.load := by
  unfold State.load
  split
  · obtain ⟨_, _, _, e⟩ := s.loadTable_shape
    rw [e]
    exact IdsKept.of_jobs rfl
  · exact IdsKept.refl s

theorem IdsKept.becomeReady (s : State) : IdsKept s s.becomeReady := by
  unfold State.becomeReady
  split
  · refine IdsKept.trans ?_ (LinkShape.postEach _ Port.all s.startedNotice).ids
    exact IdsKept.of_jobs rfl
  · exact IdsKept.refl s

/-! #### Time and commands -/

theorem IdsKept.expireIfDue (s : State) (m : Timer) : IdsKept s (s.expireIfDue m) := by
  unfold State.expireIfDue
  split
  · exact IdsKept.expire s m
  · exact IdsKept.refl s

theorem IdsKept.elapse (s : State) : IdsKept s s.elapse := by
  unfold State.elapse
  refine IdsKept.trans ?_ (IdsKept.foldl IdsKept.expireIfDue _ _)
  exact IdsKept.of_jobs rfl

/-- Every command keeps the ids of the live jobs apart. -/
theorem IdsKept.exec (c : Instr) (s : State) : ∃ t, exec c s = .next t ∧ IdsKept s t := by
  cases c with
  | deviceReset => exact ⟨_, rfl, IdsKept.deviceReset s⟩
  | resetRelease a r => exact ⟨_, rfl, IdsKept.resetRelease s a r⟩
  | recover => exact ⟨_, rfl, IdsKept.recover s⟩
  | load => exact ⟨_, rfl, IdsKept.load s⟩
  | ready => exact ⟨_, rfl, IdsKept.becomeReady s⟩
  | frameCheck p => exact ⟨_, rfl, IdsKept.checkFrame s p⟩
  | lengthAbandon p => exact ⟨_, rfl, IdsKept.abandonLength s p⟩
  | gapTimerExpiry p => exact ⟨_, rfl, IdsKept.expireGap s p⟩
  | responseSent p => exact ⟨_, rfl, IdsKept.expire s (.frame p)⟩
  | unknownType p => exact ⟨_, rfl, IdsKept.refuseUnknown s p⟩
  | status p => exact ⟨_, rfl, IdsKept.onRequest _ _ _ fun _ _ => IdsKept.of_jobs rfl⟩
  | fetchNotices p => exact ⟨_, rfl, IdsKept.onRequest _ _ _ fun _ _ => IdsKept.of_jobs rfl⟩
  | portClear p => exact ⟨_, rfl, IdsKept.portClearEvent s p⟩
  | clrFallingEdge p => exact ⟨_, rfl, IdsKept.clrEdge s p⟩
  | read p => exact ⟨_, rfl, IdsKept.onRequest _ _ _ fun f t => IdsKept.judgeRead t p f⟩
  | claimBuffer p => exact ⟨_, rfl, IdsKept.onRequest _ _ _ fun f t => IdsKept.claim t p f⟩
  | fill p => exact ⟨_, rfl, IdsKept.onRequest _ _ _ fun f t => IdsKept.fill t p f⟩
  | releaseBuffer p => exact ⟨_, rfl, IdsKept.onRequest _ _ _ fun f t => IdsKept.releaseBuffer t p f⟩
  | program p => exact ⟨_, rfl, IdsKept.onRequest _ _ _ fun f t => IdsKept.judgeWrite t p f _⟩
  | eraseSector p => exact ⟨_, rfl, IdsKept.onRequest _ _ _ fun f t => IdsKept.judgeWrite t p f _⟩
  | eraseWindow p => exact ⟨_, rfl, IdsKept.onRequest _ _ _ fun f t => IdsKept.judgeWrite t p f _⟩
  | cancel p => exact ⟨_, rfl, IdsKept.onRequest _ _ _ fun f t => IdsKept.cancel t p f⟩
  | jobQuery p => exact ⟨_, rfl, IdsKept.onRequest _ _ _ fun f t => IdsKept.queryJob t p f⟩
  | openLatch p => exact ⟨_, rfl, IdsKept.onRequest _ _ _ fun f t => IdsKept.openLatch t p f⟩
  | shutLatch p => exact ⟨_, rfl, IdsKept.onRequest _ _ _ fun f t => IdsKept.shutOnRequest t p f⟩
  | shutAll p => exact ⟨_, rfl, IdsKept.onRequest _ _ _ fun f t => IdsKept.shutAll t p f⟩
  | verdict p => exact ⟨_, rfl, IdsKept.onRequest _ _ _ fun f t => IdsKept.giveVerdict t p f⟩
  | holdLimitExpiry i => exact ⟨_, rfl, IdsKept.expireHold s i⟩
  | describeWindow p => exact ⟨_, rfl, IdsKept.onRequest _ _ _ fun f t => IdsKept.describe t p f⟩
  | listTorn p => exact ⟨_, rfl, IdsKept.onRequest _ _ _ fun _ _ => IdsKept.of_jobs rfl⟩
  | listFuses p => exact ⟨_, rfl, IdsKept.onRequest _ _ _ fun _ _ => IdsKept.of_jobs rfl⟩
  | defineWindow p => exact ⟨_, rfl, IdsKept.onRequest _ _ _ fun f t => IdsKept.define t p f⟩
  | modifyWindow p => exact ⟨_, rfl, IdsKept.onRequest _ _ _ fun f t => IdsKept.modify t p f⟩
  | undefineWindow p => exact ⟨_, rfl, IdsKept.onRequest _ _ _ fun f t => IdsKept.undefine t p f⟩
  | saveTable p => exact ⟨_, rfl, IdsKept.onRequest _ _ _ fun f t => IdsKept.saveTable t p f⟩
  | lockTable p => exact ⟨_, rfl, IdsKept.onRequest _ _ _ fun f t => IdsKept.lockTable t p f⟩
  | freezeWindow p => exact ⟨_, rfl, IdsKept.onRequest _ _ _ fun f t => IdsKept.freeze t p f⟩
  | setGuard p => exact ⟨_, rfl, IdsKept.onRequest _ _ _ fun f t => IdsKept.setGuard t p f⟩
  | setTiming p => exact ⟨_, rfl, IdsKept.onRequest _ _ _ fun f t => IdsKept.setTiming t p f⟩
  | guardLevelChange g high => exact ⟨_, rfl, IdsKept.guardLevel s g high⟩
  | settleTimerExpiry g => exact ⟨_, rfl, IdsKept.expireSettle s g⟩
  | idleTimerExpiry w => exact ⟨_, rfl, IdsKept.expireIdle s w⟩
  | leaseExpiry b => exact ⟨_, rfl, IdsKept.expireLease s b⟩
  | resumeGapExpiry => exact ⟨_, rfl, IdsKept.expireResumeGap s⟩
  | suspensionTaken => exact ⟨_, rfl, IdsKept.takeSuspension s⟩
  | readServiceCompletion => exact ⟨_, rfl, IdsKept.completeRead s⟩
  | programStepCompletion => exact ⟨_, rfl, IdsKept.completeProgram s⟩
  | sectorEraseCompletion => exact ⟨_, rfl, IdsKept.completeErase s⟩
  | tableSaveCompletion => exact ⟨_, rfl, IdsKept.completeSave s⟩
  | fuseWriteCompletion => exact ⟨_, rfl, IdsKept.completeFuse s⟩
  | byteReceived p b => exact ⟨_, rfl, IdsKept.receiveByte s p b⟩

/-- Every step keeps the ids of the live jobs apart. -/
theorem IdsKept.step {s t : State} (h : step s = .next t) : IdsKept s t := by
  unfold Machine.step at h
  split at h
  · cases h
    exact IdsKept.elapse s
  · next c rest _ =>
    obtain ⟨u, hu, kept⟩ := IdsKept.exec c { s with pending := rest }
    obtain rfl : u = t := by simpa [hu] using h
    exact kept

/-- Settles O57: memory, buffers and the number of jobs are laws of `Keeps`; the ids stay apart as a new one is the first
free (`IdsKept.addJob`). -/
theorem everyStepKeepsMemoryBuffersAndJobsLawful : Obligations.EveryStepKeepsMemoryBuffersAndJobsLawful := by
  refine ⟨fun s t h => ?_, fun s t bounded distinct h => ?_⟩
  · exact ⟨(Keeps.step h).memory, (Keeps.step h).buffers⟩
  · exact ⟨(Keeps.step h).jobs bounded, IdsKept.step h distinct⟩

end Sys2Proof.Machine
end

section
/-! PROOF. The offer and the array (R123, R143): every command and every unit of time leaves the offer the one that the job list
calls for, and the array IDLE only with nothing to grant. What touches neither the job list nor the array leaves both as they
are; what does ends in a decision of the sequencer, which settles them (`State.arbitrate_settled`). -/

namespace Sys2Proof.Machine

/-! ### What leaves the job list and the array alone -/

/-- The job list, the offer, the sequencer and the array operation are as they were. -/
structure SameArray (s t : State) : Prop where
  jobs : t.jobs = s.jobs
  offer : t.offer = s.offer
  seq : t.seq = s.seq
  arrayOp : t.arrayOp = s.arrayOp

theorem SameArray.refl (s : State) : SameArray s s := ⟨rfl, rfl, rfl, rfl⟩

theorem SameArray.trans {s t u : State} (a : SameArray s t) (b : SameArray t u) : SameArray s u :=
  ⟨b.jobs.trans a.jobs, b.offer.trans a.offer, b.seq.trans a.seq, b.arrayOp.trans a.arrayOp⟩

theorem State.Settled.same {s t : State} (h : s.Settled) (a : SameArray s t) : t.Settled :=
  State.Settled.of_eq a.jobs a.offer (by rw [a.arrayOp]) (by rw [a.seq]) (by rw [a.seq]) (by rw [a.seq]) h

theorem State.OfferLawful.same {s t : State} (h : s.OfferLawful) (a : SameArray s t) : t.OfferLawful :=
  State.OfferLawful.of_eq a.jobs a.offer (by rw [a.arrayOp]) h

/-- The later change, known first. -/
theorem SameArray.after {s t u : State} (b : SameArray t u) (a : SameArray s t) : SameArray s u := a.trans b

/-- A request is answered, whatever went before. -/
theorem SameArray.answer {s t : State} (a : SameArray s t) (p : Port) (f : Frame) (r : Result) (l : List Byte) :
    SameArray s (t.answer p f r l) := a.trans ⟨rfl, rfl, rfl, rfl⟩

/-- A window is set, whatever went before. -/
theorem SameArray.setWindow {s t : State} (a : SameArray s t) (w : Slot) (x : Option Window) :
    SameArray s (t.setWindow w x) := a.trans ⟨rfl, rfl, rfl, rfl⟩

/-- The table is edited, whatever went before. -/
theorem SameArray.edited {s t : State} (a : SameArray s t) : SameArray s t.edited := a.trans ⟨rfl, rfl, rfl, rfl⟩

theorem WindowShape.sameArray {s t : State} (a : WindowShape s t) : SameArray s t := by
  obtain ⟨_, _, _, rfl⟩ := a
  exact ⟨rfl, rfl, rfl, rfl⟩

theorem StorageShape.sameArray {s t : State} (a : StorageShape s t) : SameArray s t := by
  obtain ⟨_, _, _, _, _, _, _, rfl⟩ := a
  exact ⟨rfl, rfl, rfl, rfl⟩

theorem SameArray.syncIdle (s : State) (w : Slot) (reload : Bool) : SameArray s (s.syncIdle w reload) := by
  obtain ⟨_, e⟩ := s.syncIdle_shape w reload
  rw [e]
  exact ⟨rfl, rfl, rfl, rfl⟩

/-! #### Staging buffers -/

theorem SameArray.claim (s : State) (p : Port) (f : Frame) : SameArray s (s.claim p f) := by
  unfold State.claim
  split
  · exact ⟨rfl, rfl, rfl, rfl⟩
  · split <;> exact ⟨rfl, rfl, rfl, rfl⟩

theorem SameArray.fill (s : State) (p : Port) (f : Frame) : SameArray s (s.fill p f) := by
  unfold State.fill
  dsimp only
  split
  · exact ⟨rfl, rfl, rfl, rfl⟩
  · split <;> exact ⟨rfl, rfl, rfl, rfl⟩

theorem SameArray.releaseBuffer (s : State) (p : Port) (f : Frame) : SameArray s (s.releaseBuffer p f) := by
  unfold State.releaseBuffer
  dsimp only
  split
  · exact ⟨rfl, rfl, rfl, rfl⟩
  · split <;> exact ⟨rfl, rfl, rfl, rfl⟩
  · exact ⟨rfl, rfl, rfl, rfl⟩

theorem SameArray.expireLease (s : State) (b : BufferNo) : SameArray s (s.expireLease b) := by
  unfold State.expireLease
  split <;> exact ⟨rfl, rfl, rfl, rfl⟩

/-! #### Reports, the window table and guard inputs -/

theorem SameArray.queryJob (s : State) (p : Port) (f : Frame) : SameArray s (s.queryJob p f) := by
  unfold State.queryJob
  split <;> exact ⟨rfl, rfl, rfl, rfl⟩

theorem SameArray.describe (s : State) (p : Port) (f : Frame) : SameArray s (s.describe p f) := by
  unfold State.describe
  dsimp only
  split <;> exact ⟨rfl, rfl, rfl, rfl⟩

theorem SameArray.define (s : State) (p : Port) (f : Frame) : SameArray s (s.define p f) := by
  unfold State.define
  split <;> exact ⟨rfl, rfl, rfl, rfl⟩

theorem SameArray.modify (s : State) (p : Port) (f : Frame) : SameArray s (s.modify p f) := by
  unfold State.modify
  split
  · exact ⟨rfl, rfl, rfl, rfl⟩
  · exact ((WindowShape.shutLatch s (slotAt f.body 0) .modify).sameArray.setWindow _ _).edited.answer p f .ok []

theorem SameArray.undefine (s : State) (p : Port) (f : Frame) : SameArray s (s.undefine p f) := by
  unfold State.undefine
  dsimp only
  split
  · exact ⟨rfl, rfl, rfl, rfl⟩
  · exact ((WindowShape.shutLatch s (slotAt f.body 0) .admin).sameArray.setWindow _ _).edited.answer p f .ok []

theorem SameArray.lockTable (s : State) (p : Port) (f : Frame) : SameArray s (s.lockTable p f) := by
  unfold State.lockTable
  split <;> exact ⟨rfl, rfl, rfl, rfl⟩

theorem SameArray.setTiming (s : State) (p : Port) (f : Frame) : SameArray s (s.setTiming p f) := by
  unfold State.setTiming
  dsimp only
  split
  · exact ⟨rfl, rfl, rfl, rfl⟩
  · split <;> exact ⟨rfl, rfl, rfl, rfl⟩

theorem SameArray.setInput (s : State) (g : GuardInput) (x : InputState) : SameArray s (s.setInput g x) :=
  (WindowShape.setInput s g x).sameArray

theorem SameArray.setGuard (s : State) (p : Port) (f : Frame) : SameArray s (s.setGuard p f) := by
  unfold State.setGuard
  split
  · exact ⟨rfl, rfl, rfl, rfl⟩
  · refine SameArray.answer (SameArray.edited ?_) p f .ok []
    exact (SameArray.setInput { s with header := s.header.setGuard _ _ } _ _).after ⟨rfl, rfl, rfl, rfl⟩

theorem SameArray.guardLevel (s : State) (g : GuardInput) (high : Bool) : SameArray s (s.guardLevel g high) := by
  unfold State.guardLevel
  dsimp only
  split
  · exact (SameArray.setInput _ g _).after ⟨rfl, rfl, rfl, rfl⟩
  · exact ⟨rfl, rfl, rfl, rfl⟩

theorem SameArray.expireSettle (s : State) (g : GuardInput) : SameArray s (s.expireSettle g) := by
  unfold State.expireSettle
  split
  · exact SameArray.setInput s g _
  · exact SameArray.setInput s g _
  · exact SameArray.refl s

/-! #### Latches -/

theorem SameArray.openLatch (s : State) (p : Port) (f : Frame) : SameArray s (s.openLatch p f) := by
  unfold State.openLatch
  dsimp only
  split
  · exact ⟨rfl, rfl, rfl, rfl⟩
  · split
    · exact ⟨rfl, rfl, rfl, rfl⟩
    · split
      · exact ⟨rfl, rfl, rfl, rfl⟩
      · exact (((SameArray.refl s).setWindow _ _).trans (SameArray.syncIdle _ _ _)).answer p f .ok []

theorem SameArray.shutOnRequest (s : State) (p : Port) (f : Frame) : SameArray s (s.shutOnRequest p f) := by
  unfold State.shutOnRequest
  dsimp only
  split
  · exact ⟨rfl, rfl, rfl, rfl⟩
  · split
    · exact (WindowShape.shutLatch s _ .request).sameArray.answer p f .ok []
    · exact ⟨rfl, rfl, rfl, rfl⟩

theorem SameArray.shutAll (s : State) (p : Port) (f : Frame) : SameArray s (s.shutAll p f) := by
  unfold State.shutAll
  split
  · exact ⟨rfl, rfl, rfl, rfl⟩
  · exact (WindowShape.shutEvery s .admin).sameArray.answer p f .ok _

theorem SameArray.expireIdle (s : State) (w : Slot) : SameArray s (s.expireIdle w) := by
  unfold State.expireIdle
  split
  · exact SameArray.refl s
  · split
    · exact (WindowShape.shutLatch s w .idle).sameArray
    · exact SameArray.refl s

/-! #### Port links -/

theorem SameArray.askTransmission (s : State) (p : Port) : SameArray s (s.askTransmission p) := by
  unfold State.askTransmission
  split
  · exact SameArray.refl s
  · split <;> exact ⟨rfl, rfl, rfl, rfl⟩

theorem SameArray.linkError (s : State) (p : Port) (r : Result) : SameArray s (s.linkError p r) := by
  unfold State.linkError
  split
  · exact ⟨rfl, rfl, rfl, rfl⟩
  · exact (SameArray.askTransmission s p).trans ⟨rfl, rfl, rfl, rfl⟩

theorem SameArray.abandonLength (s : State) (p : Port) : SameArray s (s.abandonLength p) := by
  unfold State.abandonLength
  split
  · split <;> exact ⟨rfl, rfl, rfl, rfl⟩
  · exact SameArray.refl s

theorem SameArray.expireGap (s : State) (p : Port) : SameArray s (s.expireGap p) := by
  unfold State.expireGap
  split <;> exact ⟨rfl, rfl, rfl, rfl⟩

theorem SameArray.refuseUnknown (s : State) (p : Port) : SameArray s (s.refuseUnknown p) := by
  unfold State.refuseUnknown
  split
  · exact SameArray.refl s
  · split <;> exact ⟨rfl, rfl, rfl, rfl⟩

/-! #### Start-up -/

theorem SameArray.resetRelease (s : State) (a r : BitVec 2) : SameArray s (s.resetRelease a r) := by
  unfold State.resetRelease
  split <;> exact ⟨rfl, rfl, rfl, rfl⟩

theorem SameArray.recover (s : State) : SameArray s s.recover := by
  unfold State.recover
  split
  · split
    · exact ⟨rfl, rfl, rfl, rfl⟩
    · next m _ => exact (StorageShape.recoverAction s m).sameArray.trans ⟨rfl, rfl, rfl, rfl⟩
  · exact SameArray.refl s

theorem SameArray.load (s : State) : SameArray s s.load := by
  unfold State.load
  split
  · obtain ⟨_, _, _, e⟩ := s.loadTable_shape
    rw [e]
    exact ⟨rfl, rfl, rfl, rfl⟩
  · exact SameArray.refl s

theorem SameArray.becomeReady (s : State) : SameArray s s.becomeReady := by
  unfold State.becomeReady
  split
  · refine SameArray.trans ?_ (LinkShape.postEach _ Port.all s.startedNotice).window.sameArray
    exact ⟨rfl, rfl, rfl, rfl⟩
  · exact SameArray.refl s

/-! ### What ends in a decision, and port clears -/

/-- A device reset leaves no job, no offer and no read, at an IDLE array (R140, R176). -/
theorem State.deviceReset_settled (s : State) : s.deviceReset.Settled := ⟨rfl, fun _ => ⟨rfl, rfl, rfl⟩⟩

theorem State.Settled.onRequest {s : State} (h : s.Settled) (k : ReqType) (p : Port) {owner : Frame → State → State}
    (ho : ∀ f u, u.Settled → (owner f u).Settled) : (s.onRequest k p owner).Settled := by
  unfold State.onRequest
  split
  · exact h
  · split
    · split
      · exact h.same ⟨rfl, rfl, rfl, rfl⟩
      · exact ho _ _ (h.same ⟨rfl, rfl, rfl, rfl⟩)
    · exact h

/-- A request whose owner leaves the array alone. -/
theorem State.Settled.ask {s : State} (h : s.Settled) (k : ReqType) (p : Port) {owner : Frame → State → State}
    (ho : ∀ f u, SameArray u (owner f u)) : (s.onRequest k p owner).Settled := h.onRequest k p fun f u hu => hu.same (ho f u)

theorem State.Settled.disposeFrame {s : State} (h : s.Settled) (p : Port) (f : Frame) : (s.disposeFrame p f).Settled := by
  unfold State.disposeFrame
  split
  · exact h.same (SameArray.linkError s p _)
  · split
    · exact (s.clearPort_settled p).link (LinkShape.modPort _ p _)
    · split
      · exact h.same (SameArray.linkError s p _)
      · exact h.same ⟨rfl, rfl, rfl, rfl⟩

theorem State.Settled.checkFrame {s : State} (h : s.Settled) (p : Port) : (s.checkFrame p).Settled := by
  unfold State.checkFrame
  split
  · have hunt : (s.modPort p fun l => { l with framer := .hunt }).Settled := h.same ⟨rfl, rfl, rfl, rfl⟩
    dsimp only
    split
    · exact hunt.disposeFrame p _
    · exact hunt.same (SameArray.linkError _ p _)
  · exact h

theorem State.Settled.receiveByte {s : State} (h : s.Settled) (p : Port) (b : Byte) : (s.receiveByte p b).Settled := by
  unfold State.receiveByte
  split
  · exact h
  · exact (h.checkFrame p).same ((SameArray.abandonLength _ p).trans ⟨rfl, rfl, rfl, rfl⟩)

theorem State.Settled.portClearEvent {s : State} (h : s.Settled) (p : Port) : (s.portClearEvent p).Settled := by
  have row : (s.onRequest .portClear p fun _ t => t).Settled := h.ask _ _ fun _ u => SameArray.refl u
  unfold State.portClearEvent
  split
  · split
    · exact h.checkFrame p
    · exact row
  · exact row

theorem State.Settled.clrEdge {s : State} (h : s.Settled) (p : Port) : (s.clrEdge p).Settled := by
  unfold State.clrEdge
  split
  · exact State.clearPort_settled _ p
  · exact h

theorem State.Settled.cancel {s : State} (h : s.Settled) (p : Port) (f : Frame) : (s.cancel p f).Settled := by
  unfold State.cancel
  split
  · exact h.same ⟨rfl, rfl, rfl, rfl⟩
  · next j _ =>
    split
    · exact h.same ⟨rfl, rfl, rfl, rfl⟩
    · split
      · obtain ⟨_, _, _, lawful⟩ := s.endJob_spec j .cancelled .none 0 true
        exact State.arbitrate_settled _ (lawful.same ⟨rfl, rfl, rfl, rfl⟩)
      · split
        · refine State.Settled.link (LinkShape.answer _ p f .ok _) (h.modJob j.id _ fun _ => ?_)
          exact ⟨rfl, rfl, rfl⟩
        · exact h.same ⟨rfl, rfl, rfl, rfl⟩

theorem State.Settled.saveTable {s : State} (h : s.Settled) (p : Port) (f : Frame) : (s.saveTable p f).Settled := by
  unfold State.saveTable
  split
  · exact h.same ⟨rfl, rfl, rfl, rfl⟩
  · exact State.arbitrate_settled _ (State.formOffer_lawful _)

theorem State.Settled.freeze {s : State} (h : s.Settled) (p : Port) (f : Frame) : (s.freeze p f).Settled := by
  unfold State.freeze
  dsimp only
  split
  · exact h.same ⟨rfl, rfl, rfl, rfl⟩
  · split
    · exact h.same ⟨rfl, rfl, rfl, rfl⟩
    · split
      · exact h.same ⟨rfl, rfl, rfl, rfl⟩
      · exact State.arbitrate_settled _ (State.formOffer_lawful _)

theorem State.Settled.giveVerdict {s : State} (h : s.Settled) (p : Port) (f : Frame) : (s.giveVerdict p f).Settled := by
  unfold State.giveVerdict
  split
  · exact h.same ⟨rfl, rfl, rfl, rfl⟩
  · split
    · exact (h.resolveHold _ _).same ⟨rfl, rfl, rfl, rfl⟩
    · exact h.same ⟨rfl, rfl, rfl, rfl⟩

theorem State.Settled.expireHold {s : State} (h : s.Settled) (id : Byte) : (s.expireHold id).Settled := by
  unfold State.expireHold
  split
  · exact h
  · next k _ => exact (h.link (LinkShape.post s k.watch _)).resolveHold k _

/-! #### The array's own events -/

theorem State.Settled.takeSuspension {s : State} (h : s.Settled) : s.takeSuspension.Settled := by
  unfold State.takeSuspension
  split
  · exact State.arbitrate_settled _ (State.formOffer_lawful _)
  · exact h

/-- The end of a read in service leaves the offer as it is, and the sequencer decides. -/
theorem State.Settled.completeRead {s : State} (h : s.Settled) : s.completeRead.Settled := by
  have ended : s.endService.OfferLawful := State.OfferLawful.of_eq (s := s) rfl rfl Iff.rfl h.1
  unfold State.completeRead
  split
  · exact h
  · split
    · exact State.arbitrate_settled _ ended
    · exact State.arbitrate_settled _ (ended.link (LinkShape.answer _ _ _ _ _))

theorem State.Settled.completeProgram {s : State} (h : s.Settled) : s.completeProgram.Settled := by
  unfold State.completeProgram
  split
  · exact State.arbitrate_settled _ (State.endActive_lawful _ _ _)
  · exact h

theorem State.Settled.completeErase {s : State} (h : s.Settled) : s.completeErase.Settled := by
  unfold State.completeErase
  split
  · exact State.arbitrate_settled _ (State.eraseStepEnds_lawful _)
  · exact h

theorem State.Settled.completeSave {s : State} (h : s.Settled) : s.completeSave.Settled := by
  unfold State.completeSave
  split
  · exact State.arbitrate_settled _ (State.endActive_lawful _ _ _)
  · exact h

theorem State.Settled.completeFuse {s : State} (h : s.Settled) : s.completeFuse.Settled := by
  unfold State.completeFuse
  split
  · exact State.arbitrate_settled _ (State.endActive_lawful _ _ _)
  · exact h

/-! ### Time and commands -/

theorem State.Settled.expire {s : State} (h : s.Settled) (m : Timer) : (s.expire m).Settled := by
  cases m with
  | gap p => exact h.same (SameArray.expireGap s p)
  | settle g => exact h.same (SameArray.expireSettle s g)
  | idle w => exact h.same (SameArray.expireIdle s w)
  | lease b => exact h.same (SameArray.expireLease s b)
  | hold id => exact h.expireHold id
  | resume => exact h.expireResumeGap
  | frame p => exact h.same ⟨rfl, rfl, rfl, rfl⟩

theorem State.Settled.expireAll (l : List Timer) {s : State} (h : s.Settled) : (l.foldl State.expireIfDue s).Settled := by
  induction l generalizing s with
  | nil => exact h
  | cons m l ih =>
    refine ih ?_
    unfold State.expireIfDue
    split
    · exact h.expire m
    · exact h

/-- Of the sequencer, a unit of time moves the resume gap timer alone. -/
theorem State.Settled.elapse {s : State} (h : s.Settled) : s.elapse.Settled := by
  have down : s.runDown.Settled := State.Settled.of_eq rfl rfl Iff.rfl rfl rfl rfl h
  exact State.Settled.expireAll _ (down.same ⟨rfl, rfl, rfl, rfl⟩)

theorem State.Settled.exec {s : State} (h : s.Settled) (c : Instr) : ∃ t, exec c s = .next t ∧ t.Settled := by
  cases c with
  | deviceReset => exact ⟨_, rfl, s.deviceReset_settled⟩
  | resetRelease a r => exact ⟨_, rfl, h.same (SameArray.resetRelease s a r)⟩
  | recover => exact ⟨_, rfl, h.same (SameArray.recover s)⟩
  | load => exact ⟨_, rfl, h.same (SameArray.load s)⟩
  | ready => exact ⟨_, rfl, h.same (SameArray.becomeReady s)⟩
  | frameCheck p => exact ⟨_, rfl, h.checkFrame p⟩
  | lengthAbandon p => exact ⟨_, rfl, h.same (SameArray.abandonLength s p)⟩
  | gapTimerExpiry p => exact ⟨_, rfl, h.same (SameArray.expireGap s p)⟩
  | responseSent p => exact ⟨_, rfl, h.expire (.frame p)⟩
  | unknownType p => exact ⟨_, rfl, h.same (SameArray.refuseUnknown s p)⟩
  | status p => exact ⟨_, rfl, h.ask _ _ fun _ _ => ⟨rfl, rfl, rfl, rfl⟩⟩
  | fetchNotices p => exact ⟨_, rfl, h.ask _ _ fun _ _ => ⟨rfl, rfl, rfl, rfl⟩⟩
  | portClear p => exact ⟨_, rfl, h.portClearEvent p⟩
  | clrFallingEdge p => exact ⟨_, rfl, h.clrEdge p⟩
  | read p => exact ⟨_, rfl, h.onRequest _ _ fun f _ ht => ht.judgeRead p f⟩
  | claimBuffer p => exact ⟨_, rfl, h.ask _ _ fun f t => SameArray.claim t p f⟩
  | fill p => exact ⟨_, rfl, h.ask _ _ fun f t => SameArray.fill t p f⟩
  | releaseBuffer p => exact ⟨_, rfl, h.ask _ _ fun f t => SameArray.releaseBuffer t p f⟩
  | program p => exact ⟨_, rfl, h.onRequest _ _ fun f _ ht => ht.judgeWrite p f _⟩
  | eraseSector p => exact ⟨_, rfl, h.onRequest _ _ fun f _ ht => ht.judgeWrite p f _⟩
  | eraseWindow p => exact ⟨_, rfl, h.onRequest _ _ fun f _ ht => ht.judgeWrite p f _⟩
  | cancel p => exact ⟨_, rfl, h.onRequest _ _ fun f _ ht => ht.cancel p f⟩
  | jobQuery p => exact ⟨_, rfl, h.ask _ _ fun f t => SameArray.queryJob t p f⟩
  | openLatch p => exact ⟨_, rfl, h.ask _ _ fun f t => SameArray.openLatch t p f⟩
  | shutLatch p => exact ⟨_, rfl, h.ask _ _ fun f t => SameArray.shutOnRequest t p f⟩
  | shutAll p => exact ⟨_, rfl, h.ask _ _ fun f t => SameArray.shutAll t p f⟩
  | verdict p => exact ⟨_, rfl, h.onRequest _ _ fun f _ ht => ht.giveVerdict p f⟩
  | holdLimitExpiry i => exact ⟨_, rfl, h.expireHold i⟩
  | describeWindow p => exact ⟨_, rfl, h.ask _ _ fun f t => SameArray.describe t p f⟩
  | listTorn p => exact ⟨_, rfl, h.ask _ _ fun _ _ => ⟨rfl, rfl, rfl, rfl⟩⟩
  | listFuses p => exact ⟨_, rfl, h.ask _ _ fun _ _ => ⟨rfl, rfl, rfl, rfl⟩⟩
  | defineWindow p => exact ⟨_, rfl, h.ask _ _ fun f t => SameArray.define t p f⟩
  | modifyWindow p => exact ⟨_, rfl, h.ask _ _ fun f t => SameArray.modify t p f⟩
  | undefineWindow p => exact ⟨_, rfl, h.ask _ _ fun f t => SameArray.undefine t p f⟩
  | saveTable p => exact ⟨_, rfl, h.onRequest _ _ fun f _ ht => ht.saveTable p f⟩
  | lockTable p => exact ⟨_, rfl, h.ask _ _ fun f t => SameArray.lockTable t p f⟩
  | freezeWindow p => exact ⟨_, rfl, h.onRequest _ _ fun f _ ht => ht.freeze p f⟩
  | setGuard p => exact ⟨_, rfl, h.ask _ _ fun f t => SameArray.setGuard t p f⟩
  | setTiming p => exact ⟨_, rfl, h.ask _ _ fun f t => SameArray.setTiming t p f⟩
  | guardLevelChange g high => exact ⟨_, rfl, h.same (SameArray.guardLevel s g high)⟩
  | settleTimerExpiry g => exact ⟨_, rfl, h.expire (.settle g)⟩
  | idleTimerExpiry w => exact ⟨_, rfl, h.expire (.idle w)⟩
  | leaseExpiry b => exact ⟨_, rfl, h.expire (.lease b)⟩
  | resumeGapExpiry => exact ⟨_, rfl, h.expireResumeGap⟩
  | suspensionTaken => exact ⟨_, rfl, h.takeSuspension⟩
  | readServiceCompletion => exact ⟨_, rfl, h.completeRead⟩
  | programStepCompletion => exact ⟨_, rfl, h.completeProgram⟩
  | sectorEraseCompletion => exact ⟨_, rfl, h.completeErase⟩
  | tableSaveCompletion => exact ⟨_, rfl, h.completeSave⟩
  | fuseWriteCompletion => exact ⟨_, rfl, h.completeFuse⟩
  | byteReceived p b => exact ⟨_, rfl, h.receiveByte p b⟩

/-- Settles O58: a step is a unit of time (`State.Settled.elapse`) or a command (`State.Settled.exec`). -/
theorem everyStepKeepsTheArraySettled : Obligations.EveryStepKeepsTheArraySettled := by
  intro s t h hs
  unfold step at hs
  split at hs
  · cases hs
    exact h.elapse
  · next c rest _ =>
    have taken : State.Settled { s with pending := rest } := h.same ⟨rfl, rfl, rfl, rfl⟩
    obtain ⟨u, hu, settled⟩ := taken.exec c
    obtain rfl : u = t := by simpa [hu] using hs
    exact settled

end Sys2Proof.Machine
end

section
/-! PROOF. What a job may meet: frozen and torn sectors, and the checks at its start and at the boundaries of its steps (R118,
R124, R125, R130, R159, R169). -/

namespace Sys2Proof.Machine

/-! ### Frozen and torn sectors (R159, R169) -/

theorem Range.hasSector_iff (r : Range) (n : Nat) :
    r.hasSector n = true ↔ r.base ≤ n * 4096 ∧ (n + 1) * 4096 ≤ r.base + 2 ^ r.k := by
  rw [Range.hasSector, Bool.and_eq_true, decide_eq_true_iff, decide_eq_true_iff]
  rfl

/-- R159: a complete fuse entry or a reservation freezes the sectors inside its range. -/
theorem State.sectorFrozen_iff (s : State) (n : Nat) : s.sectorFrozen n = true ↔
    (∃ e ∈ s.fuses.toList, e ≠ FuseSlot.blank ∧ e.base.toNat ≤ n * 4096 ∧
      (n + 1) * 4096 ≤ e.base.toNat + 2 ^ e.k.toNat) ∨
    (∃ r ∈ s.reservations, r.range.base ≤ n * 4096 ∧ (n + 1) * 4096 ≤ r.range.base + 2 ^ r.range.k) := by
  unfold State.sectorFrozen State.frozenRanges
  rw [List.any_append, Bool.or_eq_true, List.any_map, List.any_map, List.any_filter, List.any_eq_true, List.any_eq_true]
  simp only [Function.comp_apply, Bool.and_eq_true, Range.hasSector_iff, FuseSlot.written, bne_iff_ne, FuseSlot.range]

theorem State.sectorTorn_iff (s : State) (n : Nat) : s.sectorTorn n = true ↔ ∃ e ∈ s.torn, e.sector = n := by
  simp [State.sectorTorn]

/-- R118: an erase of a range meets each of its sectors. -/
theorem State.rangeTouchesFrozen_eq (s : State) (r : Range) : s.rangeTouchesFrozen r =
    (List.range (2 ^ r.k / 4096)).any (fun i => s.sectorFrozen (r.base / 4096 + i)) := rfl

theorem State.rangeTouchesFrozen_iff (s : State) (r : Range) : s.rangeTouchesFrozen r = true ↔
    ∃ i, i < 2 ^ r.k / 4096 ∧ s.sectorFrozen (r.base / 4096 + i) = true := by
  simp [State.rangeTouchesFrozen_eq]

/-! ### Start and boundary checks (R124, R130) -/

section
variable {s : State} {j : Job} {w : Slot} {x : Window}

/-- The guard input comes before the latch. -/
theorem State.windowStops_of_window (hw : s.window w = some x) : s.windowStops w =
    if s.guardReads x.fields.settings.guard = true then some .guarded
    else if x.latchOpen = false then some .latchShut else none := by
  unfold State.windowStops
  simp only [hw, Bool.not_eq_true']

/-- R124: a job of a window meets a frozen target first, and then what its window gives. -/
theorem State.startCheck_of_target {frozen : Bool}
    (h : (∃ a n b, j.work = .program w a n b ∧ frozen = s.sectorFrozen (a / 4096)) ∨
      (∃ n, j.work = .eraseSector w n ∧ frozen = s.sectorFrozen n) ∨
      (∃ r, j.work = .eraseWindow w r ∧
        frozen = (List.range (2 ^ r.k / 4096)).any (fun i => s.sectorFrozen (r.base / 4096 + i)))) :
    s.startCheck j = if frozen = true then some .frozen else s.windowStops w := by
  unfold State.startCheck
  obtain ⟨a, n, b, work, rfl⟩ | ⟨n, work, rfl⟩ | ⟨r, work, rfl⟩ := h
  · rw [work]
    rfl
  · rw [work]
  · rw [work, ← State.rangeTouchesFrozen_eq]

/-- R125. -/
theorem State.startCheck_saveTable (h : j.work = .saveTable) : s.startCheck j = none := by
  unfold State.startCheck
  rw [h]

/-- R125. -/
theorem State.startCheck_freezeWindow {r : Range} (h : j.work = .freezeWindow w r) : s.startCheck j = none := by
  unfold State.startCheck
  rw [h]

/-- R130: the boundary checks of an ERASE-WINDOW, in their order. -/
theorem State.boundaryCheck_eraseWindow {r : Range} (hw : s.window w = some x) (h : j.work = .eraseWindow w r) :
    s.boundaryCheck j = if j.stopRequested = true then some (.cancelled, .none)
      else if x.latchOpen = false then some (.stopped, .latchShut)
      else if s.sectorFrozen (r.base / 4096 + j.sectorsDone) = true then some (.stopped, .frozen) else none := by
  have latch : s.latchIsOpen j.work.slot? = x.latchOpen := by simp only [h, JobWork.slot?, State.latchIsOpen, hw]
  have sector : j.nextSector = r.base / 4096 + j.sectorsDone := by
    simp only [Job.nextSector, h]
    rfl
  unfold State.boundaryCheck
  simp only [latch, sector, Bool.not_eq_true']

end

/-- Settles O26: each check by its equation, outcome by outcome, and each target by what it names. -/
theorem frozenSectorsAndStartChecks : Obligations.FrozenSectorsAndStartChecks := by
  refine ⟨fun s j w x hw => ⟨fun frozen target => ?_, State.startCheck_saveTable, fun r => State.startCheck_freezeWindow,
    fun r work => ?_⟩, fun s n => ⟨s.sectorFrozen_iff n, s.sectorTorn_iff n, fun _ _ _ => rfl, fun _ => rfl,
    fun x w => s.rangeTouchesFrozen_iff x.fields.range⟩⟩
  · rw [State.startCheck_of_target target, State.windowStops_of_window hw]
    refine ⟨fun hit => ?_, fun clear guarded => ?_, fun clear free shut => ?_, fun clear free opened => ?_⟩
    · rw [if_pos hit]
    · simp [clear, guarded]
    · simp [clear, free, shut]
    · simp [clear, free, opened]
  · rw [State.boundaryCheck_eraseWindow hw work]
    refine ⟨fun stop => ?_, fun go shut => ?_, fun go opened hit => ?_, fun go opened clear => ?_⟩
    · rw [if_pos stop]
    · simp [go, shut]
    · simp [go, opened, hit]
    · simp [go, opened, clear]

end Sys2Proof.Machine
end

section
/-! PROOF. How jobs end (R132), and the step completions that end them: a page program (R24, R26, R127) and a sector erase (R25,
R128, R129, R169). -/

namespace Sys2Proof.Machine

/-! ### The ending of a job (R132) -/

/-- An ending with its notice is a silent ending and the notice. -/
theorem State.endJob_notify (s : State) (j : Job) (st : EndStatus) (r : EndReason) (d : Nat) (notify : Bool) :
    s.endJob j st r d notify = (s.endJob j st r d false).notifyEnd j st r d notify := by
  cases notify <;> rfl

/-- JOB_END goes to the owner alone (R133). -/
theorem State.port_notifyEnd (s : State) (j : Job) (st : EndStatus) (r : EndReason) (d : Nat) (notify : Bool) (q : Port) :
    (s.notifyEnd j st r d notify).port q =
      (s.port q).noted (notify = true ∧ q = j.owner) (.jobEnd j.id j.work.kind st r d) := by
  unfold State.notifyEnd PortLink.noted
  cases notify with
  | false => simp
  | true =>
    simp only [if_true, true_and]
    rw [State.port_post]
    split
    · next own => rw [own]
    · rfl

/-- Settles O32: the silent ending part by part (`State.endJob_silent`), and the notice on top of it. -/
theorem jobEndsInOneEvent : Obligations.JobEndsInOneEvent := by
  intro s j st reason detail notify
  have removed := s.endJob_silent j st reason detail
  obtain ⟨_, _, _, offered⟩ := s.endJob_spec j st reason detail notify
  have ports := congrArg State.ports removed.rest
  have links := State.port_notifyEnd (s.endJob j st reason detail false) j st reason detail notify
  refine ⟨_, rfl, ?_⟩
  rw [State.endJob_notify] at offered ⊢
  obtain ⟨ps, shape⟩ := LinkShape.notifyEnd (s.endJob j st reason detail false) j st reason detail notify
  rw [shape] at offered links ⊢
  refine ⟨removed.jobs, removed.freed, removed.buffers, removed.reservations, fun w x slot hw => ?_, removed.windows,
    fun p => ?_, offered, ?_⟩
  · refine (removed.synced w slot).trans ?_
    rw [hw]
    rfl
  · rw [links, State.port, ports]
    rfl
  · exact congrArg (fun t : State => { t with ports := s.ports }) removed.rest

/-! ### The completion of a page program (R24, R26, R127) -/

/-- R26: the count is that of the places at which the two differ. -/
theorem Memory.countDiff_eq (m : Memory) (a : Nat) (bs : List Byte) : Memory.countDiff m a bs =
    ((List.range bs.length).filter (fun i => Memory.read m (a + i) != bs.getD i 0)).length := by
  induction bs generalizing a with
  | nil => rfl
  | cons b bs ih =>
    have later : ((List.range bs.length).filter ((fun i => Memory.read m (a + i) != (b :: bs).getD i 0) ∘ Nat.succ)) =
        (List.range bs.length).filter (fun i => Memory.read m (a + 1 + i) != bs.getD i 0) := by
      refine List.filter_congr fun i _ => ?_
      simp only [Function.comp_apply, Nat.succ_eq_add_one, List.getD_cons_succ, Nat.add_comm 1 i, Nat.add_assoc]
    rw [List.length_cons, List.range_succ_eq_map, List.filter_cons, List.filter_map, later, Memory.countDiff, ih]
    by_cases same : Memory.read m a = b
    · simp [same]
    · simp [same, Nat.add_comm]

/-- What a completed page program leaves before its job ends. -/
def State.pageProgrammed (s : State) (a n : Nat) (b : BufferNo) : State :=
  State.stepDone { s with mem := Memory.programRange s.mem a (s.stepData b n) }

/-- R26: the number of bytes that a completed page program leaves other than their buffer byte. -/
def State.mismatches (s : State) (a n : Nat) (b : BufferNo) : Nat :=
  Memory.countDiff (s.pageProgrammed a n b).mem a (s.stepData b n)

theorem State.completeProgram_of_program {s : State} {a n : Nat} {b : BufferNo} {j : Job}
    (h : s.runningStep = some (.program a n b)) (hj : s.activeJob = some j) : s.completeProgram =
    ((s.pageProgrammed a n b).endJob j (if s.mismatches a n b = 0 then .done else .mismatch) .none
      (s.mismatches a n b) true).arbitrate := by
  unfold State.completeProgram
  rw [h]
  exact congrArg State.arbitrate (State.endActive_of_active (t := s.pageProgrammed a n b) hj rfl _ _)

theorem State.mismatches_eq (s : State) (a n : Nat) (b : BufferNo) : s.mismatches a n b = ((List.range n).filter
    (fun i => Memory.read (s.pageProgrammed a n b).mem (a + i) != Memory.read (s.buffer b).data i)).length := by
  unfold State.mismatches
  rw [Memory.countDiff_eq, s.stepData_length]
  refine congrArg List.length (List.filter_congr fun i hi => ?_)
  rw [s.stepData_getD b (List.mem_range.1 hi)]

/-- R24: the bytes of the target are ANDed with those of the buffer. -/
theorem State.read_pageProgrammed {s : State} (wf : s.mem.wf = true) (a n : Nat) (b : BufferNo) (x : Nat) :
    Memory.read (s.pageProgrammed a n b).mem x =
      if a ≤ x ∧ x < a + n then Memory.read s.mem x &&& Memory.read (s.buffer b).data (x - a)
      else Memory.read s.mem x := by
  have bytes := Memory.read_programRange wf a x (s.stepData b n)
  rw [s.stepData_length b n] at bytes
  refine bytes.trans ?_
  split
  · next inside => rw [s.stepData_getD b (by omega)]
  · rfl

/-- Settles O29: the bytes and the count of the completed page program, and the job that runs ends. -/
theorem programCompletionAndsTheBuffer : Obligations.ProgramCompletionAndsTheBuffer := by
  intro s a n b j wf running program active
  have completed := State.completeProgram_of_program (State.runningStep_of_running running program) active
  refine ⟨s.pageProgrammed a n b, s.mismatches a n b, congrArg Host.Outcome.next completed, fun i hi => ?_,
    fun x outside => ?_, Memory.programRange_wf wf a _, s.mismatches_eq a n b, rfl, rfl, rfl, rfl, rfl⟩
  · rw [State.read_pageProgrammed wf, if_pos (by omega), Nat.add_sub_cancel_left]
  · rw [State.read_pageProgrammed wf, if_neg (by omega)]

/-! ### The completion of a sector erase (R25, R128, R129, R169) -/

theorem JobWork.isEraseWindow_false {work : JobWork} (h : ∀ w r, work ≠ .eraseWindow w r) : work.isEraseWindow = false := by
  cases work with
  | eraseWindow w r => exact absurd rfl (h w r)
  | _ => rfl

section
variable {s : State} {n : Nat} {j : Job} {w : Slot} {r : Range}

/-- What a completed sector erase leaves before its job goes on or ends. -/
def State.sectorErased (s : State) (n : Nat) : State :=
  State.stepDone { s with
    mem := Memory.eraseRange s.mem (n * 4096) 4096
    torn := s.torn.filter (fun e => e.sector != n) }

theorem State.completeErase_of_erase (h : s.runningStep = some (.erase n)) :
    s.completeErase = (s.sectorErased n).eraseStepEnds.arbitrate := by
  unfold State.completeErase
  rw [h]
  rfl

/-- R128: an ERASE-SECTOR has done its one sector. -/
theorem State.eraseStepEnds_of_other (hj : s.activeJob = some j) (other : ∀ w r, j.work ≠ .eraseWindow w r) :
    s.eraseStepEnds = s.endJob j .done .none 1 true := by
  unfold State.eraseStepEnds
  simp only [hj, JobWork.isEraseWindow_false other, Bool.false_eq_true, if_false]

/-- R129: an ERASE-WINDOW has one sector more done, and ends with its last. -/
theorem State.eraseStepEnds_of_eraseWindow (hj : s.activeJob = some j) (work : j.work = .eraseWindow w r) :
    s.eraseStepEnds = if j.sectorsDone + 1 = 2 ^ r.k / 4096 then s.endJob j .done .none (j.sectorsDone + 1) true
      else (s.modJob j.id (fun k => { k with sectorsDone := k.sectorsDone + 1 })).formOffer := by
  have total : j.sectorsTotal = 2 ^ r.k / 4096 := by
    simp only [Job.sectorsTotal, work]
    rfl
  have window : j.work.isEraseWindow = true := by
    rw [work]
    rfl
  unfold State.eraseStepEnds
  simp only [hj, window, total, if_true]

/-- R123, R129: an ACTIVE ERASE-WINDOW that has sectors left offers its next step. -/
theorem State.offerNow_of_sectorsLeft (hj : s.activeJob = some j) (work : j.work = .eraseWindow w r)
    (active : j.state = .active) (free : s.arrayOp = .none) :
    (s.modJob j.id (fun k => { k with sectorsDone := k.sectorsDone + 1 })).offerNow = .nextStep j.id := by
  have goesOn := State.activeJob_modJob hj (fun k => { k with sectorsDone := k.sectorsDone + 1 }) fun _ => rfl
  have offered := State.offerNow_nextStep goesOn active (by simp only [work]; rfl) free
  exact offered

end

/-- Settles O30: the sector erased (`State.sectorErased`), and the job that runs by its kind and the sectors it has left. -/
theorem eraseCompletionClearsTheSector : Obligations.EraseCompletionClearsTheSector := by
  intro s n j running erase active
  have row : exec .sectorEraseCompletion s = .next (s.sectorErased n).eraseStepEnds.arbitrate :=
    congrArg Host.Outcome.next (State.completeErase_of_erase (State.runningStep_of_running running erase))
  have still : (s.sectorErased n).activeJob = some j := active
  refine ⟨s.sectorErased n, Memory.read_eraseRange s.mem (n * 4096) 4096, rfl, rfl, rfl, rfl, rfl, rfl, fun other => ?_,
    fun w r work => ⟨fun last => ?_, fun more runs => ?_⟩⟩
  · rw [row, State.eraseStepEnds_of_other still other]
  · rw [row, State.eraseStepEnds_of_eraseWindow still work, if_pos last]
  · rw [row, State.eraseStepEnds_of_eraseWindow still work, if_neg more]
    unfold State.formOffer
    rw [State.offerNow_of_sectorsLeft still work runs rfl]
    rfl

end Sys2Proof.Machine
end

section
/-! PROOF. A write-side request that is accepted as a job (R109, R115, R116, R119), and CANCEL by the state and kind of its job
(R134). -/

namespace Sys2Proof.Machine

/-! ### Acceptance of a write-side request (R119) -/

/-- A notice from the trap unit reaches the watch port alone, where it is to be noted (R84, R85). -/
theorem State.port_noteTrap (s : State) (note : Bool) (x : Window) (n : Notice) (q : Port) :
    (s.noteTrap note x n).port q = (s.port q).noted (note = true ∧ x.fields.settings.watch = some q) n := by
  unfold State.noteTrap State.postWatch PortLink.noted
  cases note with
  | false => simp
  | true =>
    simp only [if_true, true_and]
    cases x.fields.settings.watch with
    | none => simp
    | some p =>
      simp only [Option.some.injEq]
      rw [State.port_post]
      by_cases own : q = p
      · rw [if_pos own, if_pos own.symm, own]
      · rw [if_neg own, if_neg (Ne.symm own)]

section
variable {s : State} {p : Port} {f : Frame} {w : Slot} {x : Window} {req : WriteReq}

/-- The state in which a write-side request has joined the job list with its buffer bound, before its window, its notice and
its answer. -/
def State.joined (s : State) (p : Port) (w : Slot) (x : Window) (req : WriteReq) : State :=
  (s.addJob p (s.workOf w x req)).bindBuffer p req s.newJobId

/-- The acceptance of a write-side request up to the decision of the sequencer. -/
def State.accepted (s : State) (p : Port) (f : Frame) (w : Slot) (x : Window) (req : WriteReq) (note : Bool) : State :=
  State.formOffer ((((s.joined p w x req).syncIdle w true).noteTrap note x
    (.trap w p req.access (req.address x) (s.writeLength req x) 0)).answer p f .accepted [s.newJobId])

theorem State.acceptWrite_eq (s : State) (p : Port) (f : Frame) (w : Slot) (x : Window) (req : WriteReq) (note : Bool) :
    s.acceptWrite p f w x req note = (s.accepted p f w x req note).arbitrate := rfl

/-- R83 to R85: the write trap lets the request pass, with its notice but for OFF. -/
theorem State.judgeWrite_of_accepted (ha : s.acceptCheck p req = .ok (w, x))
    (trap : x.fields.settings.writeTrap = .off ∨ x.fields.settings.writeTrap = .note ∨
      (x.fields.settings.writeTrap = .hold ∧ x.fields.settings.watch = some p)) :
    s.judgeWrite p f req = (s.accepted p f w x req (x.fields.settings.writeTrap != .off)).arbitrate := by
  unfold State.judgeWrite
  rw [ha]
  obtain off | note | ⟨hold, own⟩ := trap
  · simp only [off, trapAction, State.acceptWrite_eq]
    rfl
  · simp only [note, trapAction, State.acceptWrite_eq]
    rfl
  · simp only [hold, own, trapAction, if_true, State.acceptWrite_eq]
    rfl

/-- Binding a buffer writes the buffers only. -/
theorem State.bindBuffer_shape (s : State) (p : Port) (req : WriteReq) (id : Byte) :
    ∃ bs, s.bindBuffer p req id = { s with buffers := bs } := by
  unfold State.bindBuffer
  split <;> exact ⟨_, rfl⟩

/-- R109: the named buffer is BOUND to the job. -/
theorem State.buffer_bindBuffer (s : State) (p : Port) (a : Nat) (b : BufferNo) (id : Byte) :
    (s.bindBuffer p (.program a b) id).buffer b =
      { s.buffer b with state := .bound p (s.buffer b).state.extent id } := State.buffer_setBuffer_same _ _ _

theorem State.buffer_bindBuffer_other {b : BufferNo} (h : ∀ a, req ≠ .program a b) (s : State) (p : Port) (id : Byte) :
    (s.bindBuffer p req id).buffer b = s.buffer b := by
  unfold State.bindBuffer
  split
  · next a c => exact State.buffer_setBuffer_ne _ _ fun same => h a (by rw [same])
  · rfl

theorem State.joined_shape (s : State) (p : Port) (w : Slot) (x : Window) (req : WriteReq) :
    ∃ bs, s.joined p w x req = { s.addJob p (s.workOf w x req) with buffers := bs } :=
  State.bindBuffer_shape _ p req s.newJobId

/-- Of the joined state, the acceptance changes port links, windows and the offer. -/
theorem State.accepted_shape (s : State) (p : Port) (f : Frame) (w : Slot) (x : Window) (req : WriteReq) (note : Bool) :
    ∃ ps ws o, s.accepted p f w x req note = { s.joined p w x req with ports := ps, windows := ws, offer := o } := by
  unfold State.accepted
  obtain ⟨ws, synced⟩ := (s.joined p w x req).syncIdle_shape w true
  rw [synced]
  obtain ⟨ps, noted⟩ := LinkShape.noteTrap { s.joined p w x req with windows := ws } note x
    (.trap w p req.access (req.address x) (s.writeLength req x) 0)
  rw [noted]
  exact ⟨_, _, _, rfl⟩

theorem State.jobs_accepted (s : State) (p : Port) (f : Frame) (w : Slot) (x : Window) (req : WriteReq) (note : Bool) :
    (s.accepted p f w x req note).jobs = s.jobs ++ [Job.fresh s.newJobId p (s.workOf w x req)] := by
  obtain ⟨_, _, _, accepted⟩ := s.accepted_shape p f w x req note
  obtain ⟨_, joined⟩ := s.joined_shape p w x req
  rw [accepted, joined]
  rfl

/-- Besides job list, job id, buffers, windows, port links and offer, an acceptance changes nothing. -/
theorem State.accepted_frame (s : State) (p : Port) (f : Frame) (w : Slot) (x : Window) (req : WriteReq) (note : Bool) :
    { s.accepted p f w x req note with
      jobs := s.jobs, nextJobId := s.nextJobId, buffers := s.buffers, windows := s.windows, ports := s.ports
      offer := s.offer } = s ∧
    (s.accepted p f w x req note).nextJobId = idAfter s.newJobId := by
  obtain ⟨_, _, _, accepted⟩ := s.accepted_shape p f w x req note
  obtain ⟨_, joined⟩ := s.joined_shape p w x req
  rw [accepted, joined]
  exact ⟨rfl, rfl⟩

theorem State.buffer_accepted (s : State) (p : Port) (f : Frame) (w : Slot) (x : Window) (req : WriteReq) (note : Bool)
    (b : BufferNo) : (s.accepted p f w x req note).buffer b = (s.joined p w x req).buffer b := by
  obtain ⟨_, _, _, accepted⟩ := s.accepted_shape p f w x req note
  rw [accepted]
  rfl

/-- The work of a write-side request names the window that the decode found (R116). -/
theorem State.workOf_slot (s : State) (w : Slot) (x : Window) (req : WriteReq) : (s.workOf w x req).slot? = some w := by
  cases req <;> rfl

theorem State.window_accepted (s : State) (p : Port) (f : Frame) (w : Slot) (x : Window) (req : WriteReq) (note : Bool)
    (v : Slot) : (s.accepted p f w x req note).window v = ((s.joined p w x req).syncIdle w true).window v :=
  (LinkShape.noteTrap ((s.joined p w x req).syncIdle w true) note x
    (.trap w p req.access (req.address x) (s.writeLength req x) 0)).window_eq v

/-- R69, R70: with the new job live, the idle timer of an OPEN latch is HELD, or STOPPED where the window has no idle
period. -/
theorem State.window_accepted_same (hw : s.window w = some x) (opened : x.latchOpen = true) (note : Bool) :
    (s.accepted p f w x req note).window w =
      some { x with idle := if x.fields.settings.idlePeriod = 0 then .stopped else .held } := by
  obtain ⟨_, joined⟩ := s.joined_shape p w x req
  have live : 0 < (s.joined p w x req).liveJobs w := by
    rw [joined, State.liveJobs, List.length_pos_iff_exists_mem]
    refine ⟨Job.fresh s.newJobId p (s.workOf w x req), List.mem_filter.2 ⟨List.mem_append_right _ List.mem_cons_self, ?_⟩⟩
    exact beq_iff_eq.2 (s.workOf_slot w x req)
  have still : (s.joined p w x req).window w = some x := by
    rw [joined]
    exact hw
  rw [State.window_accepted, State.syncIdle, still]
  refine (State.window_setWindow_same _ _ _).trans ?_
  rw [Window.timer_reload, if_pos live]
  simp only [opened, Bool.true_eq_false, false_or]

theorem State.window_accepted_other {v : Slot} (other : v ≠ w) (s : State) (p : Port) (f : Frame) (x : Window)
    (req : WriteReq) (note : Bool) : (s.accepted p f w x req note).window v = s.window v := by
  obtain ⟨_, joined⟩ := s.joined_shape p w x req
  rw [State.window_accepted, State.syncIdle]
  split
  · rw [joined]
    rfl
  · rw [State.window_setWindow_ne _ _ other, joined]
    rfl

/-- The port links before the notice and the answer are those of the request being judged. -/
theorem State.port_joined (s : State) (p : Port) (w : Slot) (x : Window) (req : WriteReq) (q : Port) :
    ((s.joined p w x req).syncIdle w true).port q = s.port q := by
  obtain ⟨_, synced⟩ := (s.joined p w x req).syncIdle_shape w true
  obtain ⟨_, joined⟩ := s.joined_shape p w x req
  rw [synced, joined]
  rfl

/-- The watch port has its notice, and the requester its answer. -/
theorem State.port_accepted (h : s.taken p = some f) (note : Bool) (q : Port) :
    ((s.judging p).accepted p f w x req note).port q =
      PortLink.noted (if q = p then (s.port p).answered f .accepted [s.newJobId] else s.port q)
        (note = true ∧ x.fields.settings.watch = some q)
        (.trap w p req.access (req.address x) (s.writeLength req x) 0) := by
  have links := State.port_noteTrap (((s.judging p).joined p w x req).syncIdle w true) note x
    (.trap w p req.access (req.address x) ((s.judging p).writeLength req x) 0)
  simp only [State.port_joined, State.port_judging h] at links
  refine (State.port_answer _ p q f .accepted [s.newJobId]).trans ?_
  rw [links, links]
  by_cases own : q = p
  · subst own
    simp only [if_true]
    exact PortLink.answered_noted _ _ _ _ _ _
  · simp only [if_neg own]
    rfl

/-- R123: the offer is the one that the job list with the new job calls for. -/
theorem State.offer_accepted (s : State) (p : Port) (f : Frame) (w : Slot) (x : Window) (req : WriteReq) (note : Bool) :
    (s.accepted p f w x req note).offer = (s.addJob p (s.workOf w x req)).offerNow := by
  have lawful : (s.accepted p f w x req note).OfferLawful := State.formOffer_lawful _
  refine Eq.trans lawful (State.offerNow_congr ?_ ?_)
  · exact s.jobs_accepted p f w x req note
  · obtain ⟨_, _, _, accepted⟩ := s.accepted_shape p f w x req note
    obtain ⟨_, joined⟩ := s.joined_shape p w x req
    rw [accepted, joined]

end

/-- Settles O34: the row hands the request to `judgeWrite`, which accepts it (`State.accepted`), and each part of the
acceptance is read off. -/
theorem writeRequestIsAcceptedAsAJob : Obligations.WriteRequestIsAcceptedAsAJob := by
  intro s c p f req w x asks checked trap
  obtain ⟨hw, checks⟩ := State.acceptCheck_ok checked
  obtain ⟨_, _, opened, _, room⟩ := State.writeChecks_none checks
  obtain ⟨k, owner, asked, row, judge⟩ := asks.row
  have passed : (s.judging p).acceptCheck p req = .ok (w, x) := s.acceptCheck_judging p req ▸ checked
  obtain ⟨frame, next⟩ := (s.judging p).accepted_frame p f w x req (x.fields.settings.writeTrap != .off)
  refine ⟨(s.judging p).accepted p f w x req (x.fields.settings.writeTrap != .off), s.newJobId, s.workOf w x req,
    exec_of_asks asked row ((judge _).trans (State.judgeWrite_of_accepted passed trap)),
    State.newJobId_firstFree (by omega), next, State.jobs_accepted _ _ _ _ _ _ _, ?_, ?_, ?_, fun b other => ?_,
    State.window_accepted_same (s := s.judging p) hw opened _, fun v other => State.window_accepted_other other _ _ _ _ _ _,
    fun q => ?_, fun empty => ?_, fun jobs offer => ?_, ?_⟩
  · rintro a b rfl
    exact ⟨rfl, (State.buffer_accepted _ _ _ _ _ _ _ b).trans (State.buffer_bindBuffer _ p a b s.newJobId)⟩
  · rintro n rfl
    rfl
  · rintro v rfl
    rfl
  · exact (State.buffer_accepted _ _ _ _ _ _ _ b).trans (State.buffer_bindBuffer_other other _ p _)
  · rw [State.port_accepted asked.1]
    exact PortLink.noted_congr (by rw [bne_iff_ne]) _ _
  · exact (State.offer_accepted _ _ _ _ _ _ _).trans (State.offerNow_addJob_of_empty (s := s.judging p) empty p _)
  · exact ((State.offer_accepted _ _ _ _ _ _ _).trans
      (State.offerNow_addJob_of_jobs (s := s.judging p) jobs p _)).trans offer.symm
  · exact congrArg (fun t : State => { t with ports := s.ports }) frame

/-! ### CANCEL (R134) -/

section
variable {s : State} {p : Port} {f : Frame} {j : Job}

theorem State.cancel_of_none (unknown : s.findJob (byteAt f.body 0) = none) :
    s.cancel p f = s.answer p f .noSuchJob [] := by
  unfold State.cancel
  rw [unknown]

theorem State.cancel_of_other (found : s.findJob (byteAt f.body 0) = some j) (owner : p ≠ j.owner)
    (admin : p ≠ s.adminPort) : s.cancel p f = s.answer p f .notOwner [] := by
  unfold State.cancel
  rw [found]
  exact if_pos ⟨owner, admin⟩

/-- The owner and the admin port may cancel: the job's state decides, and then its kind. -/
theorem State.cancel_of_right (found : s.findJob (byteAt f.body 0) = some j) (right : p = j.owner ∨ p = s.adminPort) :
    s.cancel p f =
      if j.state = .queued then ((s.endJob j .cancelled .none 0 true).answer p f .ok [0x00]).arbitrate
      else if j.work.isEraseWindow = true then
        (s.modJob j.id (fun k => { k with stopRequested := true })).answer p f .ok [0x01]
      else s.answer p f .tooLate [] := by
  have mayCancel : ¬(p ≠ j.owner ∧ p ≠ s.adminPort) := by
    rintro ⟨owner, admin⟩
    exact right.elim owner admin
  unfold State.cancel
  rw [found]
  exact if_neg mayCancel

end

/-- Settles O35: the checks of CANCEL in their order, and then its outcome by the job's state and kind. -/
theorem cancelByTheStateOfTheJob : Obligations.CancelByTheStateOfTheJob := by
  intro s p f h
  refine ⟨fun unknown => ?_, fun j found => ⟨fun owner admin => ?_, fun right => ?_⟩⟩
  · exact State.reports h rfl (State.cancel_of_none (s := s.judging p) (State.findJob_none unknown)) rfl
  · exact State.reports h rfl (State.cancel_of_other (s := s.judging p) found owner admin) rfl
  have outcome := State.cancel_of_right (s := s.judging p) found right
  refine ⟨fun queued => ?_, fun w r started work => ?_, fun started other => ?_⟩
  · rw [if_pos queued] at outcome
    exact exec_of_asks h rfl outcome
  · rw [if_neg started, if_pos (by rw [work]; rfl)] at outcome
    exact ⟨_, exec_of_asks h rfl outcome, State.linksAnswer_of_ports h.1 rfl _ _, rfl, rfl⟩
  · rw [if_neg started, if_neg (ne_true_of_eq_false (JobWork.isEraseWindow_false other))] at outcome
    exact State.reports h rfl outcome rfl

end Sys2Proof.Machine
end

section
/-! PROOF. The sequencer: which case a decision takes (R144, R145), where decisions end (R143), what each one grants (R146,
R147, R152), and how a suspension is requested and taken (R149 to R151). -/

namespace Sys2Proof.Machine

/-! ### The next reader (R145) -/

/-- The place of a port in the order in which reads are considered: 0 for the first port after the pointer. -/
def readRank (pointer p : Port) : Nat := (p.idx + 3 - pointer.idx) % 4

theorem readOrder_sorted (pointer : Port) :
    (readOrder pointer).Pairwise (fun p q => readRank pointer p < readRank pointer q) := by
  cases pointer <;> decide

/-- In a list of rising rank, the first element that passes is the one of lowest rank. -/
theorem find?_eq_some_iff_of_sorted {α : Type} {rank : α → Nat} {pass : α → Bool} {l : List α} {b : α}
    (sorted : l.Pairwise (fun x y => rank x < rank y)) (member : b ∈ l) :
    l.find? pass = some b ↔ pass b = true ∧ ∀ a ∈ l, rank a < rank b → pass a = false := by
  induction l with
  | nil => exact absurd member List.not_mem_nil
  | cons c l ih =>
    obtain ⟨first, rest⟩ := List.pairwise_cons.1 sorted
    obtain rfl | later := List.mem_cons.1 member
    · have lowest : ∀ a ∈ b :: l, ¬rank a < rank b := by
        intro a ha
        obtain rfl | ha := List.mem_cons.1 ha
        · exact Nat.lt_irrefl _
        · exact Nat.lt_asymm (first a ha)
      refine ⟨fun found => ⟨List.find?_some found, fun a ha low => absurd low (lowest a ha)⟩, fun ⟨passes, _⟩ => ?_⟩
      exact List.find?_cons_of_pos passes
    · cases passes : pass c with
      | true =>
        rw [List.find?_cons_of_pos passes]
        constructor
        · rintro ⟨⟩
          exact absurd (first b later) (Nat.lt_irrefl _)
        · rintro ⟨_, lower⟩
          exact absurd (passes.symm.trans (lower c List.mem_cons_self (first b later))) nofun
      | false =>
        rw [List.find?_cons_of_neg (ne_true_of_eq_false passes), ih rest later, List.forall_mem_cons]
        simp only [passes, implies_true, true_and]

/-- R145: the next reader is the port of lowest rank among those with a pending read. -/
theorem State.nextReader_iff (s : State) (p : Port) : s.nextReader = some p ↔
    (s.seq.pendingReads.get p).isSome = true ∧
      ∀ q, readRank s.seq.pointer q < readRank s.seq.pointer p → s.seq.pendingReads.get q = none := by
  unfold State.nextReader
  rw [find?_eq_some_iff_of_sorted (readOrder_sorted s.seq.pointer) (readOrder_mem _ p)]
  simp only [readOrder_mem, forall_true_left, Option.isSome_eq_false_iff, Option.isNone_iff_eq_none]

theorem State.pendingReadCount_pos (s : State) :
    0 < s.pendingReadCount ↔ ∃ p, (s.seq.pendingReads.get p).isSome = true := by
  unfold State.pendingReadCount
  rw [List.length_pos_iff_exists_mem]
  refine exists_congr fun p => ?_
  simp only [List.mem_filter, mem_portAll, true_and]

/-! ### The decision (R144) -/

section
variable {s : State} {p : Port}

theorem State.decision_of_suspended (suspended : s.jobSuspended = true) (reader : s.nextReader = some p) :
    s.decision = if s.seq.readsServed < 4 then .read p else .resume := by
  unfold State.decision
  rw [if_pos suspended, reader]
  rfl

theorem State.decision_of_suspended_none (suspended : s.jobSuspended = true) (reader : s.nextReader = none) :
    s.decision = .resume := by
  unfold State.decision
  rw [if_pos suspended, reader]

theorem State.decision_of_reader (suspended : s.jobSuspended = false) (reader : s.nextReader = some p) :
    s.decision = if s.offer ≠ .none ∧ s.seq.lastGrant = .read then .offer else .read p := by
  unfold State.decision
  rw [if_neg (ne_true_of_eq_false suspended), reader]

theorem State.decision_of_none (suspended : s.jobSuspended = false) (reader : s.nextReader = none) :
    s.decision = if s.offer ≠ .none then .offer else .nothing := by
  unfold State.decision
  rw [if_neg (ne_true_of_eq_false suspended), reader]

end

/-! ### The decisions of one event (R143) -/

theorem State.decideN_of_nothing {s : State} (nothing : s.decision = .nothing) (n : Nat) : State.decideN n s = s := by
  cases n with
  | zero => rfl
  | succ n =>
    unfold State.decideN
    rw [nothing, ite_self]

theorem State.decideN_of_settled {s : State} (h : s.Settled) (n : Nat) : State.decideN n s = s := by
  by_cases idle : s.seq.arrayState = .idle
  · obtain ⟨suspended, reader, offer⟩ := h.2 idle
    refine State.decideN_of_nothing ?_ n
    rw [State.decision_of_none suspended reader, if_neg (not_not_intro offer)]
  · exact State.decideN_busy n s idle

/-- `n + m` decisions are `n` decisions and then `m`. -/
theorem State.decideN_add (n m : Nat) (s : State) : State.decideN (n + m) s = State.decideN m (State.decideN n s) := by
  induction n generalizing s with
  | zero => rw [Nat.zero_add, State.decideN]
  | succ n ih =>
    by_cases idle : s.seq.arrayState = .idle
    · rw [Nat.succ_add, State.decideN, State.decideN, if_pos idle, if_pos idle]
      cases decided : s.decision with
      | read p => exact ih _
      | resume => exact (State.decideN_busy m s.resumeStep nofun).symm
      | offer => exact ih _
      | nothing => exact (State.decideN_of_nothing decided m).symm
    · rw [State.decideN_busy _ s idle, State.decideN_busy _ s idle, State.decideN_busy _ s idle]

/-- From a lawful offer, more decisions than there are jobs and pending reads change nothing. -/
theorem State.decideN_of_enough {s : State} (h : s.OfferLawful) {n : Nat} (enough : s.workLeft < n) :
    State.decideN n s = s.arbitrate := by
  obtain ⟨k, rfl⟩ := Nat.exists_eq_add_of_le enough
  rw [State.decideN_add]
  exact State.decideN_of_settled (State.arbitrate_settled s h) k

/-- One decision more than there are jobs and pending reads. -/
theorem State.arbitrate_eq (s : State) : s.arbitrate = State.decideN (s.workLeft + 1) s := rfl

section
variable {s : State} {p : Port}

theorem State.arbitrate_of_read (idle : s.seq.arrayState = .idle) (decided : s.decision = .read p) :
    s.arbitrate = State.decideN s.workLeft (s.grantRead p) := by
  rw [State.arbitrate_eq, State.decideN, if_pos idle, decided]

theorem State.arbitrate_of_resume (idle : s.seq.arrayState = .idle) (decided : s.decision = .resume) :
    s.arbitrate = s.resumeStep := by
  rw [State.arbitrate_eq, State.decideN, if_pos idle, decided]

theorem State.arbitrate_of_offer (idle : s.seq.arrayState = .idle) (decided : s.decision = .offer) :
    s.arbitrate = State.decideN s.workLeft s.grantOffer := by
  rw [State.arbitrate_eq, State.decideN, if_pos idle, decided]

end

/-! ### What a decision grants (R146, R147) -/

theorem touchesSector_iff (a n sector : Nat) :
    touchesSector a n sector = true ↔ a < (sector + 1) * 4096 ∧ sector * 4096 < a + n := by
  rw [touchesSector, Bool.and_eq_true, decide_eq_true_iff, decide_eq_true_iff]
  rfl

/-- R147: a page program or a sector erase acts on one sector of the main array. -/
theorem ArrayStep.sector_iff (step : Option ArrayStep) (m : Nat) : step.bind ArrayStep.sector? = some m ↔
    (∃ b i l, step = some (.program b l i) ∧ m = b / 4096) ∨ step = some (.erase m) := by
  cases step with
  | none => simp
  | some step => cases step <;> simp [ArrayStep.sector?, Config.sectorSize, eq_comm]

theorem State.readInProgress_iff (s : State) (a n : Nat) : s.readInProgress a n = true ↔ ∃ m,
    ((∃ b i l, s.arrayStep = some (.program b l i) ∧ m = b / 4096) ∨ s.arrayStep = some (.erase m)) ∧
      a < (m + 1) * 4096 ∧ m * 4096 < a + n := by
  simp only [← ArrayStep.sector_iff, ← touchesSector_iff]
  unfold State.readInProgress
  cases s.arrayStep.bind ArrayStep.sector? <;> simp

section
variable {s : State} {p : Port} {r : ReadRecord} {j : Job} {id : Byte} {status : EndStatus} {reason : EndReason}

theorem State.grantRead_of_clear (pending : s.seq.pendingReads.get p = some r)
    (clear : s.readInProgress r.address r.length = false) : s.grantRead p = (s.takeRead p).beginRead p r := by
  unfold State.grantRead
  simp only [pending, clear, Bool.false_eq_true, if_false]

theorem State.grantRead_of_inProgress (pending : s.seq.pendingReads.get p = some r)
    (inProgress : s.readInProgress r.address r.length = true) :
    s.grantRead p = (s.takeRead p).answer p r.frame .inProgress [] := by
  unfold State.grantRead
  simp only [pending, inProgress, if_true]

/-- A step that starts leaves the array busy, and the decisions end. -/
theorem State.arbitrate_of_start (idle : s.seq.arrayState = .idle) (decided : s.decision = .offer)
    (granted : s.grantOffer = s.startStep j) : s.arbitrate = s.startStep j := by
  rw [State.arbitrate_of_offer idle decided, granted]
  refine State.decideN_busy _ _ ?_
  rw [(s.startStep_spec j).1]
  nofun

/-- A job that a failed check ends leaves the array IDLE, and a further decision is made. -/
theorem State.arbitrate_of_end {detail : Nat} (idle : s.seq.arrayState = .idle) (decided : s.decision = .offer)
    (found : s.findJob id = some j) (granted : s.grantOffer = s.endJob j status reason detail true) :
    s.arbitrate = (s.endJob j status reason detail true).arbitrate := by
  obtain ⟨_, _, _, lawful⟩ := s.endJob_spec j status reason detail true
  rw [State.arbitrate_of_offer idle decided, granted]
  exact State.decideN_of_enough lawful (State.endJob_shrinks (State.findJob_mem found) status reason detail true)

/-- R146, R124: the offer of a QUEUED job whose start check passes. -/
theorem State.grantOffer_queued (offer : s.offer = .queued id) (found : s.findJob id = some j)
    (passed : s.startCheck j = none) : s.grantOffer = s.startStep j := by
  unfold State.grantOffer
  simp only [offer, found, passed]

theorem State.grantOffer_queued_failed (offer : s.offer = .queued id) (found : s.findJob id = some j)
    (failed : s.startCheck j = some reason) : s.grantOffer = s.endJob j .failed reason 0 true := by
  unfold State.grantOffer
  simp only [offer, found, failed]

/-- R146, R130: the offer of a next step whose boundary checks pass. -/
theorem State.grantOffer_nextStep (offer : s.offer = .nextStep id) (found : s.findJob id = some j)
    (passed : s.boundaryCheck j = none) : s.grantOffer = s.startStep j := by
  unfold State.grantOffer
  simp only [offer, found, passed]

theorem State.grantOffer_nextStep_failed (offer : s.offer = .nextStep id) (found : s.findJob id = some j)
    (failed : s.boundaryCheck j = some (status, reason)) :
    s.grantOffer = s.endJob j status reason j.sectorsDone true := by
  unfold State.grantOffer
  simp only [offer, found, failed]

end

/-- Settles O24: each case by the equation of `decision` that it falls under, the next reader by its rank, and the end of the
decisions by `arbitrate_settled`. -/
theorem decisionsTakeTheFirstCaseAndSettle : Obligations.DecisionsTakeTheFirstCaseAndSettle := by
  refine ⟨fun s => ⟨fun p reader suspended few => ?_, fun p reader suspended many => ?_, fun reader suspended => ?_,
    fun p reader runs offer last => ?_, fun p reader runs other => ?_, fun reader runs offer => ?_,
    fun reader runs offer => ?_, State.nextReader_iff s⟩, fun s => ⟨fun busy => ?_, fun lawful => ?_⟩⟩
  · rw [State.decision_of_suspended suspended reader, if_pos few]
  · rw [State.decision_of_suspended suspended reader, if_neg (Nat.not_lt.2 many)]
  · exact State.decision_of_suspended_none suspended reader
  · rw [State.decision_of_reader runs reader, if_pos ⟨offer, last⟩]
  · rw [State.decision_of_reader runs reader, if_neg]
    rintro ⟨offer, last⟩
    exact other.elim offer (absurd last)
  · rw [State.decision_of_none runs reader, if_pos offer]
  · rw [State.decision_of_none runs reader, if_neg (not_not_intro offer)]
  · exact State.decideN_busy _ s busy
  · obtain ⟨offered, nothing⟩ := State.arbitrate_settled s lawful
    refine ⟨offered, fun left => ?_⟩
    obtain ⟨suspended, reader, offer⟩ := nothing left
    exact ⟨suspended, State.nextReader_none.1 reader, offer⟩

/-- Settles O25: a read or a resume is granted by its own equation; an offer starts its step or ends its job, and where the
array stays IDLE the decisions that are left are those of a new `arbitrate`. -/
theorem decisionGrants : Obligations.DecisionGrants := by
  intro s idle
  refine ⟨fun p r decided pending clear => ?_, fun p r decided pending inProgress => ?_, State.readInProgress_iff s,
    fun decided => ⟨_, State.arbitrate_of_resume idle decided⟩, fun id j decided offer found passed => ?_,
    fun id j decided offer found passed => ?_, fun id j reason decided offer found failed => ?_,
    fun id j status reason decided offer found failed => ?_⟩
  · rw [State.arbitrate_of_read idle decided, State.grantRead_of_clear pending clear]
    exact State.decideN_busy _ _ nofun
  · have fewer := (State.grantRead_spec (Option.isSome_of_eq_some pending)).1
    have granted := State.grantRead_of_inProgress pending inProgress
    refine ⟨s.grantRead p, ?_, ?_⟩
    · rw [State.arbitrate_of_read idle decided, ← fewer]
      rfl
    · rw [granted]
      exact ⟨rfl, rfl, rfl⟩
  · exact State.arbitrate_of_start idle decided (State.grantOffer_queued offer found passed)
  · exact State.arbitrate_of_start idle decided (State.grantOffer_nextStep offer found passed)
  · exact State.arbitrate_of_end idle decided found (State.grantOffer_queued_failed offer found failed)
  · exact State.arbitrate_of_end idle decided found (State.grantOffer_nextStep_failed offer found failed)

/-! ### Suspension (R149 to R151) -/

/-- R30: a page program and a sector erase can be suspended. -/
theorem State.stepSuspendable_iff (s : State) : s.stepSuspendable = true ↔
    (∃ a n b, s.arrayStep = some (.program a n b)) ∨ ∃ n, s.arrayStep = some (.erase n) := by
  unfold State.stepSuspendable
  cases s.arrayStep with
  | none => simp
  | some step => cases step <;> simp [ArrayStep.suspendable]

/-- The steps that are never suspended, and no step. -/
theorem State.stepSuspendable_false {s : State}
    (h : (∃ c, s.arrayStep = some (.save c)) ∨ (∃ i e, s.arrayStep = some (.fuse i e)) ∨ s.arrayStep = none) :
    s.stepSuspendable = false := by
  unfold State.stepSuspendable
  obtain ⟨_, step⟩ | ⟨_, _, step⟩ | step := h <;> rw [step] <;> rfl

/-- R150: the conditions of a suspend request, but for the step's kind. -/
abbrev State.SuspendDue (s : State) : Prop :=
  s.seq.arrayState = .run ∧ s.arrayOp = .running ∧ s.seq.resumeGap = .elapsed ∧ s.seq.suspendRequest = false ∧
    ∃ p, (s.seq.pendingReads.get p).isSome = true

theorem State.requestSuspend_of_due {s : State} (due : s.SuspendDue)
    (step : (∃ a n b, s.arrayStep = some (.program a n b)) ∨ ∃ n, s.arrayStep = some (.erase n)) :
    s.requestSuspend = { s with arrayOp := .suspending, seq := { s.seq with suspendRequest := true } } := by
  obtain ⟨run, running, elapsed, none, pending⟩ := due
  exact if_pos ⟨run, running, s.stepSuspendable_iff.2 step, elapsed, s.pendingReadCount_pos.2 pending, none⟩

theorem State.requestSuspend_of_not_due {s : State} (h : ¬s.SuspendDue ∨ (∃ c, s.arrayStep = some (.save c)) ∨
    (∃ i e, s.arrayStep = some (.fuse i e)) ∨ s.arrayStep = none) : s.requestSuspend = s := by
  refine if_neg ?_
  rintro ⟨run, running, suspendable, elapsed, pending, none⟩
  obtain undue | step := h
  · exact undue ⟨run, running, elapsed, none, s.pendingReadCount_pos.1 pending⟩
  · exact absurd suspendable (ne_true_of_eq_false (State.stepSuspendable_false step))

/-- The state whose resume gap timer is ELAPSED. -/
def State.gapElapsed (s : State) : State := { s with seq := { s.seq with resumeGap := .elapsed } }

/-- R149: the timer expires, and a suspend request is considered in the same event. -/
theorem exec_resumeGapExpiry {s : State} {left : Nat} (gap : s.seq.resumeGap = .running left) :
    exec .resumeGapExpiry s = .next s.gapElapsed.requestSuspend := by
  refine congrArg Host.Outcome.next ?_
  unfold State.expireResumeGap
  rw [gap]
  rfl

/-- After the expiry, the conditions of R150 are those of the other fields. -/
theorem State.suspendDue_gapElapsed (s : State) : s.gapElapsed.SuspendDue ↔
    s.seq.arrayState = .run ∧ s.arrayOp = .running ∧ s.seq.suspendRequest = false ∧
      ∃ p, (s.seq.pendingReads.get p).isSome = true := by
  unfold State.SuspendDue State.gapElapsed
  simp only [true_and]

/-- R151: the array halts its step, and the sequencer decides. -/
theorem exec_suspensionTaken {s : State} (suspending : s.arrayOp = .suspending) :
    exec .suspensionTaken s = .next s.haltStep.formOffer.arbitrate := congrArg Host.Outcome.next (if_pos suspending)

/-- Settles O28: the expiry is a suspend request considered with the timer ELAPSED, and both clauses of a request are the two
equations of `requestSuspend`. -/
theorem suspensionIsRequestedAndTaken : Obligations.SuspensionIsRequestedAndTaken := by
  refine ⟨fun s left gap => ⟨fun ⟨due, step⟩ => ?_, fun undue => ?_⟩, fun s => ⟨State.requestSuspend_of_due,
    State.requestSuspend_of_not_due⟩, fun s suspending => ⟨_, exec_suspensionTaken suspending⟩⟩
  · rw [exec_resumeGapExpiry gap, State.requestSuspend_of_due (s.suspendDue_gapElapsed.2 due) step]
    rfl
  · rw [exec_resumeGapExpiry gap, State.requestSuspend_of_not_due (undue.imp_left (mt s.suspendDue_gapElapsed.1))]
    rfl

end Sys2Proof.Machine
end

section
/-! PROOF. Reads: the acceptance of a READ (R69, R83 to R85, R141), and the completion of its service (R23, R148, R155). -/

namespace Sys2Proof.Machine

/-! ### Acceptance (R141) -/

/-- R83 to R85: a trap that lets an access pass notes it, but for OFF. -/
theorem trapAction_of_pass {trap : Trap} {watch : Option Port} {p : Port}
    (pass : trap = .off ∨ trap = .note ∨ (trap = .hold ∧ watch = some p)) :
    trapAction trap watch p = if trap = .off then .accept else .note := by
  obtain rfl | rfl | ⟨rfl, rfl⟩ := pass
  · rfl
  · rfl
  · exact if_pos rfl

/-- The record of a READ request that the window `w` lets pass (R141). -/
def Frame.readRecord (f : Frame) (w : Slot) : ReadRecord :=
  { tag := f.tag, address := fieldAt f.body 0 3, length := fieldAt f.body 3 2, slot := w }

/-- The acceptance of a READ up to the sequencer's part: the pending read, the window's idle timer and the notice. -/
def State.readAccepted (s : State) (p : Port) (r : ReadRecord) (x : Window) (note : Bool) : State :=
  ((s.addPending p r).reloadForRead r.slot x).noteTrap note x (.trap r.slot p .read r.address r.length 0)

section
variable {s : State} {p : Port} {f : Frame} {r : ReadRecord} {x : Window} {w : Slot}

theorem State.judgeRead_of_pass (hd : s.decodeRead p (fieldAt f.body 0 3) (fieldAt f.body 3 2) = .ok w)
    (hw : s.window w = some x) (pass : x.fields.settings.readTrap = .off ∨ x.fields.settings.readTrap = .note ∨
      (x.fields.settings.readTrap = .hold ∧ x.fields.settings.watch = some p)) :
    s.judgeRead p f = (s.readAccepted p (f.readRecord w) x (x.fields.settings.readTrap != .off)).considerReads := by
  unfold State.judgeRead
  simp only [hd, hw, trapAction_of_pass pass]
  by_cases off : x.fields.settings.readTrap = .off
  · simp only [off, if_true]
    rfl
  · have noted : (x.fields.settings.readTrap != .off) = true := bne_iff_ne.2 off
    simp only [if_neg off, noted]
    rfl

/-- Of the state with the pending read, the acceptance changes port links and windows. -/
theorem State.readAccepted_shape (s : State) (p : Port) (r : ReadRecord) (x : Window) (note : Bool) :
    ∃ ps ws, s.readAccepted p r x note = { s.addPending p r with ports := ps, windows := ws } := by
  have reloaded : ∃ ws, (s.addPending p r).reloadForRead r.slot x = { s.addPending p r with windows := ws } := by
    unfold State.reloadForRead
    split
    · exact State.syncIdle_shape _ _ _
    · exact ⟨_, rfl⟩
  obtain ⟨ws, reloaded⟩ := reloaded
  obtain ⟨ps, noted⟩ := LinkShape.noteTrap { s.addPending p r with windows := ws } note x
    (.trap r.slot p .read r.address r.length 0)
  unfold State.readAccepted
  rw [reloaded, noted]
  exact ⟨_, _, rfl⟩

theorem State.seq_readAccepted (s : State) (p : Port) (r : ReadRecord) (x : Window) (note : Bool) :
    (s.readAccepted p r x note).seq = { s.seq with pendingReads := s.seq.pendingReads.set p (some r) } := by
  obtain ⟨_, _, accepted⟩ := s.readAccepted_shape p r x note
  rw [accepted]
  rfl

theorem State.window_readAccepted (s : State) (p : Port) (r : ReadRecord) (x : Window) (note : Bool) (v : Slot) :
    (s.readAccepted p r x note).window v = ((s.addPending p r).reloadForRead r.slot x).window v :=
  (LinkShape.noteTrap _ note x _).window_eq v

/-- R69: the idle timer of the window is reloaded where reads count. -/
theorem State.window_readAccepted_same (hw : s.window r.slot = some x) (p : Port) (note : Bool) :
    (s.readAccepted p r x note).window r.slot = some { x with
      idle := if x.fields.settings.idleCountsReads then x.timer (s.liveJobs r.slot) true else x.idle } := by
  have still : (s.addPending p r).window r.slot = some x := hw
  rw [State.window_readAccepted]
  unfold State.reloadForRead
  split
  · unfold State.syncIdle
    rw [still]
    exact State.window_setWindow_same _ _ _
  · exact still

theorem State.window_readAccepted_other {v : Slot} (other : v ≠ r.slot) (s : State) (p : Port) (x : Window) (note : Bool) :
    (s.readAccepted p r x note).window v = s.window v := by
  rw [State.window_readAccepted]
  unfold State.reloadForRead
  split
  · unfold State.syncIdle
    split
    · rfl
    · exact State.window_setWindow_ne _ _ other
  · rfl

/-- R84, R85: the watch port has its notice. -/
theorem State.port_readAccepted (s : State) (p : Port) (r : ReadRecord) (x : Window) (note : Bool) (q : Port) :
    (s.readAccepted p r x note).port q = (s.port q).noted (note = true ∧ x.fields.settings.watch = some q)
      (.trap r.slot p .read r.address r.length 0) := by
  have links : ((s.addPending p r).reloadForRead r.slot x).port q = s.port q := by
    unfold State.reloadForRead
    split
    · obtain ⟨_, synced⟩ := (s.addPending p r).syncIdle_shape r.slot true
      rw [synced]
      rfl
    · rfl
  unfold State.readAccepted
  rw [State.port_noteTrap, links]

end

/-- Settles O21: the row hands the READ to `judgeRead`, which accepts it (`State.readAccepted`), and each part of the
acceptance is read off. -/
theorem readBecomesPending : Obligations.ReadBecomesPending := by
  intro s p f w x asks a n trap held hw reader inside pass
  have decoded := State.decodeRead_of_reader (s := s.judging p) held hw reader inside
  have row := exec_of_asks (c := .read p) asks (owner := fun f t => t.judgeRead p f) rfl
    (State.judgeRead_of_pass (s := s.judging p) decoded hw pass)
  have seq := (s.judging p).seq_readAccepted p (f.readRecord w) x (trap != .off)
  refine ⟨(s.judging p).readAccepted p (f.readRecord w) x (trap != .off), ?_, seq,
    State.window_readAccepted_same (s := s.judging p) (r := f.readRecord w) hw p _,
    fun v other => State.window_readAccepted_other (r := f.readRecord w) other _ _ _ _, fun q => ?_, ?_⟩
  · rw [row, State.considerReads, seq]
    rfl
  · rw [State.port_readAccepted, State.port_judging asks.1]
    exact PortLink.noted_congr (by rw [bne_iff_ne]) _ _
  · obtain ⟨_, _, accepted⟩ := (s.judging p).readAccepted_shape p (f.readRecord w) x (trap != .off)
    rw [accepted]
    rfl

/-! ### The completion of the service (R148) -/

theorem State.readTorn_iff (s : State) (a n : Nat) : s.readTorn a n = true ↔
    ∃ e ∈ s.torn, a < (e.sector + 1) * 4096 ∧ e.sector * 4096 < a + n := by
  simp only [State.readTorn, List.any_eq_true, touchesSector_iff]

theorem State.completeRead_of_withdrawn {s : State} {r : ReadService} (service : s.seq.inService = some r)
    (withdrawn : r.withdrawn = true) : s.completeRead = s.endService.arbitrate := by
  unfold State.completeRead
  simp only [service, withdrawn, if_true]

theorem State.completeRead_of_answered {s : State} {r : ReadService} (service : s.seq.inService = some r)
    (answered : r.withdrawn = false) : s.completeRead =
      (s.endService.answer r.port r.record.frame .ok
        (flagByte (s.readTorn r.record.address r.record.length) ::
          Memory.readRange s.mem r.record.address r.record.length)).arbitrate := by
  unfold State.completeRead
  simp only [service, answered, Bool.false_eq_true, if_false]
  rfl

/-- Settles O23: the answer carries `readFields`, whose data are those of `Memory.readRange`. -/
theorem readServiceCompletesWithTheStoredValues : Obligations.ReadServiceCompletesWithTheStoredValues := by
  intro s r service
  refine ⟨fun withdrawn => congrArg Host.Outcome.next (State.completeRead_of_withdrawn service withdrawn), fun answered =>
    ⟨_, _, _, congrArg Host.Outcome.next (State.completeRead_of_answered service answered), rfl,
      Memory.readRange_length _ _ _, fun i inside => Memory.readRange_getD _ _ _ i inside, ?_, rfl, rfl⟩⟩
  exact if_congr (s.readTorn_iff _ _) rfl rfl

end Sys2Proof.Machine
end

section
/-! PROOF. FREEZE-WINDOW: its checks in their order, and the job and the reservation of a range that is accepted (R70, R120,
R158, R160, R161). -/

namespace Sys2Proof.Machine

section
variable {s : State} {p : Port} {f : Frame} {x : Window} {r : Range}

/-! ### The checks (R160) -/

theorem State.freeze_of_empty (admin : s.adminCheck p = none) (empty : s.window (slotAt f.body 0) = none) :
    s.freeze p f = s.answer p f .noWindow [] := by
  unfold State.freeze
  simp only [admin, empty]

theorem State.freeze_of_some {e : Result} (admin : s.adminCheck p = none) (hw : s.window (slotAt f.body 0) = some x)
    (failed : s.freezeCheck x.fields.range = some e) : s.freeze p f = s.answer p f e [] := by
  unfold State.freeze
  simp only [admin, hw, failed]

theorem State.freezeCheck_of_frozen (frozen : s.alreadyFrozen r = true) : s.freezeCheck r = some .alreadyFrozen :=
  if_pos frozen

theorem State.freezeCheck_of_torn (free : s.alreadyFrozen r = false) (torn : s.rangeTorn r = true) :
    s.freezeCheck r = some .torn :=
  (if_neg (ne_true_of_eq_false free)).trans (if_pos torn)

/-- For a range neither frozen nor torn, the fuse list's places and then the job list's decide. -/
theorem State.freezeCheck_of_sound (free : s.alreadyFrozen r = false) (sound : s.rangeTorn r = false) : s.freezeCheck r =
    if 8 ≤ s.fuseCount + s.reservations.length then some .fuseFull
    else if 16 ≤ s.jobs.length then some .queueFull else none :=
  (if_neg (ne_true_of_eq_false free)).trans (if_neg (ne_true_of_eq_false sound))

/-! ### The acceptance (R161) -/

/-- The state in which the job and the reservation of its range have joined their lists, before the window's idle timer. -/
def State.reserve (s : State) (p : Port) (w : Slot) (r : Range) : State :=
  { s.addJob p (.freezeWindow w r) with reservations := s.reservations ++ [{ job := s.newJobId, range := r }] }

/-- The acceptance of FREEZE-WINDOW up to the decision of the sequencer. -/
def State.freezeAccepted (s : State) (p : Port) (f : Frame) (r : Range) : State :=
  ((s.acceptFreeze p (slotAt f.body 0) r).answer p f .accepted [s.newJobId]).formOffer

theorem State.freeze_of_none (admin : s.adminCheck p = none) (hw : s.window (slotAt f.body 0) = some x)
    (passed : s.freezeCheck x.fields.range = none) : s.freeze p f = (s.freezeAccepted p f x.fields.range).arbitrate := by
  unfold State.freeze
  simp only [admin, hw, passed]
  rfl

theorem State.acceptFreeze_eq (s : State) (p : Port) (w : Slot) (r : Range) :
    s.acceptFreeze p w r = (s.reserve p w r).syncIdle w true := rfl

/-- Of the state with job and reservation, the acceptance changes windows. -/
theorem State.acceptFreeze_shape (s : State) (p : Port) (w : Slot) (r : Range) :
    ∃ ws, s.acceptFreeze p w r = { s.reserve p w r with windows := ws } :=
  (s.reserve p w r).syncIdle_shape w true

theorem State.liveJobs_reserve_pos (s : State) (p : Port) (w : Slot) (r : Range) : 0 < (s.reserve p w r).liveJobs w :=
  (State.liveJobs_pos_iff _ w).2 ⟨Job.fresh s.newJobId p (.freezeWindow w r), List.mem_concat_self, rfl⟩

/-- R70: with the new job live, the idle timer is HELD where the latch is OPEN and the window has an idle period. -/
theorem State.window_acceptFreeze_same {w : Slot} (hw : s.window w = some x) (p : Port) (r : Range) :
    (s.acceptFreeze p w r).window w = some { x with
      idle := if x.latchOpen = false ∨ x.fields.settings.idlePeriod = 0 then .stopped else .held } := by
  have still : (s.reserve p w r).window w = some x := hw
  rw [State.acceptFreeze_eq, State.syncIdle, still]
  refine (State.window_setWindow_same _ _ _).trans ?_
  rw [Window.timer_reload, if_pos (s.liveJobs_reserve_pos p w r)]

theorem State.window_acceptFreeze_other {w v : Slot} (other : v ≠ w) (s : State) (p : Port) (r : Range) :
    (s.acceptFreeze p w r).window v = s.window v := by
  rw [State.acceptFreeze_eq, State.syncIdle]
  split
  · rfl
  · exact State.window_setWindow_ne _ _ other

/-- Besides the job and the reservation, the acceptance changes port links, windows and the offer. -/
theorem State.freezeAccepted_shape (s : State) (p : Port) (f : Frame) (r : Range) : ∃ ps ws o,
    s.freezeAccepted p f r = { s.reserve p (slotAt f.body 0) r with ports := ps, windows := ws, offer := o } := by
  obtain ⟨_, accepted⟩ := s.acceptFreeze_shape p (slotAt f.body 0) r
  rw [State.freezeAccepted, accepted]
  exact ⟨_, _, _, rfl⟩

/-- R123: the offer is the one that the job list with the new job calls for. -/
theorem State.offer_freezeAccepted (s : State) (p : Port) (f : Frame) (r : Range) :
    (s.freezeAccepted p f r).offer = (s.addJob p (.freezeWindow (slotAt f.body 0) r)).offerNow := by
  have lawful : (s.freezeAccepted p f r).OfferLawful := State.formOffer_lawful _
  obtain ⟨_, _, _, accepted⟩ := s.freezeAccepted_shape p f r
  exact lawful.trans (State.offerNow_congr (by rw [accepted]; rfl) (by rw [accepted]; rfl))

end

/-- Settles O37: FREEZE-WINDOW by its first failing check, or as a job with a reservation (`State.freezeAccepted`), each part of
which is read off. -/
theorem freezeWindowReservesItsRange : Obligations.FreezeWindowReservesItsRange := by
  intro s p f asks isAdmin
  have admin : (s.judging p).adminCheck p = none := State.adminCheck_none isAdmin
  refine ⟨fun empty => State.reports asks rfl (State.freeze_of_empty (s := s.judging p) admin empty) rfl, fun x hw => ?_⟩
  have refused : ∀ e, (s.judging p).freezeCheck x.fields.range = some e →
      ∃ t, exec (.freezeWindow p) s = .next t ∧ OnlyAnswers s t p f e [] := fun e failed =>
    State.reports asks rfl (State.freeze_of_some (s := s.judging p) admin hw failed) rfl
  have sound := State.freezeCheck_of_sound (s := s.judging p) (r := x.fields.range)
  refine ⟨fun frozen => refused _ (State.freezeCheck_of_frozen frozen),
    fun free torn => refused _ (State.freezeCheck_of_torn free torn),
    fun free whole full => refused _ ((sound free whole).trans (if_pos full)), fun free whole places full => ?_,
    fun free whole places room => ?_⟩
  · exact refused _ ((sound free whole).trans ((if_neg (Nat.not_le.2 places)).trans (if_pos full)))
  · have passed := (sound free whole).trans ((if_neg (Nat.not_le.2 places)).trans (if_neg (Nat.not_le.2 room)))
    have row := exec_of_asks (c := .freezeWindow p) asks rfl (State.freeze_of_none admin hw passed)
    have offer := (s.judging p).offer_freezeAccepted p f x.fields.range
    obtain ⟨_, reserved⟩ := (s.judging p).acceptFreeze_shape p (slotAt f.body 0) x.fields.range
    obtain ⟨_, _, _, accepted⟩ := (s.judging p).freezeAccepted_shape p f x.fields.range
    refine ⟨(s.judging p).freezeAccepted p f x.fields.range, s.newJobId, row, State.newJobId_firstFree (by omega), ?_, ?_, ?_,
      State.window_acceptFreeze_same (s := s.judging p) hw p _,
      fun v other => State.window_acceptFreeze_other other (s.judging p) p _,
      State.linksAnswer_of_ports asks.1 (by rw [reserved]; rfl) _ _,
      fun empty => offer.trans (State.offerNow_addJob_of_empty (s := s.judging p) empty p _),
      fun jobs lawful => (offer.trans (State.offerNow_addJob_of_jobs (s := s.judging p) jobs p _)).trans lawful.symm, ?_⟩
    all_goals
      rw [accepted]
      rfl

end Sys2Proof.Machine
end

section
/-! PROOF. Start-up after a device reset: the state after reset, the release of RESETN (R175), RECOVER (R177), LOAD (R179 to
R181) and READY (R182). -/

namespace Sys2Proof.Machine

/-! ### The state after reset -/

@[simp] theorem State.port_reset (p : Port) : State.reset.port p = .reset := by cases p <;> rfl

@[simp] theorem State.window_reset (w : Slot) : State.reset.window w = none := vectorGet_replicate _ _

@[simp] theorem State.buffer_reset (b : BufferNo) : State.reset.buffer b = .reset := vectorGet_replicate _ _

theorem State.Closed.reset : State.reset.Closed := by
  refine ⟨fun p => ?_, rfl, rfl, rfl, rfl, rfl, rfl, rfl, fun b => ?_, fun w x defined => ?_⟩
  · rw [State.port_reset]
    exact ⟨rfl, rfl, rfl, rfl, rfl, rfl⟩
  · rw [State.buffer_reset]
    rfl
  · rw [State.window_reset] at defined
    cases defined

/-- Settles O60: in the state after reset every port link is reset, every slot EMPTY, every buffer FREE and the job list
empty. -/
theorem resetMeetsEveryLaw : Obligations.ResetMeetsEveryLaw := by
  have idle : ∀ p, (State.reset.port p).sending = false := fun p => by rw [State.port_reset]; rfl
  refine ⟨fun w x defined => ?_, fun p => ?_, fun p sends => ?_, fun p sends => ?_, ⟨rfl, fun b => ?_⟩, fun p => ?_,
    Nat.zero_le _, List.nodup_nil, ⟨rfl, fun _ => ⟨rfl, rfl, rfl⟩⟩, (State.startupClosed_iff _).2 fun _ => .reset⟩
  · rw [State.window_reset] at defined
    cases defined
  · rw [State.port_reset]
    exact PortLink.reset_lawful
  · exact absurd sends (ne_true_of_eq_false (idle p))
  · exact absurd sends (ne_true_of_eq_false (idle p))
  · rw [State.buffer_reset]
    rfl
  · simp [State.buffersOwned, Buffer.reset, BufferState.owner?]

/-! ### RESET_RELEASE -/

/-- Settles O7: the release with RESETN low, strap by strap of Tables 1.6 and 1.7, and with RESETN high. -/
theorem releaseOfResetSamplesTheStraps : Obligations.ReleaseOfResetSamplesTheStraps := by
  intro s admsel ratesel
  refine ⟨fun low => ?_, fun high => congrArg Host.Outcome.next (if_neg (ne_true_of_eq_false high))⟩
  refine ⟨{ s with resetHeld := false, adminPort := Port.ofStraps admsel, linkRate := LinkRate.ofStraps ratesel },
    congrArg Host.Outcome.next (if_pos low), rfl, ?_, ?_, ?_, ?_, ?_, ?_, ?_, ?_, rfl⟩
  all_goals
    rintro rfl
    rfl

/-! ### RECOVER -/

section
variable {s : State} (begun : s.phase = .recover) (released : s.resetHeld = false)
include begun released

theorem State.recover_of_none (clear : s.marker = none) : s.recover = { s with recovery := .none, phase := .load } := by
  unfold State.recover
  rw [if_pos ⟨begun, released⟩, clear]

theorem State.recover_of_some {m : Marker} (found : s.marker = some m) :
    s.recover = { s.recoverAction m with marker := none, recovery := m.recovery, phase := .load } := by
  unfold State.recover
  rw [if_pos ⟨begun, released⟩, found]

end

/-- Settles O8: RECOVER by the kind of the marker, whose action on the system area is `State.recoverAction`. -/
theorem recoverActsOnTheMarker : Obligations.RecoverActsOnTheMarker := by
  intro s begun released
  have action {m : Marker} (found : s.marker = some m) : exec .recover s = .next
      { s.recoverAction m with marker := none, recovery := m.recovery, phase := .load } :=
    congrArg Host.Outcome.next (State.recover_of_some begun released found)
  refine ⟨fun clear => congrArg Host.Outcome.next (State.recover_of_none begun released clear), fun n => action, fun n => action,
    action, fun i e found => ⟨_, action found, ?_, fun j other => ?_, rfl, rfl, rfl, rfl⟩⟩
  · exact (s.fuses_programFuse i i e).trans (if_pos rfl)
  · exact (s.fuses_programFuse i j e).trans (if_neg other.symm)

/-! ### LOAD -/

/-- R180: a slot of the image, loaded. -/
theorem State.loadTable_of_valid {s : State} (valid : s.imageState = .valid) : s.loadTable =
    { s with windows := s.image.slots.map (fun x => x.map Window.loaded), header := s.image.header, tableState := .saved } := by
  unfold State.loadTable
  rw [valid]

theorem State.loadTable_of_invalid {s : State} (invalid : s.imageState = .invalid) :
    s.loadTable = { s with windows := Vector.replicate 16 none, header := Header.empty, tableState := .lost } := by
  unfold State.loadTable
  rw [invalid]

theorem State.loadTable_of_none {s : State} (absent : s.imageState = .none) :
    s.loadTable = { s with windows := Vector.replicate 16 none, header := Header.empty, tableState := .blank } := by
  unfold State.loadTable
  rw [absent]

/-- R181: each input takes the state of its level under the header's setting. -/
theorem State.guardPin_sampleGuards (s : State) (g : GuardInput) : s.sampleGuards.guardPin g =
    { high := (s.guardPin g).high
      input := if (s.header.guard g).activeHigh = (s.guardPin g).high then .active else .inactive } := by
  have pin : s.sampleGuards.guardPin g =
      { s.guardPin g with input := .ofAsserted (assertedLevel (s.header.guard g) (s.guardPin g).high) } := by
    cases g <;> rfl
  rw [pin, assertedLevel_eq]
  simp only [InputState.ofAsserted, beq_iff_eq]

/-- Settles O9: the table by the image state (`State.loadTable`), of which the sampling of the guard pins sees the header. -/
theorem loadSetsTheTableAndTheGuards : Obligations.LoadSetsTheTableAndTheGuards := by
  intro s loading unsampled
  obtain ⟨ws, h, ts, shape⟩ := s.loadTable_shape
  refine ⟨s.loadTable.sampleGuards, congrArg Host.Outcome.next (if_pos ⟨loading, unsampled⟩), fun valid => ?_, fun invalid => ?_,
    fun absent => ?_, fun g => ?_, rfl, ?_⟩
  · rw [State.loadTable_of_valid valid]
    exact ⟨fun w => vectorGet_map _ _ _, rfl, rfl⟩
  · rw [State.loadTable_of_invalid invalid]
    exact ⟨fun w => vectorGet_replicate _ _, rfl, rfl⟩
  · rw [State.loadTable_of_none absent]
    exact ⟨fun w => vectorGet_replicate _ _, rfl, rfl⟩
  · rw [State.guardPin_sampleGuards, shape]
    rfl
  · rw [shape]
    rfl

/-! ### READY -/

/-- A notice changes neither readiness nor the frames of a link. -/
theorem PortLink.post_frames (l : PortLink) (n : Notice) :
    (l.post n).ready = l.ready ∧ (l.post n).inbound = l.inbound ∧ (l.post n).output = l.output := by
  unfold PortLink.post
  split <;> exact ⟨rfl, rfl, rfl⟩

section
variable {s : State} (loading : s.phase = .load) (sampled : s.guardsFollow = true)
include loading sampled

theorem State.becomeReady_of_sampled : s.becomeReady =
    State.postEach { s with phase := .ready, ports := s.ports.map (fun l => { l with ready := true }) } Port.all
      s.startedNotice :=
  if_pos ⟨loading, sampled⟩

/-- R182: each link becomes READY and is posted STARTED. -/
theorem State.port_becomeReady (p : Port) :
    s.becomeReady.port p = ({ s.port p with ready := true } : PortLink).post s.startedNotice := by
  rw [State.becomeReady_of_sampled loading sampled, State.port_postEach _ (by decide)]
  refine (if_pos (mem_portAll p)).trans ?_
  exact congrArg (·.post s.startedNotice) (PerPort.get_map _ s.ports p)

/-- READY writes the port links and the phase only. -/
theorem State.becomeReady_shape : ∃ ps, s.becomeReady = { s with phase := .ready, ports := ps } := by
  rw [State.becomeReady_of_sampled loading sampled]
  obtain ⟨ps, posted⟩ := LinkShape.postEach
    { s with phase := .ready, ports := s.ports.map (fun l => { l with ready := true }) } Port.all s.startedNotice
  exact ⟨ps, posted⟩

end

/-- Settles O10: each link is posted STARTED (`State.port_becomeReady`), for which an empty notice queue has room. -/
theorem readyPostsStartedToEveryPort : Obligations.ReadyPostsStartedToEveryPort := by
  intro s loading sampled
  have link := State.port_becomeReady loading sampled
  obtain ⟨ps, shape⟩ := State.becomeReady_shape loading sampled
  refine ⟨s.becomeReady, rfl, ?_, fun p empty _ => ?_, fun p => ?_, ?_⟩
  · rw [shape]
  · have room : ({ s.port p with ready := true } : PortLink).notices.length < 16 := by simp [empty]
    rw [link, PortLink.post_of_room room]
    simp only [empty, List.nil_append]
    rfl
  · rw [link]
    exact PortLink.post_frames _ _
  · rw [shape]

end Sys2Proof.Machine
end

section
/-! PROOF. The command that a step runs (log 19). -/

namespace Sys2Proof.Machine

/-- On a queue that is not empty no time passes: the step is the effect of the command at its front, which the command's own
execution no longer finds in the queue. -/
theorem step_of_pending {s : State} {c : Instr} {rest : List Instr} (waiting : s.pending = c :: rest) :
    step s = exec c { s with pending := rest } := by
  unfold step
  rw [waiting]

/-- Settles O1: the step of a state with a command waiting (`step_of_pending`), in which the rest of the queue replaces the
queue that was put in. -/
theorem stepRunsTheFrontCommand : Obligations.StepRunsTheFrontCommand := by
  intro c rest s
  have waiting : ({ s with pending := c :: rest } : State).pending = c :: rest := rfl
  exact step_of_pending waiting

end Sys2Proof.Machine
end
